-- ==== Sys2Proof/Word.lean ====
section
/-! DEFINITION. The word types of PROD-I2CM: every quantity is unsigned, bit 0 is the least
significant bit (00_scope.md R7). -/

namespace Sys2Proof

/-- An 8-bit value: a byte, an address, a register number, a client, a vector, a code. -/
abbrev Byte := BitVec 8

/-- A 3-bit interface value: control bits, interrupt bits (30_encoding.md R94). -/
abbrev Bits3 := BitVec 3

/-- A 32-bit value: a clock reading, an elapsed time, a diagnostic (R130, R202). -/
abbrev Word32 := BitVec 32

end Sys2Proof
end

