-- ==== Sys2Proof/Config.lean ====
section
/-! DEFINITION. The implementation parameters (00_scope.md R6), held by State and never changed by
a step, and the free values: constants with no body, so that nothing in Lean can tell their value. -/

namespace Sys2Proof

/-- When a successful finalize clears `started` (`P_CLEAR_STARTED`, R6, R27). -/
inductive ClearStarted where
  | onStop
  | always
  deriving DecidableEq, Repr

/-- The parameters of R6. `ADDR_BITS` = 8 and `CLOCK_BITS` = 32 have a single value there: they are
the widths of the types. DESIGN CHOICE (log entry 1): they are fields of State, so that claims
quantify over them. -/
structure Params where
  /-- `TIMEOUT_BUDGET`, in clock units. -/
  timeoutBudget : Word32
  /-- `LEN_BITS`, the width of length, position, remaining and of the `n` operands. -/
  lenBits : Nat
  /-- `P_CLEAR_STARTED`. -/
  clearStarted : ClearStarted
  /-- `P_ESCALATE_RELEASE`: fault escalation releases the peripheral from reset. -/
  escalateRelease : Bool
  /-- `SINK_NULL`: the fault sink is a no-op. -/
  sinkNull : Bool
  /-- `CLOCK_NULL`: the clock answers 0 for ever. -/
  clockNull : Bool
  /-- `N_CLIENTS`: no rule reads it (log entry 19). -/
  nClients : Nat
  deriving DecidableEq, Repr

/-- The ranges of R6. -/
abbrev Params.wf (p : Params) : Prop :=
  p.timeoutBudget ≠ 0 ∧ 1 ≤ p.lenBits ∧ p.lenBits ≤ 16 ∧ 1 ≤ p.nClients ∧ p.nClients ≤ 256

/-- The values R6 takes; for `SINK_NULL`, "either", DESIGN CHOICE false (log entry 1). -/
def Params.default : Params where
  timeoutBudget := 400
  lenBits := 8
  clearStarted := .onStop
  escalateRelease := false
  sinkNull := false
  clockNull := false
  nClients := 256

/-! Free values of the environment (log entry 2): the k-th answer to a query when no scripted
answer stands for it. 93_implementation_defined.md section 3: "any value" of the stated width. -/

/-- The k-th unscripted answer of `now()` (R214). -/
opaque Config.freeNow : Nat → Word32
/-- The k-th unscripted answer of `P.Busy()` (R32). -/
opaque Config.freeBusy : Nat → Bool
/-- The k-th unscripted answer of `P.Ctl()` (R32). -/
opaque Config.freeCtl : Nat → Bits3
/-- The k-th unscripted answer of `P.Flags()` (R32). -/
opaque Config.freeFlags : Nat → Bits3
/-- The k-th unscripted answer of `P.RdRx()` (R32). -/
opaque Config.freeRdRx : Nat → Byte
/-- The k-th unscripted answer of `current_client_id()` (R216). -/
opaque Config.freeClient : Nat → Byte

/-! Free values of what `INIT` leaves without a value (R40; log entry 10). -/

/-- `ctx.length` after the k-th `INIT` (cut to LEN_BITS bits where it is used, as the next two). -/
opaque Config.freeLength : Nat → Nat
/-- `ctx.position` after the k-th `INIT`. -/
opaque Config.freePosition : Nat → Nat
/-- `ctx.remaining` after the k-th `INIT`. -/
opaque Config.freeRemaining : Nat → Nat
/-- `ctx.flags` after the k-th `INIT`. -/
opaque Config.freeXferFlags : Nat → Byte
/-- `ctx.address` after the k-th `INIT`. -/
opaque Config.freeAddress : Nat → Byte
/-- `ADDR` after the k-th `INIT`. -/
opaque Config.freeAddrReg : Nat → Byte
/-- `TXBUF` after the k-th `INIT`. -/
opaque Config.freeTxBuf : Nat → Byte

end Sys2Proof
end

