-- ==== Sys2Proof/Syntax.lean ====
section
/-! DEFINITION. The operations of PROD-I2CM as terms: one constructor of `Instr` for every mnemonic
of spec/opcode_table.json (format D, V and I), and the form in which they are presented
(30_encoding.md R80, R88, R89, R90). -/

namespace Sys2Proof

/-- A buffer operand (R88): `null`, or a caller region of `cap` bytes (20_memory.md R60).
DESIGN CHOICE (log entry 7): a region is named by the address of its byte 0 in the caller's
memory, so that two regions may overlap. -/
inductive BufRef where
  | null
  | region (base cap : Nat)
  deriving DecidableEq, Repr

/-- The conditions of `WAIT_CLEARS` (R96): `C_BUSY`, `C_START`, `C_STOP`. -/
inductive Cond where
  | busy
  | start
  | stop
  deriving DecidableEq, Repr

/-- The masks of `WAIT_FLAG` (R132): `IF_TX`, `IF_RX`. -/
inductive DataFlag where
  | tx
  | rx
  deriving DecidableEq, Repr

/-- The fault locations (R92). -/
inductive Loc where
  | guardClearTimeout
  | guardFlagTimeout
  | guardFlagNak
  | isrNak
  | isrUnexpectedVector
  | isrInconsistent
  deriving DecidableEq, Repr

/-- Every operation of the opcode table. The six `VEC_OTHER` rows are the binary split of one row of
R89 (0x04 to 0xFF) and have one constructor (log entry 22). -/
inductive Instr where
  | read (client flags addr : Byte) (len : BitVec 16) (buf : BufRef)
  | write (client flags addr : Byte) (len : BitVec 16) (buf : BufRef)
  | present (addr : Byte)
  | read8 (addr reg : Byte)
  | read16 (addr reg : Byte)
  | readblock (addr reg : Byte) (n : BitVec 16) (buf : BufRef)
  | write8 (addr reg v : Byte)
  | write16 (addr reg : Byte) (v : BitVec 16)
  | writeblock (addr reg : Byte) (n : BitVec 16) (buf : BufRef)
  | vecNone
  | vecNak
  | vecRxrdy
  | vecTxrdy
  | vecOther (vec : Byte)
  | waitClears (c : Cond)
  | waitFlag (m : DataFlag)
  | checkNotBusy
  | escalate (loc : Loc) (d1 d2 d3 : Word32)
  | regPrefix (addr reg : Byte)
  | init
  deriving DecidableEq, Repr

/-- The operands of an internal primitive. R90 gives them no bits, so they travel beside the code as
`buf` does beside a descriptor: DESIGN CHOICE (log entry 12). -/
inductive PrimArgs where
  | none
  | cond (c : Cond)
  | mask (m : DataFlag)
  | fault (loc : Loc) (d1 d2 d3 : Word32)
  | target (addr reg : Byte)
  deriving DecidableEq, Repr

/-- What is presented to the block: a descriptor with its optional out-of-band buffer operand
(format D, R80, R88), an interrupt vector (format V, R89), an internal primitive (format I, R90). -/
inductive Packet where
  | desc (word : BitVec 64) (buf : Option BufRef)
  | vec (v : Byte)
  | prim (code : Byte) (args : PrimArgs)
  deriving DecidableEq, Repr

/-- The format D operations: those the Caller issues (R81). -/
def Instr.isCaller : Instr → Bool
  | .read .. | .write .. | .present .. | .read8 .. | .read16 .. | .readblock .. => true
  | .write8 .. | .write16 .. | .writeblock .. => true
  | .vecNone | .vecNak | .vecRxrdy | .vecTxrdy | .vecOther .. => false
  | .waitClears .. | .waitFlag .. | .checkNotBusy | .escalate .. | .regPrefix .. | .init => false

/-- The format V operations: handler entries (R89). -/
def Instr.isEntry : Instr → Bool
  | .vecNone | .vecNak | .vecRxrdy | .vecTxrdy | .vecOther .. => true
  | .read .. | .write .. | .present .. | .read8 .. | .read16 .. | .readblock .. => false
  | .write8 .. | .write16 .. | .writeblock .. => false
  | .waitClears .. | .waitFlag .. | .checkNotBusy | .escalate .. | .regPrefix .. | .init => false

end Sys2Proof
end

