-- ==== Sys2Proof/WellFormed.lean ====
section
/-! DEFINITION. Which operation terms a presentation can give: the operand ranges of 30_encoding.md
R82, R83, R85 and R89, for a given LEN_BITS. -/

namespace Sys2Proof

/-- Bits [7:3] of a transfer-flags byte are reserved and 0 (R83). -/
abbrev flagsLegal (flags : Byte) : Prop := flags &&& 0xF8 = 0

/-- A count operand is below 2^LEN_BITS (R82, R85). -/
abbrev countLegal (lenBits : Nat) (n : BitVec 16) : Prop := n.toNat < 2 ^ lenBits

/-- `VEC_OTHER` is 0x04 to 0xFF (R89). -/
abbrev otherVectorLegal (vec : Byte) : Prop := 4 ≤ vec.toNat

/-- The operation is one that some presentation decodes to. -/
def Instr.wf (lenBits : Nat) : Instr → Bool
  | .read _ flags _ len _ => decide (flagsLegal flags ∧ countLegal lenBits len)
  | .write _ flags _ len _ => decide (flagsLegal flags ∧ countLegal lenBits len)
  | .readblock _ _ n _ => decide (countLegal lenBits n)
  | .writeblock _ _ n _ => decide (countLegal lenBits n)
  | .vecOther vec => decide (otherVectorLegal vec)
  | .present .. | .read8 .. | .read16 .. | .write8 .. | .write16 .. => true
  | .vecNone | .vecNak | .vecRxrdy | .vecTxrdy => true
  | .waitClears .. | .waitFlag .. | .checkNotBusy | .escalate .. | .regPrefix .. | .init => true

end Sys2Proof
end

