-- ==== Sys2Proof/Decode.lean ====
section
/-! DEFINITION. The decoder, total on every presentation, refusing by name (30_encoding.md R80 to
R90), and after it the encoder, written from the same tables. -/

namespace Sys2Proof

/-- The refusals of R84. -/
inductive Reject where
  /-- `RefuseOpcode`: a reserved `op` (or a reserved internal code, R90). -/
  | opcode
  /-- `RefuseField`: a nonzero field that R82 marks 0. -/
  | field
  /-- `RefuseFlags`: a nonzero `flags` bit in [7:3]. -/
  | flags
  /-- `RefuseLength`: `arg` out of range for LEN_BITS. -/
  | length
  /-- `RefuseOperand`: `buf` given where R82 says absent, or missing where it says required. -/
  | operand
  deriving DecidableEq, Repr

/-- The fields of a descriptor (R80) and its buffer operand. -/
structure Fields where
  op : Byte
  client : Byte
  flags : Byte
  addr : Byte
  reg : Byte
  rsv : Byte
  arg : BitVec 16
  deriving DecidableEq, Repr

/-- The bit ranges of R80. -/
def fieldsOf (w : BitVec 64) : Fields where
  op := w.extractLsb' 56 8
  client := w.extractLsb' 48 8
  flags := w.extractLsb' 40 8
  addr := w.extractLsb' 32 8
  reg := w.extractLsb' 24 8
  rsv := w.extractLsb' 16 8
  arg := w.extractLsb' 0 16

/-- How an operation uses `arg` (the `arg` column of R82). -/
inductive ArgUse where
  | zero
  | count
  | byte
  | half
  deriving DecidableEq, Repr

/-- One row of R82: which fields an operation uses; a field it does not use is 0, a `buf` operand it
does not use is absent. -/
structure FieldUse where
  client : Bool
  flags : Bool
  reg : Bool
  arg : ArgUse
  buf : Bool
  deriving DecidableEq, Repr

/-- The table of R81 and R82: operation code, field use, and the operation the fields make. -/
def opRow (op : Byte) : Option (FieldUse × (Fields → BufRef → Instr)) :=
  match op.toNat with
  | 0x01 => some (⟨true, true, false, .count, true⟩,
      fun f b => .read f.client f.flags f.addr f.arg b)
  | 0x02 => some (⟨true, true, false, .count, true⟩,
      fun f b => .write f.client f.flags f.addr f.arg b)
  | 0x10 => some (⟨false, false, false, .zero, false⟩, fun f _ => .present f.addr)
  | 0x11 => some (⟨false, false, true, .zero, false⟩, fun f _ => .read8 f.addr f.reg)
  | 0x12 => some (⟨false, false, true, .zero, false⟩, fun f _ => .read16 f.addr f.reg)
  | 0x13 => some (⟨false, false, true, .count, true⟩,
      fun f b => .readblock f.addr f.reg f.arg b)
  | 0x14 => some (⟨false, false, true, .byte, false⟩,
      fun f _ => .write8 f.addr f.reg (f.arg.setWidth 8))
  | 0x15 => some (⟨false, false, true, .half, false⟩,
      fun f _ => .write16 f.addr f.reg f.arg)
  | 0x16 => some (⟨false, false, true, .count, true⟩,
      fun f b => .writeblock f.addr f.reg f.arg b)
  | _ => none

/-- A field that R82 marks 0 is nonzero. -/
def FieldUse.badField (u : FieldUse) (f : Fields) : Bool :=
  (!u.client && f.client != 0) || (!u.flags && f.flags != 0) || (!u.reg && f.reg != 0) ||
    f.rsv != 0 || (u.arg == .zero && f.arg != 0) || (u.arg == .byte && f.arg >>> 8 != 0)

/-- A reserved flag bit is set (R83). -/
def FieldUse.badFlags (u : FieldUse) (f : Fields) : Bool :=
  u.flags && f.flags &&& 0xF8 != 0

/-- A count is out of range (R85). -/
def FieldUse.badLength (u : FieldUse) (lenBits : Nat) (f : Fields) : Bool :=
  u.arg == .count && !decide (countLegal lenBits f.arg)

/-- Decode a descriptor. The order of the tests, where a descriptor has several defects, is
DESIGN CHOICE (log entry 11). -/
def decodeDesc (lenBits : Nat) (w : BitVec 64) (buf : Option BufRef) : Except Reject Instr :=
  match opRow (fieldsOf w).op with
  | none => .error .opcode
  | some (u, make) =>
    if u.badField (fieldsOf w) then .error .field
    else if u.badFlags (fieldsOf w) then .error .flags
    else if u.badLength lenBits (fieldsOf w) then .error .length
    else if buf.isSome != u.buf then .error .operand
    else .ok (make (fieldsOf w) (buf.getD .null))

/-- Every vector decodes (R89). -/
def decodeVector (v : Byte) : Instr :=
  match v.toNat with
  | 0 => .vecNone
  | 1 => .vecNak
  | 2 => .vecRxrdy
  | 3 => .vecTxrdy
  | _ => .vecOther v

/-- Decode an internal primitive (R90): its code, and the operands that code takes. -/
def decodePrim (code : Byte) (args : PrimArgs) : Except Reject Instr :=
  match code.toNat, args with
  | 0x40, .cond c => .ok (.waitClears c)
  | 0x41, .mask m => .ok (.waitFlag m)
  | 0x42, .none => .ok .checkNotBusy
  | 0x43, .fault loc d1 d2 d3 => .ok (.escalate loc d1 d2 d3)
  | 0x44, .target a r => .ok (.regPrefix a r)
  | 0x45, .none => .ok .init
  | c, _ => if 0x40 ≤ c ∧ c ≤ 0x45 then .error .operand else .error .opcode

/-- The decoder: total on every presentation (R84, R89, R90). -/
def decode (lenBits : Nat) : Packet → Except Reject Instr
  | .desc w buf => decodeDesc lenBits w buf
  | .vec v => .ok (decodeVector v)
  | .prim code args => decodePrim code args

/-! The encoder. -/

/-- A descriptor word from its fields at the bit positions of R80, `rsv` = 0. -/
def mkDesc (op client flags addr reg : Byte) (arg : BitVec 16) : BitVec 64 :=
  op.setWidth 64 <<< 56 ||| client.setWidth 64 <<< 48 ||| flags.setWidth 64 <<< 40 |||
    addr.setWidth 64 <<< 32 ||| reg.setWidth 64 <<< 24 ||| arg.setWidth 64

/-- The presentation of an operation (R80 to R90). -/
def encode : Instr → Packet
  | .read c f a n b => .desc (mkDesc 0x01 c f a 0 n) (some b)
  | .write c f a n b => .desc (mkDesc 0x02 c f a 0 n) (some b)
  | .present a => .desc (mkDesc 0x10 0 0 a 0 0) none
  | .read8 a r => .desc (mkDesc 0x11 0 0 a r 0) none
  | .read16 a r => .desc (mkDesc 0x12 0 0 a r 0) none
  | .readblock a r n b => .desc (mkDesc 0x13 0 0 a r n) (some b)
  | .write8 a r v => .desc (mkDesc 0x14 0 0 a r (v.setWidth 16)) none
  | .write16 a r v => .desc (mkDesc 0x15 0 0 a r v) none
  | .writeblock a r n b => .desc (mkDesc 0x16 0 0 a r n) (some b)
  | .vecNone => .vec 0x00
  | .vecNak => .vec 0x01
  | .vecRxrdy => .vec 0x02
  | .vecTxrdy => .vec 0x03
  | .vecOther v => .vec v
  | .waitClears c => .prim 0x40 (.cond c)
  | .waitFlag m => .prim 0x41 (.mask m)
  | .checkNotBusy => .prim 0x42 .none
  | .escalate loc d1 d2 d3 => .prim 0x43 (.fault loc d1 d2 d3)
  | .regPrefix a r => .prim 0x44 (.target a r)
  | .init => .prim 0x45 .none

/-! The opcode table's numbering of words. -/

/-- The out-of-band operand a bare descriptor word is presented with: `null` where R82 requires one
("may be `null`"), none where it says absent. DESIGN CHOICE (log entry 13). -/
def bareBuf (w : BitVec 64) : Option BufRef :=
  match opRow (fieldsOf w).op with
  | some (u, _) => if u.buf then some .null else none
  | none => none

/-- The operands a bare internal code is presented with. DESIGN CHOICE (log entry 13). -/
def barePrimArgs (code : Byte) : PrimArgs :=
  match code.toNat with
  | 0x40 => .cond .busy
  | 0x41 => .mask .tx
  | 0x43 => .fault .guardClearTimeout 0 0 0
  | 0x44 => .target 0 0
  | _ => .none

/-- A word of the opcode table as a presentation: 64 bits make a descriptor; 8 bits make an internal
primitive for 0x40 to 0x45 (R90) and a vector otherwise (R89). The table numbers formats V and I
alike: DESIGN CHOICE (log entry 13). -/
def tablePacket (nbits w : Nat) : Packet :=
  if nbits ≤ 8 then
    if 0x40 ≤ w ∧ w ≤ 0x45 then .prim (BitVec.ofNat 8 w) (barePrimArgs (BitVec.ofNat 8 w))
    else .vec (BitVec.ofNat 8 w)
  else .desc (BitVec.ofNat 64 w) (bareBuf (BitVec.ofNat 64 w))

/-- What the decoder reads from a word of the opcode table, at the LEN_BITS of R6. -/
def decodeTableWord (nbits w : Nat) : Option Instr :=
  match decode Params.default.lenBits (tablePacket nbits w) with
  | .ok i => some i
  | .error _ => none

/-- Bits, mask and match of one row of spec/opcode_table.json. -/
structure TableRow where
  mnemonic : String
  pattern : Nat
  mask : Nat
  deriving DecidableEq, Repr

/-- spec/opcode_table.json, row by row. -/
def opcodeTable : List TableRow := [
  ⟨"READ", 0x0100000000000000, 0xFF00F800FFFF0000⟩,
  ⟨"WRITE", 0x0200000000000000, 0xFF00F800FFFF0000⟩,
  ⟨"PRESENT", 0x1000000000000000, 0xFFFFFF00FFFFFFFF⟩,
  ⟨"READ8", 0x1100000000000000, 0xFFFFFF0000FFFFFF⟩,
  ⟨"READ16", 0x1200000000000000, 0xFFFFFF0000FFFFFF⟩,
  ⟨"READBLOCK", 0x1300000000000000, 0xFFFFFF0000FF0000⟩,
  ⟨"WRITE8", 0x1400000000000000, 0xFFFFFF0000FFFF00⟩,
  ⟨"WRITE16", 0x1500000000000000, 0xFFFFFF0000FF0000⟩,
  ⟨"WRITEBLOCK", 0x1600000000000000, 0xFFFFFF0000FF0000⟩,
  ⟨"VEC_NONE", 0x00, 0xFF⟩,
  ⟨"VEC_NAK", 0x01, 0xFF⟩,
  ⟨"VEC_RXRDY", 0x02, 0xFF⟩,
  ⟨"VEC_TXRDY", 0x03, 0xFF⟩,
  ⟨"VEC_OTHER", 0x04, 0xFC⟩,
  ⟨"VEC_OTHER", 0x08, 0xF8⟩,
  ⟨"VEC_OTHER", 0x10, 0xF0⟩,
  ⟨"VEC_OTHER", 0x20, 0xE0⟩,
  ⟨"VEC_OTHER", 0x40, 0xC0⟩,
  ⟨"VEC_OTHER", 0x80, 0x80⟩,
  ⟨"WAIT_CLEARS", 0x40, 0xFF⟩,
  ⟨"WAIT_FLAG", 0x41, 0xFF⟩,
  ⟨"CHECK_NOT_BUSY", 0x42, 0xFF⟩,
  ⟨"ESCALATE", 0x43, 0xFF⟩,
  ⟨"REG_PREFIX", 0x44, 0xFF⟩,
  ⟨"INIT", 0x45, 0xFF⟩]

/-- The mnemonic of an operation's rows in the table. -/
def Instr.mnemonic : Instr → String
  | .read .. => "READ"
  | .write .. => "WRITE"
  | .present .. => "PRESENT"
  | .read8 .. => "READ8"
  | .read16 .. => "READ16"
  | .readblock .. => "READBLOCK"
  | .write8 .. => "WRITE8"
  | .write16 .. => "WRITE16"
  | .writeblock .. => "WRITEBLOCK"
  | .vecNone => "VEC_NONE"
  | .vecNak => "VEC_NAK"
  | .vecRxrdy => "VEC_RXRDY"
  | .vecTxrdy => "VEC_TXRDY"
  | .vecOther .. => "VEC_OTHER"
  | .waitClears .. => "WAIT_CLEARS"
  | .waitFlag .. => "WAIT_FLAG"
  | .checkNotBusy => "CHECK_NOT_BUSY"
  | .escalate .. => "ESCALATE"
  | .regPrefix .. => "REG_PREFIX"
  | .init => "INIT"

/-- The bits of a presentation, as the table numbers them. -/
def Packet.bits : Packet → Nat
  | .desc w _ => w.toNat
  | .vec v => v.toNat
  | .prim c _ => c.toNat

end Sys2Proof
end

