-- ==== Sys2Proof/Machine/State.lean ====
section
/-! DEFINITION. The state of PROD-I2CM as plain data (10_state.md), the reasons a step can stop, and
the state after reset. -/

namespace Sys2Proof.Machine

/-- `ctx.direction` (R21). -/
inductive Direction where
  | idle
  | reading
  | writing
  deriving DecidableEq, Repr

/-- The execution context `exec` (R36, R213). -/
inductive ExecCtx where
  | normal
  | interrupt
  deriving DecidableEq, Repr

/-- Outcome codes (R91). -/
inductive OutcomeCode where
  | success
  | accepted
  | invalidArgument
  | busBusyTimeout
  | protocolViolation
  | timeout
  | acknowledgementFailure
  | internalFault
  deriving DecidableEq, Repr

/-- What an operation returns (R95 code 0x40): an outcome, an outcome with an 8-bit or a 16-bit
value, or the Boolean of `present`. -/
inductive OpResult where
  | outcome (o : OutcomeCode)
  | byte (o : OutcomeCode) (v : Byte)
  | half (o : OutcomeCode) (v : BitVec 16)
  | present (b : Bool)
  deriving DecidableEq, Repr

/-- A fault report: location and three diagnostics (R202, R203). -/
structure FaultReport where
  loc : Loc
  d1 : Word32
  d2 : Word32
  d3 : Word32
  deriving DecidableEq, Repr

/-- What a completion signal carries (R154). -/
structure Completion where
  client : Byte
  outcome : OutcomeCode
  addr : Byte
  length : Nat
  buf : BufRef
  deriving DecidableEq, Repr

/-- Trace events (R95). -/
inductive Event where
  | reset
  | unreset
  | selectPins
  | setAddr (a : Byte)
  | setCtl (m : Bits3)
  | clrCtl (m : Bits3)
  | setIE (m : Bits3)
  | clrIE (m : Bits3)
  | wrTx (b : Byte)
  | rdRx (b : Byte)
  | flags (f : Bits3)
  | busy (b : Bool)
  | ctl (c : Bits3)
  | now (t : Word32)
  | report (r : FaultReport)
  | readDone (c : Completion)
  | writeDone (c : Completion)
  | result (r : OpResult)
  | irq (vec : Byte)
  deriving DecidableEq, Repr

/-- The transfer context (R20 to R28). The three counts are LEN_BITS-bit unsigned integers (R23 to
R25), kept as numbers below 2^LEN_BITS. -/
structure Context where
  direction : Direction
  buffer : BufRef
  length : Nat
  position : Nat
  remaining : Nat
  flags : Byte
  started : Bool
  address : Byte
  deriving DecidableEq, Repr

/-- The interface registers (R30): the last value written. -/
structure Regs where
  rst : Bool
  pinsel : Bool
  addr : Byte
  ctlw : Bits3
  ie : Bits3
  txbuf : Byte
  deriving DecidableEq, Repr

/-- The answers of the environment to one kind of query: the scripted ones still to come (R97
`env` lines), and how many answers have been taken. The k-th answer is scripted, or a free value
(log entry 2). -/
structure Draws (α : Type) where
  script : List α
  taken : Nat
  deriving DecidableEq, Repr

/-- The answers of Periph, Clock and Arbiter (R32, R214, R216). -/
structure Env where
  now : Draws Word32
  busy : Draws Bool
  ctl : Draws Bits3
  flags : Draws Bits3
  rdRx : Draws Byte
  client : Draws Byte
  deriving DecidableEq, Repr

/-- What the peripheral raises at one boundary (R34, R207): a vector, with no contract, or the flags
that are pending, of which the enabled one of highest priority gives the vector (R208, PC6 of R215).
DESIGN CHOICE (log entry 6). -/
inductive IrqRequest where
  | vector (v : Byte)
  | pending (f : Bits3)
  deriving DecidableEq, Repr

/-- A bounded wait (R131, R132). -/
inductive Wait where
  | clears (c : Cond)
  | flag (m : DataFlag)
  deriving DecidableEq, Repr

/-- What an operation does when a wait of its own fails with outcome `r`: return `r` (`try`), return
another outcome, return `false` (PRESENT), take `r` as the outcome and go on (a finalize), or go on
(the NAK handler). -/
inductive OnFail where
  | ret
  | retAs (o : OutcomeCode)
  | retFalse
  | record
  | ignore
  deriving DecidableEq, Repr

/-- The pseudocode primitives of R8 that an operation still has to perform, once it may have to
wait. A list of them is the rest of a rule's pseudocode, with the tests on operands done. -/
inductive Prim where
  /-- `P.Reset()` -/
  | reset
  /-- `P.Unreset()` -/
  | unreset
  /-- `P.SetAddr(a)` -/
  | setAddr (a : Byte)
  /-- `P.SetCtl(m)` -/
  | setCtl (m : Bits3)
  /-- `P.ClrCtl(m)` -/
  | clrCtl (m : Bits3)
  /-- `P.SetIE(m)` -/
  | setIE (m : Bits3)
  /-- `P.ClrIE(m)` -/
  | clrIE (m : Bits3)
  /-- `P.WrTx(b)` -/
  | wrTx (b : Byte)
  /-- `P.WrTx(MemRead(buf, i, 1))` -/
  | wrTxFrom (buf : BufRef) (i : Nat)
  /-- `b <- P.RdRx()`; the byte read before it is kept too. -/
  | rdRx
  /-- `MemWrite(buf, i, 1, b)`, `b` the last byte read -/
  | store (buf : BufRef) (i : Nat)
  /-- `ctx.started <- b` -/
  | setStarted (b : Bool)
  /-- `ctx.direction <- Idle` -/
  | setIdle
  /-- `escalate(loc, d1, d2, d3)` -/
  | escalate (r : FaultReport)
  /-- `signal readDone(arbiter(), outcome, ctx.address, ctx.length, ctx.buffer)` -/
  | signalRead
  /-- `signal writeDone(arbiter(), outcome, ctx.address, ctx.length, ctx.buffer)` -/
  | signalWrite
  /-- `call WAIT_CLEARS(cond)` or `call WAIT_FLAG(mask)`, and what follows a failure -/
  | wait (w : Wait) (onFail : OnFail)
  /-- `return o` -/
  | ret (o : OutcomeCode)
  /-- `return (Success, b)` -/
  | retByte
  /-- `return (Success, {b0, b1})` -/
  | retHalf
  /-- `f <- P.Flags(); return not (f has IF_NAK)` -/
  | retPresent
  deriving DecidableEq, Repr

/-- Who runs the operation in progress: the Caller (ends with a `Result` event, R110), a handler
entry (ends by leaving the interrupt context, R207), or an internal primitive presented on its own
(returns its value, no event). -/
inductive Agent where
  | caller
  | isr
  | primitive
  deriving DecidableEq, Repr

/-- The local variables of an operation in progress: `outcome` of the handlers, and the last two
bytes read. -/
structure Frame where
  agent : Agent
  outcome : OutcomeCode
  prev : Byte
  last : Byte
  deriving DecidableEq, Repr

/-- An operation in the middle of a bounded wait: what it waits for, the start time and the last
elapsed value (R38, R130), and what comes after the wait. DESIGN CHOICE (log entry 3). -/
structure Task where
  wait : Wait
  t0 : Word32
  elapsed : Word32
  onFail : OnFail
  rest : List Prim
  frame : Frame
  deriving DecidableEq, Repr

/-- What is presented to the machine next: an operation, an `irq` entry or an internal primitive
(a packet), or the Caller's own access to one byte of its memory (R71). DESIGN CHOICE (log entries
15 and 16). -/
inductive Item where
  | packet (p : Packet)
  | store (a : Nat) (b : Byte)
  | load (a : Nat)
  deriving DecidableEq, Repr

/-- The caller's memory: (address, byte) pairs, addresses rising, no entry equal to what an unlisted
address reads as (`Memory.wf`). -/
abbrev Memory := List Host.Cell

/-- The state of the machine. -/
structure State where
  /-- The parameters of R6; no step changes them. -/
  par : Params
  /-- The transfer context (R20). -/
  ctx : Context
  /-- The interface registers (R30). -/
  regs : Regs
  /-- The execution context (R36). -/
  execCtx : ExecCtx
  /-- The events emitted so far, oldest first (R37). -/
  trace : List Event
  /-- The reports the fault sink has received, oldest first (R204). -/
  sink : List FaultReport
  /-- The caller's memory, which holds the buffers (R60). -/
  mem : Memory
  /-- The operation in the middle of a wait, if one is in progress (R38). -/
  task : Option Task
  /-- What the last operation or internal primitive returned. -/
  lastResult : Option OpResult
  /-- What the Caller, a test line or the platform presents, next first. -/
  program : List Item
  /-- What the peripheral raises, next first. -/
  irqs : List IrqRequest
  /-- The environment's answers. -/
  env : Env
  /-- How many `INIT`s have run: the index of the values they leave free. -/
  fresh : Nat
  deriving DecidableEq, Repr

/-- Why the machine stops with a fault. -/
inductive Fault where
  /-- `BufferRace` (R71): the Caller accesses `ctx.buffer` while a transfer is in flight. Raised by a
  `store` or `load` item. Safe: the spec names the fault. -/
  | bufferRace
  /-- R61: "Both require `0 <= i < cap(buf)`", and the buffer is not `null`. Raised by VEC_TXRDY,
  VEC_RXRDY and a resumed operation, in states no run reaches. Safe: the machine stops. -/
  | bufferIndex
  deriving DecidableEq, Repr

/-- Why a step is refused; a refused operation changes no state (R10, R84). -/
inductive Refusal where
  /-- The instruction has no meaning yet. Raised by arms of `exec` only; no arm raises it. Safe. -/
  | notModelled (mnemonic : String)
  /-- The presented descriptor or primitive does not decode (R84), by the name of the refusal. Raised
  by `step`. Safe: the spec refuses it. -/
  | undecodable (why : Reject)
  /-- Precondition 4 of R110: `length` or `n` exceeds `cap(buf)`. Raised by READ, WRITE, READBLOCK and
  WRITEBLOCK. Safe: the spec refuses it. -/
  | lengthOverCapacity
  deriving DecidableEq, Repr

/-- No scripted answers, none taken. -/
def Draws.none {α : Type} : Draws α := ⟨[], 0⟩

/-- The state after reset: R240 gives it as the state after `INIT`, R40. The values R40 leaves open
are 0: DESIGN CHOICE (log entry 9). Nothing is presented, raised or scripted (log entry 15). -/
def State.reset : State where
  par := Params.default
  ctx :=
    { direction := .idle, buffer := .null, length := 0, position := 0, remaining := 0, flags := 0,
      started := false, address := 0 }
  regs := { rst := true, pinsel := true, addr := 0, ctlw := 0, ie := 0, txbuf := 0 }
  execCtx := .normal
  trace := [.reset, .selectPins]
  sink := []
  mem := []
  task := none
  lastResult := none
  program := []
  irqs := []
  env := ⟨.none, .none, .none, .none, .none, .none⟩
  fresh := 0

end Sys2Proof.Machine
end

