-- ==== Sys2Proof/Machine/Flags.lean ====
section
/-! DEFINITION. Bit masks, flag tests and value codes (30_encoding.md R83, R91 to R96). -/

namespace Sys2Proof.Machine

/-- `v has m`: `(v & m) != 0` (R7). -/
def has {w : Nat} (v m : BitVec w) : Bool := v &&& m != 0

/-- `F_START` (R83). -/
def fStart : Byte := 0x01
/-- `F_STOP` (R83). -/
def fStop : Byte := 0x02
/-- `F_RESTART` (R83). -/
def fRestart : Byte := 0x04

/-- `wantsStart := flags has (F_START | F_RESTART)` (R83). -/
def wantsStart (flags : Byte) : Bool := has flags (fStart ||| fRestart)

/-- `skipBusy := flags has F_RESTART` (R83). -/
def skipBusy (flags : Byte) : Bool := has flags fRestart

/-- `flags has F_STOP`. -/
def wantsStop (flags : Byte) : Bool := has flags fStop

/-- `CTL_TR` (R94). -/
def ctlTr : Bits3 := 0x1
/-- `CTL_START` (R94). -/
def ctlStart : Bits3 := 0x2
/-- `CTL_STOP` (R94). -/
def ctlStop : Bits3 := 0x4

/-- `IF_TX` (R94). -/
def ifTx : Bits3 := 0x1
/-- `IF_RX` (R94). -/
def ifRx : Bits3 := 0x2
/-- `IF_NAK` (R94). -/
def ifNak : Bits3 := 0x4
/-- `IF_ALL` (R94). -/
def ifAll : Bits3 := 0x7

/-- The flag a `WAIT_FLAG` waits for (R132). -/
def flagBits : DataFlag → Bits3
  | .tx => ifTx
  | .rx => ifRx

/-- The interrupts a command enables on Accepted (R205): READ NAK and RX, WRITE NAK and TX. -/
def armMask : Direction → Bits3
  | .idle => 0
  | .reading => ifNak ||| ifRx
  | .writing => ifNak ||| ifTx

/-- The codes of R91. -/
def OutcomeCode.code : OutcomeCode → Byte
  | .success => 0x00
  | .accepted => 0x01
  | .invalidArgument => 0x02
  | .busBusyTimeout => 0x03
  | .protocolViolation => 0x04
  | .timeout => 0x05
  | .acknowledgementFailure => 0x06
  | .internalFault => 0x07

/-- The codes of R92. -/
def locCode : Loc → Byte
  | .guardClearTimeout => 0x01
  | .guardFlagTimeout => 0x02
  | .guardFlagNak => 0x03
  | .isrNak => 0x04
  | .isrUnexpectedVector => 0x05
  | .isrInconsistent => 0x06

/-- The class of a location (R92). -/
def locClass : Loc → OutcomeCode
  | .guardClearTimeout => .timeout
  | .guardFlagTimeout => .timeout
  | .guardFlagNak => .acknowledgementFailure
  | .isrNak => .acknowledgementFailure
  | .isrUnexpectedVector => .internalFault
  | .isrInconsistent => .internalFault

/-- The codes of R93. -/
def Direction.code : Direction → Byte
  | .idle => 0x00
  | .reading => 0x01
  | .writing => 0x02

/-- The codes of R96. -/
def condCode : Cond → Byte
  | .busy => 0x01
  | .start => 0x02
  | .stop => 0x03

/-- The codes of R95. -/
def Event.code : Event → Byte
  | .reset => 0x01
  | .unreset => 0x02
  | .selectPins => 0x03
  | .setAddr _ => 0x04
  | .setCtl _ => 0x05
  | .clrCtl _ => 0x06
  | .setIE _ => 0x07
  | .clrIE _ => 0x08
  | .wrTx _ => 0x09
  | .rdRx _ => 0x0A
  | .flags _ => 0x0B
  | .busy _ => 0x0C
  | .ctl _ => 0x0D
  | .now _ => 0x10
  | .report _ => 0x20
  | .readDone _ => 0x30
  | .writeDone _ => 0x31
  | .result _ => 0x40
  | .irq _ => 0x41

/-- `Report` events make up the fault record (R37). -/
def Event.isReport : Event → Bool
  | .report _ => true
  | _ => false

/-- Completion events (R154). -/
def Event.isDone : Event → Bool
  | .readDone _ | .writeDone _ => true
  | _ => false

/-- The vector of an entry: of the pending and enabled sources, the first in the order NAK, RX, TX
(R208); `VEC_NONE` when none is left (R209). -/
def selectVector (sources : Bits3) : Byte :=
  if has sources ifNak then 0x01
  else if has sources ifRx then 0x02
  else if has sources ifTx then 0x03
  else 0x00

end Sys2Proof.Machine
end

