-- ==== Sys2Proof/Machine/Operands.lean ====
section
/-! DEFINITION. Operand forms: buffer operands (20_memory.md R60, R61), counts (R23 to R25, R85),
16-bit values (R66, R67), diagnostics (R203). -/

namespace Sys2Proof.Machine

/-- `cap(buf)` (R60); `null` holds no byte. -/
def bufCap : BufRef → Nat
  | .null => 0
  | .region _ cap => cap

/-- A buffer is empty when it is `null` or `cap(buf) = 0` (R60). -/
def bufEmpty (b : BufRef) : Bool := bufCap b == 0

/-- The address of the byte at index `i` of a buffer; none where R61 gives no byte (`null`, or `i`
not below `cap(buf)`). -/
def bufAddr (b : BufRef) (i : Nat) : Option Nat :=
  match b with
  | .null => none
  | .region base cap => if i < cap then some (base + i) else none

/-- The address lies in the buffer. -/
def bufHolds (b : BufRef) (a : Nat) : Bool :=
  match b with
  | .null => false
  | .region base cap => base ≤ a && a < base + cap

/-- "`length == 0` or empty buffer" (R111, R112, R178). -/
def badArgument (len : Nat) (b : BufRef) : Bool := len == 0 || bufEmpty b

/-- Precondition 4 of R110: a non-empty `buf` holds `length` bytes. -/
def fitsCapacity (len : Nat) (b : BufRef) : Bool := bufEmpty b || decide (len ≤ bufCap b)

/-- Add one in LEN_BITS bits (R24). No run reaches the wrap (R29; log entry 20). -/
def countSucc (lenBits n : Nat) : Nat := (n + 1) % 2 ^ lenBits

/-- The first byte of a 16-bit value on the bus: bits [15:8] (R67). -/
def highByte (v : BitVec 16) : Byte := v.extractLsb' 8 8

/-- The second byte of a 16-bit value on the bus: bits [7:0] (R67). -/
def lowByte (v : BitVec 16) : Byte := v.extractLsb' 0 8

/-- `{b0, b1}`: the first byte received is bits [15:8] (R66). -/
def bigEndian (b0 b1 : Byte) : BitVec 16 := b0 ++ b1

/-- A count as a 32-bit diagnostic (R203). -/
def diagCount (n : Nat) : Word32 := BitVec.ofNat 32 n

/-- A code as a 32-bit diagnostic (R203). -/
def diagCode (b : Byte) : Word32 := b.setWidth 32

/-- An interrupt mask or flag answer as a 32-bit diagnostic (R203). -/
def diagBits (b : Bits3) : Word32 := b.setWidth 32

end Sys2Proof.Machine
end

