-- ==== Sys2Proof/Machine/Ops.lean ====
section
/-! DEFINITION. The named operations every meaning is built from: the caller's memory, the
environment's answers, the peripheral capability (R30, R32), taking a handler entry and returning
from it (R207, R212), and the fault escalation (R202). -/

namespace Sys2Proof.Machine

/-! ### The caller's memory -/

/-- What an address not listed reads as: DESIGN CHOICE 0 (log entry 8). -/
def Memory.unlisted : Byte := 0

/-- The byte at an address. -/
def Memory.read : Memory → Nat → Byte
  | [], _ => Memory.unlisted
  | (k, b) :: m, a => if k = a then b else Memory.read m a

/-- Store a byte, keeping the form: addresses rising, no entry equal to the unlisted value. -/
def Memory.write : Memory → Nat → Byte → Memory
  | [], a, v => if v = Memory.unlisted then [] else [(a, v)]
  | (k, b) :: m, a, v =>
    if a < k then (if v = Memory.unlisted then (k, b) :: m else (a, v) :: (k, b) :: m)
    else if a = k then (if v = Memory.unlisted then m else (a, v) :: m)
    else (k, b) :: Memory.write m a v

/-- The canonical form: addresses strictly rising, no entry equal to the unlisted value. -/
abbrev Memory.wf (m : Memory) : Prop :=
  m.Pairwise (fun c d => c.1 < d.1) ∧ ∀ c ∈ m, c.2 ≠ Memory.unlisted

/-- `MemRead(buf, i, 1)` (R61); the unlisted value where the buffer has no byte `i`, a case every
meaning rules out first (`bufAddr`). -/
def memRead (m : Memory) (buf : BufRef) (i : Nat) : Byte :=
  match bufAddr buf i with
  | some a => m.read a
  | none => Memory.unlisted

/-- `MemWrite(buf, i, 1, v)` (R61); nothing where the buffer has no byte `i`, a case every meaning
rules out first (`bufAddr`). -/
def memWrite (m : Memory) (buf : BufRef) (i : Nat) (v : Byte) : Memory :=
  match bufAddr buf i with
  | some a => m.write a v
  | none => m

/-! ### The environment's answers -/

/-- The k-th answer from now on: scripted, or else free. -/
def Draws.at {α : Type} (free : Nat → α) (d : Draws α) (k : Nat) : α :=
  d.script.getD k (free (d.taken + k))

/-- The answers left after `k` have been taken. -/
def Draws.skip {α : Type} (d : Draws α) (k : Nat) : Draws α := ⟨d.script.drop k, d.taken + k⟩

/-- The k-th answer of the clock from now on; the null clock answers 0 for ever (R214, D38). -/
def State.nowAt (s : State) (k : Nat) : Word32 :=
  if s.par.clockNull then 0 else s.env.now.at Config.freeNow k

/-- The k-th answer of `P.Busy()` from now on (R32). -/
def State.busyAt (s : State) (k : Nat) : Bool := s.env.busy.at Config.freeBusy k

/-- The k-th answer of `P.Ctl()` from now on (R32). -/
def State.ctlAt (s : State) (k : Nat) : Bits3 := s.env.ctl.at Config.freeCtl k

/-- The k-th answer of `P.Flags()` from now on (R32). -/
def State.flagsAt (s : State) (k : Nat) : Bits3 := s.env.flags.at Config.freeFlags k

/-- The k-th answer of `P.RdRx()` from now on (R32). -/
def State.rdRxAt (s : State) (k : Nat) : Byte := s.env.rdRx.at Config.freeRdRx k

/-- The k-th answer of `current_client_id()` from now on (R216). -/
def State.clientAt (s : State) (k : Nat) : Byte := s.env.client.at Config.freeClient k

/-! ### The memory and the operation in progress, replaced -/

/-- The state with another memory. -/
def State.setMem (s : State) (m : Memory) : State := { s with mem := m }

/-- The state with another operation in progress, or none (R38). -/
def State.setTask (s : State) (t : Option Task) : State := { s with task := t }

/-! ### The trace -/

/-- Append one event (R37). -/
def State.emit (s : State) (e : Event) : State := { s with trace := s.trace ++ [e] }

/-- The fault record: the `Report` events of the trace (R37). -/
def State.faultRecord (s : State) : List Event := s.trace.filter Event.isReport

/-- Their count (R37). -/
def State.faultCount (s : State) : Nat := s.faultRecord.length

/-! ### The peripheral capability: writes (R30) -/

/-- `P.Reset()`: `RST` = 1, `IE` and `CTLW` cleared (R30, D9). -/
def State.pReset (s : State) : State :=
  { s with
    trace := s.trace ++ [.reset]
    regs := { s.regs with rst := true, ie := 0, ctlw := 0 } }

/-- `P.Unreset()`: `RST` = 0. -/
def State.pUnreset (s : State) : State :=
  { s with trace := s.trace ++ [.unreset], regs := { s.regs with rst := false } }

/-- `P.SelectPins()`: `PINSEL` = 1. -/
def State.pSelectPins (s : State) : State :=
  { s with trace := s.trace ++ [.selectPins], regs := { s.regs with pinsel := true } }

/-- `P.SetAddr(a)`. -/
def State.pSetAddr (s : State) (a : Byte) : State :=
  { s with trace := s.trace ++ [.setAddr a], regs := { s.regs with addr := a } }

/-- `P.SetCtl(m)` ORs `m` into `CTLW`. -/
def State.pSetCtl (s : State) (m : Bits3) : State :=
  { s with trace := s.trace ++ [.setCtl m], regs := { s.regs with ctlw := s.regs.ctlw ||| m } }

/-- `P.ClrCtl(m)` clears `m` in `CTLW`. -/
def State.pClrCtl (s : State) (m : Bits3) : State :=
  { s with trace := s.trace ++ [.clrCtl m], regs := { s.regs with ctlw := s.regs.ctlw &&& ~~~m } }

/-- `P.SetIE(m)` ORs `m` into `IE`. -/
def State.pSetIE (s : State) (m : Bits3) : State :=
  { s with trace := s.trace ++ [.setIE m], regs := { s.regs with ie := s.regs.ie ||| m } }

/-- `P.ClrIE(m)` clears `m` in `IE`. -/
def State.pClrIE (s : State) (m : Bits3) : State :=
  { s with trace := s.trace ++ [.clrIE m], regs := { s.regs with ie := s.regs.ie &&& ~~~m } }

/-- `P.WrTx(b)`: `TXBUF`. -/
def State.pWrTx (s : State) (b : Byte) : State :=
  { s with trace := s.trace ++ [.wrTx b], regs := { s.regs with txbuf := b } }

/-! ### Queries (R32, R214): each takes the next answer of its kind and is one event -/

/-- The state after `now()`; the answer is `s.nowAt 0`. -/
def State.readNow (s : State) : State :=
  { s with trace := s.trace ++ [.now (s.nowAt 0)], env := { s.env with now := s.env.now.skip 1 } }

/-- The state after `P.Busy()`; the answer is `s.busyAt 0`. -/
def State.readBusy (s : State) : State :=
  { s with
    trace := s.trace ++ [.busy (s.busyAt 0)], env := { s.env with busy := s.env.busy.skip 1 } }

/-- The state after `P.Ctl()`; the answer is `s.ctlAt 0`. -/
def State.readCtl (s : State) : State :=
  { s with trace := s.trace ++ [.ctl (s.ctlAt 0)], env := { s.env with ctl := s.env.ctl.skip 1 } }

/-- The state after `P.Flags()`; the answer is `s.flagsAt 0`. -/
def State.readFlags (s : State) : State :=
  { s with
    trace := s.trace ++ [.flags (s.flagsAt 0)]
    env := { s.env with flags := s.env.flags.skip 1 } }

/-- The state after `P.RdRx()`; the answer is `s.rdRxAt 0`. -/
def State.readRx (s : State) : State :=
  { s with
    trace := s.trace ++ [.rdRx (s.rdRxAt 0)], env := { s.env with rdRx := s.env.rdRx.skip 1 } }

/-! ### Completion signals (R154, R216) -/

/-- What a completion carries: the arbiter's answer at signal time and the recorded context. -/
def State.completion (s : State) (o : OutcomeCode) : Completion where
  client := s.clientAt 0
  outcome := o
  addr := s.ctx.address
  length := s.ctx.length
  buf := s.ctx.buffer

/-- `signal readDone(arbiter(), o, ctx.address, ctx.length, ctx.buffer)`. -/
def State.signalRead (s : State) (o : OutcomeCode) : State :=
  { s with
    trace := s.trace ++ [.readDone (s.completion o)]
    env := { s.env with client := s.env.client.skip 1 } }

/-- `signal writeDone(arbiter(), o, ctx.address, ctx.length, ctx.buffer)`. -/
def State.signalWrite (s : State) (o : OutcomeCode) : State :=
  { s with
    trace := s.trace ++ [.writeDone (s.completion o)]
    env := { s.env with client := s.env.client.skip 1 } }

/-! ### The context -/

/-- `ctx.direction <- d`. -/
def State.setDirection (s : State) (d : Direction) : State :=
  { s with ctx := { s.ctx with direction := d } }

/-- `ctx.started <- b`. -/
def State.setStarted (s : State) (b : Bool) : State :=
  { s with ctx := { s.ctx with started := b } }

/-- "Records full transfer context" (R111, R112): every field but `started`. -/
def State.recordCtx (s : State) (d : Direction) (buf : BufRef) (len : Nat) (flags addr : Byte) :
    State :=
  { s with
    ctx :=
      { s.ctx with
        direction := d, buffer := buf, length := len, position := 0, remaining := len,
        flags := flags, address := addr } }

/-- One byte moved: `position` up by one, `remaining` down by one (R24, R25). -/
def State.moveByte (s : State) : State :=
  { s with
    ctx :=
      { s.ctx with
        position := countSucc s.par.lenBits s.ctx.position
        remaining := s.ctx.remaining - 1 } }

/-- In flight: `IE != 0` (R35). -/
def State.inFlight (s : State) : Bool := s.regs.ie != 0

/-- `rem0`: `ctx.remaining` when `ctx.direction != Idle`, else 0 (42_interrupt_handlers.md). -/
def State.rem0 (s : State) : Nat :=
  if s.ctx.direction = .idle then 0 else s.ctx.remaining

/-! ### Fault escalation (R202): the one operation every fault goes through -/

/-- The report reaches the sink unless it is a no-op (R204). -/
def State.deliver (s : State) (r : FaultReport) : State :=
  { s with sink := if s.par.sinkNull then s.sink else s.sink ++ [r] }

/-- `escalate(loc, d1, d2, d3)`: report, reset the peripheral (and release it as
`P_ESCALATE_RELEASE` says), `direction <- Idle`. -/
def State.escalate (s : State) (r : FaultReport) : State :=
  let s := ((s.emit (.report r)).deliver r).pReset
  (if s.par.escalateRelease then s.pUnreset else s).setDirection .idle

/-! ### Handler entry and return (R207, R212) -/

/-- Take an entry: `emit Irq(vec)`, `exec = Interrupt`. The block saves no other state (R211). -/
def State.enterIsr (s : State) (vec : Byte) : State :=
  { s with trace := s.trace ++ [.irq vec], execCtx := .interrupt }

/-- Return from an entry: `exec = Normal`. -/
def State.leaveIsr (s : State) : State := { s with execCtx := .normal }

/-! ### Returning a value (R8, R110) -/

/-- `return r` of an internal primitive: the value, no event. -/
def State.setResult (s : State) (r : OpResult) : State := { s with lastResult := some r }

/-- The end of a Caller operation: it appends `Result(...)` with its return value (R110). -/
def State.returnResult (s : State) (r : OpResult) : State :=
  { s with trace := s.trace ++ [.result r], lastResult := some r }

/-! ### Which agent may move (R110, R207, R211, R212) -/

/-- No operation or entry is in progress. -/
def State.engineFree (s : State) : Bool := s.task.isNone

/-- Preconditions 1 and 2 of R110: `exec = Normal` and not `InFlight`; and no operation in
progress. -/
def State.callerReady (s : State) : Bool :=
  s.engineFree && s.execCtx == .normal && !s.inFlight

/-- An entry may start: interrupts are enabled, and no operation and no other entry is in progress
(R207). With `IE = 0` one starts from `Idle` only, as the vectors of 95_test_vectors.md present it; so no
entry uses the context that a command which returned an error left (R115, D13). The `Idle` case is
DEDUCED (log entry 5). -/
def State.entryReady (s : State) : Bool :=
  s.engineFree && s.execCtx == .normal && (s.inFlight || s.ctx.direction == .idle)

/-- The operation's agent may move. -/
def State.ready (s : State) (i : Instr) : Bool :=
  if i.isCaller then s.callerReady else if i.isEntry then s.entryReady else s.engineFree

/-- Run a Caller operation: it holds (nothing changes, log entry 4) while the Caller may not move, is
refused if its buffer is too small (R110), and runs otherwise. -/
def asCaller (s : State) (fits : Bool) (body : State) :
    Host.Outcome State Fault Refusal :=
  if s.callerReady then (if fits then .next body else .refused .lengthOverCapacity) else .next s

/-- Run a handler entry; none starts while it may not (log entry 5). -/
def asEntry (s : State) (body : Host.Outcome State Fault Refusal) :
    Host.Outcome State Fault Refusal :=
  if s.entryReady then body else .next s

/-- Run an internal primitive, or hold. -/
def asPrimitive (s : State) (body : State) : Host.Outcome State Fault Refusal :=
  if s.engineFree then .next body else .next s

end Sys2Proof.Machine
end

