-- ==== Sys2Proof/Machine/Sequencer.lean ====
section
/-! DEFINITION. How a rule's pseudocode is run: one poll of a bounded wait (41_timing_guard.md), and
the primitives of R8 in order. A poll that neither ends nor fails the wait leaves the operation in
`task`, and the next step polls again (R135; log entry 3). -/

namespace Sys2Proof.Machine

/-- What one poll of a wait finds. -/
inductive Poll where
  | done
  | again (elapsed : Word32)
  | failed (o : OutcomeCode)
  deriving DecidableEq, Repr

/-- The condition is asserted in the next sample (R96). -/
def State.condAsserted (s : State) : Cond → Bool
  | .busy => s.busyAt 0
  | .start => has (s.ctlAt 0) ctlStart
  | .stop => has (s.ctlAt 0) ctlStop

/-- Take the sample (R96). -/
def State.sampleCond (s : State) : Cond → State
  | .busy => s.readBusy
  | .start => s.readCtl
  | .stop => s.readCtl

/-- The elapsed time `(now() - t0) mod 2^32` at the next clock answer (R130). -/
def State.elapsedFrom (s : State) (t0 : Word32) : Word32 := s.nowAt 0 - t0

/-- The report of a `WAIT_CLEARS` timeout (R203). -/
def clearTimeoutReport (c : Cond) (t0 e : Word32) : FaultReport :=
  ⟨.guardClearTimeout, diagCode (condCode c), t0, e⟩

/-- The report of a `WAIT_FLAG` timeout (R203). -/
def flagTimeoutReport (m : DataFlag) (f : Bits3) (e : Word32) : FaultReport :=
  ⟨.guardFlagTimeout, diagBits (flagBits m), diagBits f, e⟩

/-- The report of a NAK seen by `WAIT_FLAG` (R203). -/
def flagNakReport (m : DataFlag) (f : Bits3) : FaultReport :=
  ⟨.guardFlagNak, diagBits (flagBits m), diagBits f, 0⟩

/-- One turn of the loop of R131: sample; asserted: read the clock; budget used: escalate. -/
def pollClears (c : Cond) (t0 : Word32) (s : State) : Poll × State :=
  let s1 := s.sampleCond c
  if !s.condAsserted c then (.done, s1)
  else
    let e := s1.elapsedFrom t0
    if s.par.timeoutBudget ≤ e then
      (.failed .timeout, s1.readNow.escalate (clearTimeoutReport c t0 e))
    else (.again e, s1.readNow)

/-- One turn of the loop of R132: sample; NAK first; then the wanted flag; then the clock. -/
def pollFlag (m : DataFlag) (t0 : Word32) (s : State) : Poll × State :=
  let f := s.flagsAt 0
  let s1 := s.readFlags
  if has f ifNak then (.failed .acknowledgementFailure, s1.escalate (flagNakReport m f))
  else if has f (flagBits m) then (.done, s1)
  else
    let e := s1.elapsedFrom t0
    if s.par.timeoutBudget ≤ e then
      (.failed .timeout, s1.readNow.escalate (flagTimeoutReport m f e))
    else (.again e, s1.readNow)

/-- One poll of a wait started at `t0`. -/
def pollWait : Wait → Word32 → State → Poll × State
  | .clears c, t0, s => pollClears c t0 s
  | .flag m, t0, s => pollFlag m t0 s

/-- `return r`, by the agent that runs the operation. -/
def finish (f : Frame) (r : OpResult) (s : State) : State :=
  match f.agent with
  | .caller => s.returnResult r
  | .primitive => s.setResult r
  | .isr => s.leaveIsr

/-- The end of the pseudocode with nothing to return: an entry returns (R212). -/
def endOfOps (f : Frame) (s : State) : State :=
  match f.agent with
  | .isr => s.leaveIsr
  | .caller => s
  | .primitive => s

/-- What follows a poll: go on with `k` (the rest of the pseudocode), stay in the wait, or do what
the operation says of the failure. -/
def afterPoll (w : Wait) (t0 : Word32) (onFail : OnFail) (rest : List Prim) (f : Frame)
    (k : Frame → State → State) (p : Poll × State) : State :=
  match p.1 with
  | .done => k f p.2
  | .again e => p.2.setTask (some ⟨w, t0, e, onFail, rest, f⟩)
  | .failed o =>
    match onFail with
    | .ret => finish f (.outcome o) p.2
    | .retAs o' => finish f (.outcome o') p.2
    | .retFalse => finish f (.present false) p.2
    | .record => k { f with outcome := o } p.2
    | .ignore => k f p.2

/-- Run the primitives in order (R8). -/
def runOps : List Prim → Frame → State → State
  | [], f, s => endOfOps f s
  | p :: ps, f, s =>
    match p with
    | .reset => runOps ps f s.pReset
    | .unreset => runOps ps f s.pUnreset
    | .setAddr a => runOps ps f (s.pSetAddr a)
    | .setCtl m => runOps ps f (s.pSetCtl m)
    | .clrCtl m => runOps ps f (s.pClrCtl m)
    | .setIE m => runOps ps f (s.pSetIE m)
    | .clrIE m => runOps ps f (s.pClrIE m)
    | .wrTx b => runOps ps f (s.pWrTx b)
    | .wrTxFrom buf i => runOps ps f (s.pWrTx (memRead s.mem buf i))
    | .rdRx => runOps ps { f with prev := f.last, last := s.rdRxAt 0 } s.readRx
    | .store buf i => runOps ps f (s.setMem (memWrite s.mem buf i f.last))
    | .setStarted b => runOps ps f (s.setStarted b)
    | .setIdle => runOps ps f (s.setDirection .idle)
    | .escalate r => runOps ps f (s.escalate r)
    | .signalRead => runOps ps f (s.signalRead f.outcome)
    | .signalWrite => runOps ps f (s.signalWrite f.outcome)
    | .wait w onFail =>
      afterPoll w (s.nowAt 0) onFail ps f (fun f s => runOps ps f s)
        (pollWait w (s.nowAt 0) s.readNow)
    | .ret o => finish f (.outcome o) s
    | .retByte => finish f (.byte .success f.last) s
    | .retHalf => finish f (.half .success (bigEndian f.prev f.last)) s
    | .retPresent => finish f (.present (!has (s.flagsAt 0) ifNak)) s.readFlags

/-- Every buffer access of the primitive lies in its buffer (R61). -/
def Prim.inBounds : Prim → Bool
  | .wrTxFrom buf i => (bufAddr buf i).isSome
  | .store buf i => (bufAddr buf i).isSome
  | _ => true

/-- Poll the wait an operation is in, and go on as far as it can. -/
def resumeTask (t : Task) (s : State) : Host.Outcome State Fault Refusal :=
  if t.rest.all Prim.inBounds then
    .next (afterPoll t.wait t.t0 t.onFail t.rest t.frame (runOps t.rest)
      (pollWait t.wait t.t0 (s.setTask none)))
  else .fault .bufferIndex

/-- The locals of a fresh operation; no rule reads `prev` or `last` before an `RdRx` sets it. -/
def Frame.new (a : Agent) (o : OutcomeCode) : Frame := ⟨a, o, 0, 0⟩

/-- A Caller operation's locals. -/
def callerFrame : Frame := .new .caller .success

/-- An internal primitive's locals. -/
def primFrame : Frame := .new .primitive .success

/-- A handler's locals, with the outcome it starts from. -/
def isrFrame (o : OutcomeCode) : Frame := .new .isr o

end Sys2Proof.Machine
end

