-- ==== Sys2Proof/Machine/Guard.lean ====
section
/-! DEFINITION. The timing guard's internal primitives (41_timing_guard.md). -/

namespace Sys2Proof.Machine

/-- `CHECK_NOT_BUSY()` inside an operation (R133): reset and unreset the peripheral, then wait for
the bus. -/
def checkNotBusyOps (onFail : OnFail) : List Prim :=
  [.reset, .unreset, .wait (.clears .busy) onFail]

/-- WAIT_CLEARS presented on its own (R131). -/
def execWaitClears (c : Cond) (s : State) : Host.Outcome State Fault Refusal :=
  asPrimitive s (runOps [.wait (.clears c) .ret, .ret .success] primFrame s)

/-- WAIT_FLAG presented on its own (R132). -/
def execWaitFlag (m : DataFlag) (s : State) : Host.Outcome State Fault Refusal :=
  asPrimitive s (runOps [.wait (.flag m) .ret, .ret .success] primFrame s)

/-- CHECK_NOT_BUSY presented on its own (R133). -/
def execCheckNotBusy (s : State) : Host.Outcome State Fault Refusal :=
  asPrimitive s (runOps (checkNotBusyOps .ret ++ [.ret .success]) primFrame s)

end Sys2Proof.Machine
end

