-- ==== Sys2Proof/Machine/Commands.lean ====
section
/-! DEFINITION. The split-phase commands READ and WRITE (40_state_machine.md). -/

namespace Sys2Proof.Machine

/-- The START part of READ (R111): busy check unless this is a RESTART, address, receive direction,
START; for a single byte with STOP, wait until START deasserts and set STOP. -/
def readStartOps (flags addr : Byte) (len : Nat) : List Prim :=
  (if skipBusy flags then [] else checkNotBusyOps (.retAs .busBusyTimeout)) ++
  [.setAddr addr, .clrCtl ctlTr, .setCtl ctlStart, .setStarted true] ++
  (if len == 1 && wantsStop flags then [.wait (.clears .start) .ret, .setCtl ctlStop] else [])

/-- The end of READ: enable NAK and RX, `return Accepted` (R111). -/
def readArmOps : List Prim := [.setIE (ifNak ||| ifRx), .ret .accepted]

/-- READ after the context is recorded (R111); `started` is `ctx.started`. -/
def readOps (started : Bool) (flags addr : Byte) (len : Nat) : List Prim :=
  if wantsStart flags then readStartOps flags addr len ++ readArmOps
  else if !started then [.ret .protocolViolation]
  else (if len == 1 && wantsStop flags then [.setCtl ctlStop] else []) ++ readArmOps

/-- READ (R111). The issuing client is not stored (R216). -/
def execRead (_client flags addr : Byte) (len : BitVec 16) (buf : BufRef) (s : State) :
    Host.Outcome State Fault Refusal :=
  asCaller s (fitsCapacity len.toNat buf)
    (if badArgument len.toNat buf then s.returnResult (.outcome .invalidArgument)
     else runOps (readOps s.ctx.started flags addr len.toNat) callerFrame
       (s.recordCtx .reading buf len.toNat flags addr))

/-- The START part of WRITE (R112). -/
def writeStartOps (flags addr : Byte) : List Prim :=
  (if skipBusy flags then [] else checkNotBusyOps (.retAs .busBusyTimeout)) ++
  [.setAddr addr, .setCtl (ctlTr ||| ctlStart), .setStarted true]

/-- The end of WRITE: enable NAK and TX, `return Accepted` (R112). -/
def writeArmOps : List Prim := [.setIE (ifNak ||| ifTx), .ret .accepted]

/-- WRITE after the context is recorded (R112). -/
def writeOps (started : Bool) (flags addr : Byte) : List Prim :=
  if wantsStart flags then writeStartOps flags addr ++ writeArmOps
  else if !started then [.ret .protocolViolation]
  else writeArmOps

/-- WRITE (R112). The issuing client is not stored (R216). -/
def execWrite (_client flags addr : Byte) (len : BitVec 16) (buf : BufRef) (s : State) :
    Host.Outcome State Fault Refusal :=
  asCaller s (fitsCapacity len.toNat buf)
    (if badArgument len.toNat buf then s.returnResult (.outcome .invalidArgument)
     else runOps (writeOps s.ctx.started flags addr) callerFrame
       (s.recordCtx .writing buf len.toNat flags addr))

end Sys2Proof.Machine
end

