-- ==== Sys2Proof/Machine/Interrupts.lean ====
section
/-! DEFINITION. The interrupt handlers and the double-buffered byte sequencer
(42_interrupt_handlers.md), entered through ISR_ENTRY (60_exceptions.md R207 to R210). -/

namespace Sys2Proof.Machine

/-- The report of an entry in the wrong direction (R203). -/
def inconsistentReport (vec : Byte) (s : State) : FaultReport :=
  ⟨.isrInconsistent, diagCode vec, diagCode s.ctx.direction.code, diagCount s.rem0⟩

/-- An entry in the wrong direction: it escalates, signals nothing and returns (D20). -/
def inconsistent (vec : Byte) (s : State) : State :=
  (s.escalate (inconsistentReport vec s)).leaveIsr

/-- `P_CLEAR_STARTED = Always` clears `started` at every successful finalize (R27). -/
def alwaysClearOps (p : Params) : List Prim :=
  if p.clearStarted = .always then [.setStarted false] else []

/-- The finalize of the TX-ready handler (R150): STOP and its bounded wait if requested, then disable
all interrupts, `Idle`, and the completion. -/
def txFinalizeOps (p : Params) (flags : Byte) : List Prim :=
  (if wantsStop flags then
    [.setCtl ctlStop, .wait (.clears .stop) .record, .setStarted false] else []) ++
  alwaysClearOps p ++ [.clrIE ifAll, .setIdle, .signalWrite]

/-- The finalize of the RX-ready handler (R151): disable all interrupts, wait for STOP if requested,
`Idle`, and the completion. -/
def rxFinalizeOps (p : Params) (flags : Byte) : List Prim :=
  [.clrIE ifAll] ++
  (if wantsStop flags then [.wait (.clears .stop) .record, .setStarted false] else []) ++
  alwaysClearOps p ++ [.setIdle, .signalRead]

/-- ISR_TXRDY (R150), inside the entry. -/
def isrTxrdy (s : State) : Host.Outcome State Fault Refusal :=
  if s.ctx.direction ≠ .writing then .next (inconsistent 0x03 s)
  else if 0 < s.ctx.remaining then
    match bufAddr s.ctx.buffer s.ctx.position with
    | none => .fault .bufferIndex
    | some a => .next (((s.pWrTx (s.mem.read a)).moveByte).leaveIsr)
  else .next (runOps (txFinalizeOps s.par s.ctx.flags) (isrFrame .success) s)

/-- The byte part of ISR_RXRDY (R151): STOP before the byte is drained when exactly one byte will
remain; then read it into the buffer at address `a`. -/
def rxByte (a : Nat) (s : State) : State :=
  let s1 := if s.ctx.remaining - 1 == 1 && wantsStop s.ctx.flags then s.pSetCtl ctlStop else s
  let s2 := s1.readRx
  (s2.setMem (s2.mem.write a (s1.rdRxAt 0))).moveByte

/-- ISR_RXRDY (R151), inside the entry. -/
def isrRxrdy (s : State) : Host.Outcome State Fault Refusal :=
  if s.ctx.direction ≠ .reading ∨ s.ctx.remaining = 0 then .next (inconsistent 0x02 s)
  else
    match bufAddr s.ctx.buffer s.ctx.position with
    | none => .fault .bufferIndex
    | some a =>
      if s.ctx.remaining - 1 = 0 then
        .next (runOps (rxFinalizeOps s.par s.ctx.flags) (isrFrame .success) (rxByte a s))
      else .next (rxByte a s).leaveIsr

/-- The report of the NAK handler (R203): direction, position and remaining at entry. -/
def nakReport (s : State) : FaultReport :=
  ⟨.isrNak, diagCode s.ctx.direction.code, diagCount s.ctx.position, diagCount s.ctx.remaining⟩

/-- The NAK handler's sequence (R152): force STOP, best-effort wait, escalate, clear `started`, and
the completion of the direction recorded at entry. -/
def nakOps (s : State) : List Prim :=
  [.setCtl ctlStop, .wait (.clears .stop) .ignore, .escalate (nakReport s), .setStarted false,
   if s.ctx.direction = .reading then .signalRead else .signalWrite]

/-- ISR_NAK (R152), inside the entry. -/
def isrNak (s : State) : State :=
  if s.ctx.direction = .idle then inconsistent 0x01 s
  else runOps (nakOps s) (isrFrame .acknowledgementFailure) s

/-- The report of an unexpected vector (R203). -/
def unexpectedReport (vec : Byte) (s : State) : FaultReport :=
  ⟨.isrUnexpectedVector, diagCode vec, diagCode s.ctx.direction.code, 0⟩

/-- VEC_NONE (R209): the entry changes nothing. -/
def execVecNone (s : State) : Host.Outcome State Fault Refusal :=
  asEntry s (.next (s.enterIsr 0x00).leaveIsr)

/-- VEC_NAK (R152). -/
def execVecNak (s : State) : Host.Outcome State Fault Refusal :=
  asEntry s (.next (isrNak (s.enterIsr 0x01)))

/-- VEC_RXRDY (R151). -/
def execVecRxrdy (s : State) : Host.Outcome State Fault Refusal :=
  asEntry s (isrRxrdy (s.enterIsr 0x02))

/-- VEC_TXRDY (R150). -/
def execVecTxrdy (s : State) : Host.Outcome State Fault Refusal :=
  asEntry s (isrTxrdy (s.enterIsr 0x03))

/-- VEC_OTHER (R210): an unexpected vector escalates and signals no completion. -/
def execVecOther (vec : Byte) (s : State) : Host.Outcome State Fault Refusal :=
  asEntry s (.next ((s.enterIsr vec).escalate (unexpectedReport vec s)).leaveIsr)

end Sys2Proof.Machine
end

