-- ==== Sys2Proof/Machine/Lifecycle.lean ====
section
/-! DEFINITION. Fault escalation and instance creation as operations of their own
(60_exceptions.md R202; 70_reset_and_hazards.md R241). -/

namespace Sys2Proof.Machine

/-- ESCALATE presented on its own (R202). -/
def execEscalate (loc : Loc) (d1 d2 d3 : Word32) (s : State) :
    Host.Outcome State Fault Refusal :=
  asPrimitive s (s.escalate ⟨loc, d1, d2, d3⟩)

/-- The context `INIT` leaves (R241, R40): `Idle`, `started` false, no buffer; the other fields have
no value, so they are free values (log entry 10). -/
def initCtx (s : State) : Context where
  direction := .idle
  buffer := .null
  length := Config.freeLength s.fresh % 2 ^ s.par.lenBits
  position := Config.freePosition s.fresh % 2 ^ s.par.lenBits
  remaining := Config.freeRemaining s.fresh % 2 ^ s.par.lenBits
  flags := Config.freeXferFlags s.fresh &&& 0x07
  started := false
  address := Config.freeAddress s.fresh

/-- `INIT()` (R241): the context, `P.Reset()`, `P.SelectPins()`, `exec <- Normal`. `ADDR` and `TXBUF`
are unspecified after it (R40): free values. -/
def State.initialise (s : State) : State :=
  let s1 :=
    { s with
      ctx := initCtx s
      regs :=
        { s.regs with addr := Config.freeAddrReg s.fresh, txbuf := Config.freeTxBuf s.fresh }
      fresh := s.fresh + 1 }
  s1.pReset.pSelectPins.leaveIsr

/-- INIT (R241). -/
def execInit (s : State) : Host.Outcome State Fault Refusal := asPrimitive s s.initialise

end Sys2Proof.Machine
end

