-- ==== Sys2Proof/Machine/RegisterOps.lean ====
section
/-! DEFINITION. The register-transaction protocol (43_register_protocol.md): blocking sequences over
the timing guard and the peripheral capability. They leave the transfer context alone. -/

namespace Sys2Proof.Machine

/-- `REG_PREFIX(addr, reg)` inside an operation (R170). -/
def regPrefixOps (addr reg : Byte) : List Prim :=
  checkNotBusyOps .ret ++
  [.setAddr addr, .setCtl (ctlTr ||| ctlStart), .wait (.flag .tx) .ret,
   .wrTx reg, .wait (.flag .tx) .ret]

/-- REG_PREFIX presented on its own (R170). -/
def execRegPrefix (addr reg : Byte) (s : State) : Host.Outcome State Fault Refusal :=
  asPrimitive s (runOps (regPrefixOps addr reg ++ [.ret .success]) primFrame s)

/-- The presence probe (R171). -/
def presentOps (addr : Byte) : List Prim :=
  checkNotBusyOps .retFalse ++
  [.setAddr addr, .setCtl (ctlTr ||| ctlStart ||| ctlStop), .wait (.clears .stop) .retFalse,
   .retPresent]

/-- PRESENT (R171). -/
def execPresent (addr : Byte) (s : State) : Host.Outcome State Fault Refusal :=
  asCaller s true (runOps (presentOps addr) callerFrame s)

/-- The prefix, then receive direction and START: the turn to reading of R172, R173, R174. -/
def readTurnOps (addr reg : Byte) : List Prim :=
  regPrefixOps addr reg ++ [.clrCtl ctlTr, .setCtl ctlStart]

/-- The READ8 sequence up to its byte (R172). -/
def read8Ops (addr reg : Byte) : List Prim :=
  readTurnOps addr reg ++
  [.wait (.clears .start) .ret, .setCtl ctlStop, .wait (.flag .rx) .ret, .rdRx]

/-- READ8 (R172). -/
def execRead8 (addr reg : Byte) (s : State) : Host.Outcome State Fault Refusal :=
  asCaller s true (runOps (read8Ops addr reg ++ [.retByte]) callerFrame s)

/-- The READ16 sequence (R173): STOP only after the first byte is consumed. -/
def read16Ops (addr reg : Byte) : List Prim :=
  readTurnOps addr reg ++
  [.wait (.clears .start) .ret, .wait (.flag .rx) .ret, .rdRx, .setCtl ctlStop,
   .wait (.flag .rx) .ret, .rdRx, .retHalf]

/-- READ16 (R173). -/
def execRead16 (addr reg : Byte) (s : State) : Host.Outcome State Fault Refusal :=
  asCaller s true (runOps (read16Ops addr reg) callerFrame s)

/-- One turn of the READBLOCK loop (R174): STOP when one byte remains, before the byte is read. -/
def readByteOps (n : Nat) (buf : BufRef) (i : Nat) : List Prim :=
  [.wait (.flag .rx) .ret] ++ (if n - 1 - i == 1 then [.setCtl ctlStop] else []) ++
  [.rdRx, .store buf i]

/-- READBLOCK after its argument check (R174); `n = 1` takes the READ8 sequence. -/
def readblockOps (addr reg : Byte) (n : Nat) (buf : BufRef) : List Prim :=
  if n == 1 then read8Ops addr reg ++ [.store buf 0, .ret .success]
  else
    readTurnOps addr reg ++ (List.range n).flatMap (readByteOps n buf) ++
    [.wait (.clears .stop) .ret, .ret .success]

/-- READBLOCK (R174, R178). -/
def execReadblock (addr reg : Byte) (n : BitVec 16) (buf : BufRef) (s : State) :
    Host.Outcome State Fault Refusal :=
  asCaller s (fitsCapacity n.toNat buf)
    (if badArgument n.toNat buf then s.returnResult (.outcome .invalidArgument)
     else runOps (readblockOps addr reg n.toNat buf) callerFrame s)

/-- The end of the register writes (R175, R176, R177): STOP once the last byte has reached the shift
register, and the wait for it. -/
def writeEndOps : List Prim :=
  [.setCtl ctlStop, .wait (.clears .stop) .ret, .ret .success]

/-- The WRITE8 sequence (R175). -/
def write8Ops (addr reg v : Byte) : List Prim :=
  regPrefixOps addr reg ++ [.wrTx v, .wait (.flag .tx) .ret] ++ writeEndOps

/-- WRITE8 (R175). -/
def execWrite8 (addr reg v : Byte) (s : State) : Host.Outcome State Fault Refusal :=
  asCaller s true (runOps (write8Ops addr reg v) callerFrame s)

/-- The WRITE16 sequence (R176): high byte first (R67). -/
def write16Ops (addr reg : Byte) (v : BitVec 16) : List Prim :=
  regPrefixOps addr reg ++
  [.wrTx (highByte v), .wait (.flag .tx) .ret, .wrTx (lowByte v), .wait (.flag .tx) .ret] ++
  writeEndOps

/-- WRITE16 (R176). -/
def execWrite16 (addr reg : Byte) (v : BitVec 16) (s : State) :
    Host.Outcome State Fault Refusal :=
  asCaller s true (runOps (write16Ops addr reg v) callerFrame s)

/-- One turn of the WRITEBLOCK loop (R177). -/
def writeByteOps (buf : BufRef) (i : Nat) : List Prim :=
  [.wrTxFrom buf i, .wait (.flag .tx) .ret]

/-- WRITEBLOCK after its argument check (R177). -/
def writeblockOps (addr reg : Byte) (n : Nat) (buf : BufRef) : List Prim :=
  regPrefixOps addr reg ++ (List.range n).flatMap (writeByteOps buf) ++ writeEndOps

/-- WRITEBLOCK (R177, R178). -/
def execWriteblock (addr reg : Byte) (n : BitVec 16) (buf : BufRef) (s : State) :
    Host.Outcome State Fault Refusal :=
  asCaller s (fitsCapacity n.toNat buf)
    (if badArgument n.toNat buf then s.returnResult (.outcome .invalidArgument)
     else runOps (writeblockOps addr reg n.toNat buf) callerFrame s)

end Sys2Proof.Machine
end

