-- ==== Sys2Proof/Machine/Dispatch.lean ====
section
/-! DEFINITION. One meaning for every operation of the opcode table. -/

namespace Sys2Proof.Machine

/-- The effect of one operation. -/
def exec (i : Instr) (s : State) : Host.Outcome State Fault Refusal :=
  match i with
  | .read client flags addr len buf => Sys2Proof.Machine.execRead client flags addr len buf s
  | .write client flags addr len buf => Sys2Proof.Machine.execWrite client flags addr len buf s
  | .present addr => Sys2Proof.Machine.execPresent addr s
  | .read8 addr reg => Sys2Proof.Machine.execRead8 addr reg s
  | .read16 addr reg => Sys2Proof.Machine.execRead16 addr reg s
  | .readblock addr reg n buf => Sys2Proof.Machine.execReadblock addr reg n buf s
  | .write8 addr reg v => Sys2Proof.Machine.execWrite8 addr reg v s
  | .write16 addr reg v => Sys2Proof.Machine.execWrite16 addr reg v s
  | .writeblock addr reg n buf => Sys2Proof.Machine.execWriteblock addr reg n buf s
  | .vecNone => Sys2Proof.Machine.execVecNone s
  | .vecNak => Sys2Proof.Machine.execVecNak s
  | .vecRxrdy => Sys2Proof.Machine.execVecRxrdy s
  | .vecTxrdy => Sys2Proof.Machine.execVecTxrdy s
  | .vecOther vec => Sys2Proof.Machine.execVecOther vec s
  | .waitClears c => Sys2Proof.Machine.execWaitClears c s
  | .waitFlag m => Sys2Proof.Machine.execWaitFlag m s
  | .checkNotBusy => Sys2Proof.Machine.execCheckNotBusy s
  | .escalate loc d1 d2 d3 => Sys2Proof.Machine.execEscalate loc d1 d2 d3 s
  | .regPrefix addr reg => Sys2Proof.Machine.execRegPrefix addr reg s
  | .init => Sys2Proof.Machine.execInit s

end Sys2Proof.Machine
end

