-- ==== Sys2Proof/Machine/Fetch.lean ====
section
/-! DEFINITION. What moves next when no operation is in progress: the next item presented, an entry
the peripheral raises, or nothing (00_scope.md R5, R10; 40_state_machine.md R110; 60_exceptions.md
R207). Operations are presented, not fetched from a memory (10_state.md R39). -/

namespace Sys2Proof.Machine

/-- What the next step does. -/
inductive Fetched where
  /-- Run an operation, in the state with its presentation taken. -/
  | run (i : Instr) (s : State)
  /-- Nothing runs: the state after the boundary. -/
  | pass (s : State)
  | stop (f : Fault)
  | refuse (r : Refusal)
  deriving DecidableEq, Repr

/-- The entry the peripheral raises, gated by `IE` (R207; log entry 6): with `IE = 0` none starts; a vector is
entered as drawn; pending flags start an entry only for an enabled source (R34), the one of highest
priority (R208). With no request the machine holds, for ever if none comes (R253). DESIGN CHOICE (log
entry 6), where R34 and R206 say only that pending is the peripheral's flag, a draw: a request that
stands while `IE = 0` is neither taken nor lost, and starts an entry after a later Accepted command;
while `IE != 0`, pending flags with none enabled are dropped. -/
def raised (s : State) : Fetched :=
  if s.inFlight && s.entryReady then
    match s.irqs with
    | [] => .pass s
    | .vector v :: rs => .run (decodeVector v) { s with irqs := rs }
    | .pending f :: rs =>
      if f &&& s.regs.ie = 0 then .pass { s with irqs := rs }
      else .run (decodeVector (selectVector (f &&& s.regs.ie))) { s with irqs := rs }
  else .pass s

/-- A Caller access to the in-flight buffer is a race (R71). -/
def races (s : State) (a : Nat) : Bool := s.inFlight && bufHolds s.ctx.buffer a

/-- The presentation is a descriptor, which only the Caller issues (R80). -/
def Packet.byCaller : Packet → Bool
  | .desc .. => true
  | .vec .. => false
  | .prim .. => false

/-- The item at the head of the program, `rest` after it. A Caller operation holds while the Caller may
not move (R110), before its descriptor is looked at (log entry 25), and the peripheral may raise an
entry meanwhile; what stands behind it in `program`, an `irq` line too, waits until it has moved: DESIGN
CHOICE (log entry 31), R97 and R110 do not say. Any other item moves before a request that waits in `irqs`: DESIGN CHOICE (log entry
29), the spec gives no order between agents that could all move (R72). An entry that may not start is
passed over, and nothing of it happens (log entry 5). -/
def fetchItem (s : State) (rest : List Item) : Item → Fetched
  | .store a b =>
    if races s a then .stop .bufferRace
    else .pass { s with program := rest, mem := s.mem.write a b }
  | .load a =>
    if races s a then .stop .bufferRace else .pass { s with program := rest }
  | .packet p =>
    if Packet.byCaller p && !s.callerReady then raised s
    else
      match decode s.par.lenBits p with
      | .error why => .refuse (.undecodable why)
      | .ok i =>
        if s.ready i then .run i { s with program := rest } else .pass { s with program := rest }

/-- What moves next: the item presented, and a request of the peripheral only when none is presented or
the Caller holds. DESIGN CHOICE (log entry 29): where both could move the spec leaves the order open
(R72). -/
def fetch (s : State) : Fetched :=
  match s.program with
  | [] => raised s
  | it :: rest => fetchItem s rest it

end Sys2Proof.Machine
end

