-- ==== Sys2Proof/Machine/Step.lean ====
section
/-! DEFINITION. One step of the machine: the operation in progress polls again; otherwise what is
presented or raised next runs. -/

namespace Sys2Proof.Machine

/-- The step. While an operation is in progress nothing else moves (R211, R212). -/
def step (s : State) : Host.Outcome State Fault Refusal :=
  match s.task with
  | some t => resumeTask t s
  | none =>
    match fetch s with
    | .run i s' => exec i s'
    | .pass s' => .next s'
    | .stop f => .fault f
    | .refuse r => .refused r

/-- Present a word of the opcode table next (`tablePacket`, log entry 13): the item goes to the front of
`program`, and no operation is in progress, so that the next step takes it. This stands for the
Caller (or the platform) presenting it: no program is loaded into the block (log entry 15). -/
def State.withFetchWord (s : State) (nbits w : Nat) : State :=
  { s with program := .packet (tablePacket nbits w) :: s.program, task := none }

end Sys2Proof.Machine
end

