-- ==== Sys2Proof/Machine/Assembler.lean ====
section
/-! DEFINITION. The lines of the textual syntax (30_encoding.md R97, R98): what each one presents.
The text of a line is not modelled, only its parts. -/

namespace Sys2Proof.Machine

/-- `<flag> ::= start | stop | restart` (R97). -/
inductive FlagName where
  | start
  | stop
  | restart
  deriving DecidableEq, Repr

/-- `<vec>` of an `irq` line (R97). -/
inductive VecName where
  | nak
  | rxrdy
  | txrdy
  | none
  | number (v : Byte)
  deriving DecidableEq, Repr

/-- `<Query>` and its answer, of an `env` line (R97); the arbiter's answer too: DEDUCED (log entry 30). -/
inductive Answer where
  | now (t : Word32)
  | busy (b : Bool)
  | ctl (c : Bits3)
  | flags (f : Bits3)
  | rdRx (b : Byte)
  | client (c : Byte)
  deriving DecidableEq, Repr

/-- One line (R97); `probe` is the alias of `present` (R98). -/
inductive Line where
  | read (client : Byte) (flags : List FlagName) (addr : Byte) (len : BitVec 16) (buf : BufRef)
  | write (client : Byte) (flags : List FlagName) (addr : Byte) (len : BitVec 16) (buf : BufRef)
  | present (addr : Byte)
  | probe (addr : Byte)
  | read8 (addr reg : Byte)
  | read16 (addr reg : Byte)
  | readblock (addr reg : Byte) (n : BitVec 16) (buf : BufRef)
  | write8 (addr reg v : Byte)
  | write16 (addr reg : Byte) (v : BitVec 16)
  | writeblock (addr reg : Byte) (n : BitVec 16) (buf : BufRef)
  | irq (v : VecName)
  | env (a : Answer)
  deriving DecidableEq, Repr

/-- The bit of a flag name (R83). -/
def flagNameBits : FlagName → Byte
  | .start => fStart
  | .stop => fStop
  | .restart => fRestart

/-- `<flags> ::= "-" | <flag> ("|" <flag>)*`; the empty list is `-` (R97). -/
def flagList : List FlagName → Byte
  | [] => 0
  | f :: fs => flagNameBits f ||| flagList fs

/-- The vector an `irq` line names (R97, R89). -/
def vecOf : VecName → Byte
  | .none => 0x00
  | .nak => 0x01
  | .rxrdy => 0x02
  | .txrdy => 0x03
  | .number v => v

/-- What a line presents; an `env` line presents nothing (R97: each operation line assembles to
exactly one descriptor). -/
def assemble : Line → Option Packet
  | .read c fs a n b => some (encode (.read c (flagList fs) a n b))
  | .write c fs a n b => some (encode (.write c (flagList fs) a n b))
  | .present a => some (encode (.present a))
  | .probe a => some (encode (.present a))
  | .read8 a r => some (encode (.read8 a r))
  | .read16 a r => some (encode (.read16 a r))
  | .readblock a r n b => some (encode (.readblock a r n b))
  | .write8 a r v => some (encode (.write8 a r v))
  | .write16 a r v => some (encode (.write16 a r v))
  | .writeblock a r n b => some (encode (.writeblock a r n b))
  | .irq v => some (.vec (vecOf v))
  | .env _ => none

/-- One more scripted answer. -/
def Draws.push {α : Type} (d : Draws α) (a : α) : Draws α := { d with script := d.script ++ [a] }

/-- `env <Query>→<answer>` scripts the next answer of its kind (R97). -/
def Env.push (e : Env) : Answer → Env
  | .now t => { e with now := e.now.push t }
  | .busy b => { e with busy := e.busy.push b }
  | .ctl c => { e with ctl := e.ctl.push c }
  | .flags f => { e with flags := e.flags.push f }
  | .rdRx b => { e with rdRx := e.rdRx.push b }
  | .client c => { e with client := e.client.push c }

/-- Add a line to what the machine is presented with. An `env` line acts here, when the program is loaded,
wherever it stands among the operation lines: DESIGN CHOICE (log entry 30), R97 does not say when it acts. So
it can answer a query, which no line before it has scripted, of an operation line placed before it. -/
def State.loadLine (s : State) (l : Line) : State :=
  match l with
  | .env a => { s with env := s.env.push a }
  | l =>
    match assemble l with
    | some p => { s with program := s.program ++ [.packet p] }
    | none => s

/-- Add a list of lines. -/
def State.load (s : State) : List Line → State
  | [] => s
  | l :: ls => (s.loadLine l).load ls

end Sys2Proof.Machine
end

