-- ==== Sys2Proof/Safety.lean ====
section
/-! DEFINITION. What counts as a safe run: no fault; the invariant every step keeps; and the premises
about the environment that a claim may name (60_exceptions.md R215; 70_reset_and_hazards.md R251). -/

namespace Sys2Proof.Machine

/-- No fault within any number of steps. A refused presentation ends a run safely (R10). -/
def SafeRun (s : State) : Prop := ∀ k f, Host.Core.run Sys2Proof.core k s ≠ .fault f

/-! ### The invariant -/

/-- R29 and R110: unless `Idle`, the counts add up, and the buffer holds the transfer. -/
abbrev ctxOk (p : Params) (c : Context) : Prop :=
  c.direction = .idle ∨
    (c.position + c.remaining = c.length ∧ 0 < c.length ∧ c.length < 2 ^ p.lenBits ∧
      c.length ≤ bufCap c.buffer)

/-- R205: what is enabled is nothing, or what the command of this direction enables. -/
abbrev ieOk (d : Direction) (ie : Bits3) : Prop := ie = 0 ∨ ie = armMask d

/-- The operation goes on after the wait has failed. -/
def OnFail.goesOn : OnFail → Bool
  | .record => true
  | .ignore => true
  | .ret => false
  | .retAs _ => false
  | .retFalse => false

/-- A failure of the wait is not returned as `Accepted`. -/
def OnFail.honest : OnFail → Bool
  | .retAs o => o != .accepted
  | .ret => true
  | .retFalse => true
  | .record => true
  | .ignore => true

/-- The outcomes a completion may carry (R154). -/
def doneOutcome (o : OutcomeCode) : Bool :=
  o == .success || o == .timeout || o == .acknowledgementFailure

/-- The rest of an operation keeps the direction and `IE` in step, starting from direction `d` and
enables `ie`: only a Caller operation enables interrupts, and for its direction (R31, R205); `Idle` is set only with none
enabled, right before the completion (D12); a Caller operation waits only with none enabled (R73, R211)
and returns `Accepted` exactly when they are enabled (R115); an entry signals once, last, `Idle` and
with none enabled (R154), and never returns a value. -/
def opsOk (a : Agent) : Direction → Bits3 → List Prim → Bool
  | _, _, [] => a == .isr
  | d, ie, p :: ps =>
    match p with
    | .reset => opsOk a d 0 ps
    | .setIE m => a == .caller && (ie ||| m) == armMask d && opsOk a d (ie ||| m) ps
    | .clrIE m => decide (ieOk d (ie &&& ~~~m)) && opsOk a d (ie &&& ~~~m) ps
    | .setIdle => a == .isr && ie == 0 && (ps == [.signalRead] || ps == [.signalWrite])
    | .escalate _ => opsOk a .idle 0 ps
    | .signalRead => a == .isr && d == .idle && ie == 0 && ps.isEmpty
    | .signalWrite => a == .isr && d == .idle && ie == 0 && ps.isEmpty
    | .wait _ f =>
      opsOk a d ie ps && (a != .isr || f.goesOn) && (a != .caller || ie == 0) && f.honest &&
        (!f.goesOn || opsOk a .idle 0 ps)
    | .ret o =>
      match a with
      | .caller => if o = .accepted then ie == armMask d && d != .idle else ie == 0
      | .primitive => true
      | .isr => false
    | .retByte => a == .primitive || (a == .caller && ie == 0)
    | .retHalf => a == .primitive || (a == .caller && ie == 0)
    | .retPresent => a == .primitive || (a == .caller && ie == 0)
    | .unreset => opsOk a d ie ps
    | .setAddr _ => opsOk a d ie ps
    | .setCtl _ => opsOk a d ie ps
    | .clrCtl _ => opsOk a d ie ps
    | .wrTx _ => opsOk a d ie ps
    | .wrTxFrom _ _ => opsOk a d ie ps
    | .rdRx => opsOk a d ie ps
    | .store _ _ => opsOk a d ie ps
    | .setStarted _ => opsOk a d ie ps

/-- An operation in a wait is one that can go on either way, within its buffers (R61). -/
abbrev taskOk (s : State) (t : Task) : Prop :=
  opsOk t.frame.agent s.ctx.direction s.regs.ie (.wait t.wait t.onFail :: t.rest) = true ∧
    t.rest.all Prim.inBounds = true ∧ doneOutcome t.frame.outcome = true

/-- The invariant every step keeps. -/
structure Inv (s : State) : Prop where
  /-- The parameters are in range (R6). -/
  par : s.par.wf
  /-- The memory is in its canonical form. -/
  mem : s.mem.wf
  /-- R29. -/
  ctx : ctxOk s.par s.ctx
  /-- R31, R35, R205: in flight means armed for the direction; never while `Idle`. -/
  ie : ieOk s.ctx.direction s.regs.ie
  /-- R36, R212: interrupt context exactly while an entry is in the middle of a wait. -/
  execCtx : s.execCtx = .interrupt ↔ ∃ t, s.task = some t ∧ t.frame.agent = .isr
  /-- The operation in progress. -/
  task : ∀ t, s.task = some t → taskOk s t

/-! ### Premises about the environment -/

/-- R251, for the wait in progress: some answer of the clock, the `k`-th from now on, shows the budget
used. No rule of the model supplies it. -/
def clockProgress (s : State) (t : Task) (k : Nat) : Prop :=
  s.par.timeoutBudget ≤ s.nowAt k - t.t0

/-- PC1 of R215, on a trace: after `Reset`, until `Unreset`, every `Flags` answer is 0. -/
def contractPc1 (tr : List Event) : Prop :=
  ∀ pre mid post f, tr = pre ++ [.reset] ++ mid ++ [.flags f] ++ post → .unreset ∉ mid → f = 0

/-- PC2 of R215, on a trace: once a control bit `m` reads 0, it reads 0 until it is set again. -/
def contractPc2 (m : Bits3) (tr : List Event) : Prop :=
  ∀ pre mid post c c', tr = pre ++ [.ctl c] ++ mid ++ [.ctl c'] ++ post → has c m = false →
    (∀ x, .setCtl x ∈ mid → has x m = false) → has c' m = false

/-- PC6 of R215: the peripheral raises pending flags, and the entry's vector follows R208. -/
def contractPc6 (s : State) : Prop := ∀ r ∈ s.irqs, ∃ f, r = .pending f

/-! ### Words of the statements -/

/-- A `Flags` answer that ends `WAIT_FLAG(m)` with `Success` (R132). -/
abbrev flagReady (m : DataFlag) (f : Bits3) : Prop :=
  has f ifNak = false ∧ has f (flagBits m) = true

/-- The k-th sample of a condition from now on is asserted (R96). -/
def condAt (s : State) (c : Cond) (k : Nat) : Bool :=
  match c with
  | .busy => s.busyAt k
  | .start => has (s.ctlAt k) ctlStart
  | .stop => has (s.ctlAt k) ctlStop

/-- The event of a sample of a condition (R96). -/
def condEvent (s : State) (c : Cond) (k : Nat) : Event :=
  match c with
  | .busy => .busy (s.busyAt k)
  | .start => .ctl (s.ctlAt k)
  | .stop => .ctl (s.ctlAt k)

/-- The environment after `k` samples of a condition. -/
def condSkip (c : Cond) (k : Nat) (e : Env) : Env :=
  match c with
  | .busy => { e with busy := e.busy.skip k }
  | .start => { e with ctl := e.ctl.skip k }
  | .stop => { e with ctl := e.ctl.skip k }

/-- The answers `d'` are the answers `d`; if `hit`, with the `k`-th left out. -/
def leavesOut {α : Type} (hit : Bool) (k : Nat) (d d' : Nat → α) : Prop :=
  ∀ j, d' j = d (if hit && decide (k ≤ j) then j + 1 else j)

/-- From `t` on the environment gives the answers it gives from `s` on, but for the last sample of the
wait `w` and the last clock answer among those taken from `s` to `u` (the last poll of R131, R132). -/
def lastPollLeftOut (w : Wait) (s u t : State) : Prop :=
  leavesOut true (u.env.now.taken - s.env.now.taken - 1) s.nowAt t.nowAt ∧
  leavesOut (w == .clears .busy) (u.env.busy.taken - s.env.busy.taken - 1) s.busyAt t.busyAt ∧
  leavesOut (w == .clears .start || w == .clears .stop)
    (u.env.ctl.taken - s.env.ctl.taken - 1) s.ctlAt t.ctlAt ∧
  leavesOut (w == .flag .tx || w == .flag .rx)
    (u.env.flags.taken - s.env.flags.taken - 1) s.flagsAt t.flagsAt ∧
  (∀ j, t.rdRxAt j = s.rdRxAt j) ∧ ∀ j, t.clientAt j = s.clientAt j

/-- From `s` and from `t` on the environment gives the same answers. -/
def sameAnswers (s t : State) : Prop :=
  ∀ j, t.nowAt j = s.nowAt j ∧ t.busyAt j = s.busyAt j ∧ t.ctlAt j = s.ctlAt j ∧
    t.flagsAt j = s.flagsAt j ∧ t.rdRxAt j = s.rdRxAt j ∧ t.clientAt j = s.clientAt j

/-- The event of a sample of a wait (R131, R132). -/
def Event.isSample : Event → Bool
  | .busy _ | .ctl _ | .flags _ => true
  | .reset | .unreset | .selectPins | .setAddr _ | .setCtl _ | .clrCtl _ => false
  | .setIE _ | .clrIE _ | .wrTx _ | .rdRx _ | .now _ | .report _ => false
  | .readDone _ | .writeDone _ | .result _ | .irq _ => false

/-- The operations of 43_register_protocol.md. -/
def isRegisterOp : Instr → Bool
  | .present .. | .read8 .. | .read16 .. | .readblock .. => true
  | .write8 .. | .write16 .. | .writeblock .. => true
  | .read .. | .write .. | .vecNone | .vecNak | .vecRxrdy | .vecTxrdy | .vecOther .. => false
  | .waitClears .. | .waitFlag .. | .checkNotBusy | .escalate .. | .regPrefix .. | .init => false

/-- PRESENT, the one register operation that returns a Boolean (R171). -/
def isPresent : Instr → Bool
  | .present .. => true
  | .read8 .. | .read16 .. | .readblock .. | .write8 .. | .write16 .. | .writeblock .. => false
  | .read .. | .write .. | .vecNone | .vecNak | .vecRxrdy | .vecTxrdy | .vecOther .. => false
  | .waitClears .. | .waitFlag .. | .checkNotBusy | .escalate .. | .regPrefix .. | .init => false

/-- What a register operation returns when a wait of its own has failed with report `r`: the outcome of
that wait unchanged (43_register_protocol.md, introduction), or `false` (R171, D22). -/
def failureResult (i : Instr) (r : FaultReport) : OpResult :=
  if isPresent i then .present false else .outcome (locClass r.loc)

/-- The result carries an outcome of a wait that failed. -/
def OpResult.failed : OpResult → Bool
  | .outcome o | .byte o _ | .half o _ => o != .success && o != .invalidArgument
  | .present _ => false

/-- For `k` steps from `s` an operation is in progress at the start of each. -/
def inProgressFor (k : Nat) (s : State) : Prop :=
  ∀ j < k, ∃ w, Host.Core.run Sys2Proof.core j s = .next w ∧ w.task ≠ none

/-- The descriptors R82 gives a meaning to, field by field. -/
abbrev legalDescriptor (lenBits : Nat) (w : BitVec 64) (buf : Option BufRef) : Prop :=
  let op := w.extractLsb' 56 8
  let client := w.extractLsb' 48 8
  let flags := w.extractLsb' 40 8
  let reg := w.extractLsb' 24 8
  let rsv := w.extractLsb' 16 8
  let arg := w.extractLsb' 0 16
  rsv = 0 ∧
    (((op = 0x01 ∨ op = 0x02) ∧ flags &&& 0xF8 = 0 ∧ reg = 0 ∧ arg.toNat < 2 ^ lenBits ∧
        buf.isSome) ∨
      (client = 0 ∧ flags = 0 ∧
        ((op = 0x10 ∧ reg = 0 ∧ arg = 0 ∧ buf = none) ∨
          ((op = 0x11 ∨ op = 0x12) ∧ arg = 0 ∧ buf = none) ∨
          ((op = 0x13 ∨ op = 0x16) ∧ arg.toNat < 2 ^ lenBits ∧ buf.isSome) ∨
          (op = 0x14 ∧ arg.toNat < 256 ∧ buf = none) ∨
          (op = 0x15 ∧ buf = none))))

/-- The internal primitive that a wait is. -/
def waitInstr : Wait → Instr
  | .clears c => .waitClears c
  | .flag m => .waitFlag m

/-- A wait presented on its own, after the clock has been read at `t0` and `e` has elapsed. -/
def waitTask (w : Wait) (t0 e : Word32) : Task := ⟨w, t0, e, .ret, [.ret .success], primFrame⟩

/-- An event of a run whose clock is `d` ahead: the clock answers, and the `t0` diagnostic of a
`WAIT_CLEARS` timeout, are `d` higher (R136). -/
def Event.shiftClock (d : Word32) : Event → Event
  | .now t => .now (t + d)
  | .report ⟨.guardClearTimeout, d1, d2, d3⟩ => .report ⟨.guardClearTimeout, d1, d2 + d, d3⟩
  | e => e

/-- What an escalation leaves of the interface registers (R202, R243). -/
def escalatedRegs (s : State) : Regs :=
  { s.regs with rst := !s.par.escalateRelease, ie := 0, ctlw := 0 }

/-- The events of an escalation (R202). -/
def escalation (s : State) (r : FaultReport) : List Event :=
  [.report r, .reset] ++ (if s.par.escalateRelease then [.unreset] else [])

/-- The reports the sink holds after one more (R204). -/
def delivered (s : State) (r : FaultReport) : List FaultReport :=
  if s.par.sinkNull then s.sink else s.sink ++ [r]

/-- The reports among the events. -/
def reportsOf : List Event → List FaultReport
  | [] => []
  | .report r :: es => r :: reportsOf es
  | _ :: es => reportsOf es

/-- The address phase of a register operation finds the bus idle and every byte acknowledged at the
first sample (R170). -/
abbrev prefixReady (s : State) : Prop :=
  s.busyAt 0 = false ∧ flagReady .tx (s.flagsAt 0) ∧ flagReady .tx (s.flagsAt 1)

/-- The events of `REG_PREFIX(addr, reg)` with a ready bus and no NAK (the example of R170). -/
def prefixEvents (s : State) (addr reg : Byte) : List Event :=
  [.reset, .unreset, .now (s.nowAt 0), .busy false, .setAddr addr, .setCtl 0x3, .now (s.nowAt 1),
   .flags (s.flagsAt 0), .wrTx reg, .now (s.nowAt 2), .flags (s.flagsAt 1)]

/-- The sink, and whether it is there, left out of a state (R204). -/
def hideSink (s : State) : State :=
  { s with par := { s.par with sinkNull := false }, sink := [] }

/-- Two outcomes are the same but for the sink. -/
def sameButSink (o p : Host.Outcome State Fault Refusal) : Prop :=
  match o, p with
  | .next u, .next v => hideSink u = hideSink v
  | .fault f, .fault g => f = g
  | .refused q, .refused r => q = r
  | _, _ => False

end Sys2Proof.Machine
end

