-- ==== Sys2Proof/Certificates/Slice0/Obligations.lean ====
section
/-! DEFINITION. The statements for the provers. Each docstring names the rule of spec/ it formalises.
`s.nowAt k`, `s.busyAt k`, `s.ctlAt k`, `s.flagsAt k`, `s.rdRxAt k`, `s.clientAt k` are the k-th
answers of the environment from state `s` on, scripted or free: a statement about them holds for every
environment. -/

open Sys2Proof Sys2Proof.Machine

/-! ### Encoding -/

/-- Decoding the presentation of a well-formed operation gives the operation back (R80 to R90). -/
def Obligations.DecodeOfEncodeIsIdentity : Prop :=
  ∀ (lenBits : Nat) (i : Instr), i.wf lenBits = true → decode lenBits (encode i) = .ok i

/-- Whatever decodes is the presentation of the operation it decodes to, which is well-formed: every
presentation has at most one meaning, and no bit of it is dropped. -/
def Obligations.EncodeOfDecodeIsIdentity : Prop :=
  ∀ (lenBits : Nat) (p : Packet) (i : Instr), decode lenBits p = .ok i →
    encode i = p ∧ i.wf lenBits = true

/-- R99, the worked encodings: what each line assembles to, and what the word decodes to. -/
def Obligations.WorkedEncodings : Prop :=
  ∀ b : BufRef,
    (assemble (.read 1 [.start, .stop] 0x50 3 b) = some (.desc 0x0101035000000003 (some b)) ∧
      decode 8 (.desc 0x0101035000000003 (some b)) = .ok (.read 1 0x03 0x50 3 b)) ∧
    (assemble (.write 1 [.start, .stop] 0x48 2 b) = some (.desc 0x0201034800000002 (some b)) ∧
      decode 8 (.desc 0x0201034800000002 (some b)) = .ok (.write 1 0x03 0x48 2 b)) ∧
    (assemble (.write 0 [.stop] 0x48 1 b) = some (.desc 0x0200024800000001 (some b)) ∧
      decode 8 (.desc 0x0200024800000001 (some b)) = .ok (.write 0 0x02 0x48 1 b)) ∧
    (assemble (.read 0 [.restart, .stop] 0x48 1 b) = some (.desc 0x0100064800000001 (some b)) ∧
      decode 8 (.desc 0x0100064800000001 (some b)) = .ok (.read 0 0x06 0x48 1 b)) ∧
    (assemble (.present 0x3C) = some (.desc 0x1000003C00000000 none) ∧
      decode 8 (.desc 0x1000003C00000000 none) = .ok (.present 0x3C)) ∧
    (assemble (.read16 0x40 0x05) = some (.desc 0x1200004005000000 none) ∧
      decode 8 (.desc 0x1200004005000000 none) = .ok (.read16 0x40 0x05)) ∧
    (assemble (.readblock 0x40 0x10 4 b) = some (.desc 0x1300004010000004 (some b)) ∧
      decode 8 (.desc 0x1300004010000004 (some b)) = .ok (.readblock 0x40 0x10 4 b)) ∧
    (assemble (.write16 0x40 0x02 0xBEEF) = some (.desc 0x150000400200BEEF none) ∧
      decode 8 (.desc 0x150000400200BEEF none) = .ok (.write16 0x40 0x02 0xBEEF))

/-- R82: the descriptors that decode are those whose fields are as the table of R82 says, field by
field; a zero count and a `null` or empty buffer do decode. -/
def Obligations.DecodableDescriptors : Prop :=
  ∀ (lenBits : Nat) (w : BitVec 64) (buf : Option BufRef),
    (∃ i, decode lenBits (.desc w buf) = .ok i) ↔ legalDescriptor lenBits w buf

/-- R84: a descriptor that R82 does not allow is refused, by a name that says what is wrong with it, and
the refused descriptor has no step. -/
def Obligations.RefusedDescriptors : Prop :=
  ∀ (lenBits : Nat) (w : BitVec 64) (buf : Option BufRef),
    (¬ legalDescriptor lenBits w buf → ∃ e, decode lenBits (.desc w buf) = .error e) ∧
    ∀ e : Reject, decode lenBits (.desc w buf) = .error e →
    (let op := w.extractLsb' 56 8
     let client := w.extractLsb' 48 8
     let flags := w.extractLsb' 40 8
     let reg := w.extractLsb' 24 8
     let rsv := w.extractLsb' 16 8
     let arg := w.extractLsb' 0 16
     match e with
     | .opcode => op ∉ ([0x01, 0x02, 0x10, 0x11, 0x12, 0x13, 0x14, 0x15, 0x16] : List Byte)
     | .field =>
       rsv ≠ 0 ∨ (op ∉ ([0x01, 0x02] : List Byte) ∧ (client ≠ 0 ∨ flags ≠ 0)) ∨
         (op ∈ ([0x01, 0x02, 0x10] : List Byte) ∧ reg ≠ 0) ∨
         (op ∈ ([0x10, 0x11, 0x12] : List Byte) ∧ arg ≠ 0) ∨ (op = 0x14 ∧ 256 ≤ arg.toNat)
     | .flags => op ∈ ([0x01, 0x02] : List Byte) ∧ flags &&& 0xF8 ≠ 0
     | .length =>
       op ∈ ([0x01, 0x02, 0x13, 0x16] : List Byte) ∧ 2 ^ lenBits ≤ arg.toNat
     | .operand =>
       (op ∈ ([0x01, 0x02, 0x13, 0x16] : List Byte) ∧ buf = none) ∨
         (op ∈ ([0x10, 0x11, 0x12, 0x14, 0x15] : List Byte) ∧ buf ≠ none)) ∧
    ∀ (s : State) (rest : List Item), s.callerReady = true → s.par.lenBits = lenBits →
      s.program = .packet (.desc w buf) :: rest → step s = .refused (.undecodable e)

/-- R89: every 8-bit value decodes, to the handler of the table. -/
def Obligations.EveryVectorDecodes : Prop :=
  ∀ (lenBits : Nat) (v : Byte),
    decode lenBits (.vec v) =
      .ok (if v = 0x00 then .vecNone else if v = 0x01 then .vecNak else if v = 0x02 then .vecRxrdy
        else if v = 0x03 then .vecTxrdy else .vecOther v)

/-! ### Steps and agents -/

/-- When nothing is in progress and the agent may move, a step runs the operation that the next
presentation decodes to, with the presentation taken (R39, R80). -/
def Obligations.StepRunsThePresentedOperation : Prop :=
  ∀ (s : State) (p : Packet) (rest : List Item) (i : Instr),
    s.program = .packet p :: rest → decode s.par.lenBits p = .ok i → s.ready i = true →
    step s = exec i { s with program := rest }

/-- R211, R212: while an operation or an entry is in progress no other starts: nothing presented or
raised is taken, and no `Irq` event appears. -/
def Obligations.NothingInterleaves : Prop :=
  ∀ (s u : State) (t : Task), s.task = some t → step s = .next u →
    u.program = s.program ∧ u.irqs = s.irqs ∧
      ∃ evs, u.trace = s.trace ++ evs ∧ ∀ v, .irq v ∉ evs

/-- R110, R253: while in flight a Caller operation holds, with nothing changed; and if the peripheral
raises no entry, the transfer stays armed for ever, whatever the Caller presents. That holding is a step
that changes nothing is the model's choice (log entry 4), and so is that what stands in the queue behind the
held descriptor, an `irq` line too, waits (log entry 31). -/
def Obligations.InFlightTheCallerHolds : Prop :=
  (∀ (s : State) (i : Instr), i.isCaller = true → s.inFlight = true → exec i s = .next s) ∧
  ∀ (s : State), s.inFlight = true → s.task = none → s.irqs = [] →
    (s.program = [] ∨ ∃ w buf rest, s.program = .packet (.desc w buf) :: rest) →
    ∀ k, Host.Core.run Sys2Proof.core k s = .next s

/-- R207, R208: an entry the peripheral raises starts only while `IE != 0`; raised as a vector, it is
that handler's; raised as pending flags, it is the handler of the first enabled source in the order
NAK, RX, TX; flags with no enabled source start none. A Caller operation that holds lets it start, before
anything behind it in the queue (log entry 31). An
`irq` line presented with `IE = 0` starts no entry unless `Idle` (log entry 5). -/
def Obligations.RaisedEntries : Prop :=
  ∀ (s : State), s.task = none → s.execCtx = .normal →
    (s.regs.ie = 0 → s.program = [] → step s = .next s) ∧
    (s.regs.ie ≠ 0 →
      (s.program = [] ∨ ∃ w buf rest, s.program = .packet (.desc w buf) :: rest) →
      (∀ v rs, s.irqs = .vector v :: rs → step s = exec (decodeVector v) { s with irqs := rs }) ∧
      ∀ f rs, s.irqs = .pending f :: rs →
        (f &&& s.regs.ie = 0 → step s = .next { s with irqs := rs }) ∧
        (f &&& s.regs.ie ≠ 0 →
          step s = exec (if has (f &&& s.regs.ie) 0x4 then .vecNak
            else if has (f &&& s.regs.ie) 0x2 then .vecRxrdy else .vecTxrdy)
              { s with irqs := rs })) ∧
    (s.regs.ie = 0 → s.ctx.direction ≠ .idle → ∀ v rest,
      s.program = .packet (.vec v) :: rest → step s = .next { s with program := rest })

/-- R71: a Caller access to the in-flight buffer is a race and a fault; any other access of the Caller
is performed. That the access is an item, and which accesses race, is the model's choice (log entry 16), and
so is that it moves before a request that waits in `irqs` (log entry 29). -/
def Obligations.BufferRace : Prop :=
  ∀ (s : State) (a : Nat) (b : Byte) (rest : List Item), s.task = none →
    (s.inFlight = true → bufHolds s.ctx.buffer a = true →
      (s.program = .store a b :: rest → step s = .fault .bufferRace) ∧
      (s.program = .load a :: rest → step s = .fault .bufferRace)) ∧
    (s.inFlight = false ∨ bufHolds s.ctx.buffer a = false →
      (s.program = .store a b :: rest →
        step s = .next { s with program := rest, mem := s.mem.write a b }) ∧
      (s.program = .load a :: rest → step s = .next { s with program := rest }))

/-! ### The commands -/

/-- R111, R112, R178: with `length == 0` or an empty buffer, READ, WRITE, READBLOCK and WRITEBLOCK
return InvalidArgument: no state change, no interface event, no report. -/
def Obligations.InvalidArgumentTouchesNothing : Prop :=
  ∀ (s : State) (client flags addr reg : Byte) (n : BitVec 16) (buf : BufRef),
    s.callerReady = true → (n = 0 ∨ buf = .null ∨ bufCap buf = 0) →
    let t : State :=
      { s with
        trace := s.trace ++ [.result (.outcome .invalidArgument)]
        lastResult := some (.outcome .invalidArgument) }
    exec (.read client flags addr n buf) s = .next t ∧
    exec (.write client flags addr n buf) s = .next t ∧
    exec (.readblock addr reg n buf) s = .next t ∧
    exec (.writeblock addr reg n buf) s = .next t

/-- R110, precondition 4: a count above the capacity of a non-empty buffer is refused. -/
def Obligations.LengthOverCapacityRefused : Prop :=
  ∀ (s : State) (client flags addr reg : Byte) (n : BitVec 16) (buf : BufRef),
    s.callerReady = true → 0 < bufCap buf → bufCap buf < n.toNat →
    exec (.read client flags addr n buf) s = .refused .lengthOverCapacity ∧
    exec (.write client flags addr n buf) s = .refused .lengthOverCapacity ∧
    exec (.readblock addr reg n buf) s = .refused .lengthOverCapacity ∧
    exec (.writeblock addr reg n buf) s = .refused .lengthOverCapacity

/-- R111, START or RESTART requested: the busy check unless this is a RESTART (here the bus is idle at
the first sample), the address phase, for a single byte with STOP the wait for START to deassert (here
at the first sample) and STOP, then the enables, and Accepted. Everything else is unchanged. -/
def Obligations.ReadWithStartAccepted : Prop :=
  ∀ (s : State) (client flags addr : Byte) (n : BitVec 16) (buf : BufRef),
    s.callerReady = true → has flags 0x05 = true → 0 < n.toNat → n.toNat ≤ bufCap buf →
    let restart := has flags 0x04
    let single := n.toNat == 1 && has flags 0x02
    let k := if restart then 0 else 1
    (restart = false → s.busyAt 0 = false) →
    (single = true → has (s.ctlAt 0) 0x2 = false) →
    exec (.read client flags addr n buf) s = .next
      { s with
        ctx := ⟨.reading, buf, n.toNat, 0, n.toNat, flags, true, addr⟩
        regs :=
          { s.regs with
            rst := restart && s.regs.rst
            addr := addr
            ctlw := (if restart then s.regs.ctlw &&& 0x6 else 0) ||| 0x2 |||
              (if single then 0x4 else 0)
            ie := 0x6 }
        env :=
          { s.env with
            now := s.env.now.skip (k + if single then 1 else 0)
            busy := s.env.busy.skip k
            ctl := s.env.ctl.skip (if single then 1 else 0) }
        trace := s.trace ++
          (if restart then [] else [.reset, .unreset, .now (s.nowAt 0), .busy false]) ++
          [.setAddr addr, .clrCtl 0x1, .setCtl 0x2] ++
          (if single then [.now (s.nowAt k), .ctl (s.ctlAt 0), .setCtl 0x4] else []) ++
          [.setIE 0x6, .result (.outcome .accepted)]
        lastResult := some (.outcome .accepted) }

/-- R111, R112, continuation: ProtocolViolation when no START is outstanding, the context staying as
recorded; else Accepted with the enables, after STOP at once for a READ of a single byte with STOP. -/
def Obligations.Continuations : Prop :=
  ∀ (s : State) (client flags addr : Byte) (n : BitVec 16) (buf : BufRef),
    s.callerReady = true → has flags 0x05 = false → 0 < n.toNat → n.toNat ≤ bufCap buf →
    let single := n.toNat == 1 && has flags 0x02
    (s.ctx.started = false →
      let t (d : Direction) : State :=
        { s with
          ctx := ⟨d, buf, n.toNat, 0, n.toNat, flags, false, addr⟩
          trace := s.trace ++ [.result (.outcome .protocolViolation)]
          lastResult := some (.outcome .protocolViolation) }
      exec (.read client flags addr n buf) s = .next (t .reading) ∧
      exec (.write client flags addr n buf) s = .next (t .writing)) ∧
    (s.ctx.started = true →
      let t (d : Direction) (stop : Bool) (ie : Bits3) : State :=
        { s with
          ctx := ⟨d, buf, n.toNat, 0, n.toNat, flags, true, addr⟩
          regs := { s.regs with ctlw := s.regs.ctlw ||| (if stop then 0x4 else 0), ie := ie }
          trace := s.trace ++ (if stop then [.setCtl 0x4] else []) ++
            [.setIE ie, .result (.outcome .accepted)]
          lastResult := some (.outcome .accepted) }
      exec (.read client flags addr n buf) s = .next (t .reading single 0x6) ∧
      exec (.write client flags addr n buf) s = .next (t .writing false 0x5))

/-- R112, START or RESTART requested: as READ, with the transmit direction and no START wait. -/
def Obligations.WriteWithStartAccepted : Prop :=
  ∀ (s : State) (client flags addr : Byte) (n : BitVec 16) (buf : BufRef),
    s.callerReady = true → has flags 0x05 = true → 0 < n.toNat → n.toNat ≤ bufCap buf →
    let restart := has flags 0x04
    let k := if restart then 0 else 1
    (restart = false → s.busyAt 0 = false) →
    exec (.write client flags addr n buf) s = .next
      { s with
        ctx := ⟨.writing, buf, n.toNat, 0, n.toNat, flags, true, addr⟩
        regs :=
          { s.regs with
            rst := restart && s.regs.rst
            addr := addr
            ctlw := (if restart then s.regs.ctlw else 0) ||| 0x3
            ie := 0x5 }
        env := { s.env with now := s.env.now.skip k, busy := s.env.busy.skip k }
        trace := s.trace ++
          (if restart then [] else [.reset, .unreset, .now (s.nowAt 0), .busy false]) ++
          [.setAddr addr, .setCtl 0x3, .setIE 0x5, .result (.outcome .accepted)]
        lastResult := some (.outcome .accepted) }

/-- The waits of a command that time out (R111, R112, R200). START without RESTART on a bus that is still
busy when the budget is used: BusBusyTimeout, exactly one report with `cond = C_BUSY`, and
`direction = Idle`. For a READ of a single byte with STOP, START still asserted when the budget is used:
Timeout with one report, `direction = Idle`, and `started` stays true. -/
def Obligations.CommandTimeouts : Prop :=
  (∀ (s : State) (client flags addr : Byte) (n : BitVec 16) (buf : BufRef),
     s.callerReady = true → has flags 0x01 = true → has flags 0x04 = false → 0 < n.toNat →
     n.toNat ≤ bufCap buf →
     let e := s.nowAt 1 - s.nowAt 0
     let r : FaultReport := ⟨.guardClearTimeout, 0x01, s.nowAt 0, e⟩
     s.busyAt 0 = true → s.par.timeoutBudget ≤ e →
     let t : State :=
       { s with
         ctx := ⟨.idle, buf, n.toNat, 0, n.toNat, flags, s.ctx.started, addr⟩
         regs := escalatedRegs s
         env := { s.env with now := s.env.now.skip 2, busy := s.env.busy.skip 1 }
         trace := s.trace ++
           [.reset, .unreset, .now (s.nowAt 0), .busy true, .now (s.nowAt 1)] ++
           escalation s r ++ [.result (.outcome .busBusyTimeout)]
         sink := delivered s r
         lastResult := some (.outcome .busBusyTimeout) }
     exec (.read client flags addr n buf) s = .next t ∧
     exec (.write client flags addr n buf) s = .next t) ∧
  (∀ (s : State) (client flags addr : Byte) (n : BitVec 16) (buf : BufRef),
     s.callerReady = true → has flags 0x05 = true → n.toNat = 1 → has flags 0x02 = true →
     1 ≤ bufCap buf →
     let restart := has flags 0x04
     let k := if restart then 0 else 1
     let e := s.nowAt (k + 1) - s.nowAt k
     let r : FaultReport := ⟨.guardClearTimeout, 0x02, s.nowAt k, e⟩
     (restart = false → s.busyAt 0 = false) →
     has (s.ctlAt 0) 0x2 = true → s.par.timeoutBudget ≤ e →
     exec (.read client flags addr n buf) s = .next
       { s with
         ctx := ⟨.idle, buf, 1, 0, 1, flags, true, addr⟩
         regs := { escalatedRegs s with addr := addr }
         env :=
           { s.env with
             now := s.env.now.skip (k + 2), busy := s.env.busy.skip k, ctl := s.env.ctl.skip 1 }
         trace := s.trace ++
           (if restart then [] else [.reset, .unreset, .now (s.nowAt 0), .busy false]) ++
           [.setAddr addr, .clrCtl 0x1, .setCtl 0x2, .now (s.nowAt k), .ctl (s.ctlAt 0),
            .now (s.nowAt (k + 1))] ++
           escalation s r ++ [.result (.outcome .timeout)]
         sink := delivered s r
         lastResult := some (.outcome .timeout) })

/-! ### The timing guard -/

/-- R131, turn by turn: a clear condition returns Success after the clock and the sample; an asserted
one with the budget used escalates and returns Timeout; an asserted one within the budget keeps
polling, from the start time `t0` on. So presented alone; and inside any operation, which goes on with
the rest of its pseudocode and its own locals, or does what it says of the failure. -/
def Obligations.WaitClearsTurns : Prop :=
  ∀ (s : State) (c : Cond),
    (s.engineFree = true →
      let e := s.nowAt 1 - s.nowAt 0
      let r : FaultReport := ⟨.guardClearTimeout, diagCode (condCode c), s.nowAt 0, e⟩
      (condAt s c 0 = false → exec (.waitClears c) s = .next
        { s with
          env := condSkip c 1 { s.env with now := s.env.now.skip 1 }
          trace := s.trace ++ [.now (s.nowAt 0), condEvent s c 0]
          lastResult := some (.outcome .success) }) ∧
      (condAt s c 0 = true → s.par.timeoutBudget ≤ e → exec (.waitClears c) s = .next
        { s with
          ctx := { s.ctx with direction := .idle }
          regs := escalatedRegs s
          env := condSkip c 1 { s.env with now := s.env.now.skip 2 }
          trace := s.trace ++ [.now (s.nowAt 0), condEvent s c 0, .now (s.nowAt 1)] ++
            escalation s r
          sink := delivered s r
          lastResult := some (.outcome .timeout) }) ∧
      (condAt s c 0 = true → e < s.par.timeoutBudget → exec (.waitClears c) s = .next
        { s with
          env := condSkip c 1 { s.env with now := s.env.now.skip 2 }
          trace := s.trace ++ [.now (s.nowAt 0), condEvent s c 0, .now (s.nowAt 1)]
          task := some (waitTask (.clears c) (s.nowAt 0) e) })) ∧
    (∀ t0 e0, s.task = some (waitTask (.clears c) t0 e0) →
      let e := s.nowAt 0 - t0
      let r : FaultReport := ⟨.guardClearTimeout, diagCode (condCode c), t0, e⟩
      (condAt s c 0 = false → step s = .next
        { s with
          env := condSkip c 1 s.env
          trace := s.trace ++ [condEvent s c 0]
          task := none
          lastResult := some (.outcome .success) }) ∧
      (condAt s c 0 = true → s.par.timeoutBudget ≤ e → step s = .next
        { s with
          ctx := { s.ctx with direction := .idle }
          regs := escalatedRegs s
          env := condSkip c 1 { s.env with now := s.env.now.skip 1 }
          trace := s.trace ++ [condEvent s c 0, .now (s.nowAt 0)] ++ escalation s r
          sink := delivered s r
          task := none
          lastResult := some (.outcome .timeout) }) ∧
      (condAt s c 0 = true → e < s.par.timeoutBudget → step s = .next
        { s with
          env := condSkip c 1 { s.env with now := s.env.now.skip 1 }
          trace := s.trace ++ [condEvent s c 0, .now (s.nowAt 0)]
          task := some (waitTask (.clears c) t0 e) })) ∧
    (∀ t : Task, s.task = some t → t.wait = .clears c → t.rest.all Prim.inBounds = true →
      let e := s.nowAt 0 - t.t0
      let r : FaultReport := ⟨.guardClearTimeout, diagCode (condCode c), t.t0, e⟩
      (condAt s c 0 = false → step s = .next (runOps t.rest t.frame
        { s with
          env := condSkip c 1 s.env
          trace := s.trace ++ [condEvent s c 0]
          task := none })) ∧
      (condAt s c 0 = true → s.par.timeoutBudget ≤ e →
        let v : State :=
          { s with
            ctx := { s.ctx with direction := .idle }
            regs := escalatedRegs s
            env := condSkip c 1 { s.env with now := s.env.now.skip 1 }
            trace := s.trace ++ [condEvent s c 0, .now (s.nowAt 0)] ++ escalation s r
            sink := delivered s r
            task := none }
        step s = .next (match t.onFail with
          | .ret => finish t.frame (.outcome .timeout) v
          | .retAs o => finish t.frame (.outcome o) v
          | .retFalse => finish t.frame (.present false) v
          | .record => runOps t.rest { t.frame with outcome := .timeout } v
          | .ignore => runOps t.rest t.frame v)) ∧
      (condAt s c 0 = true → e < s.par.timeoutBudget → step s = .next
        { s with
          env := condSkip c 1 { s.env with now := s.env.now.skip 1 }
          trace := s.trace ++ [condEvent s c 0, .now (s.nowAt 0)]
          task := some { t with elapsed := e } }))

/-- R132, turn by turn: a NAK in the sample escalates and returns AcknowledgementFailure, even with the
wanted flag set; the wanted flag returns Success; otherwise as R131. So presented alone; and inside any
operation, which goes on with the rest of its pseudocode and its own locals, or does what it says of the
failure. -/
def Obligations.WaitFlagTurns : Prop :=
  ∀ (s : State) (m : DataFlag),
    let f := s.flagsAt 0
    (s.engineFree = true →
      let e := s.nowAt 1 - s.nowAt 0
      (has f 0x4 = true → exec (.waitFlag m) s = .next
        { s with
          ctx := { s.ctx with direction := .idle }
          regs := escalatedRegs s
          env := { s.env with now := s.env.now.skip 1, flags := s.env.flags.skip 1 }
          trace := s.trace ++ [.now (s.nowAt 0), .flags f] ++
            escalation s ⟨.guardFlagNak, diagBits (flagBits m), diagBits f, 0⟩
          sink := delivered s ⟨.guardFlagNak, diagBits (flagBits m), diagBits f, 0⟩
          lastResult := some (.outcome .acknowledgementFailure) }) ∧
      (flagReady m f → exec (.waitFlag m) s = .next
        { s with
          env := { s.env with now := s.env.now.skip 1, flags := s.env.flags.skip 1 }
          trace := s.trace ++ [.now (s.nowAt 0), .flags f]
          lastResult := some (.outcome .success) }) ∧
      (has f 0x4 = false → has f (flagBits m) = false → s.par.timeoutBudget ≤ e →
        exec (.waitFlag m) s = .next
        { s with
          ctx := { s.ctx with direction := .idle }
          regs := escalatedRegs s
          env := { s.env with now := s.env.now.skip 2, flags := s.env.flags.skip 1 }
          trace := s.trace ++ [.now (s.nowAt 0), .flags f, .now (s.nowAt 1)] ++
            escalation s ⟨.guardFlagTimeout, diagBits (flagBits m), diagBits f, e⟩
          sink := delivered s ⟨.guardFlagTimeout, diagBits (flagBits m), diagBits f, e⟩
          lastResult := some (.outcome .timeout) }) ∧
      (has f 0x4 = false → has f (flagBits m) = false → e < s.par.timeoutBudget →
        exec (.waitFlag m) s = .next
        { s with
          env := { s.env with now := s.env.now.skip 2, flags := s.env.flags.skip 1 }
          trace := s.trace ++ [.now (s.nowAt 0), .flags f, .now (s.nowAt 1)]
          task := some (waitTask (.flag m) (s.nowAt 0) e) })) ∧
    (∀ t0 e0, s.task = some (waitTask (.flag m) t0 e0) →
      let e := s.nowAt 0 - t0
      (has f 0x4 = true → step s = .next
        { s with
          ctx := { s.ctx with direction := .idle }
          regs := escalatedRegs s
          env := { s.env with flags := s.env.flags.skip 1 }
          trace := s.trace ++ [.flags f] ++
            escalation s ⟨.guardFlagNak, diagBits (flagBits m), diagBits f, 0⟩
          sink := delivered s ⟨.guardFlagNak, diagBits (flagBits m), diagBits f, 0⟩
          task := none
          lastResult := some (.outcome .acknowledgementFailure) }) ∧
      (flagReady m f → step s = .next
        { s with
          env := { s.env with flags := s.env.flags.skip 1 }
          trace := s.trace ++ [.flags f]
          task := none
          lastResult := some (.outcome .success) }) ∧
      (has f 0x4 = false → has f (flagBits m) = false → s.par.timeoutBudget ≤ e → step s = .next
        { s with
          ctx := { s.ctx with direction := .idle }
          regs := escalatedRegs s
          env := { s.env with now := s.env.now.skip 1, flags := s.env.flags.skip 1 }
          trace := s.trace ++ [.flags f, .now (s.nowAt 0)] ++
            escalation s ⟨.guardFlagTimeout, diagBits (flagBits m), diagBits f, e⟩
          sink := delivered s ⟨.guardFlagTimeout, diagBits (flagBits m), diagBits f, e⟩
          task := none
          lastResult := some (.outcome .timeout) }) ∧
      (has f 0x4 = false → has f (flagBits m) = false → e < s.par.timeoutBudget → step s = .next
        { s with
          env := { s.env with now := s.env.now.skip 1, flags := s.env.flags.skip 1 }
          trace := s.trace ++ [.flags f, .now (s.nowAt 0)]
          task := some (waitTask (.flag m) t0 e) })) ∧
    (∀ t : Task, s.task = some t → t.wait = .flag m → t.rest.all Prim.inBounds = true →
      let e := s.nowAt 0 - t.t0
      let fails (o : OutcomeCode) (v : State) : State :=
        match t.onFail with
        | .ret => finish t.frame (.outcome o) v
        | .retAs o' => finish t.frame (.outcome o') v
        | .retFalse => finish t.frame (.present false) v
        | .record => runOps t.rest { t.frame with outcome := o } v
        | .ignore => runOps t.rest t.frame v
      (has f 0x4 = true → step s = .next (fails .acknowledgementFailure
        { s with
          ctx := { s.ctx with direction := .idle }
          regs := escalatedRegs s
          env := { s.env with flags := s.env.flags.skip 1 }
          trace := s.trace ++ [.flags f] ++
            escalation s ⟨.guardFlagNak, diagBits (flagBits m), diagBits f, 0⟩
          sink := delivered s ⟨.guardFlagNak, diagBits (flagBits m), diagBits f, 0⟩
          task := none })) ∧
      (flagReady m f → step s = .next (runOps t.rest t.frame
        { s with
          env := { s.env with flags := s.env.flags.skip 1 }
          trace := s.trace ++ [.flags f]
          task := none })) ∧
      (has f 0x4 = false → has f (flagBits m) = false → s.par.timeoutBudget ≤ e →
        step s = .next (fails .timeout
        { s with
          ctx := { s.ctx with direction := .idle }
          regs := escalatedRegs s
          env := { s.env with now := s.env.now.skip 1, flags := s.env.flags.skip 1 }
          trace := s.trace ++ [.flags f, .now (s.nowAt 0)] ++
            escalation s ⟨.guardFlagTimeout, diagBits (flagBits m), diagBits f, e⟩
          sink := delivered s ⟨.guardFlagTimeout, diagBits (flagBits m), diagBits f, e⟩
          task := none })) ∧
      (has f 0x4 = false → has f (flagBits m) = false → e < s.par.timeoutBudget → step s = .next
        { s with
          env := { s.env with now := s.env.now.skip 1, flags := s.env.flags.skip 1 }
          trace := s.trace ++ [.flags f, .now (s.nowAt 0)]
          task := some { t with elapsed := e } }))

/-- R133: the busy check resets and releases the peripheral (`IE` and `CTLW` cleared), and then it is
`WAIT_CLEARS(C_BUSY)`; so an idle bus returns Success. -/
def Obligations.CheckNotBusyResult : Prop :=
  ∀ (s : State), s.engineFree = true →
    exec .checkNotBusy s = exec (.waitClears .busy)
      { s with
        regs := { s.regs with rst := false, ie := 0, ctlw := 0 }
        trace := s.trace ++ [.reset, .unreset] } ∧
    (s.busyAt 0 = false → exec .checkNotBusy s = .next
      { s with
        regs := { s.regs with rst := false, ie := 0, ctlw := 0 }
        env := { s.env with now := s.env.now.skip 1, busy := s.env.busy.skip 1 }
        trace := s.trace ++ [.reset, .unreset, .now (s.nowAt 0), .busy false]
        lastResult := some (.outcome .success) })

/-- R134: a wait emits exactly one report when it returns anything but Success, none when it returns
Success, and none while it polls. -/
def Obligations.OneReportPerFailedWait : Prop :=
  ∀ (s u : State) (w : Wait),
    (s.engineFree = true ∧ exec (waitInstr w) s = .next u) ∨
      (∃ t0 e, s.task = some (waitTask w t0 e) ∧ step s = .next u) →
    (u.task ≠ none ∧ u.faultCount = s.faultCount) ∨
    (u.task = none ∧ u.lastResult = some (.outcome .success) ∧ u.faultCount = s.faultCount) ∨
    (u.task = none ∧ (∃ o, o ≠ .success ∧ u.lastResult = some (.outcome o)) ∧
      u.faultCount = s.faultCount + 1)

/-- R135: while the condition stays asserted and the clock shows less than the budget, the wait goes
on, for any number of polls, with no result and no report: a stalled clock makes it diverge. -/
def Obligations.StalledClockDiverges : Prop :=
  ∀ (s : State), s.engineFree = true → ∀ k : Nat,
    (∀ j ≤ k, s.nowAt (j + 1) - s.nowAt 0 < s.par.timeoutBudget) →
    (∀ c, (∀ j ≤ k, condAt s c j = true) →
      ∃ u v, exec (.waitClears c) s = .next u ∧ Host.Core.run Sys2Proof.core k u = .next v ∧
        v.task ≠ none ∧ v.lastResult = s.lastResult ∧ v.faultCount = s.faultCount) ∧
    (∀ m, (∀ j ≤ k, has (s.flagsAt j) 0x4 = false ∧ has (s.flagsAt j) (flagBits m) = false) →
      ∃ u v, exec (.waitFlag m) s = .next u ∧ Host.Core.run Sys2Proof.core k u = .next v ∧
        v.task ≠ none ∧ v.lastResult = s.lastResult ∧ v.faultCount = s.faultCount)

/-- R251: under the clock-progress premise every wait of every operation ends: if the k-th clock answer
shows the budget used, at most k + 1 polls later the operation is past this wait. A poll is a step by the
model's choice (log entry 3). -/
def Obligations.ProgressingClockEndsTheWait : Prop :=
  ∀ (s : State) (t : Task) (k : Nat), s.task = some t → t.rest.all Prim.inBounds = true →
    clockProgress s t k →
    ∃ j u, j ≤ k ∧ Host.Core.run Sys2Proof.core (j + 1) s = .next u ∧
      ∀ t', u.task = some t' → t'.rest.length < t.rest.length

/-- R136: two runs of a wait, or of the busy check that is one, whose clock answers differ by a constant
have the same outcome, and their traces differ only in the clock answers and the `t0` diagnostic. The
offset is asked of the k + 1 answers that k steps can take. A poll is a step by the model's choice (log
entry 3). -/
def Obligations.ClockOffsetInvariance : Prop :=
  ∀ (s : State) (i : Instr) (now' : Draws Word32) (d : Word32) (k : Nat) (u : State),
    (i = .checkNotBusy ∨ ∃ w, i = waitInstr w) →
    s.task = none → s.program = [.packet (encode i)] → s.irqs = [] →
    let s' : State := { s with env := { s.env with now := now' } }
    (∀ j ≤ k, s'.nowAt j = s.nowAt j + d) →
    Host.Core.run Sys2Proof.core k s = .next u →
    ∃ u' evs, Host.Core.run Sys2Proof.core k s' = .next u' ∧
      u'.lastResult = u.lastResult ∧ u'.task.isSome = u.task.isSome ∧ u'.ctx = u.ctx ∧
      u'.regs = u.regs ∧ u.trace = s.trace ++ evs ∧
      u'.trace = s.trace ++ evs.map (Event.shiftClock d)

/-- Any operation, in any of its waits, after any number of unsuccessful polls (R131, R132, D27). If a
step ends in an unsuccessful poll and the next step answers `v`, then the environment that gives the same
answers but for that poll makes one step of the two: it answers `v` too, but for the two events of the
poll. So, poll by poll, every operation ends as it does when each wait ends at its first poll. -/
def Obligations.PollingLongerMakesNoDifference : Prop :=
  ∀ (s u v : State) (t : Task) (e : Env), step s = .next u → u.task = some t → step u = .next v →
    let s' : State := { s with env := e }
    lastPollLeftOut t.wait s u s' →
    ∃ v' evs sample clock more, step s' = .next v' ∧
      v' = { v with env := v'.env, trace := v'.trace } ∧ sameAnswers v v' ∧
      sample.isSample = true ∧ u.trace = s.trace ++ evs ++ [sample, .now clock] ∧
      v.trace = u.trace ++ more ∧ v'.trace = s.trace ++ evs ++ more

/-! ### The interrupt handlers -/

/-- R150, bytes remain: push the byte at `position`, and no completion. -/
def Obligations.TxrdyPushesAByte : Prop :=
  ∀ (s : State) (a : Nat), s.entryReady = true → s.ctx.direction = .writing →
    0 < s.ctx.remaining → bufAddr s.ctx.buffer s.ctx.position = some a →
    exec .vecTxrdy s = .next
      { s with
        ctx :=
          { s.ctx with
            position := (s.ctx.position + 1) % 2 ^ s.par.lenBits
            remaining := s.ctx.remaining - 1 }
        regs := { s.regs with txbuf := s.mem.read a }
        trace := s.trace ++ [.irq 0x03, .wrTx (s.mem.read a)] }

/-- R150, none remain: with STOP requested, STOP and its wait (here it deasserts at the first sample)
and `started` cleared; then all interrupts disabled, Idle, and writeDone with Success. -/
def Obligations.TxrdyFinalizes : Prop :=
  ∀ (s : State), s.entryReady = true → s.ctx.direction = .writing → s.ctx.remaining = 0 →
    let stop := has s.ctx.flags 0x02
    let k := if stop then 1 else 0
    (stop = true → has (s.ctlAt 0) 0x4 = false) →
    exec .vecTxrdy s = .next
      { s with
        ctx :=
          { s.ctx with
            direction := .idle
            started := !stop && s.par.clearStarted == .onStop && s.ctx.started }
        regs :=
          { s.regs with ctlw := s.regs.ctlw ||| (if stop then 0x4 else 0), ie := 0 }
        env :=
          { s.env with
            now := s.env.now.skip k, ctl := s.env.ctl.skip k, client := s.env.client.skip 1 }
        trace := s.trace ++ [.irq 0x03] ++
          (if stop then [.setCtl 0x4, .now (s.nowAt 0), .ctl (s.ctlAt 0)] else []) ++
          [.clrIE 0x7, .writeDone ⟨s.clientAt 0, .success, s.ctx.address, s.ctx.length,
            s.ctx.buffer⟩] }

/-- R151, more than one byte remains: STOP before the byte is drained when exactly one will remain;
the byte goes to index `position`; no completion. -/
def Obligations.RxrdyFillsAByte : Prop :=
  ∀ (s : State) (a : Nat), s.entryReady = true → s.ctx.direction = .reading →
    1 < s.ctx.remaining → bufAddr s.ctx.buffer s.ctx.position = some a →
    let stop := s.ctx.remaining == 2 && has s.ctx.flags 0x02
    exec .vecRxrdy s = .next
      { s with
        ctx :=
          { s.ctx with
            position := (s.ctx.position + 1) % 2 ^ s.par.lenBits
            remaining := s.ctx.remaining - 1 }
        regs := { s.regs with ctlw := s.regs.ctlw ||| (if stop then 0x4 else 0) }
        mem := s.mem.write a (s.rdRxAt 0)
        env := { s.env with rdRx := s.env.rdRx.skip 1 }
        trace := s.trace ++ [.irq 0x02] ++ (if stop then [.setCtl 0x4] else []) ++
          [.rdRx (s.rdRxAt 0)] }

/-- R151, the last byte: drained into the buffer, all interrupts disabled, with STOP requested the wait
for it (here it deasserts at the first sample) and `started` cleared; Idle, and readDone with
Success. -/
def Obligations.RxrdyFinalizes : Prop :=
  ∀ (s : State) (a : Nat), s.entryReady = true → s.ctx.direction = .reading →
    s.ctx.remaining = 1 → bufAddr s.ctx.buffer s.ctx.position = some a →
    let stop := has s.ctx.flags 0x02
    let k := if stop then 1 else 0
    (stop = true → has (s.ctlAt 0) 0x4 = false) →
    exec .vecRxrdy s = .next
      { s with
        ctx :=
          { s.ctx with
            direction := .idle
            position := (s.ctx.position + 1) % 2 ^ s.par.lenBits
            remaining := 0
            started := !stop && s.par.clearStarted == .onStop && s.ctx.started }
        regs := { s.regs with ie := 0 }
        mem := s.mem.write a (s.rdRxAt 0)
        env :=
          { s.env with
            now := s.env.now.skip k, ctl := s.env.ctl.skip k, rdRx := s.env.rdRx.skip 1,
            client := s.env.client.skip 1 }
        trace := s.trace ++ [.irq 0x02, .rdRx (s.rdRxAt 0), .clrIE 0x7] ++
          (if stop then [.now (s.nowAt 0), .ctl (s.ctlAt 0)] else []) ++
          [.readDone ⟨s.clientAt 0, .success, s.ctx.address, s.ctx.length, s.ctx.buffer⟩] }

/-- R150, R151: STOP requested and still asserted when the budget is used: the completion carries
Timeout, with one report, `cond = C_STOP`. -/
def Obligations.FinalizeStopTimeout : Prop :=
  ∀ (s : State) (a : Nat), s.entryReady = true → has s.ctx.flags 0x02 = true →
    let e := s.nowAt 1 - s.nowAt 0
    let r : FaultReport := ⟨.guardClearTimeout, 0x03, s.nowAt 0, e⟩
    has (s.ctlAt 0) 0x4 = true → s.par.timeoutBudget ≤ e →
    (s.ctx.direction = .writing → s.ctx.remaining = 0 →
      exec .vecTxrdy s = .next
        { s with
          ctx := { s.ctx with direction := .idle, started := false }
          regs := escalatedRegs s
          env :=
            { s.env with
              now := s.env.now.skip 2, ctl := s.env.ctl.skip 1, client := s.env.client.skip 1 }
          trace := s.trace ++
            [.irq 0x03, .setCtl 0x4, .now (s.nowAt 0), .ctl (s.ctlAt 0), .now (s.nowAt 1)] ++
            escalation s r ++
            [.clrIE 0x7, .writeDone ⟨s.clientAt 0, .timeout, s.ctx.address, s.ctx.length,
              s.ctx.buffer⟩]
          sink := delivered s r }) ∧
    (s.ctx.direction = .reading → s.ctx.remaining = 1 →
      bufAddr s.ctx.buffer s.ctx.position = some a →
      exec .vecRxrdy s = .next
        { s with
          ctx :=
            { s.ctx with
              direction := .idle
              position := (s.ctx.position + 1) % 2 ^ s.par.lenBits
              remaining := 0
              started := false }
          regs := escalatedRegs s
          mem := s.mem.write a (s.rdRxAt 0)
          env :=
            { s.env with
              now := s.env.now.skip 2, ctl := s.env.ctl.skip 1, rdRx := s.env.rdRx.skip 1,
              client := s.env.client.skip 1 }
          trace := s.trace ++
            [.irq 0x02, .rdRx (s.rdRxAt 0), .clrIE 0x7, .now (s.nowAt 0), .ctl (s.ctlAt 0),
             .now (s.nowAt 1)] ++
            escalation s r ++
            [.readDone ⟨s.clientAt 0, .timeout, s.ctx.address, s.ctx.length, s.ctx.buffer⟩]
          sink := delivered s r })

/-- R152: a NAK entry of an armed transfer forces STOP, waits for it best-effort, escalates, clears
`started`, and signals AcknowledgementFailure once. One report when STOP deasserts (here at the first
sample); two when its wait times out (90_conflicts.md C4). The buffer is left as it is. -/
def Obligations.NakAborts : Prop :=
  ∀ (s : State), s.entryReady = true → s.ctx.direction ≠ .idle →
    let e := s.nowAt 1 - s.nowAt 0
    let r1 : FaultReport := ⟨.guardClearTimeout, 0x03, s.nowAt 0, e⟩
    let r2 : FaultReport :=
      ⟨.isrNak, if s.ctx.direction = .reading then 0x01 else 0x02,
       BitVec.ofNat 32 s.ctx.position, BitVec.ofNat 32 s.ctx.remaining⟩
    let c : Completion :=
      ⟨s.clientAt 0, .acknowledgementFailure, s.ctx.address, s.ctx.length, s.ctx.buffer⟩
    let done : Event := if s.ctx.direction = .reading then .readDone c else .writeDone c
    (has (s.ctlAt 0) 0x4 = false → exec .vecNak s = .next
      { s with
        ctx := { s.ctx with direction := .idle, started := false }
        regs := escalatedRegs s
        env :=
          { s.env with
            now := s.env.now.skip 1, ctl := s.env.ctl.skip 1, client := s.env.client.skip 1 }
        trace := s.trace ++ [.irq 0x01, .setCtl 0x4, .now (s.nowAt 0), .ctl (s.ctlAt 0)] ++
          escalation s r2 ++ [done]
        sink := delivered s r2 }) ∧
    (has (s.ctlAt 0) 0x4 = true → s.par.timeoutBudget ≤ e → exec .vecNak s = .next
      { s with
        ctx := { s.ctx with direction := .idle, started := false }
        regs := escalatedRegs s
        env :=
          { s.env with
            now := s.env.now.skip 2, ctl := s.env.ctl.skip 1, client := s.env.client.skip 1 }
        trace := s.trace ++
          [.irq 0x01, .setCtl 0x4, .now (s.nowAt 0), .ctl (s.ctlAt 0), .now (s.nowAt 1)] ++
          escalation s r1 ++ escalation s r2 ++ [done]
        sink := if s.par.sinkNull then s.sink else s.sink ++ [r1, r2] })

/-- R150 to R152 and R203: an entry in the wrong direction reports LOC_ISR_INCONSISTENT, forces Idle and
signals nothing. -/
def Obligations.InconsistentEntryEscalates : Prop :=
  ∀ (s : State), s.entryReady = true →
    let r (vec : Word32) : FaultReport :=
      ⟨.isrInconsistent, vec,
       match s.ctx.direction with
       | .idle => 0x00
       | .reading => 0x01
       | .writing => 0x02,
       if s.ctx.direction = .idle then 0 else BitVec.ofNat 32 s.ctx.remaining⟩
    let t (vec : Byte) (r : FaultReport) : State :=
      { s with
        ctx := { s.ctx with direction := .idle }
        regs := escalatedRegs s
        trace := s.trace ++ [.irq vec] ++ escalation s r
        sink := delivered s r }
    (s.ctx.direction ≠ .writing → exec .vecTxrdy s = .next (t 0x03 (r 0x03))) ∧
    (s.ctx.direction ≠ .reading ∨ s.ctx.remaining = 0 →
      exec .vecRxrdy s = .next (t 0x02 (r 0x02))) ∧
    (s.ctx.direction = .idle → exec .vecNak s = .next (t 0x01 (r 0x01)))

/-- R209: VEC_NONE changes nothing and emits only `Irq(0x00)`. -/
def Obligations.VecNoneChangesNothing : Prop :=
  ∀ (s : State), s.entryReady = true →
    exec .vecNone s = .next { s with trace := s.trace ++ [.irq 0x00] }

/-- R210: an unexpected vector escalates with the vector and the direction, and signals no
completion. -/
def Obligations.UnexpectedVectorEscalates : Prop :=
  ∀ (s : State) (vec : Byte), s.entryReady = true → 4 ≤ vec.toNat →
    let r : FaultReport :=
      ⟨.isrUnexpectedVector, vec.setWidth 32,
       match s.ctx.direction with
       | .idle => 0x00
       | .reading => 0x01
       | .writing => 0x02,
       0⟩
    exec (.vecOther vec) s = .next
      { s with
        ctx := { s.ctx with direction := .idle }
        regs := escalatedRegs s
        trace := s.trace ++ [.irq vec] ++ escalation s r
        sink := delivered s r }

/-! ### The register operations -/

/-- R170: the address and register phase, with a ready bus and no NAK. -/
def Obligations.RegPrefixResult : Prop :=
  ∀ (s : State) (addr reg : Byte), s.engineFree = true → prefixReady s →
    exec (.regPrefix addr reg) s = .next
      { s with
        regs := { s.regs with rst := false, ie := 0, ctlw := 0x3, addr := addr, txbuf := reg }
        env :=
          { s.env with
            now := s.env.now.skip 3, busy := s.env.busy.skip 1, flags := s.env.flags.skip 2 }
        trace := s.trace ++ prefixEvents s addr reg
        lastResult := some (.outcome .success) }

/-- R171: the probe asserts transmit, START and STOP together, waits for STOP (here it deasserts at the
first sample), samples the flags once, and returns whether no NAK is pending; no report. -/
def Obligations.PresentResult : Prop :=
  ∀ (s : State) (addr : Byte), s.callerReady = true → s.busyAt 0 = false →
    has (s.ctlAt 0) 0x4 = false →
    exec (.present addr) s = .next
      { s with
        regs := { s.regs with rst := false, ctlw := 0x7, addr := addr }
        env :=
          { s.env with
            now := s.env.now.skip 2, busy := s.env.busy.skip 1, ctl := s.env.ctl.skip 1,
            flags := s.env.flags.skip 1 }
        trace := s.trace ++
          [.reset, .unreset, .now (s.nowAt 0), .busy false, .setAddr addr, .setCtl 0x7,
           .now (s.nowAt 1), .ctl (s.ctlAt 0), .flags (s.flagsAt 0),
           .result (.present (!has (s.flagsAt 0) 0x4))]
        lastResult := some (.present (!has (s.flagsAt 0) 0x4)) }

/-- R172: READ8 waits for START to deassert, sets STOP, waits for the byte and returns it. -/
def Obligations.Read8Result : Prop :=
  ∀ (s : State) (addr reg : Byte), s.callerReady = true → prefixReady s →
    has (s.ctlAt 0) 0x2 = false → flagReady .rx (s.flagsAt 2) →
    exec (.read8 addr reg) s = .next
      { s with
        regs := { s.regs with rst := false, ctlw := 0x6, addr := addr, txbuf := reg }
        env :=
          { s.env with
            now := s.env.now.skip 5, busy := s.env.busy.skip 1, ctl := s.env.ctl.skip 1,
            flags := s.env.flags.skip 3, rdRx := s.env.rdRx.skip 1 }
        trace := s.trace ++ prefixEvents s addr reg ++
          [.clrCtl 0x1, .setCtl 0x2, .now (s.nowAt 3), .ctl (s.ctlAt 0), .setCtl 0x4,
           .now (s.nowAt 4), .flags (s.flagsAt 2), .rdRx (s.rdRxAt 0),
           .result (.byte .success (s.rdRxAt 0))]
        lastResult := some (.byte .success (s.rdRxAt 0)) }

/-- R173, R66: READ16 sets STOP only after the first byte is consumed, and the first byte is bits
[15:8] of the result. -/
def Obligations.Read16Result : Prop :=
  ∀ (s : State) (addr reg : Byte), s.callerReady = true → prefixReady s →
    has (s.ctlAt 0) 0x2 = false → flagReady .rx (s.flagsAt 2) → flagReady .rx (s.flagsAt 3) →
    let v : BitVec 16 := s.rdRxAt 0 ++ s.rdRxAt 1
    exec (.read16 addr reg) s = .next
      { s with
        regs := { s.regs with rst := false, ctlw := 0x6, addr := addr, txbuf := reg }
        env :=
          { s.env with
            now := s.env.now.skip 6, busy := s.env.busy.skip 1, ctl := s.env.ctl.skip 1,
            flags := s.env.flags.skip 4, rdRx := s.env.rdRx.skip 2 }
        trace := s.trace ++ prefixEvents s addr reg ++
          [.clrCtl 0x1, .setCtl 0x2, .now (s.nowAt 3), .ctl (s.ctlAt 0), .now (s.nowAt 4),
           .flags (s.flagsAt 2), .rdRx (s.rdRxAt 0), .setCtl 0x4, .now (s.nowAt 5),
           .flags (s.flagsAt 3), .rdRx (s.rdRxAt 1), .result (.half .success v)]
        lastResult := some (.half .success v) }

/-- R174, n >= 2: the loop drains n bytes into indices 0 to n - 1, sets STOP exactly once, when one
byte remains and before the byte at hand is read, and waits for STOP after the loop. -/
def Obligations.ReadblockResult : Prop :=
  ∀ (s : State) (addr reg : Byte) (n : BitVec 16) (base cap : Nat),
    s.callerReady = true → 2 ≤ n.toNat → n.toNat ≤ cap → prefixReady s →
    (∀ i < n.toNat, flagReady .rx (s.flagsAt (2 + i))) → has (s.ctlAt 0) 0x4 = false →
    exec (.readblock addr reg n (.region base cap)) s = .next
      { s with
        regs := { s.regs with rst := false, ctlw := 0x6, addr := addr, txbuf := reg }
        mem := (List.range n.toNat).foldl (fun m i => m.write (base + i) (s.rdRxAt i)) s.mem
        env :=
          { s.env with
            now := s.env.now.skip (4 + n.toNat), busy := s.env.busy.skip 1,
            ctl := s.env.ctl.skip 1, flags := s.env.flags.skip (2 + n.toNat),
            rdRx := s.env.rdRx.skip n.toNat }
        trace := s.trace ++ prefixEvents s addr reg ++ [.clrCtl 0x1, .setCtl 0x2] ++
          (List.range n.toNat).flatMap (fun i =>
            [.now (s.nowAt (3 + i)), .flags (s.flagsAt (2 + i))] ++
            (if i + 2 = n.toNat then [.setCtl 0x4] else []) ++ [.rdRx (s.rdRxAt i)]) ++
          [.now (s.nowAt (3 + n.toNat)), .ctl (s.ctlAt 0), .result (.outcome .success)]
        lastResult := some (.outcome .success) }

/-- R175: WRITE8 sends its byte, sets STOP once the byte has reached the shift register, and waits for
STOP to deassert. -/
def Obligations.Write8Result : Prop :=
  ∀ (s : State) (addr reg v : Byte), s.callerReady = true → prefixReady s →
    flagReady .tx (s.flagsAt 2) → has (s.ctlAt 0) 0x4 = false →
    exec (.write8 addr reg v) s = .next
      { s with
        regs := { s.regs with rst := false, ctlw := 0x7, addr := addr, txbuf := v }
        env :=
          { s.env with
            now := s.env.now.skip 5, busy := s.env.busy.skip 1, ctl := s.env.ctl.skip 1,
            flags := s.env.flags.skip 3 }
        trace := s.trace ++ prefixEvents s addr reg ++
          [.wrTx v, .now (s.nowAt 3), .flags (s.flagsAt 2), .setCtl 0x4, .now (s.nowAt 4),
           .ctl (s.ctlAt 0), .result (.outcome .success)]
        lastResult := some (.outcome .success) }

/-- R176, R67: WRITE16 sends bits [15:8] and then bits [7:0], waiting for transmit-ready between. -/
def Obligations.Write16Result : Prop :=
  ∀ (s : State) (addr reg : Byte) (v : BitVec 16), s.callerReady = true → prefixReady s →
    flagReady .tx (s.flagsAt 2) → flagReady .tx (s.flagsAt 3) → has (s.ctlAt 0) 0x4 = false →
    exec (.write16 addr reg v) s = .next
      { s with
        regs :=
          { s.regs with rst := false, ctlw := 0x7, addr := addr, txbuf := v.extractLsb' 0 8 }
        env :=
          { s.env with
            now := s.env.now.skip 6, busy := s.env.busy.skip 1, ctl := s.env.ctl.skip 1,
            flags := s.env.flags.skip 4 }
        trace := s.trace ++ prefixEvents s addr reg ++
          [.wrTx (v.extractLsb' 8 8), .now (s.nowAt 3), .flags (s.flagsAt 2),
           .wrTx (v.extractLsb' 0 8), .now (s.nowAt 4), .flags (s.flagsAt 3), .setCtl 0x4,
           .now (s.nowAt 5), .ctl (s.ctlAt 0), .result (.outcome .success)]
        lastResult := some (.outcome .success) }

/-- R177: WRITEBLOCK sends the bytes at indices 0 to n - 1 in order, each followed by a transmit-ready
wait; then STOP and its wait. -/
def Obligations.WriteblockResult : Prop :=
  ∀ (s : State) (addr reg : Byte) (n : BitVec 16) (base cap : Nat),
    s.callerReady = true → 0 < n.toNat → n.toNat ≤ cap → prefixReady s →
    (∀ i < n.toNat, flagReady .tx (s.flagsAt (2 + i))) → has (s.ctlAt 0) 0x4 = false →
    exec (.writeblock addr reg n (.region base cap)) s = .next
      { s with
        regs :=
          { s.regs with
            rst := false, ctlw := 0x7, addr := addr,
            txbuf := s.mem.read (base + (n.toNat - 1)) }
        env :=
          { s.env with
            now := s.env.now.skip (4 + n.toNat), busy := s.env.busy.skip 1,
            ctl := s.env.ctl.skip 1, flags := s.env.flags.skip (2 + n.toNat) }
        trace := s.trace ++ prefixEvents s addr reg ++
          (List.range n.toNat).flatMap (fun i =>
            [.wrTx (s.mem.read (base + i)), .now (s.nowAt (3 + i)), .flags (s.flagsAt (2 + i))]) ++
          [.setCtl 0x4, .now (s.nowAt (3 + n.toNat)), .ctl (s.ctlAt 0),
           .result (.outcome .success)]
        lastResult := some (.outcome .success) }

/-- R174, R177: one byte, in any number of steps. READBLOCK with n = 1 makes exactly the events of
READ8, up to the result it returns, and stores the byte READ8 returns; WRITEBLOCK with n = 1 makes
exactly the events of WRITE8 with `v = buf[0]`. The steps are the model's (log entries 3 and 15). -/
def Obligations.OneByteBlocks : Prop :=
  ∀ (s : State) (addr reg : Byte) (base cap k : Nat), s.callerReady = true → s.irqs = [] →
    1 ≤ cap → 1 ≤ s.par.lenBits →
    let presenting (i : Instr) : State := { s with program := [.packet (encode i)] }
    let buf : BufRef := .region base cap
    (∃ u v, Host.Core.run Sys2Proof.core k (presenting (.readblock addr reg 1 buf)) = .next u ∧
      Host.Core.run Sys2Proof.core k (presenting (.read8 addr reg)) = .next v ∧
      ((u.trace = v.trace ∧ u.lastResult = v.lastResult ∧ u.mem = s.mem) ∨
       ∃ evs b, v.trace = s.trace ++ evs ++ [.result (.byte .success b)] ∧
         u.trace = s.trace ++ evs ++ [.result (.outcome .success)] ∧
         u.mem = s.mem.write base b)) ∧
    (∃ u v, Host.Core.run Sys2Proof.core k (presenting (.writeblock addr reg 1 buf)) = .next u ∧
      Host.Core.run Sys2Proof.core k
        (presenting (.write8 addr reg (s.mem.read base))) = .next v ∧
      u.trace = v.trace ∧ u.lastResult = v.lastResult ∧ u.mem = s.mem)

/-- 43_register_protocol.md, introduction ("Every wait below propagates its failure at once"), R170 to
R177, D22, D26. A busy check that times out is returned unchanged as Timeout by every register
operation, and as `false` by PRESENT, with one report; a NAK on the address is returned as
AcknowledgementFailure by every operation with a register phase. And over all the steps an operation
takes, whichever of its waits fails, at its first poll or a later one: the operation ends there, with one
report and nothing after the escalation but its result, which is the outcome of that wait unchanged, or
`false` for PRESENT; a NAK that a wait samples always is such a failure; and an operation whose waits
have all succeeded reports nothing and returns no failure. The steps are the model's (log entry 3). -/
def Obligations.RegisterFailuresPropagate : Prop :=
  (∀ (s : State) (addr reg v : Byte) (w n : BitVec 16) (buf : BufRef) (i : Instr),
     s.callerReady = true → 0 < n.toNat → n.toNat ≤ bufCap buf →
     i ∈ [.read8 addr reg, .read16 addr reg, .readblock addr reg n buf, .write8 addr reg v,
       .write16 addr reg w, .writeblock addr reg n buf] →
     (let e := s.nowAt 1 - s.nowAt 0
      let r : FaultReport := ⟨.guardClearTimeout, 0x01, s.nowAt 0, e⟩
      let t (res : OpResult) : State :=
        { s with
          ctx := { s.ctx with direction := .idle }
          regs := escalatedRegs s
          env := { s.env with now := s.env.now.skip 2, busy := s.env.busy.skip 1 }
          trace := s.trace ++
            [.reset, .unreset, .now (s.nowAt 0), .busy true, .now (s.nowAt 1)] ++
            escalation s r ++ [.result res]
          sink := delivered s r
          lastResult := some res }
      s.busyAt 0 = true → s.par.timeoutBudget ≤ e →
        exec i s = .next (t (.outcome .timeout)) ∧
        exec (.present addr) s = .next (t (.present false))) ∧
     (let f := s.flagsAt 0
      let r : FaultReport := ⟨.guardFlagNak, 0x01, f.setWidth 32, 0⟩
      s.busyAt 0 = false → has f 0x4 = true →
        exec i s = .next
          { s with
            ctx := { s.ctx with direction := .idle }
            regs := { escalatedRegs s with addr := addr }
            env :=
              { s.env with
                now := s.env.now.skip 2, busy := s.env.busy.skip 1, flags := s.env.flags.skip 1 }
            trace := s.trace ++
              [.reset, .unreset, .now (s.nowAt 0), .busy false, .setAddr addr, .setCtl 0x3,
               .now (s.nowAt 1), .flags f] ++
              escalation s r ++ [.result (.outcome .acknowledgementFailure)]
            sink := delivered s r
            lastResult := some (.outcome .acknowledgementFailure) })) ∧
  (∀ (s : State) (i : Instr) (k : Nat) (u v : State), isRegisterOp i = true →
    s.callerReady = true → exec i s = .next u → inProgressFor k u →
    Host.Core.run Sys2Proof.core k u = .next v →
    ∃ evs, v.trace = s.trace ++ evs ∧
      ((reportsOf evs = [] ∧
          (isPresent i = false → ∀ f, .flags f ∈ evs → has f 0x4 = false) ∧
          (∀ t, v.task = some t → t.onFail = if isPresent i then .retFalse else .ret) ∧
          (v.task = none → ∃ res, v.lastResult = some res ∧ res.failed = false ∧
            evs.getLast? = some (.result res))) ∨
       (∃ pre r, v.task = none ∧ v.lastResult = some (failureResult i r) ∧
          evs = pre ++ escalation s r ++ [.result (failureResult i r)] ∧ reportsOf pre = [] ∧
          r.loc ∈ [.guardClearTimeout, .guardFlagTimeout, .guardFlagNak] ∧
          (r.loc = .guardFlagNak ↔ ∃ f, pre.getLast? = some (.flags f) ∧ has f 0x4 = true))))

/-- 43_register_protocol.md, introduction: a register operation, over all the steps it takes, leaves the
transfer context alone, except that an escalation in it forces `direction = Idle`; it never enables an
interrupt. While the Caller may not move it holds (R10, R110); that holding is a step that changes nothing
is the model's choice (log entry 4), and so is that a poll ends a step (log entry 3). -/
def Obligations.RegisterOpsLeaveTheContext : Prop :=
  ∀ (s : State) (i : Instr), isRegisterOp i = true →
    (s.callerReady = false → exec i s = .next s) ∧
    (s.callerReady = true → ∀ u k v, exec i s = .next u → inProgressFor k u →
      Host.Core.run Sys2Proof.core k u = .next v →
      (v.ctx = s.ctx ∨
        (v.ctx = { s.ctx with direction := .idle } ∧ s.faultCount < v.faultCount)) ∧
      v.regs.ie = 0)

/-! ### Escalation, reset, and the machine as a whole -/

/-- R202: an escalation has internal code 0x43; it emits its report, resets the peripheral (and releases it only as
P_ESCALATE_RELEASE says) and forces `direction = Idle`; it changes nothing else. -/
def Obligations.EscalateEffect : Prop :=
  ∀ (s : State) (loc : Loc) (d1 d2 d3 : Word32), s.engineFree = true →
    encode (.escalate loc d1 d2 d3) = .prim 0x43 (.fault loc d1 d2 d3) ∧
    exec (.escalate loc d1 d2 d3) s = .next
      { s with
        ctx := { s.ctx with direction := .idle }
        regs := { s.regs with rst := !s.par.escalateRelease, ie := 0, ctlw := 0 }
        trace := s.trace ++ [.report ⟨loc, d1, d2, d3⟩, .reset] ++
          (if s.par.escalateRelease then [.unreset] else [])
        sink := if s.par.sinkNull then s.sink else s.sink ++ [⟨loc, d1, d2, d3⟩] }

/-- R204: the sink receives every report unless it is null; and whether it is null decides only that:
two states that differ only there step alike but for the sink. -/
def Obligations.SinkOnlyRecords : Prop :=
  (∀ (s u : State), step s = .next u →
    ∃ evs, u.trace = s.trace ++ evs ∧
      u.sink = if s.par.sinkNull then s.sink else s.sink ++ reportsOf evs) ∧
  ∀ (s t : State), hideSink s = hideSink t → sameButSink (step s) (step t)

/-- R241: INIT sets `Idle`, `started` false and no buffer, holds the peripheral in reset with `IE` and
`CTLW` clear, selects the pins, and leaves the normal context; it emits `Reset, SelectPins` and no
result. The values R40 leaves open are not claimed. -/
def Obligations.InitEffect : Prop :=
  ∀ (s : State), s.engineFree = true →
    ∃ u, exec .init s = .next u ∧
      u.ctx.direction = .idle ∧ u.ctx.started = false ∧ u.ctx.buffer = .null ∧
      u.regs.rst = true ∧ u.regs.pinsel = true ∧ u.regs.ctlw = 0 ∧ u.regs.ie = 0 ∧
      u.execCtx = .normal ∧ u.trace = s.trace ++ [.reset, .selectPins] ∧
      u.mem = s.mem ∧ u.par = s.par ∧ u.sink = s.sink ∧ u.task = s.task ∧
      u.lastResult = s.lastResult ∧ u.program = s.program ∧ u.irqs = s.irqs ∧ u.env = s.env

/-- R40: the state after reset, where the rule gives a value. -/
def Obligations.ResetState : Prop :=
  State.reset.ctx.direction = .idle ∧ State.reset.ctx.started = false ∧
  State.reset.ctx.buffer = .null ∧ State.reset.regs.rst = true ∧
  State.reset.regs.pinsel = true ∧ State.reset.regs.ctlw = 0 ∧ State.reset.regs.ie = 0 ∧
  State.reset.execCtx = .normal ∧ State.reset.trace = [.reset, .selectPins]

/-- The invariant holds at reset. -/
def Obligations.InvariantAtReset : Prop := Inv State.reset

/-- Every step keeps the invariant: the counts of an active context add up and its buffer holds the
transfer (R29); what is enabled belongs to the direction, and nothing while Idle (R31, R35, R205); the
interrupt context is exactly an entry in a wait (R36); no Caller operation runs with an interrupt
enabled (R73, R211); the memory keeps its form. -/
def Obligations.StepKeepsInvariant : Prop :=
  ∀ (s u : State), Inv s → step s = .next u → Inv u

/-- R61: no operation reaches a byte outside its buffer. -/
def Obligations.NoBufferIndexFault : Prop :=
  ∀ (s : State), Inv s → step s ≠ .fault .bufferIndex

/-- R37, R6: the trace only grows, so no step removes a report from the fault record, whatever `SINK_NULL`
is; and no step changes a parameter. -/
def Obligations.TraceOnlyGrows : Prop :=
  ∀ (s u : State), step s = .next u →
    (∃ evs, u.trace = s.trace ++ evs ∧
      u.faultRecord = s.faultRecord ++ evs.filter Event.isReport) ∧
    u.par = s.par

/-- R61, R76: which bytes an operation may change. VEC_RXRDY: the byte at `position` of the context's
buffer. READBLOCK: bytes 0 to n - 1 of its buffer. An operation resumed after a wait: the bytes it still
has to store. Every other operation: none. -/
def Obligations.MemoryFrame : Prop :=
  (∀ (s u : State) (i : Instr), exec i s = .next u →
    match i with
    | .vecRxrdy => ∀ a, bufAddr s.ctx.buffer s.ctx.position ≠ some a → u.mem.read a = s.mem.read a
    | .readblock _ _ n buf =>
      ∀ a, (∀ j < n.toNat, bufAddr buf j ≠ some a) → u.mem.read a = s.mem.read a
    | _ => u.mem = s.mem) ∧
  ∀ (s u : State) (t : Task), s.task = some t → step s = .next u →
    ∀ a, (∀ buf j, .store buf j ∈ t.rest → bufAddr buf j ≠ some a) → u.mem.read a = s.mem.read a

/-- R22 to R28: only READ, WRITE and INIT write buffer, length, flags and address; only they, VEC_TXRDY
and VEC_RXRDY write position and remaining; only they and VEC_NAK write started, and a resumed operation
only where that is still to come. -/
def Obligations.ContextWriters : Prop :=
  (∀ (s u : State) (i : Instr), exec i s = .next u →
    match i with
    | .read .. | .write .. | .init => True
    | .vecTxrdy | .vecRxrdy =>
      u.ctx.buffer = s.ctx.buffer ∧ u.ctx.length = s.ctx.length ∧ u.ctx.flags = s.ctx.flags ∧
        u.ctx.address = s.ctx.address
    | .vecNak =>
      u.ctx = { s.ctx with direction := u.ctx.direction, started := u.ctx.started }
    | _ => u.ctx = { s.ctx with direction := u.ctx.direction }) ∧
  ∀ (s u : State) (t : Task), s.task = some t → step s = .next u →
    u.ctx = { s.ctx with direction := u.ctx.direction, started := u.ctx.started } ∧
    ((∀ b, .setStarted b ∉ t.rest) → u.ctx.started = s.ctx.started)

/-- R113: the direction changes to Reading only by a READ that passes validation, to Writing only by a
WRITE that does, and to Idle only with a completion or a fault report, or by INIT. -/
def Obligations.DirectionTransitions : Prop :=
  ∀ (s u : State), Inv s → step s = .next u → u.ctx.direction ≠ s.ctx.direction →
    (u.ctx.direction = .reading ∧ s.task = none ∧
      ∃ c f a n b s', fetch s = .run (.read c f a n b) s' ∧ badArgument n.toNat b = false) ∨
    (u.ctx.direction = .writing ∧ s.task = none ∧
      ∃ c f a n b s', fetch s = .run (.write c f a n b) s' ∧ badArgument n.toNat b = false) ∨
    (u.ctx.direction = .idle ∧
      ((∃ evs e, u.trace = s.trace ++ evs ∧ e ∈ evs ∧ (e.isReport = true ∨ e.isDone = true)) ∨
       (s.task = none ∧ ∃ s', fetch s = .run .init s')))

/-- R115: a Caller operation that returns anything but Accepted leaves `IE = 0`; Accepted leaves exactly
the enables of its direction; and no completion is signalled in the step that returns. While `IE = 0` and
no entry is in progress, no step signals a completion, whatever is presented or raised, and `IE` stays 0
but in a step that returns Accepted: so no completion follows from an error. -/
def Obligations.ResultTellsWhetherArmed : Prop :=
  ∀ (s u : State) (evs : List Event), Inv s → step s = .next u → u.trace = s.trace ++ evs →
    (∀ r, .result r ∈ evs →
      (r = .outcome .accepted → u.ctx.direction ≠ .idle ∧ u.regs.ie = armMask u.ctx.direction) ∧
      (r ≠ .outcome .accepted → u.regs.ie = 0) ∧ ∀ e ∈ evs, e.isDone = false) ∧
    (s.regs.ie = 0 → (∀ t, s.task = some t → t.frame.agent ≠ .isr) →
      (∀ e ∈ evs, e.isDone = false) ∧
      (u.regs.ie ≠ 0 → .result (.outcome .accepted) ∈ evs) ∧
      ∀ t, u.task = some t → t.frame.agent ≠ .isr)

/-- R154: a completion is the last action of its step, carries the arbiter's answer and the recorded
address, length and buffer, with one of the three outcomes, and finds `direction = Idle` and
`IE = 0`. -/
def Obligations.CompletionContent : Prop :=
  ∀ (s u : State) (evs : List Event) (e : Event), Inv s → step s = .next u →
    u.trace = s.trace ++ evs → e ∈ evs → e.isDone = true →
    evs.getLast? = some e ∧ u.ctx.direction = .idle ∧ u.regs.ie = 0 ∧ u.callerReady = true ∧
    ∃ o, (o = .success ∨ o = .timeout ∨ o = .acknowledgementFailure) ∧
      (e = .readDone ⟨s.clientAt 0, o, s.ctx.address, s.ctx.length, s.ctx.buffer⟩ ∨
       e = .writeDone ⟨s.clientAt 0, o, s.ctx.address, s.ctx.length, s.ctx.buffer⟩)

/-- R114, R150, R65: an armed write whose peripheral raises transmit-ready for every byte and once more
takes exactly `remaining + 1` entries: they push the buffer's bytes in order, and then exactly one
writeDone follows, with Success, the length and the same buffer. The list of requests is the model's (log
entry 6). -/
def Obligations.WriteTransferCompletes : Prop :=
  ∀ (s : State) (base cap : Nat), Inv s → s.task = none → s.ctx.direction = .writing →
    s.regs.ie ≠ 0 → s.ctx.buffer = .region base cap → s.program = [] →
    let n := s.ctx.remaining
    let stop := has s.ctx.flags 0x02
    s.irqs = List.replicate (n + 1) (.vector 0x03) →
    (stop = true → has (s.ctlAt 0) 0x4 = false) →
    ∃ u, Host.Core.run Sys2Proof.core (n + 1) s = .next u ∧
      u.trace = s.trace ++
        (List.range n).flatMap
          (fun i => [.irq 0x03, .wrTx (s.mem.read (base + (s.ctx.position + i)))]) ++
        [.irq 0x03] ++
        (if stop then [.setCtl 0x4, .now (s.nowAt 0), .ctl (s.ctlAt 0)] else []) ++
        [.clrIE 0x7, .writeDone ⟨s.clientAt 0, .success, s.ctx.address, s.ctx.length,
          s.ctx.buffer⟩] ∧
      u.mem = s.mem ∧ u.ctx.direction = .idle ∧ u.regs.ie = 0 ∧ u.irqs = []

/-- R114, R151, R153, R76: an armed read whose peripheral raises receive-ready for every byte takes
exactly `remaining` entries: they fill the buffer in order, STOP is set in the entry that leaves one
byte, before its byte is read, and then exactly one readDone follows. The list of requests is the model's
(log entry 6). -/
def Obligations.ReadTransferCompletes : Prop :=
  ∀ (s : State) (base cap : Nat), Inv s → s.task = none → s.ctx.direction = .reading →
    s.regs.ie ≠ 0 → s.ctx.buffer = .region base cap → s.program = [] →
    let n := s.ctx.remaining
    let stop := has s.ctx.flags 0x02
    0 < n → s.irqs = List.replicate n (.vector 0x02) →
    (stop = true → has (s.ctlAt 0) 0x4 = false) →
    ∃ u, Host.Core.run Sys2Proof.core n s = .next u ∧
      u.trace = s.trace ++
        (List.range n).flatMap (fun i =>
          [.irq 0x02] ++ (if stop = true ∧ i + 2 = n then [.setCtl 0x4] else []) ++
          [.rdRx (s.rdRxAt i)]) ++
        [.clrIE 0x7] ++ (if stop then [.now (s.nowAt 0), .ctl (s.ctlAt 0)] else []) ++
        [.readDone ⟨s.clientAt 0, .success, s.ctx.address, s.ctx.length, s.ctx.buffer⟩] ∧
      u.mem = (List.range n).foldl
        (fun m i => m.write (base + (s.ctx.position + i)) (s.rdRxAt i)) s.mem ∧
      u.ctx.direction = .idle ∧ u.regs.ie = 0 ∧ u.irqs = []
end

