-- ==== Sys2Proof/Laws/Memory.lean ====
section
/-! SUPPORT. The memory operations: reading what was written, leaving the rest alone, and keeping the
canonical form. -/

namespace Sys2Proof.Machine

theorem Memory.wf_tail {c : Host.Cell} {m : Memory} (h : Memory.wf (c :: m)) : Memory.wf m :=
  ⟨(List.pairwise_cons.1 h.1).2, fun d hd => h.2 d (List.mem_cons_of_mem _ hd)⟩

/-- Below every listed address nothing is listed. -/
theorem Memory.read_below (m : Memory) (a : Nat) (h : ∀ c ∈ m, a < c.1) :
    Memory.read m a = Memory.unlisted := by
  induction m with
  | nil => rfl
  | cons c m ih =>
    have h1 := h c (List.mem_cons_self ..)
    simp only [Memory.read]
    rw [if_neg (by omega), ih fun d hd => h d (List.mem_cons_of_mem _ hd)]

theorem Memory.read_write_same (m : Memory) (a : Nat) (v : Byte) (hm : Memory.wf m) :
    Memory.read (Memory.write m a v) a = v := by
  induction m with
  | nil => simp only [Memory.write]; split <;> simp_all [Memory.read]
  | cons c m ih =>
    have hs := (List.pairwise_cons.1 hm.1).1
    have hlow : ∀ x ≤ c.1, Memory.read m x = Memory.unlisted := fun x hx =>
      Memory.read_below m x fun d hd => by have := hs d hd; omega
    simp only [Memory.write]
    split
    · split
      · rename_i hv
        simp only [Memory.read]
        rw [if_neg (by omega), hlow a (by omega), hv]
      · simp [Memory.read]
    · split
      · split
        · rename_i hv; rw [hlow a (by omega), hv]
        · simp [Memory.read]
      · simp only [Memory.read]
        rw [if_neg (by omega)]
        exact ih (Memory.wf_tail hm)

theorem Memory.read_write_other (m : Memory) (a b : Nat) (v : Byte) (hab : b ≠ a) :
    Memory.read (Memory.write m a v) b = Memory.read m b := by
  induction m with
  | nil =>
    simp only [Memory.write]
    split
    · rfl
    · simp only [Memory.read]; rw [if_neg (by omega)]
  | cons c m ih =>
    simp only [Memory.write]
    split
    · split
      · rfl
      · simp only [Memory.read]; rw [if_neg (by omega)]
    · split
      · rename_i h
        split
        · simp only [Memory.read]; rw [if_neg (by omega)]
        · simp only [Memory.read]; rw [if_neg (by omega), if_neg (by omega)]
      · simp only [Memory.read, ih]

/-- A write lists nothing new but the address written. -/
theorem Memory.mem_write {m : Memory} {a : Nat} {v : Byte} {c : Host.Cell}
    (h : c ∈ Memory.write m a v) : c ∈ m ∨ (c = (a, v) ∧ v ≠ Memory.unlisted) := by
  induction m with
  | nil => simp only [Memory.write] at h; split at h <;> simp_all
  | cons d m ih =>
    simp only [Memory.write] at h
    split at h
    · split at h
      · exact .inl h
      · rcases List.mem_cons.1 h with h | h
        · exact .inr ⟨h, ‹_›⟩
        · exact .inl h
    · split at h
      · split at h
        · exact .inl (List.mem_cons_of_mem _ h)
        · rcases List.mem_cons.1 h with h | h
          · exact .inr ⟨h, ‹_›⟩
          · exact .inl (List.mem_cons_of_mem _ h)
      · rcases List.mem_cons.1 h with h | h
        · exact .inl (h ▸ List.mem_cons_self ..)
        · exact (ih h).imp_left (List.mem_cons_of_mem _)

/-- Every write keeps the canonical form. -/
theorem Memory.write_wf (m : Memory) (a : Nat) (v : Byte) (hm : Memory.wf m) :
    Memory.wf (Memory.write m a v) := by
  induction m with
  | nil => simp only [Memory.write]; split <;> exact ⟨by simp, by simp_all⟩
  | cons c m ih =>
    have hs := List.pairwise_cons.1 hm.1
    have hc : c.2 ≠ Memory.unlisted := hm.2 c (List.mem_cons_self ..)
    simp only [Memory.write]
    split
    · rename_i ha
      split
      · exact hm
      · rename_i hv
        refine ⟨List.pairwise_cons.2 ⟨fun d hd => ?_, hm.1⟩, fun d hd => ?_⟩
        · rcases List.mem_cons.1 hd with rfl | hd
          · exact ha
          · exact Nat.lt_trans ha (hs.1 d hd)
        · rcases List.mem_cons.1 hd with rfl | hd
          · exact hv
          · exact hm.2 d hd
    · split
      · rename_i ha
        split
        · exact Memory.wf_tail hm
        · rename_i hv
          refine ⟨List.pairwise_cons.2 ⟨fun d hd => ?_, hs.2⟩, fun d hd => ?_⟩
          · have := hs.1 d hd; simp only; omega
          · rcases List.mem_cons.1 hd with rfl | hd
            · exact hv
            · exact hm.2 d (List.mem_cons_of_mem _ hd)
      · have ih := ih (Memory.wf_tail hm)
        refine ⟨List.pairwise_cons.2 ⟨fun d hd => ?_, ih.1⟩, fun d hd => ?_⟩
        · rcases Memory.mem_write hd with hd | ⟨rfl, -⟩
          · exact hs.1 d hd
          · simp only; omega
        · rcases List.mem_cons.1 hd with rfl | hd
          · exact hc
          · exact ih.2 d hd

/-- `MemWrite` keeps the canonical form. -/
theorem memWrite_wf (m : Memory) (buf : BufRef) (i : Nat) (v : Byte) (hm : Memory.wf m) :
    Memory.wf (memWrite m buf i v) := by
  simp only [memWrite]
  split
  · exact Memory.write_wf _ _ _ hm
  · exact hm

/-- `MemWrite` changes no byte but the one it names (R61). -/
theorem read_memWrite_other (m : Memory) (buf : BufRef) (i a : Nat) (v : Byte)
    (h : bufAddr buf i ≠ some a) : Memory.read (memWrite m buf i v) a = Memory.read m a := by
  simp only [memWrite]
  split
  · rename_i x hx
    exact Memory.read_write_other _ _ _ _ fun e => h (by rw [hx, e])
  · rfl

end Sys2Proof.Machine
end

