-- ==== Sys2Proof/Laws/State.lean ====
section
/-! SUPPORT. One lemma for every field of State under every named update (Machine/Ops.lean), so that
no proof unfolds a record update; the answers of the environment after an update; the escalation and
INIT, which are made of several updates. -/

namespace Sys2Proof.Machine

@[simp] theorem State.setMem_par (s : State) (m : Memory) : (s.setMem m).par = s.par := rfl
@[simp] theorem State.setMem_ctx (s : State) (m : Memory) : (s.setMem m).ctx = s.ctx := rfl
@[simp] theorem State.setMem_regs (s : State) (m : Memory) : (s.setMem m).regs = s.regs := rfl
@[simp] theorem State.setMem_execCtx (s : State) (m : Memory) :
    (s.setMem m).execCtx = s.execCtx := rfl
@[simp] theorem State.setMem_trace (s : State) (m : Memory) : (s.setMem m).trace = s.trace := rfl
@[simp] theorem State.setMem_sink (s : State) (m : Memory) : (s.setMem m).sink = s.sink := rfl
@[simp] theorem State.setMem_mem (s : State) (m : Memory) : (s.setMem m).mem = m := rfl
@[simp] theorem State.setMem_task (s : State) (m : Memory) : (s.setMem m).task = s.task := rfl
@[simp] theorem State.setMem_lastResult (s : State) (m : Memory) :
    (s.setMem m).lastResult = s.lastResult := rfl
@[simp] theorem State.setMem_program (s : State) (m : Memory) :
    (s.setMem m).program = s.program := rfl
@[simp] theorem State.setMem_irqs (s : State) (m : Memory) : (s.setMem m).irqs = s.irqs := rfl
@[simp] theorem State.setMem_env (s : State) (m : Memory) : (s.setMem m).env = s.env := rfl
@[simp] theorem State.setMem_fresh (s : State) (m : Memory) : (s.setMem m).fresh = s.fresh := rfl

@[simp] theorem State.setTask_par (s : State) (t : Option Task) : (s.setTask t).par = s.par := rfl
@[simp] theorem State.setTask_ctx (s : State) (t : Option Task) : (s.setTask t).ctx = s.ctx := rfl
@[simp] theorem State.setTask_regs (s : State) (t : Option Task) :
    (s.setTask t).regs = s.regs := rfl
@[simp] theorem State.setTask_execCtx (s : State) (t : Option Task) :
    (s.setTask t).execCtx = s.execCtx := rfl
@[simp] theorem State.setTask_trace (s : State) (t : Option Task) :
    (s.setTask t).trace = s.trace := rfl
@[simp] theorem State.setTask_sink (s : State) (t : Option Task) :
    (s.setTask t).sink = s.sink := rfl
@[simp] theorem State.setTask_mem (s : State) (t : Option Task) : (s.setTask t).mem = s.mem := rfl
@[simp] theorem State.setTask_task (s : State) (t : Option Task) : (s.setTask t).task = t := rfl
@[simp] theorem State.setTask_lastResult (s : State) (t : Option Task) :
    (s.setTask t).lastResult = s.lastResult := rfl
@[simp] theorem State.setTask_program (s : State) (t : Option Task) :
    (s.setTask t).program = s.program := rfl
@[simp] theorem State.setTask_irqs (s : State) (t : Option Task) :
    (s.setTask t).irqs = s.irqs := rfl
@[simp] theorem State.setTask_env (s : State) (t : Option Task) : (s.setTask t).env = s.env := rfl
@[simp] theorem State.setTask_fresh (s : State) (t : Option Task) :
    (s.setTask t).fresh = s.fresh := rfl

@[simp] theorem State.emit_par (s : State) (e : Event) : (s.emit e).par = s.par := rfl
@[simp] theorem State.emit_ctx (s : State) (e : Event) : (s.emit e).ctx = s.ctx := rfl
@[simp] theorem State.emit_regs (s : State) (e : Event) : (s.emit e).regs = s.regs := rfl
@[simp] theorem State.emit_execCtx (s : State) (e : Event) : (s.emit e).execCtx = s.execCtx := rfl
@[simp] theorem State.emit_trace (s : State) (e : Event) : (s.emit e).trace = s.trace ++ [e] := rfl
@[simp] theorem State.emit_sink (s : State) (e : Event) : (s.emit e).sink = s.sink := rfl
@[simp] theorem State.emit_mem (s : State) (e : Event) : (s.emit e).mem = s.mem := rfl
@[simp] theorem State.emit_task (s : State) (e : Event) : (s.emit e).task = s.task := rfl
@[simp] theorem State.emit_lastResult (s : State) (e : Event) :
    (s.emit e).lastResult = s.lastResult := rfl
@[simp] theorem State.emit_program (s : State) (e : Event) : (s.emit e).program = s.program := rfl
@[simp] theorem State.emit_irqs (s : State) (e : Event) : (s.emit e).irqs = s.irqs := rfl
@[simp] theorem State.emit_env (s : State) (e : Event) : (s.emit e).env = s.env := rfl
@[simp] theorem State.emit_fresh (s : State) (e : Event) : (s.emit e).fresh = s.fresh := rfl

@[simp] theorem State.pReset_par (s : State) : s.pReset.par = s.par := rfl
@[simp] theorem State.pReset_ctx (s : State) : s.pReset.ctx = s.ctx := rfl
@[simp] theorem State.pReset_regs (s : State) :
    s.pReset.regs = { s.regs with rst := true, ie := 0, ctlw := 0 } := rfl
@[simp] theorem State.pReset_execCtx (s : State) : s.pReset.execCtx = s.execCtx := rfl
@[simp] theorem State.pReset_trace (s : State) : s.pReset.trace = s.trace ++ [.reset] := rfl
@[simp] theorem State.pReset_sink (s : State) : s.pReset.sink = s.sink := rfl
@[simp] theorem State.pReset_mem (s : State) : s.pReset.mem = s.mem := rfl
@[simp] theorem State.pReset_task (s : State) : s.pReset.task = s.task := rfl
@[simp] theorem State.pReset_lastResult (s : State) : s.pReset.lastResult = s.lastResult := rfl
@[simp] theorem State.pReset_program (s : State) : s.pReset.program = s.program := rfl
@[simp] theorem State.pReset_irqs (s : State) : s.pReset.irqs = s.irqs := rfl
@[simp] theorem State.pReset_env (s : State) : s.pReset.env = s.env := rfl
@[simp] theorem State.pReset_fresh (s : State) : s.pReset.fresh = s.fresh := rfl

@[simp] theorem State.pUnreset_par (s : State) : s.pUnreset.par = s.par := rfl
@[simp] theorem State.pUnreset_ctx (s : State) : s.pUnreset.ctx = s.ctx := rfl
@[simp] theorem State.pUnreset_regs (s : State) :
    s.pUnreset.regs = { s.regs with rst := false } := rfl
@[simp] theorem State.pUnreset_execCtx (s : State) : s.pUnreset.execCtx = s.execCtx := rfl
@[simp] theorem State.pUnreset_trace (s : State) : s.pUnreset.trace = s.trace ++ [.unreset] := rfl
@[simp] theorem State.pUnreset_sink (s : State) : s.pUnreset.sink = s.sink := rfl
@[simp] theorem State.pUnreset_mem (s : State) : s.pUnreset.mem = s.mem := rfl
@[simp] theorem State.pUnreset_task (s : State) : s.pUnreset.task = s.task := rfl
@[simp] theorem State.pUnreset_lastResult (s : State) : s.pUnreset.lastResult = s.lastResult := rfl
@[simp] theorem State.pUnreset_program (s : State) : s.pUnreset.program = s.program := rfl
@[simp] theorem State.pUnreset_irqs (s : State) : s.pUnreset.irqs = s.irqs := rfl
@[simp] theorem State.pUnreset_env (s : State) : s.pUnreset.env = s.env := rfl
@[simp] theorem State.pUnreset_fresh (s : State) : s.pUnreset.fresh = s.fresh := rfl

@[simp] theorem State.pSelectPins_par (s : State) : s.pSelectPins.par = s.par := rfl
@[simp] theorem State.pSelectPins_ctx (s : State) : s.pSelectPins.ctx = s.ctx := rfl
@[simp] theorem State.pSelectPins_regs (s : State) :
    s.pSelectPins.regs = { s.regs with pinsel := true } := rfl
@[simp] theorem State.pSelectPins_execCtx (s : State) : s.pSelectPins.execCtx = s.execCtx := rfl
@[simp] theorem State.pSelectPins_trace (s : State) :
    s.pSelectPins.trace = s.trace ++ [.selectPins] := rfl
@[simp] theorem State.pSelectPins_sink (s : State) : s.pSelectPins.sink = s.sink := rfl
@[simp] theorem State.pSelectPins_mem (s : State) : s.pSelectPins.mem = s.mem := rfl
@[simp] theorem State.pSelectPins_task (s : State) : s.pSelectPins.task = s.task := rfl
@[simp] theorem State.pSelectPins_lastResult (s : State) :
    s.pSelectPins.lastResult = s.lastResult := rfl
@[simp] theorem State.pSelectPins_program (s : State) : s.pSelectPins.program = s.program := rfl
@[simp] theorem State.pSelectPins_irqs (s : State) : s.pSelectPins.irqs = s.irqs := rfl
@[simp] theorem State.pSelectPins_env (s : State) : s.pSelectPins.env = s.env := rfl
@[simp] theorem State.pSelectPins_fresh (s : State) : s.pSelectPins.fresh = s.fresh := rfl

@[simp] theorem State.pSetAddr_par (s : State) (a : Byte) : (s.pSetAddr a).par = s.par := rfl
@[simp] theorem State.pSetAddr_ctx (s : State) (a : Byte) : (s.pSetAddr a).ctx = s.ctx := rfl
@[simp] theorem State.pSetAddr_regs (s : State) (a : Byte) :
    (s.pSetAddr a).regs = { s.regs with addr := a } := rfl
@[simp] theorem State.pSetAddr_execCtx (s : State) (a : Byte) :
    (s.pSetAddr a).execCtx = s.execCtx := rfl
@[simp] theorem State.pSetAddr_trace (s : State) (a : Byte) :
    (s.pSetAddr a).trace = s.trace ++ [.setAddr a] := rfl
@[simp] theorem State.pSetAddr_sink (s : State) (a : Byte) : (s.pSetAddr a).sink = s.sink := rfl
@[simp] theorem State.pSetAddr_mem (s : State) (a : Byte) : (s.pSetAddr a).mem = s.mem := rfl
@[simp] theorem State.pSetAddr_task (s : State) (a : Byte) : (s.pSetAddr a).task = s.task := rfl
@[simp] theorem State.pSetAddr_lastResult (s : State) (a : Byte) :
    (s.pSetAddr a).lastResult = s.lastResult := rfl
@[simp] theorem State.pSetAddr_program (s : State) (a : Byte) :
    (s.pSetAddr a).program = s.program := rfl
@[simp] theorem State.pSetAddr_irqs (s : State) (a : Byte) : (s.pSetAddr a).irqs = s.irqs := rfl
@[simp] theorem State.pSetAddr_env (s : State) (a : Byte) : (s.pSetAddr a).env = s.env := rfl
@[simp] theorem State.pSetAddr_fresh (s : State) (a : Byte) : (s.pSetAddr a).fresh = s.fresh := rfl

@[simp] theorem State.pSetCtl_par (s : State) (m : Bits3) : (s.pSetCtl m).par = s.par := rfl
@[simp] theorem State.pSetCtl_ctx (s : State) (m : Bits3) : (s.pSetCtl m).ctx = s.ctx := rfl
@[simp] theorem State.pSetCtl_regs (s : State) (m : Bits3) :
    (s.pSetCtl m).regs = { s.regs with ctlw := s.regs.ctlw ||| m } := rfl
@[simp] theorem State.pSetCtl_execCtx (s : State) (m : Bits3) :
    (s.pSetCtl m).execCtx = s.execCtx := rfl
@[simp] theorem State.pSetCtl_trace (s : State) (m : Bits3) :
    (s.pSetCtl m).trace = s.trace ++ [.setCtl m] := rfl
@[simp] theorem State.pSetCtl_sink (s : State) (m : Bits3) : (s.pSetCtl m).sink = s.sink := rfl
@[simp] theorem State.pSetCtl_mem (s : State) (m : Bits3) : (s.pSetCtl m).mem = s.mem := rfl
@[simp] theorem State.pSetCtl_task (s : State) (m : Bits3) : (s.pSetCtl m).task = s.task := rfl
@[simp] theorem State.pSetCtl_lastResult (s : State) (m : Bits3) :
    (s.pSetCtl m).lastResult = s.lastResult := rfl
@[simp] theorem State.pSetCtl_program (s : State) (m : Bits3) :
    (s.pSetCtl m).program = s.program := rfl
@[simp] theorem State.pSetCtl_irqs (s : State) (m : Bits3) : (s.pSetCtl m).irqs = s.irqs := rfl
@[simp] theorem State.pSetCtl_env (s : State) (m : Bits3) : (s.pSetCtl m).env = s.env := rfl
@[simp] theorem State.pSetCtl_fresh (s : State) (m : Bits3) : (s.pSetCtl m).fresh = s.fresh := rfl

@[simp] theorem State.pClrCtl_par (s : State) (m : Bits3) : (s.pClrCtl m).par = s.par := rfl
@[simp] theorem State.pClrCtl_ctx (s : State) (m : Bits3) : (s.pClrCtl m).ctx = s.ctx := rfl
@[simp] theorem State.pClrCtl_regs (s : State) (m : Bits3) :
    (s.pClrCtl m).regs = { s.regs with ctlw := s.regs.ctlw &&& ~~~m } := rfl
@[simp] theorem State.pClrCtl_execCtx (s : State) (m : Bits3) :
    (s.pClrCtl m).execCtx = s.execCtx := rfl
@[simp] theorem State.pClrCtl_trace (s : State) (m : Bits3) :
    (s.pClrCtl m).trace = s.trace ++ [.clrCtl m] := rfl
@[simp] theorem State.pClrCtl_sink (s : State) (m : Bits3) : (s.pClrCtl m).sink = s.sink := rfl
@[simp] theorem State.pClrCtl_mem (s : State) (m : Bits3) : (s.pClrCtl m).mem = s.mem := rfl
@[simp] theorem State.pClrCtl_task (s : State) (m : Bits3) : (s.pClrCtl m).task = s.task := rfl
@[simp] theorem State.pClrCtl_lastResult (s : State) (m : Bits3) :
    (s.pClrCtl m).lastResult = s.lastResult := rfl
@[simp] theorem State.pClrCtl_program (s : State) (m : Bits3) :
    (s.pClrCtl m).program = s.program := rfl
@[simp] theorem State.pClrCtl_irqs (s : State) (m : Bits3) : (s.pClrCtl m).irqs = s.irqs := rfl
@[simp] theorem State.pClrCtl_env (s : State) (m : Bits3) : (s.pClrCtl m).env = s.env := rfl
@[simp] theorem State.pClrCtl_fresh (s : State) (m : Bits3) : (s.pClrCtl m).fresh = s.fresh := rfl

@[simp] theorem State.pSetIE_par (s : State) (m : Bits3) : (s.pSetIE m).par = s.par := rfl
@[simp] theorem State.pSetIE_ctx (s : State) (m : Bits3) : (s.pSetIE m).ctx = s.ctx := rfl
@[simp] theorem State.pSetIE_regs (s : State) (m : Bits3) :
    (s.pSetIE m).regs = { s.regs with ie := s.regs.ie ||| m } := rfl
@[simp] theorem State.pSetIE_execCtx (s : State) (m : Bits3) :
    (s.pSetIE m).execCtx = s.execCtx := rfl
@[simp] theorem State.pSetIE_trace (s : State) (m : Bits3) :
    (s.pSetIE m).trace = s.trace ++ [.setIE m] := rfl
@[simp] theorem State.pSetIE_sink (s : State) (m : Bits3) : (s.pSetIE m).sink = s.sink := rfl
@[simp] theorem State.pSetIE_mem (s : State) (m : Bits3) : (s.pSetIE m).mem = s.mem := rfl
@[simp] theorem State.pSetIE_task (s : State) (m : Bits3) : (s.pSetIE m).task = s.task := rfl
@[simp] theorem State.pSetIE_lastResult (s : State) (m : Bits3) :
    (s.pSetIE m).lastResult = s.lastResult := rfl
@[simp] theorem State.pSetIE_program (s : State) (m : Bits3) :
    (s.pSetIE m).program = s.program := rfl
@[simp] theorem State.pSetIE_irqs (s : State) (m : Bits3) : (s.pSetIE m).irqs = s.irqs := rfl
@[simp] theorem State.pSetIE_env (s : State) (m : Bits3) : (s.pSetIE m).env = s.env := rfl
@[simp] theorem State.pSetIE_fresh (s : State) (m : Bits3) : (s.pSetIE m).fresh = s.fresh := rfl

@[simp] theorem State.pClrIE_par (s : State) (m : Bits3) : (s.pClrIE m).par = s.par := rfl
@[simp] theorem State.pClrIE_ctx (s : State) (m : Bits3) : (s.pClrIE m).ctx = s.ctx := rfl
@[simp] theorem State.pClrIE_regs (s : State) (m : Bits3) :
    (s.pClrIE m).regs = { s.regs with ie := s.regs.ie &&& ~~~m } := rfl
@[simp] theorem State.pClrIE_execCtx (s : State) (m : Bits3) :
    (s.pClrIE m).execCtx = s.execCtx := rfl
@[simp] theorem State.pClrIE_trace (s : State) (m : Bits3) :
    (s.pClrIE m).trace = s.trace ++ [.clrIE m] := rfl
@[simp] theorem State.pClrIE_sink (s : State) (m : Bits3) : (s.pClrIE m).sink = s.sink := rfl
@[simp] theorem State.pClrIE_mem (s : State) (m : Bits3) : (s.pClrIE m).mem = s.mem := rfl
@[simp] theorem State.pClrIE_task (s : State) (m : Bits3) : (s.pClrIE m).task = s.task := rfl
@[simp] theorem State.pClrIE_lastResult (s : State) (m : Bits3) :
    (s.pClrIE m).lastResult = s.lastResult := rfl
@[simp] theorem State.pClrIE_program (s : State) (m : Bits3) :
    (s.pClrIE m).program = s.program := rfl
@[simp] theorem State.pClrIE_irqs (s : State) (m : Bits3) : (s.pClrIE m).irqs = s.irqs := rfl
@[simp] theorem State.pClrIE_env (s : State) (m : Bits3) : (s.pClrIE m).env = s.env := rfl
@[simp] theorem State.pClrIE_fresh (s : State) (m : Bits3) : (s.pClrIE m).fresh = s.fresh := rfl

@[simp] theorem State.pWrTx_par (s : State) (b : Byte) : (s.pWrTx b).par = s.par := rfl
@[simp] theorem State.pWrTx_ctx (s : State) (b : Byte) : (s.pWrTx b).ctx = s.ctx := rfl
@[simp] theorem State.pWrTx_regs (s : State) (b : Byte) :
    (s.pWrTx b).regs = { s.regs with txbuf := b } := rfl
@[simp] theorem State.pWrTx_execCtx (s : State) (b : Byte) : (s.pWrTx b).execCtx = s.execCtx := rfl
@[simp] theorem State.pWrTx_trace (s : State) (b : Byte) :
    (s.pWrTx b).trace = s.trace ++ [.wrTx b] := rfl
@[simp] theorem State.pWrTx_sink (s : State) (b : Byte) : (s.pWrTx b).sink = s.sink := rfl
@[simp] theorem State.pWrTx_mem (s : State) (b : Byte) : (s.pWrTx b).mem = s.mem := rfl
@[simp] theorem State.pWrTx_task (s : State) (b : Byte) : (s.pWrTx b).task = s.task := rfl
@[simp] theorem State.pWrTx_lastResult (s : State) (b : Byte) :
    (s.pWrTx b).lastResult = s.lastResult := rfl
@[simp] theorem State.pWrTx_program (s : State) (b : Byte) : (s.pWrTx b).program = s.program := rfl
@[simp] theorem State.pWrTx_irqs (s : State) (b : Byte) : (s.pWrTx b).irqs = s.irqs := rfl
@[simp] theorem State.pWrTx_env (s : State) (b : Byte) : (s.pWrTx b).env = s.env := rfl
@[simp] theorem State.pWrTx_fresh (s : State) (b : Byte) : (s.pWrTx b).fresh = s.fresh := rfl

@[simp] theorem State.readNow_par (s : State) : s.readNow.par = s.par := rfl
@[simp] theorem State.readNow_ctx (s : State) : s.readNow.ctx = s.ctx := rfl
@[simp] theorem State.readNow_regs (s : State) : s.readNow.regs = s.regs := rfl
@[simp] theorem State.readNow_execCtx (s : State) : s.readNow.execCtx = s.execCtx := rfl
@[simp] theorem State.readNow_trace (s : State) :
    s.readNow.trace = s.trace ++ [.now (s.nowAt 0)] := rfl
@[simp] theorem State.readNow_sink (s : State) : s.readNow.sink = s.sink := rfl
@[simp] theorem State.readNow_mem (s : State) : s.readNow.mem = s.mem := rfl
@[simp] theorem State.readNow_task (s : State) : s.readNow.task = s.task := rfl
@[simp] theorem State.readNow_lastResult (s : State) : s.readNow.lastResult = s.lastResult := rfl
@[simp] theorem State.readNow_program (s : State) : s.readNow.program = s.program := rfl
@[simp] theorem State.readNow_irqs (s : State) : s.readNow.irqs = s.irqs := rfl
@[simp] theorem State.readNow_env (s : State) :
    s.readNow.env = { s.env with now := s.env.now.skip 1 } := rfl
@[simp] theorem State.readNow_fresh (s : State) : s.readNow.fresh = s.fresh := rfl

@[simp] theorem State.readBusy_par (s : State) : s.readBusy.par = s.par := rfl
@[simp] theorem State.readBusy_ctx (s : State) : s.readBusy.ctx = s.ctx := rfl
@[simp] theorem State.readBusy_regs (s : State) : s.readBusy.regs = s.regs := rfl
@[simp] theorem State.readBusy_execCtx (s : State) : s.readBusy.execCtx = s.execCtx := rfl
@[simp] theorem State.readBusy_trace (s : State) :
    s.readBusy.trace = s.trace ++ [.busy (s.busyAt 0)] := rfl
@[simp] theorem State.readBusy_sink (s : State) : s.readBusy.sink = s.sink := rfl
@[simp] theorem State.readBusy_mem (s : State) : s.readBusy.mem = s.mem := rfl
@[simp] theorem State.readBusy_task (s : State) : s.readBusy.task = s.task := rfl
@[simp] theorem State.readBusy_lastResult (s : State) : s.readBusy.lastResult = s.lastResult := rfl
@[simp] theorem State.readBusy_program (s : State) : s.readBusy.program = s.program := rfl
@[simp] theorem State.readBusy_irqs (s : State) : s.readBusy.irqs = s.irqs := rfl
@[simp] theorem State.readBusy_env (s : State) :
    s.readBusy.env = { s.env with busy := s.env.busy.skip 1 } := rfl
@[simp] theorem State.readBusy_fresh (s : State) : s.readBusy.fresh = s.fresh := rfl

@[simp] theorem State.readCtl_par (s : State) : s.readCtl.par = s.par := rfl
@[simp] theorem State.readCtl_ctx (s : State) : s.readCtl.ctx = s.ctx := rfl
@[simp] theorem State.readCtl_regs (s : State) : s.readCtl.regs = s.regs := rfl
@[simp] theorem State.readCtl_execCtx (s : State) : s.readCtl.execCtx = s.execCtx := rfl
@[simp] theorem State.readCtl_trace (s : State) :
    s.readCtl.trace = s.trace ++ [.ctl (s.ctlAt 0)] := rfl
@[simp] theorem State.readCtl_sink (s : State) : s.readCtl.sink = s.sink := rfl
@[simp] theorem State.readCtl_mem (s : State) : s.readCtl.mem = s.mem := rfl
@[simp] theorem State.readCtl_task (s : State) : s.readCtl.task = s.task := rfl
@[simp] theorem State.readCtl_lastResult (s : State) : s.readCtl.lastResult = s.lastResult := rfl
@[simp] theorem State.readCtl_program (s : State) : s.readCtl.program = s.program := rfl
@[simp] theorem State.readCtl_irqs (s : State) : s.readCtl.irqs = s.irqs := rfl
@[simp] theorem State.readCtl_env (s : State) :
    s.readCtl.env = { s.env with ctl := s.env.ctl.skip 1 } := rfl
@[simp] theorem State.readCtl_fresh (s : State) : s.readCtl.fresh = s.fresh := rfl

@[simp] theorem State.readFlags_par (s : State) : s.readFlags.par = s.par := rfl
@[simp] theorem State.readFlags_ctx (s : State) : s.readFlags.ctx = s.ctx := rfl
@[simp] theorem State.readFlags_regs (s : State) : s.readFlags.regs = s.regs := rfl
@[simp] theorem State.readFlags_execCtx (s : State) : s.readFlags.execCtx = s.execCtx := rfl
@[simp] theorem State.readFlags_trace (s : State) :
    s.readFlags.trace = s.trace ++ [.flags (s.flagsAt 0)] := rfl
@[simp] theorem State.readFlags_sink (s : State) : s.readFlags.sink = s.sink := rfl
@[simp] theorem State.readFlags_mem (s : State) : s.readFlags.mem = s.mem := rfl
@[simp] theorem State.readFlags_task (s : State) : s.readFlags.task = s.task := rfl
@[simp] theorem State.readFlags_lastResult (s : State) :
    s.readFlags.lastResult = s.lastResult := rfl
@[simp] theorem State.readFlags_program (s : State) : s.readFlags.program = s.program := rfl
@[simp] theorem State.readFlags_irqs (s : State) : s.readFlags.irqs = s.irqs := rfl
@[simp] theorem State.readFlags_env (s : State) :
    s.readFlags.env = { s.env with flags := s.env.flags.skip 1 } := rfl
@[simp] theorem State.readFlags_fresh (s : State) : s.readFlags.fresh = s.fresh := rfl

@[simp] theorem State.readRx_par (s : State) : s.readRx.par = s.par := rfl
@[simp] theorem State.readRx_ctx (s : State) : s.readRx.ctx = s.ctx := rfl
@[simp] theorem State.readRx_regs (s : State) : s.readRx.regs = s.regs := rfl
@[simp] theorem State.readRx_execCtx (s : State) : s.readRx.execCtx = s.execCtx := rfl
@[simp] theorem State.readRx_trace (s : State) :
    s.readRx.trace = s.trace ++ [.rdRx (s.rdRxAt 0)] := rfl
@[simp] theorem State.readRx_sink (s : State) : s.readRx.sink = s.sink := rfl
@[simp] theorem State.readRx_mem (s : State) : s.readRx.mem = s.mem := rfl
@[simp] theorem State.readRx_task (s : State) : s.readRx.task = s.task := rfl
@[simp] theorem State.readRx_lastResult (s : State) : s.readRx.lastResult = s.lastResult := rfl
@[simp] theorem State.readRx_program (s : State) : s.readRx.program = s.program := rfl
@[simp] theorem State.readRx_irqs (s : State) : s.readRx.irqs = s.irqs := rfl
@[simp] theorem State.readRx_env (s : State) :
    s.readRx.env = { s.env with rdRx := s.env.rdRx.skip 1 } := rfl
@[simp] theorem State.readRx_fresh (s : State) : s.readRx.fresh = s.fresh := rfl

@[simp] theorem State.signalRead_par (s : State) (o : OutcomeCode) :
    (s.signalRead o).par = s.par := rfl
@[simp] theorem State.signalRead_ctx (s : State) (o : OutcomeCode) :
    (s.signalRead o).ctx = s.ctx := rfl
@[simp] theorem State.signalRead_regs (s : State) (o : OutcomeCode) :
    (s.signalRead o).regs = s.regs := rfl
@[simp] theorem State.signalRead_execCtx (s : State) (o : OutcomeCode) :
    (s.signalRead o).execCtx = s.execCtx := rfl
@[simp] theorem State.signalRead_trace (s : State) (o : OutcomeCode) :
    (s.signalRead o).trace = s.trace ++ [.readDone (s.completion o)] := rfl
@[simp] theorem State.signalRead_sink (s : State) (o : OutcomeCode) :
    (s.signalRead o).sink = s.sink := rfl
@[simp] theorem State.signalRead_mem (s : State) (o : OutcomeCode) :
    (s.signalRead o).mem = s.mem := rfl
@[simp] theorem State.signalRead_task (s : State) (o : OutcomeCode) :
    (s.signalRead o).task = s.task := rfl
@[simp] theorem State.signalRead_lastResult (s : State) (o : OutcomeCode) :
    (s.signalRead o).lastResult = s.lastResult := rfl
@[simp] theorem State.signalRead_program (s : State) (o : OutcomeCode) :
    (s.signalRead o).program = s.program := rfl
@[simp] theorem State.signalRead_irqs (s : State) (o : OutcomeCode) :
    (s.signalRead o).irqs = s.irqs := rfl
@[simp] theorem State.signalRead_env (s : State) (o : OutcomeCode) :
    (s.signalRead o).env = { s.env with client := s.env.client.skip 1 } := rfl
@[simp] theorem State.signalRead_fresh (s : State) (o : OutcomeCode) :
    (s.signalRead o).fresh = s.fresh := rfl

@[simp] theorem State.signalWrite_par (s : State) (o : OutcomeCode) :
    (s.signalWrite o).par = s.par := rfl
@[simp] theorem State.signalWrite_ctx (s : State) (o : OutcomeCode) :
    (s.signalWrite o).ctx = s.ctx := rfl
@[simp] theorem State.signalWrite_regs (s : State) (o : OutcomeCode) :
    (s.signalWrite o).regs = s.regs := rfl
@[simp] theorem State.signalWrite_execCtx (s : State) (o : OutcomeCode) :
    (s.signalWrite o).execCtx = s.execCtx := rfl
@[simp] theorem State.signalWrite_trace (s : State) (o : OutcomeCode) :
    (s.signalWrite o).trace = s.trace ++ [.writeDone (s.completion o)] := rfl
@[simp] theorem State.signalWrite_sink (s : State) (o : OutcomeCode) :
    (s.signalWrite o).sink = s.sink := rfl
@[simp] theorem State.signalWrite_mem (s : State) (o : OutcomeCode) :
    (s.signalWrite o).mem = s.mem := rfl
@[simp] theorem State.signalWrite_task (s : State) (o : OutcomeCode) :
    (s.signalWrite o).task = s.task := rfl
@[simp] theorem State.signalWrite_lastResult (s : State) (o : OutcomeCode) :
    (s.signalWrite o).lastResult = s.lastResult := rfl
@[simp] theorem State.signalWrite_program (s : State) (o : OutcomeCode) :
    (s.signalWrite o).program = s.program := rfl
@[simp] theorem State.signalWrite_irqs (s : State) (o : OutcomeCode) :
    (s.signalWrite o).irqs = s.irqs := rfl
@[simp] theorem State.signalWrite_env (s : State) (o : OutcomeCode) :
    (s.signalWrite o).env = { s.env with client := s.env.client.skip 1 } := rfl
@[simp] theorem State.signalWrite_fresh (s : State) (o : OutcomeCode) :
    (s.signalWrite o).fresh = s.fresh := rfl

@[simp] theorem State.setDirection_par (s : State) (d : Direction) :
    (s.setDirection d).par = s.par := rfl
@[simp] theorem State.setDirection_ctx (s : State) (d : Direction) :
    (s.setDirection d).ctx = { s.ctx with direction := d } := rfl
@[simp] theorem State.setDirection_regs (s : State) (d : Direction) :
    (s.setDirection d).regs = s.regs := rfl
@[simp] theorem State.setDirection_execCtx (s : State) (d : Direction) :
    (s.setDirection d).execCtx = s.execCtx := rfl
@[simp] theorem State.setDirection_trace (s : State) (d : Direction) :
    (s.setDirection d).trace = s.trace := rfl
@[simp] theorem State.setDirection_sink (s : State) (d : Direction) :
    (s.setDirection d).sink = s.sink := rfl
@[simp] theorem State.setDirection_mem (s : State) (d : Direction) :
    (s.setDirection d).mem = s.mem := rfl
@[simp] theorem State.setDirection_task (s : State) (d : Direction) :
    (s.setDirection d).task = s.task := rfl
@[simp] theorem State.setDirection_lastResult (s : State) (d : Direction) :
    (s.setDirection d).lastResult = s.lastResult := rfl
@[simp] theorem State.setDirection_program (s : State) (d : Direction) :
    (s.setDirection d).program = s.program := rfl
@[simp] theorem State.setDirection_irqs (s : State) (d : Direction) :
    (s.setDirection d).irqs = s.irqs := rfl
@[simp] theorem State.setDirection_env (s : State) (d : Direction) :
    (s.setDirection d).env = s.env := rfl
@[simp] theorem State.setDirection_fresh (s : State) (d : Direction) :
    (s.setDirection d).fresh = s.fresh := rfl

@[simp] theorem State.setStarted_par (s : State) (b : Bool) : (s.setStarted b).par = s.par := rfl
@[simp] theorem State.setStarted_ctx (s : State) (b : Bool) :
    (s.setStarted b).ctx = { s.ctx with started := b } := rfl
@[simp] theorem State.setStarted_regs (s : State) (b : Bool) :
    (s.setStarted b).regs = s.regs := rfl
@[simp] theorem State.setStarted_execCtx (s : State) (b : Bool) :
    (s.setStarted b).execCtx = s.execCtx := rfl
@[simp] theorem State.setStarted_trace (s : State) (b : Bool) :
    (s.setStarted b).trace = s.trace := rfl
@[simp] theorem State.setStarted_sink (s : State) (b : Bool) :
    (s.setStarted b).sink = s.sink := rfl
@[simp] theorem State.setStarted_mem (s : State) (b : Bool) : (s.setStarted b).mem = s.mem := rfl
@[simp] theorem State.setStarted_task (s : State) (b : Bool) :
    (s.setStarted b).task = s.task := rfl
@[simp] theorem State.setStarted_lastResult (s : State) (b : Bool) :
    (s.setStarted b).lastResult = s.lastResult := rfl
@[simp] theorem State.setStarted_program (s : State) (b : Bool) :
    (s.setStarted b).program = s.program := rfl
@[simp] theorem State.setStarted_irqs (s : State) (b : Bool) :
    (s.setStarted b).irqs = s.irqs := rfl
@[simp] theorem State.setStarted_env (s : State) (b : Bool) : (s.setStarted b).env = s.env := rfl
@[simp] theorem State.setStarted_fresh (s : State) (b : Bool) :
    (s.setStarted b).fresh = s.fresh := rfl

@[simp] theorem State.recordCtx_par (s : State) (d buf len flags addr) :
    (s.recordCtx d buf len flags addr).par = s.par := rfl
@[simp] theorem State.recordCtx_ctx (s : State) (d buf len flags addr) :
    (s.recordCtx d buf len flags addr).ctx = { s.ctx with
      direction := d, buffer := buf, length := len, position := 0, remaining := len,
      flags := flags, address := addr } := rfl
@[simp] theorem State.recordCtx_regs (s : State) (d buf len flags addr) :
    (s.recordCtx d buf len flags addr).regs = s.regs := rfl
@[simp] theorem State.recordCtx_execCtx (s : State) (d buf len flags addr) :
    (s.recordCtx d buf len flags addr).execCtx = s.execCtx := rfl
@[simp] theorem State.recordCtx_trace (s : State) (d buf len flags addr) :
    (s.recordCtx d buf len flags addr).trace = s.trace := rfl
@[simp] theorem State.recordCtx_sink (s : State) (d buf len flags addr) :
    (s.recordCtx d buf len flags addr).sink = s.sink := rfl
@[simp] theorem State.recordCtx_mem (s : State) (d buf len flags addr) :
    (s.recordCtx d buf len flags addr).mem = s.mem := rfl
@[simp] theorem State.recordCtx_task (s : State) (d buf len flags addr) :
    (s.recordCtx d buf len flags addr).task = s.task := rfl
@[simp] theorem State.recordCtx_lastResult (s : State) (d buf len flags addr) :
    (s.recordCtx d buf len flags addr).lastResult = s.lastResult := rfl
@[simp] theorem State.recordCtx_program (s : State) (d buf len flags addr) :
    (s.recordCtx d buf len flags addr).program = s.program := rfl
@[simp] theorem State.recordCtx_irqs (s : State) (d buf len flags addr) :
    (s.recordCtx d buf len flags addr).irqs = s.irqs := rfl
@[simp] theorem State.recordCtx_env (s : State) (d buf len flags addr) :
    (s.recordCtx d buf len flags addr).env = s.env := rfl
@[simp] theorem State.recordCtx_fresh (s : State) (d buf len flags addr) :
    (s.recordCtx d buf len flags addr).fresh = s.fresh := rfl

@[simp] theorem State.moveByte_par (s : State) : s.moveByte.par = s.par := rfl
@[simp] theorem State.moveByte_ctx (s : State) :
    s.moveByte.ctx = { s.ctx with
      position := countSucc s.par.lenBits s.ctx.position, remaining := s.ctx.remaining - 1 } := rfl
@[simp] theorem State.moveByte_regs (s : State) : s.moveByte.regs = s.regs := rfl
@[simp] theorem State.moveByte_execCtx (s : State) : s.moveByte.execCtx = s.execCtx := rfl
@[simp] theorem State.moveByte_trace (s : State) : s.moveByte.trace = s.trace := rfl
@[simp] theorem State.moveByte_sink (s : State) : s.moveByte.sink = s.sink := rfl
@[simp] theorem State.moveByte_mem (s : State) : s.moveByte.mem = s.mem := rfl
@[simp] theorem State.moveByte_task (s : State) : s.moveByte.task = s.task := rfl
@[simp] theorem State.moveByte_lastResult (s : State) : s.moveByte.lastResult = s.lastResult := rfl
@[simp] theorem State.moveByte_program (s : State) : s.moveByte.program = s.program := rfl
@[simp] theorem State.moveByte_irqs (s : State) : s.moveByte.irqs = s.irqs := rfl
@[simp] theorem State.moveByte_env (s : State) : s.moveByte.env = s.env := rfl
@[simp] theorem State.moveByte_fresh (s : State) : s.moveByte.fresh = s.fresh := rfl

@[simp] theorem State.deliver_par (s : State) (r : FaultReport) : (s.deliver r).par = s.par := rfl
@[simp] theorem State.deliver_ctx (s : State) (r : FaultReport) : (s.deliver r).ctx = s.ctx := rfl
@[simp] theorem State.deliver_regs (s : State) (r : FaultReport) :
    (s.deliver r).regs = s.regs := rfl
@[simp] theorem State.deliver_execCtx (s : State) (r : FaultReport) :
    (s.deliver r).execCtx = s.execCtx := rfl
@[simp] theorem State.deliver_trace (s : State) (r : FaultReport) :
    (s.deliver r).trace = s.trace := rfl
@[simp] theorem State.deliver_sink (s : State) (r : FaultReport) :
    (s.deliver r).sink = if s.par.sinkNull then s.sink else s.sink ++ [r] := rfl
@[simp] theorem State.deliver_mem (s : State) (r : FaultReport) : (s.deliver r).mem = s.mem := rfl
@[simp] theorem State.deliver_task (s : State) (r : FaultReport) :
    (s.deliver r).task = s.task := rfl
@[simp] theorem State.deliver_lastResult (s : State) (r : FaultReport) :
    (s.deliver r).lastResult = s.lastResult := rfl
@[simp] theorem State.deliver_program (s : State) (r : FaultReport) :
    (s.deliver r).program = s.program := rfl
@[simp] theorem State.deliver_irqs (s : State) (r : FaultReport) :
    (s.deliver r).irqs = s.irqs := rfl
@[simp] theorem State.deliver_env (s : State) (r : FaultReport) : (s.deliver r).env = s.env := rfl
@[simp] theorem State.deliver_fresh (s : State) (r : FaultReport) :
    (s.deliver r).fresh = s.fresh := rfl

@[simp] theorem State.enterIsr_par (s : State) (v : Byte) : (s.enterIsr v).par = s.par := rfl
@[simp] theorem State.enterIsr_ctx (s : State) (v : Byte) : (s.enterIsr v).ctx = s.ctx := rfl
@[simp] theorem State.enterIsr_regs (s : State) (v : Byte) : (s.enterIsr v).regs = s.regs := rfl
@[simp] theorem State.enterIsr_execCtx (s : State) (v : Byte) :
    (s.enterIsr v).execCtx = .interrupt := rfl
@[simp] theorem State.enterIsr_trace (s : State) (v : Byte) :
    (s.enterIsr v).trace = s.trace ++ [.irq v] := rfl
@[simp] theorem State.enterIsr_sink (s : State) (v : Byte) : (s.enterIsr v).sink = s.sink := rfl
@[simp] theorem State.enterIsr_mem (s : State) (v : Byte) : (s.enterIsr v).mem = s.mem := rfl
@[simp] theorem State.enterIsr_task (s : State) (v : Byte) : (s.enterIsr v).task = s.task := rfl
@[simp] theorem State.enterIsr_lastResult (s : State) (v : Byte) :
    (s.enterIsr v).lastResult = s.lastResult := rfl
@[simp] theorem State.enterIsr_program (s : State) (v : Byte) :
    (s.enterIsr v).program = s.program := rfl
@[simp] theorem State.enterIsr_irqs (s : State) (v : Byte) : (s.enterIsr v).irqs = s.irqs := rfl
@[simp] theorem State.enterIsr_env (s : State) (v : Byte) : (s.enterIsr v).env = s.env := rfl
@[simp] theorem State.enterIsr_fresh (s : State) (v : Byte) : (s.enterIsr v).fresh = s.fresh := rfl

@[simp] theorem State.leaveIsr_par (s : State) : s.leaveIsr.par = s.par := rfl
@[simp] theorem State.leaveIsr_ctx (s : State) : s.leaveIsr.ctx = s.ctx := rfl
@[simp] theorem State.leaveIsr_regs (s : State) : s.leaveIsr.regs = s.regs := rfl
@[simp] theorem State.leaveIsr_execCtx (s : State) : s.leaveIsr.execCtx = .normal := rfl
@[simp] theorem State.leaveIsr_trace (s : State) : s.leaveIsr.trace = s.trace := rfl
@[simp] theorem State.leaveIsr_sink (s : State) : s.leaveIsr.sink = s.sink := rfl
@[simp] theorem State.leaveIsr_mem (s : State) : s.leaveIsr.mem = s.mem := rfl
@[simp] theorem State.leaveIsr_task (s : State) : s.leaveIsr.task = s.task := rfl
@[simp] theorem State.leaveIsr_lastResult (s : State) : s.leaveIsr.lastResult = s.lastResult := rfl
@[simp] theorem State.leaveIsr_program (s : State) : s.leaveIsr.program = s.program := rfl
@[simp] theorem State.leaveIsr_irqs (s : State) : s.leaveIsr.irqs = s.irqs := rfl
@[simp] theorem State.leaveIsr_env (s : State) : s.leaveIsr.env = s.env := rfl
@[simp] theorem State.leaveIsr_fresh (s : State) : s.leaveIsr.fresh = s.fresh := rfl

@[simp] theorem State.setResult_par (s : State) (r : OpResult) : (s.setResult r).par = s.par := rfl
@[simp] theorem State.setResult_ctx (s : State) (r : OpResult) : (s.setResult r).ctx = s.ctx := rfl
@[simp] theorem State.setResult_regs (s : State) (r : OpResult) :
    (s.setResult r).regs = s.regs := rfl
@[simp] theorem State.setResult_execCtx (s : State) (r : OpResult) :
    (s.setResult r).execCtx = s.execCtx := rfl
@[simp] theorem State.setResult_trace (s : State) (r : OpResult) :
    (s.setResult r).trace = s.trace := rfl
@[simp] theorem State.setResult_sink (s : State) (r : OpResult) :
    (s.setResult r).sink = s.sink := rfl
@[simp] theorem State.setResult_mem (s : State) (r : OpResult) : (s.setResult r).mem = s.mem := rfl
@[simp] theorem State.setResult_task (s : State) (r : OpResult) :
    (s.setResult r).task = s.task := rfl
@[simp] theorem State.setResult_lastResult (s : State) (r : OpResult) :
    (s.setResult r).lastResult = some r := rfl
@[simp] theorem State.setResult_program (s : State) (r : OpResult) :
    (s.setResult r).program = s.program := rfl
@[simp] theorem State.setResult_irqs (s : State) (r : OpResult) :
    (s.setResult r).irqs = s.irqs := rfl
@[simp] theorem State.setResult_env (s : State) (r : OpResult) : (s.setResult r).env = s.env := rfl
@[simp] theorem State.setResult_fresh (s : State) (r : OpResult) :
    (s.setResult r).fresh = s.fresh := rfl

@[simp] theorem State.returnResult_par (s : State) (r : OpResult) :
    (s.returnResult r).par = s.par := rfl
@[simp] theorem State.returnResult_ctx (s : State) (r : OpResult) :
    (s.returnResult r).ctx = s.ctx := rfl
@[simp] theorem State.returnResult_regs (s : State) (r : OpResult) :
    (s.returnResult r).regs = s.regs := rfl
@[simp] theorem State.returnResult_execCtx (s : State) (r : OpResult) :
    (s.returnResult r).execCtx = s.execCtx := rfl
@[simp] theorem State.returnResult_trace (s : State) (r : OpResult) :
    (s.returnResult r).trace = s.trace ++ [.result r] := rfl
@[simp] theorem State.returnResult_sink (s : State) (r : OpResult) :
    (s.returnResult r).sink = s.sink := rfl
@[simp] theorem State.returnResult_mem (s : State) (r : OpResult) :
    (s.returnResult r).mem = s.mem := rfl
@[simp] theorem State.returnResult_task (s : State) (r : OpResult) :
    (s.returnResult r).task = s.task := rfl
@[simp] theorem State.returnResult_lastResult (s : State) (r : OpResult) :
    (s.returnResult r).lastResult = some r := rfl
@[simp] theorem State.returnResult_program (s : State) (r : OpResult) :
    (s.returnResult r).program = s.program := rfl
@[simp] theorem State.returnResult_irqs (s : State) (r : OpResult) :
    (s.returnResult r).irqs = s.irqs := rfl
@[simp] theorem State.returnResult_env (s : State) (r : OpResult) :
    (s.returnResult r).env = s.env := rfl
@[simp] theorem State.returnResult_fresh (s : State) (r : OpResult) :
    (s.returnResult r).fresh = s.fresh := rfl

/-! ### The environment's answers -/

@[simp] theorem Draws.skip_zero {α : Type} (d : Draws α) : d.skip 0 = d := by
  simp [Draws.skip]

@[simp] theorem Draws.skip_skip {α : Type} (d : Draws α) (j k : Nat) :
    (d.skip j).skip k = d.skip (j + k) := by
  simp [Draws.skip, Nat.add_assoc]

@[simp] theorem Draws.at_skip {α : Type} (free : Nat → α) (d : Draws α) (j k : Nat) :
    (d.skip j).at free k = d.at free (j + k) := by
  simp [Draws.at, Draws.skip, Nat.add_assoc]

/-- The answers to come are a function of `par` and `env`. -/
theorem State.nowAt_congr {s t : State} (hp : t.par = s.par) (he : t.env.now = s.env.now)
    (k : Nat) : t.nowAt k = s.nowAt k := by
  simp [State.nowAt, hp, he]

@[simp] theorem State.setMem_nowAt (s : State) (m : Memory) (k : Nat) :
    (s.setMem m).nowAt k = s.nowAt k := rfl
@[simp] theorem State.setMem_busyAt (s : State) (m : Memory) (k : Nat) :
    (s.setMem m).busyAt k = s.busyAt k := rfl
@[simp] theorem State.setMem_ctlAt (s : State) (m : Memory) (k : Nat) :
    (s.setMem m).ctlAt k = s.ctlAt k := rfl
@[simp] theorem State.setMem_flagsAt (s : State) (m : Memory) (k : Nat) :
    (s.setMem m).flagsAt k = s.flagsAt k := rfl
@[simp] theorem State.setMem_rdRxAt (s : State) (m : Memory) (k : Nat) :
    (s.setMem m).rdRxAt k = s.rdRxAt k := rfl
@[simp] theorem State.setMem_clientAt (s : State) (m : Memory) (k : Nat) :
    (s.setMem m).clientAt k = s.clientAt k := rfl

@[simp] theorem State.setTask_nowAt (s : State) (t : Option Task) (k : Nat) :
    (s.setTask t).nowAt k = s.nowAt k := rfl
@[simp] theorem State.setTask_busyAt (s : State) (t : Option Task) (k : Nat) :
    (s.setTask t).busyAt k = s.busyAt k := rfl
@[simp] theorem State.setTask_ctlAt (s : State) (t : Option Task) (k : Nat) :
    (s.setTask t).ctlAt k = s.ctlAt k := rfl
@[simp] theorem State.setTask_flagsAt (s : State) (t : Option Task) (k : Nat) :
    (s.setTask t).flagsAt k = s.flagsAt k := rfl
@[simp] theorem State.setTask_rdRxAt (s : State) (t : Option Task) (k : Nat) :
    (s.setTask t).rdRxAt k = s.rdRxAt k := rfl
@[simp] theorem State.setTask_clientAt (s : State) (t : Option Task) (k : Nat) :
    (s.setTask t).clientAt k = s.clientAt k := rfl

@[simp] theorem State.emit_nowAt (s : State) (e : Event) (k : Nat) :
    (s.emit e).nowAt k = s.nowAt k := rfl
@[simp] theorem State.emit_busyAt (s : State) (e : Event) (k : Nat) :
    (s.emit e).busyAt k = s.busyAt k := rfl
@[simp] theorem State.emit_ctlAt (s : State) (e : Event) (k : Nat) :
    (s.emit e).ctlAt k = s.ctlAt k := rfl
@[simp] theorem State.emit_flagsAt (s : State) (e : Event) (k : Nat) :
    (s.emit e).flagsAt k = s.flagsAt k := rfl
@[simp] theorem State.emit_rdRxAt (s : State) (e : Event) (k : Nat) :
    (s.emit e).rdRxAt k = s.rdRxAt k := rfl
@[simp] theorem State.emit_clientAt (s : State) (e : Event) (k : Nat) :
    (s.emit e).clientAt k = s.clientAt k := rfl

@[simp] theorem State.pReset_nowAt (s : State) (k : Nat) :
    s.pReset.nowAt k = s.nowAt k := rfl
@[simp] theorem State.pReset_busyAt (s : State) (k : Nat) :
    s.pReset.busyAt k = s.busyAt k := rfl
@[simp] theorem State.pReset_ctlAt (s : State) (k : Nat) :
    s.pReset.ctlAt k = s.ctlAt k := rfl
@[simp] theorem State.pReset_flagsAt (s : State) (k : Nat) :
    s.pReset.flagsAt k = s.flagsAt k := rfl
@[simp] theorem State.pReset_rdRxAt (s : State) (k : Nat) :
    s.pReset.rdRxAt k = s.rdRxAt k := rfl
@[simp] theorem State.pReset_clientAt (s : State) (k : Nat) :
    s.pReset.clientAt k = s.clientAt k := rfl

@[simp] theorem State.pUnreset_nowAt (s : State) (k : Nat) :
    s.pUnreset.nowAt k = s.nowAt k := rfl
@[simp] theorem State.pUnreset_busyAt (s : State) (k : Nat) :
    s.pUnreset.busyAt k = s.busyAt k := rfl
@[simp] theorem State.pUnreset_ctlAt (s : State) (k : Nat) :
    s.pUnreset.ctlAt k = s.ctlAt k := rfl
@[simp] theorem State.pUnreset_flagsAt (s : State) (k : Nat) :
    s.pUnreset.flagsAt k = s.flagsAt k := rfl
@[simp] theorem State.pUnreset_rdRxAt (s : State) (k : Nat) :
    s.pUnreset.rdRxAt k = s.rdRxAt k := rfl
@[simp] theorem State.pUnreset_clientAt (s : State) (k : Nat) :
    s.pUnreset.clientAt k = s.clientAt k := rfl

@[simp] theorem State.pSelectPins_nowAt (s : State) (k : Nat) :
    s.pSelectPins.nowAt k = s.nowAt k := rfl
@[simp] theorem State.pSelectPins_busyAt (s : State) (k : Nat) :
    s.pSelectPins.busyAt k = s.busyAt k := rfl
@[simp] theorem State.pSelectPins_ctlAt (s : State) (k : Nat) :
    s.pSelectPins.ctlAt k = s.ctlAt k := rfl
@[simp] theorem State.pSelectPins_flagsAt (s : State) (k : Nat) :
    s.pSelectPins.flagsAt k = s.flagsAt k := rfl
@[simp] theorem State.pSelectPins_rdRxAt (s : State) (k : Nat) :
    s.pSelectPins.rdRxAt k = s.rdRxAt k := rfl
@[simp] theorem State.pSelectPins_clientAt (s : State) (k : Nat) :
    s.pSelectPins.clientAt k = s.clientAt k := rfl

@[simp] theorem State.pSetAddr_nowAt (s : State) (a : Byte) (k : Nat) :
    (s.pSetAddr a).nowAt k = s.nowAt k := rfl
@[simp] theorem State.pSetAddr_busyAt (s : State) (a : Byte) (k : Nat) :
    (s.pSetAddr a).busyAt k = s.busyAt k := rfl
@[simp] theorem State.pSetAddr_ctlAt (s : State) (a : Byte) (k : Nat) :
    (s.pSetAddr a).ctlAt k = s.ctlAt k := rfl
@[simp] theorem State.pSetAddr_flagsAt (s : State) (a : Byte) (k : Nat) :
    (s.pSetAddr a).flagsAt k = s.flagsAt k := rfl
@[simp] theorem State.pSetAddr_rdRxAt (s : State) (a : Byte) (k : Nat) :
    (s.pSetAddr a).rdRxAt k = s.rdRxAt k := rfl
@[simp] theorem State.pSetAddr_clientAt (s : State) (a : Byte) (k : Nat) :
    (s.pSetAddr a).clientAt k = s.clientAt k := rfl

@[simp] theorem State.pSetCtl_nowAt (s : State) (m : Bits3) (k : Nat) :
    (s.pSetCtl m).nowAt k = s.nowAt k := rfl
@[simp] theorem State.pSetCtl_busyAt (s : State) (m : Bits3) (k : Nat) :
    (s.pSetCtl m).busyAt k = s.busyAt k := rfl
@[simp] theorem State.pSetCtl_ctlAt (s : State) (m : Bits3) (k : Nat) :
    (s.pSetCtl m).ctlAt k = s.ctlAt k := rfl
@[simp] theorem State.pSetCtl_flagsAt (s : State) (m : Bits3) (k : Nat) :
    (s.pSetCtl m).flagsAt k = s.flagsAt k := rfl
@[simp] theorem State.pSetCtl_rdRxAt (s : State) (m : Bits3) (k : Nat) :
    (s.pSetCtl m).rdRxAt k = s.rdRxAt k := rfl
@[simp] theorem State.pSetCtl_clientAt (s : State) (m : Bits3) (k : Nat) :
    (s.pSetCtl m).clientAt k = s.clientAt k := rfl

@[simp] theorem State.pClrCtl_nowAt (s : State) (m : Bits3) (k : Nat) :
    (s.pClrCtl m).nowAt k = s.nowAt k := rfl
@[simp] theorem State.pClrCtl_busyAt (s : State) (m : Bits3) (k : Nat) :
    (s.pClrCtl m).busyAt k = s.busyAt k := rfl
@[simp] theorem State.pClrCtl_ctlAt (s : State) (m : Bits3) (k : Nat) :
    (s.pClrCtl m).ctlAt k = s.ctlAt k := rfl
@[simp] theorem State.pClrCtl_flagsAt (s : State) (m : Bits3) (k : Nat) :
    (s.pClrCtl m).flagsAt k = s.flagsAt k := rfl
@[simp] theorem State.pClrCtl_rdRxAt (s : State) (m : Bits3) (k : Nat) :
    (s.pClrCtl m).rdRxAt k = s.rdRxAt k := rfl
@[simp] theorem State.pClrCtl_clientAt (s : State) (m : Bits3) (k : Nat) :
    (s.pClrCtl m).clientAt k = s.clientAt k := rfl

@[simp] theorem State.pSetIE_nowAt (s : State) (m : Bits3) (k : Nat) :
    (s.pSetIE m).nowAt k = s.nowAt k := rfl
@[simp] theorem State.pSetIE_busyAt (s : State) (m : Bits3) (k : Nat) :
    (s.pSetIE m).busyAt k = s.busyAt k := rfl
@[simp] theorem State.pSetIE_ctlAt (s : State) (m : Bits3) (k : Nat) :
    (s.pSetIE m).ctlAt k = s.ctlAt k := rfl
@[simp] theorem State.pSetIE_flagsAt (s : State) (m : Bits3) (k : Nat) :
    (s.pSetIE m).flagsAt k = s.flagsAt k := rfl
@[simp] theorem State.pSetIE_rdRxAt (s : State) (m : Bits3) (k : Nat) :
    (s.pSetIE m).rdRxAt k = s.rdRxAt k := rfl
@[simp] theorem State.pSetIE_clientAt (s : State) (m : Bits3) (k : Nat) :
    (s.pSetIE m).clientAt k = s.clientAt k := rfl

@[simp] theorem State.pClrIE_nowAt (s : State) (m : Bits3) (k : Nat) :
    (s.pClrIE m).nowAt k = s.nowAt k := rfl
@[simp] theorem State.pClrIE_busyAt (s : State) (m : Bits3) (k : Nat) :
    (s.pClrIE m).busyAt k = s.busyAt k := rfl
@[simp] theorem State.pClrIE_ctlAt (s : State) (m : Bits3) (k : Nat) :
    (s.pClrIE m).ctlAt k = s.ctlAt k := rfl
@[simp] theorem State.pClrIE_flagsAt (s : State) (m : Bits3) (k : Nat) :
    (s.pClrIE m).flagsAt k = s.flagsAt k := rfl
@[simp] theorem State.pClrIE_rdRxAt (s : State) (m : Bits3) (k : Nat) :
    (s.pClrIE m).rdRxAt k = s.rdRxAt k := rfl
@[simp] theorem State.pClrIE_clientAt (s : State) (m : Bits3) (k : Nat) :
    (s.pClrIE m).clientAt k = s.clientAt k := rfl

@[simp] theorem State.pWrTx_nowAt (s : State) (b : Byte) (k : Nat) :
    (s.pWrTx b).nowAt k = s.nowAt k := rfl
@[simp] theorem State.pWrTx_busyAt (s : State) (b : Byte) (k : Nat) :
    (s.pWrTx b).busyAt k = s.busyAt k := rfl
@[simp] theorem State.pWrTx_ctlAt (s : State) (b : Byte) (k : Nat) :
    (s.pWrTx b).ctlAt k = s.ctlAt k := rfl
@[simp] theorem State.pWrTx_flagsAt (s : State) (b : Byte) (k : Nat) :
    (s.pWrTx b).flagsAt k = s.flagsAt k := rfl
@[simp] theorem State.pWrTx_rdRxAt (s : State) (b : Byte) (k : Nat) :
    (s.pWrTx b).rdRxAt k = s.rdRxAt k := rfl
@[simp] theorem State.pWrTx_clientAt (s : State) (b : Byte) (k : Nat) :
    (s.pWrTx b).clientAt k = s.clientAt k := rfl

@[simp] theorem State.readNow_nowAt (s : State) (k : Nat) :
    s.readNow.nowAt k = s.nowAt (1 + k) := by
  simp [State.nowAt]
@[simp] theorem State.readNow_busyAt (s : State) (k : Nat) :
    s.readNow.busyAt k = s.busyAt k := rfl
@[simp] theorem State.readNow_ctlAt (s : State) (k : Nat) :
    s.readNow.ctlAt k = s.ctlAt k := rfl
@[simp] theorem State.readNow_flagsAt (s : State) (k : Nat) :
    s.readNow.flagsAt k = s.flagsAt k := rfl
@[simp] theorem State.readNow_rdRxAt (s : State) (k : Nat) :
    s.readNow.rdRxAt k = s.rdRxAt k := rfl
@[simp] theorem State.readNow_clientAt (s : State) (k : Nat) :
    s.readNow.clientAt k = s.clientAt k := rfl

@[simp] theorem State.readBusy_nowAt (s : State) (k : Nat) :
    s.readBusy.nowAt k = s.nowAt k := rfl
@[simp] theorem State.readBusy_busyAt (s : State) (k : Nat) :
    s.readBusy.busyAt k = s.busyAt (1 + k) := by
  simp [State.busyAt]
@[simp] theorem State.readBusy_ctlAt (s : State) (k : Nat) :
    s.readBusy.ctlAt k = s.ctlAt k := rfl
@[simp] theorem State.readBusy_flagsAt (s : State) (k : Nat) :
    s.readBusy.flagsAt k = s.flagsAt k := rfl
@[simp] theorem State.readBusy_rdRxAt (s : State) (k : Nat) :
    s.readBusy.rdRxAt k = s.rdRxAt k := rfl
@[simp] theorem State.readBusy_clientAt (s : State) (k : Nat) :
    s.readBusy.clientAt k = s.clientAt k := rfl

@[simp] theorem State.readCtl_nowAt (s : State) (k : Nat) :
    s.readCtl.nowAt k = s.nowAt k := rfl
@[simp] theorem State.readCtl_busyAt (s : State) (k : Nat) :
    s.readCtl.busyAt k = s.busyAt k := rfl
@[simp] theorem State.readCtl_ctlAt (s : State) (k : Nat) :
    s.readCtl.ctlAt k = s.ctlAt (1 + k) := by
  simp [State.ctlAt]
@[simp] theorem State.readCtl_flagsAt (s : State) (k : Nat) :
    s.readCtl.flagsAt k = s.flagsAt k := rfl
@[simp] theorem State.readCtl_rdRxAt (s : State) (k : Nat) :
    s.readCtl.rdRxAt k = s.rdRxAt k := rfl
@[simp] theorem State.readCtl_clientAt (s : State) (k : Nat) :
    s.readCtl.clientAt k = s.clientAt k := rfl

@[simp] theorem State.readFlags_nowAt (s : State) (k : Nat) :
    s.readFlags.nowAt k = s.nowAt k := rfl
@[simp] theorem State.readFlags_busyAt (s : State) (k : Nat) :
    s.readFlags.busyAt k = s.busyAt k := rfl
@[simp] theorem State.readFlags_ctlAt (s : State) (k : Nat) :
    s.readFlags.ctlAt k = s.ctlAt k := rfl
@[simp] theorem State.readFlags_flagsAt (s : State) (k : Nat) :
    s.readFlags.flagsAt k = s.flagsAt (1 + k) := by
  simp [State.flagsAt]
@[simp] theorem State.readFlags_rdRxAt (s : State) (k : Nat) :
    s.readFlags.rdRxAt k = s.rdRxAt k := rfl
@[simp] theorem State.readFlags_clientAt (s : State) (k : Nat) :
    s.readFlags.clientAt k = s.clientAt k := rfl

@[simp] theorem State.readRx_nowAt (s : State) (k : Nat) :
    s.readRx.nowAt k = s.nowAt k := rfl
@[simp] theorem State.readRx_busyAt (s : State) (k : Nat) :
    s.readRx.busyAt k = s.busyAt k := rfl
@[simp] theorem State.readRx_ctlAt (s : State) (k : Nat) :
    s.readRx.ctlAt k = s.ctlAt k := rfl
@[simp] theorem State.readRx_flagsAt (s : State) (k : Nat) :
    s.readRx.flagsAt k = s.flagsAt k := rfl
@[simp] theorem State.readRx_rdRxAt (s : State) (k : Nat) :
    s.readRx.rdRxAt k = s.rdRxAt (1 + k) := by
  simp [State.rdRxAt]
@[simp] theorem State.readRx_clientAt (s : State) (k : Nat) :
    s.readRx.clientAt k = s.clientAt k := rfl

@[simp] theorem State.signalRead_nowAt (s : State) (o : OutcomeCode) (k : Nat) :
    (s.signalRead o).nowAt k = s.nowAt k := rfl
@[simp] theorem State.signalRead_busyAt (s : State) (o : OutcomeCode) (k : Nat) :
    (s.signalRead o).busyAt k = s.busyAt k := rfl
@[simp] theorem State.signalRead_ctlAt (s : State) (o : OutcomeCode) (k : Nat) :
    (s.signalRead o).ctlAt k = s.ctlAt k := rfl
@[simp] theorem State.signalRead_flagsAt (s : State) (o : OutcomeCode) (k : Nat) :
    (s.signalRead o).flagsAt k = s.flagsAt k := rfl
@[simp] theorem State.signalRead_rdRxAt (s : State) (o : OutcomeCode) (k : Nat) :
    (s.signalRead o).rdRxAt k = s.rdRxAt k := rfl
@[simp] theorem State.signalRead_clientAt (s : State) (o : OutcomeCode) (k : Nat) :
    (s.signalRead o).clientAt k = s.clientAt (1 + k) := by
  simp [State.clientAt]

@[simp] theorem State.signalWrite_nowAt (s : State) (o : OutcomeCode) (k : Nat) :
    (s.signalWrite o).nowAt k = s.nowAt k := rfl
@[simp] theorem State.signalWrite_busyAt (s : State) (o : OutcomeCode) (k : Nat) :
    (s.signalWrite o).busyAt k = s.busyAt k := rfl
@[simp] theorem State.signalWrite_ctlAt (s : State) (o : OutcomeCode) (k : Nat) :
    (s.signalWrite o).ctlAt k = s.ctlAt k := rfl
@[simp] theorem State.signalWrite_flagsAt (s : State) (o : OutcomeCode) (k : Nat) :
    (s.signalWrite o).flagsAt k = s.flagsAt k := rfl
@[simp] theorem State.signalWrite_rdRxAt (s : State) (o : OutcomeCode) (k : Nat) :
    (s.signalWrite o).rdRxAt k = s.rdRxAt k := rfl
@[simp] theorem State.signalWrite_clientAt (s : State) (o : OutcomeCode) (k : Nat) :
    (s.signalWrite o).clientAt k = s.clientAt (1 + k) := by
  simp [State.clientAt]

@[simp] theorem State.setDirection_nowAt (s : State) (d : Direction) (k : Nat) :
    (s.setDirection d).nowAt k = s.nowAt k := rfl
@[simp] theorem State.setDirection_busyAt (s : State) (d : Direction) (k : Nat) :
    (s.setDirection d).busyAt k = s.busyAt k := rfl
@[simp] theorem State.setDirection_ctlAt (s : State) (d : Direction) (k : Nat) :
    (s.setDirection d).ctlAt k = s.ctlAt k := rfl
@[simp] theorem State.setDirection_flagsAt (s : State) (d : Direction) (k : Nat) :
    (s.setDirection d).flagsAt k = s.flagsAt k := rfl
@[simp] theorem State.setDirection_rdRxAt (s : State) (d : Direction) (k : Nat) :
    (s.setDirection d).rdRxAt k = s.rdRxAt k := rfl
@[simp] theorem State.setDirection_clientAt (s : State) (d : Direction) (k : Nat) :
    (s.setDirection d).clientAt k = s.clientAt k := rfl

@[simp] theorem State.setStarted_nowAt (s : State) (b : Bool) (k : Nat) :
    (s.setStarted b).nowAt k = s.nowAt k := rfl
@[simp] theorem State.setStarted_busyAt (s : State) (b : Bool) (k : Nat) :
    (s.setStarted b).busyAt k = s.busyAt k := rfl
@[simp] theorem State.setStarted_ctlAt (s : State) (b : Bool) (k : Nat) :
    (s.setStarted b).ctlAt k = s.ctlAt k := rfl
@[simp] theorem State.setStarted_flagsAt (s : State) (b : Bool) (k : Nat) :
    (s.setStarted b).flagsAt k = s.flagsAt k := rfl
@[simp] theorem State.setStarted_rdRxAt (s : State) (b : Bool) (k : Nat) :
    (s.setStarted b).rdRxAt k = s.rdRxAt k := rfl
@[simp] theorem State.setStarted_clientAt (s : State) (b : Bool) (k : Nat) :
    (s.setStarted b).clientAt k = s.clientAt k := rfl

@[simp] theorem State.recordCtx_nowAt (s : State) (d buf len flags addr) (k : Nat) :
    (s.recordCtx d buf len flags addr).nowAt k = s.nowAt k := rfl
@[simp] theorem State.recordCtx_busyAt (s : State) (d buf len flags addr) (k : Nat) :
    (s.recordCtx d buf len flags addr).busyAt k = s.busyAt k := rfl
@[simp] theorem State.recordCtx_ctlAt (s : State) (d buf len flags addr) (k : Nat) :
    (s.recordCtx d buf len flags addr).ctlAt k = s.ctlAt k := rfl
@[simp] theorem State.recordCtx_flagsAt (s : State) (d buf len flags addr) (k : Nat) :
    (s.recordCtx d buf len flags addr).flagsAt k = s.flagsAt k := rfl
@[simp] theorem State.recordCtx_rdRxAt (s : State) (d buf len flags addr) (k : Nat) :
    (s.recordCtx d buf len flags addr).rdRxAt k = s.rdRxAt k := rfl
@[simp] theorem State.recordCtx_clientAt (s : State) (d buf len flags addr) (k : Nat) :
    (s.recordCtx d buf len flags addr).clientAt k = s.clientAt k := rfl

@[simp] theorem State.moveByte_nowAt (s : State) (k : Nat) :
    s.moveByte.nowAt k = s.nowAt k := rfl
@[simp] theorem State.moveByte_busyAt (s : State) (k : Nat) :
    s.moveByte.busyAt k = s.busyAt k := rfl
@[simp] theorem State.moveByte_ctlAt (s : State) (k : Nat) :
    s.moveByte.ctlAt k = s.ctlAt k := rfl
@[simp] theorem State.moveByte_flagsAt (s : State) (k : Nat) :
    s.moveByte.flagsAt k = s.flagsAt k := rfl
@[simp] theorem State.moveByte_rdRxAt (s : State) (k : Nat) :
    s.moveByte.rdRxAt k = s.rdRxAt k := rfl
@[simp] theorem State.moveByte_clientAt (s : State) (k : Nat) :
    s.moveByte.clientAt k = s.clientAt k := rfl

@[simp] theorem State.deliver_nowAt (s : State) (r : FaultReport) (k : Nat) :
    (s.deliver r).nowAt k = s.nowAt k := rfl
@[simp] theorem State.deliver_busyAt (s : State) (r : FaultReport) (k : Nat) :
    (s.deliver r).busyAt k = s.busyAt k := rfl
@[simp] theorem State.deliver_ctlAt (s : State) (r : FaultReport) (k : Nat) :
    (s.deliver r).ctlAt k = s.ctlAt k := rfl
@[simp] theorem State.deliver_flagsAt (s : State) (r : FaultReport) (k : Nat) :
    (s.deliver r).flagsAt k = s.flagsAt k := rfl
@[simp] theorem State.deliver_rdRxAt (s : State) (r : FaultReport) (k : Nat) :
    (s.deliver r).rdRxAt k = s.rdRxAt k := rfl
@[simp] theorem State.deliver_clientAt (s : State) (r : FaultReport) (k : Nat) :
    (s.deliver r).clientAt k = s.clientAt k := rfl

@[simp] theorem State.enterIsr_nowAt (s : State) (v : Byte) (k : Nat) :
    (s.enterIsr v).nowAt k = s.nowAt k := rfl
@[simp] theorem State.enterIsr_busyAt (s : State) (v : Byte) (k : Nat) :
    (s.enterIsr v).busyAt k = s.busyAt k := rfl
@[simp] theorem State.enterIsr_ctlAt (s : State) (v : Byte) (k : Nat) :
    (s.enterIsr v).ctlAt k = s.ctlAt k := rfl
@[simp] theorem State.enterIsr_flagsAt (s : State) (v : Byte) (k : Nat) :
    (s.enterIsr v).flagsAt k = s.flagsAt k := rfl
@[simp] theorem State.enterIsr_rdRxAt (s : State) (v : Byte) (k : Nat) :
    (s.enterIsr v).rdRxAt k = s.rdRxAt k := rfl
@[simp] theorem State.enterIsr_clientAt (s : State) (v : Byte) (k : Nat) :
    (s.enterIsr v).clientAt k = s.clientAt k := rfl

@[simp] theorem State.leaveIsr_nowAt (s : State) (k : Nat) :
    s.leaveIsr.nowAt k = s.nowAt k := rfl
@[simp] theorem State.leaveIsr_busyAt (s : State) (k : Nat) :
    s.leaveIsr.busyAt k = s.busyAt k := rfl
@[simp] theorem State.leaveIsr_ctlAt (s : State) (k : Nat) :
    s.leaveIsr.ctlAt k = s.ctlAt k := rfl
@[simp] theorem State.leaveIsr_flagsAt (s : State) (k : Nat) :
    s.leaveIsr.flagsAt k = s.flagsAt k := rfl
@[simp] theorem State.leaveIsr_rdRxAt (s : State) (k : Nat) :
    s.leaveIsr.rdRxAt k = s.rdRxAt k := rfl
@[simp] theorem State.leaveIsr_clientAt (s : State) (k : Nat) :
    s.leaveIsr.clientAt k = s.clientAt k := rfl

@[simp] theorem State.setResult_nowAt (s : State) (r : OpResult) (k : Nat) :
    (s.setResult r).nowAt k = s.nowAt k := rfl
@[simp] theorem State.setResult_busyAt (s : State) (r : OpResult) (k : Nat) :
    (s.setResult r).busyAt k = s.busyAt k := rfl
@[simp] theorem State.setResult_ctlAt (s : State) (r : OpResult) (k : Nat) :
    (s.setResult r).ctlAt k = s.ctlAt k := rfl
@[simp] theorem State.setResult_flagsAt (s : State) (r : OpResult) (k : Nat) :
    (s.setResult r).flagsAt k = s.flagsAt k := rfl
@[simp] theorem State.setResult_rdRxAt (s : State) (r : OpResult) (k : Nat) :
    (s.setResult r).rdRxAt k = s.rdRxAt k := rfl
@[simp] theorem State.setResult_clientAt (s : State) (r : OpResult) (k : Nat) :
    (s.setResult r).clientAt k = s.clientAt k := rfl

@[simp] theorem State.returnResult_nowAt (s : State) (r : OpResult) (k : Nat) :
    (s.returnResult r).nowAt k = s.nowAt k := rfl
@[simp] theorem State.returnResult_busyAt (s : State) (r : OpResult) (k : Nat) :
    (s.returnResult r).busyAt k = s.busyAt k := rfl
@[simp] theorem State.returnResult_ctlAt (s : State) (r : OpResult) (k : Nat) :
    (s.returnResult r).ctlAt k = s.ctlAt k := rfl
@[simp] theorem State.returnResult_flagsAt (s : State) (r : OpResult) (k : Nat) :
    (s.returnResult r).flagsAt k = s.flagsAt k := rfl
@[simp] theorem State.returnResult_rdRxAt (s : State) (r : OpResult) (k : Nat) :
    (s.returnResult r).rdRxAt k = s.rdRxAt k := rfl
@[simp] theorem State.returnResult_clientAt (s : State) (r : OpResult) (k : Nat) :
    (s.returnResult r).clientAt k = s.clientAt k := rfl

/-! ### The escalation (R202), which every fault goes through -/

@[simp] theorem State.escalate_par (s : State) (r : FaultReport) : (s.escalate r).par = s.par := by
  simp only [State.escalate]; split <;> rfl
@[simp] theorem State.escalate_ctx (s : State) (r : FaultReport) :
    (s.escalate r).ctx = { s.ctx with direction := .idle } := by
  simp only [State.escalate]; split <;> rfl
@[simp] theorem State.escalate_regs (s : State) (r : FaultReport) :
    (s.escalate r).regs =
      { s.regs with rst := !s.par.escalateRelease, ie := 0, ctlw := 0 } := by
  simp only [State.escalate]; split <;> simp_all
@[simp] theorem State.escalate_execCtx (s : State) (r : FaultReport) :
    (s.escalate r).execCtx = s.execCtx := by
  simp only [State.escalate]; split <;> rfl
@[simp] theorem State.escalate_trace (s : State) (r : FaultReport) :
    (s.escalate r).trace =
      s.trace ++ [.report r, .reset] ++ (if s.par.escalateRelease then [.unreset] else []) := by
  simp only [State.escalate]; split <;> simp_all
@[simp] theorem State.escalate_sink (s : State) (r : FaultReport) :
    (s.escalate r).sink = if s.par.sinkNull then s.sink else s.sink ++ [r] := by
  simp only [State.escalate]; split <;> rfl
@[simp] theorem State.escalate_mem (s : State) (r : FaultReport) : (s.escalate r).mem = s.mem := by
  simp only [State.escalate]; split <;> rfl
@[simp] theorem State.escalate_task (s : State) (r : FaultReport) :
    (s.escalate r).task = s.task := by
  simp only [State.escalate]; split <;> rfl
@[simp] theorem State.escalate_lastResult (s : State) (r : FaultReport) :
    (s.escalate r).lastResult = s.lastResult := by
  simp only [State.escalate]; split <;> rfl
@[simp] theorem State.escalate_program (s : State) (r : FaultReport) :
    (s.escalate r).program = s.program := by
  simp only [State.escalate]; split <;> rfl
@[simp] theorem State.escalate_irqs (s : State) (r : FaultReport) :
    (s.escalate r).irqs = s.irqs := by
  simp only [State.escalate]; split <;> rfl
@[simp] theorem State.escalate_env (s : State) (r : FaultReport) : (s.escalate r).env = s.env := by
  simp only [State.escalate]; split <;> rfl
@[simp] theorem State.escalate_fresh (s : State) (r : FaultReport) :
    (s.escalate r).fresh = s.fresh := by
  simp only [State.escalate]; split <;> rfl

@[simp] theorem State.escalate_nowAt (s : State) (r : FaultReport) (k : Nat) :
    (s.escalate r).nowAt k = s.nowAt k := by
  simp [State.nowAt]
@[simp] theorem State.escalate_busyAt (s : State) (r : FaultReport) (k : Nat) :
    (s.escalate r).busyAt k = s.busyAt k := by
  simp [State.busyAt]
@[simp] theorem State.escalate_ctlAt (s : State) (r : FaultReport) (k : Nat) :
    (s.escalate r).ctlAt k = s.ctlAt k := by
  simp [State.ctlAt]
@[simp] theorem State.escalate_flagsAt (s : State) (r : FaultReport) (k : Nat) :
    (s.escalate r).flagsAt k = s.flagsAt k := by
  simp [State.flagsAt]
@[simp] theorem State.escalate_rdRxAt (s : State) (r : FaultReport) (k : Nat) :
    (s.escalate r).rdRxAt k = s.rdRxAt k := by
  simp [State.rdRxAt]
@[simp] theorem State.escalate_clientAt (s : State) (r : FaultReport) (k : Nat) :
    (s.escalate r).clientAt k = s.clientAt k := by
  simp [State.clientAt]

/-! ### INIT (R241) -/

@[simp] theorem State.initialise_par (s : State) :
    s.initialise.par = s.par := rfl
@[simp] theorem State.initialise_ctx (s : State) :
    s.initialise.ctx = initCtx s := rfl
@[simp] theorem State.initialise_regs (s : State) :
    s.initialise.regs =
      { rst := true, pinsel := true, addr := Config.freeAddrReg s.fresh, ctlw := 0, ie := 0,
        txbuf := Config.freeTxBuf s.fresh } := rfl
@[simp] theorem State.initialise_execCtx (s : State) :
    s.initialise.execCtx = .normal := rfl
@[simp] theorem State.initialise_trace (s : State) :
    s.initialise.trace = s.trace ++ [.reset, .selectPins] := by
  simp [State.initialise]
@[simp] theorem State.initialise_sink (s : State) :
    s.initialise.sink = s.sink := rfl
@[simp] theorem State.initialise_mem (s : State) :
    s.initialise.mem = s.mem := rfl
@[simp] theorem State.initialise_task (s : State) :
    s.initialise.task = s.task := rfl
@[simp] theorem State.initialise_lastResult (s : State) :
    s.initialise.lastResult = s.lastResult := rfl
@[simp] theorem State.initialise_program (s : State) :
    s.initialise.program = s.program := rfl
@[simp] theorem State.initialise_irqs (s : State) :
    s.initialise.irqs = s.irqs := rfl
@[simp] theorem State.initialise_env (s : State) :
    s.initialise.env = s.env := rfl
@[simp] theorem State.initialise_fresh (s : State) :
    s.initialise.fresh = s.fresh + 1 := rfl

/-- The fault record grows by one report for one report (R37). -/
@[simp] theorem State.emit_report_faultCount (s : State) (r : FaultReport) :
    (s.emit (.report r)).faultCount = s.faultCount + 1 := by
  simp [State.faultCount, State.faultRecord, List.filter_cons, Event.isReport]

/-- An escalation is one report (R202, R37). -/
theorem State.escalate_faultCount (s : State) (r : FaultReport) :
    (s.escalate r).faultCount = s.faultCount + 1 := by
  simp only [State.faultCount, State.faultRecord, State.escalate_trace]
  split <;> simp [List.filter_cons, Event.isReport]

/-- Two states that agree on every field are equal. -/
theorem State.eq_of_fields {s t : State} (hpar : s.par = t.par) (hctx : s.ctx = t.ctx)
    (hregs : s.regs = t.regs) (hexec : s.execCtx = t.execCtx) (htrace : s.trace = t.trace)
    (hsink : s.sink = t.sink) (hmem : s.mem = t.mem) (htask : s.task = t.task)
    (hres : s.lastResult = t.lastResult) (hprog : s.program = t.program) (hirqs : s.irqs = t.irqs)
    (henv : s.env = t.env) (hfresh : s.fresh = t.fresh) : s = t := by
  cases s; cases t; simp_all

end Sys2Proof.Machine
end

