-- ==== Sys2Proof/Laws/Sequencer.lean ====
section
/-! SUPPORT. What running primitives can do: one equation for every primitive, one inversion lemma for
a poll, and the induction over a sequence packaged once (`runOps_closed`). -/

namespace Sys2Proof.Machine

/-! ### One equation for every primitive -/

section

variable (ps : List Prim) (f : Frame) (s : State)

@[simp] theorem runOps_nil : runOps [] f s = endOfOps f s := rfl
@[simp] theorem runOps_reset : runOps (.reset :: ps) f s = runOps ps f s.pReset := rfl
@[simp] theorem runOps_unreset : runOps (.unreset :: ps) f s = runOps ps f s.pUnreset := rfl
@[simp] theorem runOps_setAddr (a : Byte) :
    runOps (.setAddr a :: ps) f s = runOps ps f (s.pSetAddr a) := rfl
@[simp] theorem runOps_setCtl (m : Bits3) :
    runOps (.setCtl m :: ps) f s = runOps ps f (s.pSetCtl m) := rfl
@[simp] theorem runOps_clrCtl (m : Bits3) :
    runOps (.clrCtl m :: ps) f s = runOps ps f (s.pClrCtl m) := rfl
@[simp] theorem runOps_setIE (m : Bits3) :
    runOps (.setIE m :: ps) f s = runOps ps f (s.pSetIE m) := rfl
@[simp] theorem runOps_clrIE (m : Bits3) :
    runOps (.clrIE m :: ps) f s = runOps ps f (s.pClrIE m) := rfl
@[simp] theorem runOps_wrTx (b : Byte) :
    runOps (.wrTx b :: ps) f s = runOps ps f (s.pWrTx b) := rfl
@[simp] theorem runOps_wrTxFrom (buf : BufRef) (i : Nat) :
    runOps (.wrTxFrom buf i :: ps) f s = runOps ps f (s.pWrTx (memRead s.mem buf i)) := rfl
@[simp] theorem runOps_rdRx :
    runOps (.rdRx :: ps) f s =
      runOps ps { f with prev := f.last, last := s.rdRxAt 0 } s.readRx := rfl
@[simp] theorem runOps_store (buf : BufRef) (i : Nat) :
    runOps (.store buf i :: ps) f s =
      runOps ps f (s.setMem (memWrite s.mem buf i f.last)) := rfl
@[simp] theorem runOps_setStarted (b : Bool) :
    runOps (.setStarted b :: ps) f s = runOps ps f (s.setStarted b) := rfl
@[simp] theorem runOps_setIdle :
    runOps (.setIdle :: ps) f s = runOps ps f (s.setDirection .idle) := rfl
@[simp] theorem runOps_escalate (r : FaultReport) :
    runOps (.escalate r :: ps) f s = runOps ps f (s.escalate r) := rfl
@[simp] theorem runOps_signalRead :
    runOps (.signalRead :: ps) f s = runOps ps f (s.signalRead f.outcome) := rfl
@[simp] theorem runOps_signalWrite :
    runOps (.signalWrite :: ps) f s = runOps ps f (s.signalWrite f.outcome) := rfl
@[simp] theorem runOps_ret (o : OutcomeCode) :
    runOps (.ret o :: ps) f s = finish f (.outcome o) s := rfl
@[simp] theorem runOps_retByte :
    runOps (.retByte :: ps) f s = finish f (.byte .success f.last) s := rfl
@[simp] theorem runOps_retHalf :
    runOps (.retHalf :: ps) f s = finish f (.half .success (bigEndian f.prev f.last)) s := rfl
@[simp] theorem runOps_retPresent :
    runOps (.retPresent :: ps) f s =
      finish f (.present (!has (s.flagsAt 0) ifNak)) s.readFlags := rfl

theorem runOps_wait (w : Wait) (onFail : OnFail) :
    runOps (.wait w onFail :: ps) f s =
      afterPoll w (s.nowAt 0) onFail ps f (runOps ps) (pollWait w (s.nowAt 0) s.readNow) := rfl

/-- A condition clear at the first sample: the wait is two events and the operation goes on
(R131). -/
theorem runOps_waitClears_done (c : Cond) (onFail : OnFail)
    (h : s.readNow.condAsserted c = false) :
    runOps (.wait (.clears c) onFail :: ps) f s = runOps ps f (s.readNow.sampleCond c) := by
  simp [runOps_wait, pollWait, pollClears, h, afterPoll]

/-- A flag set at the first sample, with no NAK: the wait is two events and the operation goes on
(R132). -/
theorem runOps_waitFlag_done (m : DataFlag) (onFail : OnFail)
    (h1 : has (s.flagsAt 0) ifNak = false) (h2 : has (s.flagsAt 0) (flagBits m) = true) :
    runOps (.wait (.flag m) onFail :: ps) f s = runOps ps f s.readNow.readFlags := by
  simp [runOps_wait, pollWait, pollFlag, h1, h2, afterPoll]

end

/-! ### A poll -/

/-- What one poll finds and leaves, for either kind of wait: the sample only, and done; the sample and
the clock, and again; a failure, which has escalated exactly once. -/
theorem pollWait_cases (w : Wait) (t0 : Word32) (s : State) :
    (∃ u, pollWait w t0 s = (.done, u) ∧ (u = s.readBusy ∨ u = s.readCtl ∨ u = s.readFlags)) ∨
    (∃ u, pollWait w t0 s = (.again (u.elapsedFrom t0), u.readNow) ∧
      (u = s.readBusy ∨ u = s.readCtl ∨ u = s.readFlags) ∧
      ¬ s.par.timeoutBudget ≤ u.elapsedFrom t0) ∨
    (∃ u r, pollWait w t0 s = (.failed .timeout, u.readNow.escalate r) ∧
      (u = s.readBusy ∨ u = s.readCtl ∨ u = s.readFlags) ∧
      s.par.timeoutBudget ≤ u.elapsedFrom t0) ∨
    (∃ m, w = .flag m ∧ has (s.flagsAt 0) ifNak = true ∧
      pollWait w t0 s =
        (.failed .acknowledgementFailure, s.readFlags.escalate (flagNakReport m (s.flagsAt 0)))) := by
  cases w with
  | clears c =>
    have hc : s.sampleCond c = s.readBusy ∨ s.sampleCond c = s.readCtl ∨
        s.sampleCond c = s.readFlags := by cases c <;> simp [State.sampleCond]
    simp only [pollWait, pollClears]
    split
    · exact .inl ⟨_, rfl, hc⟩
    · split
      · exact .inr (.inr (.inl ⟨_, _, rfl, hc, ‹_›⟩))
      · exact .inr (.inl ⟨_, rfl, hc, ‹_›⟩)
  | flag m =>
    have hc : s.readFlags = s.readBusy ∨ s.readFlags = s.readCtl ∨ s.readFlags = s.readFlags :=
      .inr (.inr rfl)
    simp only [pollWait, pollFlag]
    split
    · exact .inr (.inr (.inr ⟨m, rfl, ‹_›, rfl⟩))
    · split
      · exact .inl ⟨_, rfl, hc⟩
      · split
        · exact .inr (.inr (.inl ⟨_, _, rfl, hc, ‹_›⟩))
        · exact .inr (.inl ⟨_, rfl, hc, ‹_›⟩)

/-! ### The induction over a sequence, once -/

/-- A property of states that no primitive destroys. -/
structure OpsClosed (P : State → Prop) : Prop where
  pReset : ∀ s, P s → P s.pReset
  pUnreset : ∀ s, P s → P s.pUnreset
  pSetAddr : ∀ s a, P s → P (s.pSetAddr a)
  pSetCtl : ∀ s m, P s → P (s.pSetCtl m)
  pClrCtl : ∀ s m, P s → P (s.pClrCtl m)
  pSetIE : ∀ s m, P s → P (s.pSetIE m)
  pClrIE : ∀ s m, P s → P (s.pClrIE m)
  pWrTx : ∀ s b, P s → P (s.pWrTx b)
  readNow : ∀ s, P s → P s.readNow
  readBusy : ∀ s, P s → P s.readBusy
  readCtl : ∀ s, P s → P s.readCtl
  readFlags : ∀ s, P s → P s.readFlags
  readRx : ∀ s, P s → P s.readRx
  store : ∀ s buf i v, P s → P (s.setMem (memWrite s.mem buf i v))
  setStarted : ∀ s b, P s → P (s.setStarted b)
  setIdle : ∀ s, P s → P (s.setDirection .idle)
  escalate : ∀ s r, P s → P (s.escalate r)
  signalRead : ∀ s o, P s → P (s.signalRead o)
  signalWrite : ∀ s o, P s → P (s.signalWrite o)
  suspend : ∀ s t, P s → P (s.setTask (some t))
  leaveIsr : ∀ s, P s → P s.leaveIsr
  setResult : ∀ s r, P s → P (s.setResult r)
  returnResult : ∀ s r, P s → P (s.returnResult r)

section

variable {P : State → Prop} (hP : OpsClosed P)

include hP

theorem finish_closed (f : Frame) (r : OpResult) (s : State) (h : P s) : P (finish f r s) := by
  simp only [finish]
  split
  · exact hP.returnResult _ _ h
  · exact hP.setResult _ _ h
  · exact hP.leaveIsr _ h

theorem endOfOps_closed (f : Frame) (s : State) (h : P s) : P (endOfOps f s) := by
  simp only [endOfOps]
  split
  · exact hP.leaveIsr _ h
  · exact h
  · exact h

theorem pollWait_closed (w : Wait) (t0 : Word32) (s : State) (h : P s) :
    P (pollWait w t0 s).2 := by
  have sample : ∀ u, u = s.readBusy ∨ u = s.readCtl ∨ u = s.readFlags → P u := by
    rintro u (rfl | rfl | rfl)
    exacts [hP.readBusy _ h, hP.readCtl _ h, hP.readFlags _ h]
  rcases pollWait_cases w t0 s with ⟨u, e, hu⟩ | ⟨u, e, hu, -⟩ | ⟨u, r, e, hu, -⟩ | ⟨m, -, -, e⟩ <;>
    rw [e]
  · exact sample u hu
  · exact hP.readNow _ (sample u hu)
  · exact hP.escalate _ _ (hP.readNow _ (sample u hu))
  · exact hP.escalate _ _ (hP.readFlags _ h)

theorem afterPoll_closed (w : Wait) (t0 : Word32) (onFail : OnFail) (rest : List Prim) (f : Frame)
    (k : Frame → State → State) (hk : ∀ f s, P s → P (k f s)) (p : Poll × State) (h : P p.2) :
    P (afterPoll w t0 onFail rest f k p) := by
  simp only [afterPoll]
  split
  · exact hk _ _ h
  · exact hP.suspend _ _ h
  · split
    · exact finish_closed hP _ _ _ h
    · exact finish_closed hP _ _ _ h
    · exact finish_closed hP _ _ _ h
    · exact hk _ _ h
    · exact hk _ _ h

theorem runOps_closed (ps : List Prim) (f : Frame) (s : State) (h : P s) : P (runOps ps f s) := by
  induction ps generalizing f s with
  | nil => exact endOfOps_closed hP f s h
  | cons p ps ih =>
    cases p with
    | reset => exact ih _ _ (hP.pReset _ h)
    | unreset => exact ih _ _ (hP.pUnreset _ h)
    | setAddr a => exact ih _ _ (hP.pSetAddr _ _ h)
    | setCtl m => exact ih _ _ (hP.pSetCtl _ _ h)
    | clrCtl m => exact ih _ _ (hP.pClrCtl _ _ h)
    | setIE m => exact ih _ _ (hP.pSetIE _ _ h)
    | clrIE m => exact ih _ _ (hP.pClrIE _ _ h)
    | wrTx b => exact ih _ _ (hP.pWrTx _ _ h)
    | wrTxFrom buf i => exact ih _ _ (hP.pWrTx _ _ h)
    | rdRx => exact ih _ _ (hP.readRx _ h)
    | store buf i => exact ih _ _ (hP.store _ _ _ _ h)
    | setStarted b => exact ih _ _ (hP.setStarted _ _ h)
    | setIdle => exact ih _ _ (hP.setIdle _ h)
    | escalate r => exact ih _ _ (hP.escalate _ _ h)
    | signalRead => exact ih _ _ (hP.signalRead _ _ h)
    | signalWrite => exact ih _ _ (hP.signalWrite _ _ h)
    | wait w onFail =>
      rw [runOps_wait]
      exact afterPoll_closed hP _ _ _ _ _ _ (fun f s h => ih f s h) _
        (pollWait_closed hP _ _ _ (hP.readNow _ h))
    | ret o => exact finish_closed hP _ _ _ h
    | retByte => exact finish_closed hP _ _ _ h
    | retHalf => exact finish_closed hP _ _ _ h
    | retPresent => exact finish_closed hP _ _ _ (hP.readFlags _ h)

/-- A resumed operation either meets a buffer index outside its buffer, or keeps the property. -/
theorem resumeTask_closed (t : Task) (s u : State) (h : P (s.setTask none))
    (e : resumeTask t s = .next u) : P u := by
  simp only [resumeTask] at e
  split at e
  · cases e
    exact afterPoll_closed hP _ _ _ _ _ _ (fun f s h => runOps_closed hP _ f s h) _
      (pollWait_closed hP _ _ _ h)
  · cases e

end

/-! ### Running an operation of an agent -/

/-- A Caller operation that gives a next state has run, or has held. -/
theorem asCaller_next {s u : State} {fits : Bool} {body : State}
    (e : asCaller s fits body = .next u) :
    (s.callerReady = true ∧ fits = true ∧ u = body) ∨ (s.callerReady = false ∧ u = s) := by
  simp only [asCaller] at e
  split at e
  · split at e
    · cases e; exact .inl ⟨‹_›, ‹_›, rfl⟩
    · cases e
  · cases e; exact .inr ⟨eq_false_of_ne_true ‹_›, rfl⟩

/-- An entry that gives a next state has run, or has held. -/
theorem asEntry_next {s u : State} {body : Host.Outcome State Fault Refusal}
    (e : asEntry s body = .next u) :
    (s.entryReady = true ∧ body = .next u) ∨ (s.entryReady = false ∧ u = s) := by
  simp only [asEntry] at e
  split at e
  · exact .inl ⟨‹_›, e⟩
  · cases e; exact .inr ⟨eq_false_of_ne_true ‹_›, rfl⟩

/-- A primitive that gives a next state has run, or has held. -/
theorem asPrimitive_next {s u : State} {body : State} (e : asPrimitive s body = .next u) :
    (s.engineFree = true ∧ u = body) ∨ (s.engineFree = false ∧ u = s) := by
  simp only [asPrimitive] at e
  split at e
  · cases e; exact .inl ⟨‹_›, rfl⟩
  · cases e; exact .inr ⟨eq_false_of_ne_true ‹_›, rfl⟩

end Sys2Proof.Machine
end

