-- ==== Sys2Proof/Laws/Step.lean ====
section
/-! SUPPORT. What a step can be: the operation in progress goes on, a presented or raised operation
runs, or the boundary passes. -/

namespace Sys2Proof.Machine

/-- What `raised` can answer (R207, R208): an entry, with its request taken, or the boundary passes
with at most a request taken. -/
theorem raised_cases (s : State) :
    (∃ v rs, raised s = .run (decodeVector v) { s with irqs := rs }) ∨
      ∃ rs, raised s = .pass { s with irqs := rs } := by
  simp only [raised]
  split
  · split
    · exact .inr ⟨s.irqs, rfl⟩
    · exact .inl ⟨_, _, rfl⟩
    · split
      · exact .inr ⟨_, rfl⟩
      · exact .inl ⟨_, _, rfl⟩
  · exact .inr ⟨s.irqs, rfl⟩

/-- An operation that `fetch` gives is what some presentation decodes to; only the presentation or the
request is taken. -/
theorem fetch_run {s s' : State} {i : Instr} (h : fetch s = .run i s') :
    (∃ p, decode s.par.lenBits p = .ok i) ∧ ∃ is rs, s' = { s with program := is, irqs := rs } := by
  have raise : raised s = .run i s' →
      (∃ p, decode s.par.lenBits p = .ok i) ∧
        ∃ is rs, s' = { s with program := is, irqs := rs } := by
    intro hr
    rcases raised_cases s with ⟨v, rs, e⟩ | ⟨rs, e⟩ <;> rw [e] at hr <;> cases hr
    exact ⟨⟨.vec v, rfl⟩, s.program, rs, rfl⟩
  simp only [fetch] at h
  split at h
  · exact raise h
  · rename_i it rest _
    cases it with
    | store a b => simp only [fetchItem] at h; split at h <;> cases h
    | load a => simp only [fetchItem] at h; split at h <;> cases h
    | packet p =>
      simp only [fetchItem] at h
      split at h
      · exact raise h
      · split at h
        · cases h
        · rename_i j hj
          split at h <;> cases h
          exact ⟨⟨p, hj⟩, rest, s.irqs, rfl⟩

/-- A boundary that passes takes at most an item and a request, and stores at most one byte, for the
Caller (R71). -/
theorem fetch_pass {s s' : State} (h : fetch s = .pass s') :
    ∃ is rs m, s' = { s with program := is, irqs := rs, mem := m } ∧
      (m = s.mem ∨ ∃ a b, races s a = false ∧ m = s.mem.write a b) := by
  have raise : raised s = .pass s' →
      ∃ is rs m, s' = { s with program := is, irqs := rs, mem := m } ∧
        (m = s.mem ∨ ∃ a b, races s a = false ∧ m = s.mem.write a b) := by
    intro hr
    rcases raised_cases s with ⟨v, rs, e⟩ | ⟨rs, e⟩ <;> rw [e] at hr <;> cases hr
    exact ⟨s.program, rs, s.mem, rfl, .inl rfl⟩
  simp only [fetch] at h
  split at h
  · exact raise h
  · rename_i it rest _
    cases it with
    | store a b =>
      simp only [fetchItem] at h
      split at h <;> cases h
      exact ⟨rest, s.irqs, _, rfl, .inr ⟨a, b, eq_false_of_ne_true ‹_›, rfl⟩⟩
    | load a =>
      simp only [fetchItem] at h
      split at h <;> cases h
      exact ⟨rest, s.irqs, s.mem, rfl, .inl rfl⟩
    | packet p =>
      simp only [fetchItem] at h
      split at h
      · exact raise h
      · split at h
        · cases h
        · split at h <;> cases h
          exact ⟨rest, s.irqs, s.mem, rfl, .inl rfl⟩

/-- The three ways to a next state. -/
theorem step_next {s u : State} (h : step s = .next u) :
    (∃ t, s.task = some t ∧ resumeTask t s = .next u) ∨
      (s.task = none ∧ ∃ i s', fetch s = .run i s' ∧ exec i s' = .next u) ∨
      (s.task = none ∧ fetch s = .pass u) := by
  simp only [step] at h
  split at h
  · exact .inl ⟨_, ‹_›, h⟩
  · refine .inr ?_
    split at h
    · exact .inl ⟨‹_›, _, _, ‹_›, h⟩
    · cases h; exact .inr ⟨‹_›, ‹_›⟩
    · cases h
    · cases h

end Sys2Proof.Machine
end

