-- ==== Sys2Proof/Laws/Answers.lean ====
section
/-! SUPPORT. An operation sees the environment only through the answers to come: from two states alike
but for the answers already taken and the events so far, the same events lead to two such states. And
what moves next does not depend on the environment. -/

namespace Sys2Proof.Machine

/-- Alike but for the answers taken and the events so far, with the same answers to come. -/
def sameToCome (x y : State) : Prop :=
  y = { x with env := y.env, trace := y.trace } ∧ sameAnswers x y

/-- The same events have led from `x` to `X` and from `y` to `Y`, which are alike. -/
def Alike (x y X Y : State) : Prop :=
  (∃ evs, X.trace = x.trace ++ evs ∧ Y.trace = y.trace ++ evs) ∧ sameToCome X Y

theorem Alike.refl {x y : State} (h : sameToCome x y) : Alike x y x y :=
  ⟨⟨[], by simp, by simp⟩, h⟩

theorem Alike.trans {x y x1 y1 X Y : State} (h1 : Alike x y x1 y1) (h2 : Alike x1 y1 X Y) :
    Alike x y X Y := by
  obtain ⟨⟨a, a1, a2⟩, -⟩ := h1
  obtain ⟨⟨b, b1, b2⟩, h⟩ := h2
  exact ⟨⟨a ++ b, by rw [b1, a1, List.append_assoc], by rw [b2, a2, List.append_assoc]⟩, h⟩

/-- An update that emits the same events and takes no answer. -/
theorem Alike.of_update {x y : State} (g : State → State) (evs : List Event) (h : sameToCome x y)
    (hx : ∀ e tr, g { x with env := e, trace := tr } = { g x with env := e, trace := tr ++ evs })
    (hp : (g x).par = x.par) : Alike x y (g x) (g y) := by
  obtain ⟨h1, h2⟩ := h
  have e1 : g x = { g x with env := x.env, trace := x.trace ++ evs } := hx x.env x.trace
  have e2 : g y = { g x with env := y.env, trace := y.trace ++ evs } := by rw [h1]; exact hx _ _
  have hp' : y.par = x.par := by rw [h1]
  refine ⟨⟨evs, by rw [e1], by rw [e2]⟩, by rw [e2], fun j => ?_⟩
  rw [e1, e2]
  simpa [State.nowAt, State.busyAt, State.ctlAt, State.flagsAt, State.rdRxAt, State.clientAt, hp,
    hp'] using h2 j

/-- An escalation does not read the environment or the trace. -/
theorem State.escalate_env_trace (s : State) (r : FaultReport) (e : Env) (tr : List Event) :
    State.escalate { s with env := e, trace := tr } r =
      { s.escalate r with
        env := e
        trace := tr ++ ([.report r, .reset] ++ if s.par.escalateRelease then [.unreset] else []) } := by
  cases hb : s.par.escalateRelease <;>
    simp [State.escalate, State.deliver, State.emit, State.pReset, State.pUnreset,
      State.setDirection, hb] <;> rfl

variable {x y : State}

namespace sameToCome

theorem par (h : sameToCome x y) : y.par = x.par := by rw [h.1]

theorem escalate (h : sameToCome x y) (r : FaultReport) :
    Alike x y (x.escalate r) (y.escalate r) :=
  Alike.of_update (·.escalate r) _ h (fun e tr => x.escalate_env_trace r e tr) (by simp)

theorem readNow (h : sameToCome x y) : Alike x y x.readNow y.readNow := by
  obtain ⟨h1, h2⟩ := h
  refine ⟨⟨[.now (x.nowAt 0)], rfl, by simp [(h2 0).1]⟩, by rw [h1]; rfl, fun j => ?_⟩
  have a := h2 j
  have b := h2 (1 + j)
  clear h1; simp_all

theorem readBusy (h : sameToCome x y) : Alike x y x.readBusy y.readBusy := by
  obtain ⟨h1, h2⟩ := h
  refine ⟨⟨[.busy (x.busyAt 0)], rfl, by simp [(h2 0).2.1]⟩, by rw [h1]; rfl, fun j => ?_⟩
  have a := h2 j
  have b := h2 (1 + j)
  clear h1; simp_all

theorem readCtl (h : sameToCome x y) : Alike x y x.readCtl y.readCtl := by
  obtain ⟨h1, h2⟩ := h
  refine ⟨⟨[.ctl (x.ctlAt 0)], rfl, by simp [(h2 0).2.2.1]⟩, by rw [h1]; rfl, fun j => ?_⟩
  have a := h2 j
  have b := h2 (1 + j)
  clear h1; simp_all

theorem readFlags (h : sameToCome x y) : Alike x y x.readFlags y.readFlags := by
  obtain ⟨h1, h2⟩ := h
  refine ⟨⟨[.flags (x.flagsAt 0)], rfl, by simp [(h2 0).2.2.2.1]⟩, by rw [h1]; rfl, fun j => ?_⟩
  have a := h2 j
  have b := h2 (1 + j)
  clear h1; simp_all

theorem readRx (h : sameToCome x y) : Alike x y x.readRx y.readRx := by
  obtain ⟨h1, h2⟩ := h
  refine ⟨⟨[.rdRx (x.rdRxAt 0)], rfl, by simp [(h2 0).2.2.2.2.1]⟩, by rw [h1]; rfl, fun j => ?_⟩
  have a := h2 j
  have b := h2 (1 + j)
  clear h1; simp_all

theorem completion (h : sameToCome x y) (o : OutcomeCode) : y.completion o = x.completion o := by
  have h1 : y.ctx = x.ctx := by rw [h.1]
  simp only [State.completion, (h.2 0).2.2.2.2.2, h1]

theorem signalRead (h : sameToCome x y) (o : OutcomeCode) :
    Alike x y (x.signalRead o) (y.signalRead o) := by
  have hc := h.completion o
  obtain ⟨h1, h2⟩ := h
  refine ⟨⟨[.readDone (x.completion o)], rfl, by simp [hc]⟩, by rw [h1]; rfl, fun j => ?_⟩
  have a := h2 j
  have b := h2 (1 + j)
  clear h1; simp_all

theorem signalWrite (h : sameToCome x y) (o : OutcomeCode) :
    Alike x y (x.signalWrite o) (y.signalWrite o) := by
  have hc := h.completion o
  obtain ⟨h1, h2⟩ := h
  refine ⟨⟨[.writeDone (x.completion o)], rfl, by simp [hc]⟩, by rw [h1]; rfl, fun j => ?_⟩
  have a := h2 j
  have b := h2 (1 + j)
  clear h1; simp_all

theorem finish (h : sameToCome x y) (f : Frame) (r : OpResult) :
    Alike x y (finish f r x) (finish f r y) := by
  simp only [Machine.finish]
  split
  · exact Alike.of_update (·.returnResult r) [.result r] h (fun _ _ => rfl) rfl
  · exact Alike.of_update (·.setResult r) [] h (fun _ _ => by simp [State.setResult]) rfl
  · exact Alike.of_update (·.leaveIsr) [] h (fun _ _ => by simp [State.leaveIsr]) rfl

theorem sampleCond (h : sameToCome x y) (c : Cond) :
    y.condAsserted c = x.condAsserted c ∧ Alike x y (x.sampleCond c) (y.sampleCond c) := by
  have h2 := h.2 0
  cases c
  · exact ⟨h2.2.1, h.readBusy⟩
  · exact ⟨by simp [State.condAsserted, h2.2.2.1], h.readCtl⟩
  · exact ⟨by simp [State.condAsserted, h2.2.2.1], h.readCtl⟩

/-- One poll finds the same. -/
theorem pollWait (h : sameToCome x y) (w : Wait) (t0 : Word32) :
    (pollWait w t0 y).1 = (pollWait w t0 x).1 ∧
      Alike x y (pollWait w t0 x).2 (pollWait w t0 y).2 := by
  cases w with
  | clears c =>
    obtain ⟨e1, e2⟩ := h.sampleCond c
    have e3 : (y.sampleCond c).elapsedFrom t0 = (x.sampleCond c).elapsedFrom t0 := by
      simp [State.elapsedFrom, (e2.2.2 0).1]
    simp only [Machine.pollWait, pollClears, e1, e3, h.par]
    split
    · exact ⟨rfl, e2⟩
    · split
      · exact ⟨rfl, e2.trans (e2.2.readNow.trans (e2.2.readNow.2.escalate _))⟩
      · exact ⟨rfl, e2.trans e2.2.readNow⟩
  | flag m =>
    have e2 := h.readFlags
    have e3 : y.readFlags.elapsedFrom t0 = x.readFlags.elapsedFrom t0 := by
      simp only [State.elapsedFrom, (e2.2.2 0).1]
    simp only [Machine.pollWait, pollFlag, (h.2 0).2.2.2.1, e3, h.par]
    split
    · exact ⟨rfl, e2.trans (e2.2.escalate _)⟩
    · split
      · exact ⟨rfl, e2⟩
      · split
        · exact ⟨rfl, e2.trans (e2.2.readNow.trans (e2.2.readNow.2.escalate _))⟩
        · exact ⟨rfl, e2.trans e2.2.readNow⟩

/-- A poll, and what follows it. -/
theorem afterPoll (h : sameToCome x y) (w : Wait) (t0 : Word32) (onFail : OnFail)
    (rest : List Prim) (f : Frame)
    (ih : ∀ (f : Frame) {x y : State}, sameToCome x y →
      Alike x y (runOps rest f x) (runOps rest f y)) :
    Alike x y (afterPoll w t0 onFail rest f (runOps rest) (Machine.pollWait w t0 x))
      (Machine.afterPoll w t0 onFail rest f (runOps rest) (Machine.pollWait w t0 y)) := by
  obtain ⟨e1, e2⟩ := h.pollWait w t0
  revert e1 e2
  generalize Machine.pollWait w t0 x = p
  generalize Machine.pollWait w t0 y = q
  obtain ⟨p1, p2⟩ := p
  obtain ⟨q1, q2⟩ := q
  rintro rfl e2
  refine e2.trans ?_
  simp only [Machine.afterPoll]
  cases q1 with
  | done => exact ih _ e2.2
  | again e =>
    exact Alike.of_update (·.setTask (some ⟨w, t0, e, onFail, rest, f⟩)) [] e2.2
      (fun _ _ => by simp [State.setTask]) rfl
  | failed o =>
    cases onFail
    · exact e2.2.finish _ _
    · exact e2.2.finish _ _
    · exact e2.2.finish _ _
    · exact ih _ e2.2
    · exact ih _ e2.2

/-- Running primitives. -/
theorem runOps (ps : List Prim) : ∀ (f : Frame) {x y : State}, sameToCome x y →
    Alike x y (runOps ps f x) (runOps ps f y) := by
  induction ps with
  | nil =>
    intro f x y h
    simp only [Machine.runOps, endOfOps]
    split
    · exact Alike.of_update (·.leaveIsr) [] h (fun _ _ => by simp [State.leaveIsr]) rfl
    · exact .refl h
    · exact .refl h
  | cons p ps ih =>
    intro f x y h
    have up : ∀ (g : State → State) (evs : List Event),
        (∀ e tr, g { x with env := e, trace := tr } =
          { g x with env := e, trace := tr ++ evs }) → (g x).par = x.par →
        Alike x y (Machine.runOps ps f (g x)) (Machine.runOps ps f (g y)) := fun g evs h1 h2 =>
      (Alike.of_update g evs h h1 h2).trans (ih f (Alike.of_update g evs h h1 h2).2)
    have hm : y.mem = x.mem := by rw [h.1]
    have h0 := h.2 0
    cases p with
    | reset => exact up (·.pReset) [.reset] (fun _ _ => rfl) rfl
    | unreset => exact up (·.pUnreset) [.unreset] (fun _ _ => rfl) rfl
    | setAddr a => exact up (·.pSetAddr a) [.setAddr a] (fun _ _ => rfl) rfl
    | setCtl m => exact up (·.pSetCtl m) [.setCtl m] (fun _ _ => rfl) rfl
    | clrCtl m => exact up (·.pClrCtl m) [.clrCtl m] (fun _ _ => rfl) rfl
    | setIE m => exact up (·.pSetIE m) [.setIE m] (fun _ _ => rfl) rfl
    | clrIE m => exact up (·.pClrIE m) [.clrIE m] (fun _ _ => rfl) rfl
    | wrTx b => exact up (·.pWrTx b) [.wrTx b] (fun _ _ => rfl) rfl
    | wrTxFrom b i =>
      simp only [runOps_wrTxFrom, hm]
      exact up (·.pWrTx (memRead x.mem b i)) [.wrTx (memRead x.mem b i)] (fun _ _ => rfl) rfl
    | rdRx =>
      simp only [runOps_rdRx, h0.2.2.2.2.1]
      exact h.readRx.trans (ih _ h.readRx.2)
    | store b i =>
      simp only [runOps_store, hm]
      exact up (·.setMem (memWrite x.mem b i f.last)) [] (fun _ _ => by simp [State.setMem]) rfl
    | setStarted b => exact up (·.setStarted b) [] (fun _ _ => by simp [State.setStarted]) rfl
    | setIdle => exact up (·.setDirection .idle) [] (fun _ _ => by simp [State.setDirection]) rfl
    | escalate r => exact (h.escalate r).trans (ih f (h.escalate r).2)
    | signalRead => exact (h.signalRead _).trans (ih f (h.signalRead _).2)
    | signalWrite => exact (h.signalWrite _).trans (ih f (h.signalWrite _).2)
    | wait w onFail =>
      rw [runOps_wait, runOps_wait, h0.1]
      exact h.readNow.trans (h.readNow.2.afterPoll _ _ _ _ _ ih)
    | ret o => exact h.finish _ _
    | retByte => exact h.finish _ _
    | retHalf => exact h.finish _ _
    | retPresent =>
      simp only [runOps_retPresent, h0.2.2.2.1]
      exact h.readFlags.trans (h.readFlags.2.finish _ _)

end sameToCome

/-! ### What moves next -/

/-- What the next step does, with another environment. -/
def Fetched.withEnv (e : Env) : Fetched → Fetched
  | .run i s => .run i { s with env := e }
  | .pass s => .pass { s with env := e }
  | .stop f => .stop f
  | .refuse r => .refuse r

theorem raised_env (s : State) (e : Env) :
    raised { s with env := e } = (raised s).withEnv e := by
  have h1 : State.inFlight { s with env := e } = s.inFlight := rfl
  have h2 : State.entryReady { s with env := e } = s.entryReady := rfl
  simp only [raised, h1, h2]
  split
  · split
    · rfl
    · rfl
    · split <;> rfl
  · rfl

theorem fetchItem_env (s : State) (e : Env) (rest : List Item) (it : Item) :
    fetchItem { s with env := e } rest it = (fetchItem s rest it).withEnv e := by
  have hr : ∀ a, races { s with env := e } a = races s a := fun _ => rfl
  cases it with
  | store a b => simp only [fetchItem, hr]; split <;> rfl
  | load a => simp only [fetchItem, hr]; split <;> rfl
  | packet p =>
    have h1 : State.callerReady { s with env := e } = s.callerReady := rfl
    simp only [fetchItem, h1]
    split
    · exact raised_env s e
    · split
      · rfl
      · rename_i j _
        have h2 : State.ready { s with env := e } j = s.ready j := rfl
        rw [h2]
        split <;> rfl

/-- What moves next does not depend on the environment. -/
theorem fetch_env (s : State) (e : Env) : fetch { s with env := e } = (fetch s).withEnv e := by
  simp only [fetch]
  split
  · exact raised_env s e
  · exact fetchItem_env s e _ _

end Sys2Proof.Machine
end

