-- ==== Sys2Proof/Laws/Decode.lean ====
section
/-! SUPPORT. The fields of an encoded descriptor word. -/

namespace Sys2Proof

/-! A descriptor word is read back field by field (R80). -/

section

variable (op client flags addr reg : Byte) (arg : BitVec 16)

theorem mkDesc_op : (mkDesc op client flags addr reg arg).extractLsb' 56 8 = op := by
  ext i hi
  simp only [mkDesc, BitVec.getElem_extractLsb', BitVec.getLsbD_or, BitVec.getLsbD_shiftLeft,
    BitVec.getLsbD_setWidth]
  interval_cases i <;> simp

theorem mkDesc_client : (mkDesc op client flags addr reg arg).extractLsb' 48 8 = client := by
  ext i hi
  simp only [mkDesc, BitVec.getElem_extractLsb', BitVec.getLsbD_or, BitVec.getLsbD_shiftLeft,
    BitVec.getLsbD_setWidth]
  interval_cases i <;> simp

theorem mkDesc_flags : (mkDesc op client flags addr reg arg).extractLsb' 40 8 = flags := by
  ext i hi
  simp only [mkDesc, BitVec.getElem_extractLsb', BitVec.getLsbD_or, BitVec.getLsbD_shiftLeft,
    BitVec.getLsbD_setWidth]
  interval_cases i <;> simp

theorem mkDesc_addr : (mkDesc op client flags addr reg arg).extractLsb' 32 8 = addr := by
  ext i hi
  simp only [mkDesc, BitVec.getElem_extractLsb', BitVec.getLsbD_or, BitVec.getLsbD_shiftLeft,
    BitVec.getLsbD_setWidth]
  interval_cases i <;> simp

theorem mkDesc_reg : (mkDesc op client flags addr reg arg).extractLsb' 24 8 = reg := by
  ext i hi
  simp only [mkDesc, BitVec.getElem_extractLsb', BitVec.getLsbD_or, BitVec.getLsbD_shiftLeft,
    BitVec.getLsbD_setWidth]
  interval_cases i <;> simp

theorem mkDesc_rsv : (mkDesc op client flags addr reg arg).extractLsb' 16 8 = 0 := by
  ext i hi
  simp only [mkDesc, BitVec.getElem_extractLsb', BitVec.getLsbD_or, BitVec.getLsbD_shiftLeft,
    BitVec.getLsbD_setWidth]
  interval_cases i <;> simp

theorem mkDesc_arg : (mkDesc op client flags addr reg arg).extractLsb' 0 16 = arg := by
  ext i hi
  simp only [mkDesc, BitVec.getElem_extractLsb', BitVec.getLsbD_or, BitVec.getLsbD_shiftLeft,
    BitVec.getLsbD_setWidth]
  interval_cases i <;> simp

@[simp] theorem fieldsOf_mkDesc :
    fieldsOf (mkDesc op client flags addr reg arg) = ⟨op, client, flags, addr, reg, 0, arg⟩ := by
  simp only [fieldsOf, mkDesc_op, mkDesc_client, mkDesc_flags, mkDesc_addr, mkDesc_reg, mkDesc_rsv,
    mkDesc_arg]

end

/-- Bit by bit, a word is made of its fields, but for `rsv` (R80). -/
theorem mkDesc_fieldsOf_bit (w : BitVec 64) (i : Nat) (hi : i < 64) (hr : i < 16 ∨ 24 ≤ i) :
    (mkDesc (w.extractLsb' 56 8) (w.extractLsb' 48 8) (w.extractLsb' 40 8) (w.extractLsb' 32 8)
      (w.extractLsb' 24 8) (w.extractLsb' 0 16)).getLsbD i = w.getLsbD i := by
  simp only [mkDesc, BitVec.getLsbD_or, BitVec.getLsbD_shiftLeft, BitVec.getLsbD_setWidth,
    BitVec.getLsbD_extractLsb']
  by_cases h1 : i < 16
  · have : i < 24 ∧ i < 32 ∧ i < 40 ∧ i < 48 ∧ i < 56 := by omega
    simp [*]
  · have h2 : 24 ≤ i := by omega
    by_cases h3 : i < 32
    · have : i < 40 ∧ i < 48 ∧ i < 56 ∧ i - 24 < 8 ∧ i - 24 < 64 ∧ ¬ i < 24 ∧ 24 + (i - 24) = i := by omega
      simp [*]
    by_cases h4 : i < 40
    · have : i < 48 ∧ i < 56 ∧ i - 32 < 8 ∧ i - 32 < 64 ∧ ¬ i - 24 < 8 ∧ 32 + (i - 32) = i := by omega
      simp [*]
    by_cases h5 : i < 48
    · have : i < 56 ∧ i - 40 < 8 ∧ i - 40 < 64 ∧ ¬ i - 24 < 8 ∧ ¬ i - 32 < 8 ∧ 40 + (i - 40) = i := by omega
      simp [*]
    by_cases h6 : i < 56
    · have : i - 48 < 8 ∧ i - 48 < 64 ∧ ¬ i - 24 < 8 ∧ ¬ i - 32 < 8 ∧ ¬ i - 40 < 8 ∧ 48 + (i - 48) = i := by
        omega
      simp [*]
    · have : i - 56 < 8 ∧ i - 56 < 64 ∧ ¬ i - 24 < 8 ∧ ¬ i - 32 < 8 ∧ ¬ i - 40 < 8 ∧ ¬ i - 48 < 8 ∧
          56 + (i - 56) = i := by omega
      simp [*]

/-- A word whose `rsv` field is 0 is made of its fields (R80). -/
theorem mkDesc_fieldsOf (w : BitVec 64) (h : (fieldsOf w).rsv = 0) :
    mkDesc (fieldsOf w).op (fieldsOf w).client (fieldsOf w).flags (fieldsOf w).addr (fieldsOf w).reg
      (fieldsOf w).arg = w := by
  apply BitVec.eq_of_getLsbD_eq
  intro i hi
  by_cases hr : i < 16 ∨ 24 ≤ i
  · exact mkDesc_fieldsOf_bit w i hi hr
  · have h' := congrArg (fun v : Byte => v.getLsbD (i - 16)) h
    have e : 16 + (i - 16) = i := by omega
    simp only [fieldsOf, BitVec.getLsbD_extractLsb', e] at h'
    have : i < 24 ∧ i < 32 ∧ i < 40 ∧ i < 48 ∧ i < 56 ∧ ¬ i < 16 ∧ i - 16 < 8 := by omega
    simp only [mkDesc, fieldsOf, BitVec.getLsbD_or, BitVec.getLsbD_shiftLeft,
      BitVec.getLsbD_setWidth, BitVec.getLsbD_extractLsb']
    simp_all

/-- A mask acts on an encoded word field by field. -/
theorem mkDesc_and (op client flags addr reg : Byte) (arg : BitVec 16) (m : BitVec 64) :
    mkDesc op client flags addr reg arg &&& m =
      mkDesc (op &&& m.extractLsb' 56 8) (client &&& m.extractLsb' 48 8)
        (flags &&& m.extractLsb' 40 8) (addr &&& m.extractLsb' 32 8) (reg &&& m.extractLsb' 24 8)
        (arg &&& m.extractLsb' 0 16) := by
  ext i hi
  simp only [mkDesc, BitVec.getElem_and, BitVec.getElem_or, BitVec.getElem_shiftLeft,
    BitVec.getElem_setWidth, BitVec.getLsbD_and, BitVec.getLsbD_extractLsb']
  interval_cases i <;> simp

end Sys2Proof
end

