-- ==== Sys2Proof/Laws/Invariant.lean ====
section
/-! SUPPORT. Running primitives that are `opsOk` ends in the invariant, whatever the environment
answers: proved once for every script. -/

namespace Sys2Proof.Machine

/-- The invariant while an operation of agent `a` runs: none waits, and the execution context is that
of the agent. -/
structure Running (a : Agent) (s : State) : Prop where
  par : s.par.wf
  mem : s.mem.wf
  ctx : ctxOk s.par s.ctx
  ie : ieOk s.ctx.direction s.regs.ie
  execCtx : s.execCtx = .interrupt ↔ a = .isr
  task : s.task = none

theorem Running.inv {s : State} {a : Agent} (h : Running a s) (ha : a ≠ .isr) : Inv s :=
  ⟨h.par, h.mem, h.ctx, h.ie, by simp [h.execCtx, h.task, ha], by simp [h.task]⟩

theorem Running.inv_leaveIsr {s : State} {a : Agent} (h : Running a s) : Inv s.leaveIsr :=
  ⟨h.par, h.mem, h.ctx, h.ie, by simp [h.task], by simp [h.task]⟩

/-- Nothing that the invariant reads has changed, and the memory is well formed. -/
theorem Running.of_same {s t : State} {a : Agent} (h : Running a s) (hpar : t.par = s.par)
    (hmem : t.mem.wf)
    (hctx : ∀ b, { t.ctx with started := b, flags := 0, address := 0 } =
      { s.ctx with started := b, flags := 0, address := 0 })
    (hie : t.regs.ie = s.regs.ie) (hexec : t.execCtx = s.execCtx) (htask : t.task = s.task) :
    Running a t := by
  have hc := hctx true
  simp only [Context.mk.injEq] at hc
  obtain ⟨h1, h2, h3, h4, h5, -⟩ := hc
  refine ⟨hpar ▸ h.par, hmem, ?_, ?_, hexec ▸ h.execCtx, htask ▸ h.task⟩
  · have := h.ctx
    simp only [ctxOk, hpar, h1, h2, h3, h4, h5] at this ⊢
    exact this
  · rw [h1, hie]; exact h.ie

theorem Running.escalate {s : State} {a : Agent} (h : Running a s) (r : FaultReport) :
    Running a (s.escalate r) :=
  ⟨by simpa using h.par, by simpa using h.mem, .inl (by simp), .inl (by simp),
    by simpa using h.execCtx, by simpa using h.task⟩

theorem Running.readNow {s : State} {a : Agent} (h : Running a s) : Running a s.readNow :=
  h.of_same rfl h.mem (fun _ => rfl) rfl rfl rfl

/-- A sample changes nothing that the invariant or a script reads. -/
theorem Running.sample {s q : State} {a : Agent} (h : Running a s)
    (hq : q = s.readBusy ∨ q = s.readCtl ∨ q = s.readFlags) :
    Running a q ∧ q.ctx.direction = s.ctx.direction ∧ q.regs.ie = s.regs.ie := by
  rcases hq with rfl | rfl | rfl <;>
    exact ⟨h.of_same rfl h.mem (fun _ => rfl) rfl rfl rfl, rfl, rfl⟩

theorem Running.finish {s : State} {f : Frame} (h : Running f.agent s) (hf : f.agent ≠ .isr)
    (r : OpResult) : Inv (finish f r s) := by
  simp only [Machine.finish]
  split
  · exact Running.inv (h.of_same (t := s.returnResult r) rfl h.mem (fun _ => rfl) rfl rfl rfl) hf
  · exact Running.inv (h.of_same (t := s.setResult r) rfl h.mem (fun _ => rfl) rfl rfl rfl) hf
  · exact absurd ‹_› hf

/-- A poll, and what follows it, ends in the invariant. -/
theorem Running.afterPoll {s : State} {f : Frame} {rest : List Prim} (h : Running f.agent s)
    (w : Wait) (t0 : Word32) (onFail : OnFail)
    (hok : opsOk f.agent s.ctx.direction s.regs.ie (.wait w onFail :: rest) = true)
    (hin : rest.all Prim.inBounds = true) (hf : doneOutcome f.outcome = true)
    (ih : ∀ (f : Frame) (s : State), Running f.agent s →
      opsOk f.agent s.ctx.direction s.regs.ie rest = true → doneOutcome f.outcome = true →
      Inv (runOps rest f s)) :
    Inv (afterPoll w t0 onFail rest f (runOps rest) (pollWait w t0 s)) := by
  have hok' := hok
  simp only [opsOk, Bool.and_eq_true] at hok'
  obtain ⟨⟨⟨⟨ok1, ok2⟩, -⟩, -⟩, ok5⟩ := hok'
  have fail : ∀ (o : OutcomeCode) (v : State), doneOutcome o = true → Running f.agent v →
      v.ctx.direction = .idle → v.regs.ie = 0 →
      Inv (Machine.afterPoll w t0 onFail rest f (runOps rest) (.failed o, v)) := by
    intro o v ho hv h1 h2
    simp only [Machine.afterPoll]
    cases onFail <;> simp [OnFail.goesOn] at ok2 ok5 ⊢
    · exact hv.finish ok2 _
    · exact hv.finish ok2 _
    · exact hv.finish ok2 _
    · exact ih { f with outcome := o } _ hv (by rw [h1, h2]; exact ok5) ho
    · exact ih _ _ hv (by rw [h1, h2]; exact ok5) hf
  rcases pollWait_cases w t0 s with ⟨q, e, hq⟩ | ⟨q, e, hq, -⟩ | ⟨q, r, e, hq, -⟩ | ⟨m, -, -, e⟩ <;>
    rw [e]
  · obtain ⟨h1, h2, h3⟩ := h.sample hq
    exact ih _ _ h1 (by rw [h2, h3]; exact ok1) hf
  · obtain ⟨h1, h2, h3⟩ := h.sample hq
    have h4 := h1.readNow
    refine ⟨h4.par, h4.mem, h4.ctx, h4.ie, by simpa [Machine.afterPoll] using h1.execCtx, ?_⟩
    intro t ht
    simp only [Machine.afterPoll, State.setTask_task, Option.some.injEq] at ht
    subst ht
    exact ⟨by simpa [Machine.afterPoll, h2, h3] using hok, hin, hf⟩
  · exact fail _ _ rfl ((h.sample hq).1.readNow.escalate _) (by simp) (by simp)
  · exact fail _ _ rfl ((h.sample (.inr (.inr rfl))).1.escalate _) (by simp) (by simp)

/-- Running a script that is `opsOk` and within its buffers ends in the invariant. -/
theorem Running.runOps (ps : List Prim) : ∀ (f : Frame) (s : State), Running f.agent s →
    opsOk f.agent s.ctx.direction s.regs.ie ps = true → ps.all Prim.inBounds = true →
    doneOutcome f.outcome = true → Inv (runOps ps f s) := by
  induction ps with
  | nil =>
    intro f s h hok _ _
    simp [opsOk] at hok
    simpa [endOfOps, hok] using h.inv_leaveIsr
  | cons p ps ih =>
    intro f s h hok hin hf
    simp only [List.all_cons, Bool.and_eq_true] at hin
    have same : ∀ (f' : Frame) (t : State), f'.agent = f.agent → f'.outcome = f.outcome →
        Running f.agent t → t.ctx.direction = s.ctx.direction → t.regs.ie = s.regs.ie →
        opsOk f.agent s.ctx.direction s.regs.ie ps = true → Inv (Machine.runOps ps f' t) :=
      fun f' t ha ho ht h1 h2 hok =>
        ih f' t (ha ▸ ht) (by rw [ha, h1, h2]; exact hok) hin.2 (ho ▸ hf)
    cases p with
    | wait w onFail =>
      rw [runOps_wait]
      exact Running.afterPoll h.readNow w _ onFail hok hin.2 hf
        fun f s h1 h2 h3 => ih f s h1 h2 hin.2 h3
    | reset =>
      simp only [opsOk] at hok
      exact ih _ _ ⟨h.par, h.mem, h.ctx, .inl (by simp), h.execCtx, h.task⟩ (by simpa using hok)
        hin.2 hf
    | setIE m =>
      simp only [opsOk, Bool.and_eq_true, beq_iff_eq] at hok
      exact ih _ _ ⟨h.par, h.mem, h.ctx, .inr (by simpa using hok.1.2), h.execCtx, h.task⟩
        (by simpa using hok.2) hin.2 hf
    | clrIE m =>
      simp only [opsOk, Bool.and_eq_true, decide_eq_true_eq] at hok
      exact ih _ _ ⟨h.par, h.mem, h.ctx, hok.1, h.execCtx, h.task⟩ hok.2 hin.2 hf
    | setIdle =>
      simp only [opsOk, Bool.and_eq_true, Bool.or_eq_true, beq_iff_eq] at hok
      obtain ⟨⟨ok1, ok2⟩, ok3⟩ := hok
      refine ih _ _ ⟨h.par, h.mem, .inl rfl, .inl (by simp [ok2]), h.execCtx, h.task⟩ ?_ hin.2 hf
      rcases ok3 with rfl | rfl <;> simp [opsOk, ok1, ok2]
    | escalate r =>
      simp only [opsOk] at hok
      exact ih _ _ (h.escalate r) (by simpa using hok) hin.2 hf
    | signalRead =>
      simp only [opsOk, Bool.and_eq_true, List.isEmpty_iff] at hok
      obtain ⟨⟨⟨ok1, -⟩, -⟩, rfl⟩ := hok
      exact same f _ rfl rfl (h.of_same rfl h.mem (fun _ => rfl) rfl rfl rfl) rfl rfl ok1
    | signalWrite =>
      simp only [opsOk, Bool.and_eq_true, List.isEmpty_iff] at hok
      obtain ⟨⟨⟨ok1, -⟩, -⟩, rfl⟩ := hok
      exact same f _ rfl rfl (h.of_same rfl h.mem (fun _ => rfl) rfl rfl rfl) rfl rfl ok1
    | ret o => exact h.finish (fun hi => by simp [opsOk, hi] at hok) _
    | retByte => exact h.finish (fun hi => by simp [opsOk, hi] at hok) _
    | retHalf => exact h.finish (fun hi => by simp [opsOk, hi] at hok) _
    | retPresent =>
      exact (h.sample (.inr (.inr rfl))).1.finish (fun hi => by simp [opsOk, hi] at hok) _
    | store buf i =>
      exact same f _ rfl rfl
        (h.of_same rfl (memWrite_wf _ _ _ _ h.mem) (fun _ => rfl) rfl rfl rfl) rfl rfl hok
    | rdRx =>
      exact same { f with prev := f.last, last := s.rdRxAt 0 } _ rfl rfl
        (h.of_same rfl h.mem (fun _ => rfl) rfl rfl rfl) rfl rfl hok
    | unreset => exact same f _ rfl rfl (h.of_same rfl h.mem (fun _ => rfl) rfl rfl rfl) rfl rfl hok
    | setAddr a => exact same f _ rfl rfl (h.of_same rfl h.mem (fun _ => rfl) rfl rfl rfl) rfl rfl hok
    | setCtl m => exact same f _ rfl rfl (h.of_same rfl h.mem (fun _ => rfl) rfl rfl rfl) rfl rfl hok
    | clrCtl m => exact same f _ rfl rfl (h.of_same rfl h.mem (fun _ => rfl) rfl rfl rfl) rfl rfl hok
    | wrTx b => exact same f _ rfl rfl (h.of_same rfl h.mem (fun _ => rfl) rfl rfl rfl) rfl rfl hok
    | wrTxFrom buf i =>
      exact same f _ rfl rfl (h.of_same rfl h.mem (fun _ => rfl) rfl rfl rfl) rfl rfl hok
    | setStarted b =>
      exact same f _ rfl rfl (h.of_same rfl h.mem (fun _ => rfl) rfl rfl rfl) rfl rfl hok

end Sys2Proof.Machine
end

