-- ==== Sys2Proof/Laws/PerInstr.lean ====
section
/-! SUPPORT. Statements made per instruction (LAWS.json): the encoding of a well-formed operation
carries the match bits of a row of its mnemonic in spec/opcode_table.json. -/

namespace Sys2Proof.Laws.TableRow

/-- The encoded bits, under a row's mask, are the row's match. -/
def Statement (i : Instr) : Prop :=
  i.wf Params.default.lenBits = true →
    ∃ r ∈ opcodeTable, r.mnemonic = i.mnemonic ∧ (encode i).bits &&& r.mask = r.pattern

/-- From the masked word to the masked number. -/
theorem toNat_of_masked {w m p : BitVec 64} (h : w &&& m = p) : w.toNat &&& m.toNat = p.toNat := by
  rw [← BitVec.toNat_and, h]

/-- The vectors 0x04 to 0xFF are the six rows of VEC_OTHER. -/
theorem other_rows : ∀ n < 256, 4 ≤ n →
    n &&& 0xFC = 0x04 ∨ n &&& 0xF8 = 0x08 ∨ n &&& 0xF0 = 0x10 ∨ n &&& 0xE0 = 0x20 ∨
      n &&& 0xC0 = 0x40 ∨ n &&& 0x80 = 0x80 := by
  intro n hn h4
  interval_cases n <;> decide

theorem read (client : Byte) (flags : Byte) (addr : Byte) (len : BitVec 16) (buf : BufRef) :
    Statement (.read client flags addr len buf) := by
  intro h
  have hf : flags &&& 248#8 = 0#8 := by simp [Instr.wf] at h; exact h.1
  refine ⟨⟨"READ", 0x0100000000000000, 0xFF00F800FFFF0000⟩, by decide, rfl, ?_⟩
  exact toNat_of_masked (m := 0xFF00F800FFFF0000) (p := 0x0100000000000000) (by
    rw [mkDesc_and]; simp [hf]; decide)

theorem write (client : Byte) (flags : Byte) (addr : Byte) (len : BitVec 16) (buf : BufRef) :
    Statement (.write client flags addr len buf) := by
  intro h
  have hf : flags &&& 248#8 = 0#8 := by simp [Instr.wf] at h; exact h.1
  refine ⟨⟨"WRITE", 0x0200000000000000, 0xFF00F800FFFF0000⟩, by decide, rfl, ?_⟩
  exact toNat_of_masked (m := 0xFF00F800FFFF0000) (p := 0x0200000000000000) (by
    rw [mkDesc_and]; simp [hf]; decide)

theorem present (addr : Byte) :
    Statement (.present addr) := by
  intro _
  refine ⟨⟨"PRESENT", 0x1000000000000000, 0xFFFFFF00FFFFFFFF⟩, by decide, rfl, ?_⟩
  exact toNat_of_masked (m := 0xFFFFFF00FFFFFFFF) (p := 0x1000000000000000) (by
    rw [mkDesc_and]; simp; decide)

theorem read8 (addr : Byte) (reg : Byte) :
    Statement (.read8 addr reg) := by
  intro _
  refine ⟨⟨"READ8", 0x1100000000000000, 0xFFFFFF0000FFFFFF⟩, by decide, rfl, ?_⟩
  exact toNat_of_masked (m := 0xFFFFFF0000FFFFFF) (p := 0x1100000000000000) (by
    rw [mkDesc_and]; simp; decide)

theorem read16 (addr : Byte) (reg : Byte) :
    Statement (.read16 addr reg) := by
  intro _
  refine ⟨⟨"READ16", 0x1200000000000000, 0xFFFFFF0000FFFFFF⟩, by decide, rfl, ?_⟩
  exact toNat_of_masked (m := 0xFFFFFF0000FFFFFF) (p := 0x1200000000000000) (by
    rw [mkDesc_and]; simp; decide)

theorem readblock (addr : Byte) (reg : Byte) (n : BitVec 16) (buf : BufRef) :
    Statement (.readblock addr reg n buf) := by
  intro _
  refine ⟨⟨"READBLOCK", 0x1300000000000000, 0xFFFFFF0000FF0000⟩, by decide, rfl, ?_⟩
  exact toNat_of_masked (m := 0xFFFFFF0000FF0000) (p := 0x1300000000000000) (by
    rw [mkDesc_and]; simp; decide)

theorem write8 (addr : Byte) (reg : Byte) (v : Byte) :
    Statement (.write8 addr reg v) := by
  intro _
  have hv : v.setWidth 16 &&& 0xFF00#16 = 0 := by
    ext i hi; interval_cases i <;> simp
  refine ⟨⟨"WRITE8", 0x1400000000000000, 0xFFFFFF0000FFFF00⟩, by decide, rfl, ?_⟩
  exact toNat_of_masked (m := 0xFFFFFF0000FFFF00) (p := 0x1400000000000000) (by
    rw [mkDesc_and]; simp [hv]; decide)

theorem write16 (addr : Byte) (reg : Byte) (v : BitVec 16) :
    Statement (.write16 addr reg v) := by
  intro _
  refine ⟨⟨"WRITE16", 0x1500000000000000, 0xFFFFFF0000FF0000⟩, by decide, rfl, ?_⟩
  exact toNat_of_masked (m := 0xFFFFFF0000FF0000) (p := 0x1500000000000000) (by
    rw [mkDesc_and]; simp; decide)

theorem writeblock (addr : Byte) (reg : Byte) (n : BitVec 16) (buf : BufRef) :
    Statement (.writeblock addr reg n buf) := by
  intro _
  refine ⟨⟨"WRITEBLOCK", 0x1600000000000000, 0xFFFFFF0000FF0000⟩, by decide, rfl, ?_⟩
  exact toNat_of_masked (m := 0xFFFFFF0000FF0000) (p := 0x1600000000000000) (by
    rw [mkDesc_and]; simp; decide)

theorem vecNone : Statement .vecNone := fun _ =>
  ⟨⟨"VEC_NONE", 0x00, 0xFF⟩, by decide, rfl, rfl⟩

theorem vecNak : Statement .vecNak := fun _ =>
  ⟨⟨"VEC_NAK", 0x01, 0xFF⟩, by decide, rfl, rfl⟩

theorem vecRxrdy : Statement .vecRxrdy := fun _ =>
  ⟨⟨"VEC_RXRDY", 0x02, 0xFF⟩, by decide, rfl, rfl⟩

theorem vecTxrdy : Statement .vecTxrdy := fun _ =>
  ⟨⟨"VEC_TXRDY", 0x03, 0xFF⟩, by decide, rfl, rfl⟩

theorem checkNotBusy : Statement .checkNotBusy := fun _ =>
  ⟨⟨"CHECK_NOT_BUSY", 0x42, 0xFF⟩, by decide, rfl, rfl⟩

theorem init : Statement .init := fun _ =>
  ⟨⟨"INIT", 0x45, 0xFF⟩, by decide, rfl, rfl⟩

theorem waitClears (c : Cond) : Statement (.waitClears c) := fun _ =>
  ⟨⟨"WAIT_CLEARS", 0x40, 0xFF⟩, by decide, rfl, by simp [encode, Packet.bits]⟩

theorem waitFlag (m : DataFlag) : Statement (.waitFlag m) := fun _ =>
  ⟨⟨"WAIT_FLAG", 0x41, 0xFF⟩, by decide, rfl, by simp [encode, Packet.bits]⟩

theorem escalate (loc : Loc) (d1 d2 d3 : Word32) : Statement (.escalate loc d1 d2 d3) := fun _ =>
  ⟨⟨"ESCALATE", 0x43, 0xFF⟩, by decide, rfl, by simp [encode, Packet.bits]⟩

theorem regPrefix (addr reg : Byte) : Statement (.regPrefix addr reg) := fun _ =>
  ⟨⟨"REG_PREFIX", 0x44, 0xFF⟩, by decide, rfl, by simp [encode, Packet.bits]⟩

theorem vecOther (vec : Byte) : Statement (.vecOther vec) := by
  intro h
  have h4 : 4 ≤ vec.toNat := by simpa [Instr.wf] using h
  rcases other_rows vec.toNat vec.isLt h4 with e | e | e | e | e | e
  · exact ⟨⟨"VEC_OTHER", 0x04, 0xFC⟩, by decide, rfl, e⟩
  · exact ⟨⟨"VEC_OTHER", 0x08, 0xF8⟩, by decide, rfl, e⟩
  · exact ⟨⟨"VEC_OTHER", 0x10, 0xF0⟩, by decide, rfl, e⟩
  · exact ⟨⟨"VEC_OTHER", 0x20, 0xE0⟩, by decide, rfl, e⟩
  · exact ⟨⟨"VEC_OTHER", 0x40, 0xC0⟩, by decide, rfl, e⟩
  · exact ⟨⟨"VEC_OTHER", 0x80, 0x80⟩, by decide, rfl, e⟩

end Sys2Proof.Laws.TableRow
end

