-- ==== Sys2Proof/Tests/Slice0.lean ====
section
/-! SUPPORT. The model's own tests: the WellFormed smoke, words written from the spec's encodings, one
step per operation against spec/95_test_vectors.md, and a witness for the hypotheses of every
obligation. -/

namespace Sys2Proof.Tests

open Sys2Proof.Machine

/-! ### Helpers -/

/-- Scripted answers, none taken. -/
def script {α : Type} (l : List α) : Draws α := ⟨l, 0⟩

/-- After `INIT`, with a script for every query and a memory that holds a buffer at 100. -/
def start (now : List Word32) (busy : List Bool) (ctl flags : List Bits3) (rx client : List Byte) :
    State :=
  { State.reset with
    env := ⟨script now, script busy, script ctl, script flags, script rx, script client⟩
    mem := [(100, 0x09), (101, 0x08), (102, 0x07)] }

/-- The events of a step, on top of the trace before it. -/
def newEvents (s : State) (o : Host.Outcome State Fault Refusal) : Option (List Event) :=
  match o with
  | .next u => some (u.trace.drop s.trace.length)
  | .fault _ => none
  | .refused _ => none

/-- The step answers a next state. -/
def goesOn (o : Host.Outcome State Fault Refusal) : Bool :=
  match o with
  | .next _ => true
  | .fault _ => false
  | .refused _ => false

/-- The memory after a step. -/
def memAfter (o : Host.Outcome State Fault Refusal) : Option Memory :=
  match o with
  | .next u => some u.mem
  | .fault _ => none
  | .refused _ => none

/-- The buffer of the tests: three bytes at 100. -/
def bufB : BufRef := .region 100 3

/-! ### WellFormed: an ill-formed term for each check -/

theorem test_wf_refuses_read_flags : Instr.wf 8 (.read 0 0x08 0x50 1 .null) = false := by decide
theorem test_wf_refuses_read_length : Instr.wf 8 (.read 0 0x01 0x50 256 .null) = false := by decide
theorem test_wf_refuses_write_flags : Instr.wf 8 (.write 0 0x80 0x50 1 .null) = false := by decide
theorem test_wf_refuses_write_length : Instr.wf 8 (.write 0 0x01 0x50 0xFFFF .null) = false := by decide
theorem test_wf_refuses_readblock_n : Instr.wf 8 (.readblock 0x40 0 256 .null) = false := by decide
theorem test_wf_refuses_writeblock_n : Instr.wf 8 (.writeblock 0x40 0 256 .null) = false := by decide
theorem test_wf_refuses_other_vector : Instr.wf 8 (.vecOther 3) = false := by decide

theorem test_wf_accepts_length_255 : Instr.wf 8 (.read 0xFF 0x07 0x50 255 .null) = true := by decide
theorem test_wf_accepts_vector_4 : Instr.wf 8 (.vecOther 4) = true := by decide

/-! ### Decoding: the words of 95_test_vectors.md, V-ENC-1 to V-ENC-20 -/

theorem test_decode_read :
    decode 8 (.desc 0x0101035000000003 (some bufB)) = .ok (.read 1 0x03 0x50 3 bufB) := rfl
theorem test_decode_write :
    decode 8 (.desc 0x0201034800000002 (some bufB)) = .ok (.write 1 0x03 0x48 2 bufB) := rfl
theorem test_decode_read_restart :
    decode 8 (.desc 0x0100064800000001 (some bufB)) = .ok (.read 0 0x06 0x48 1 bufB) := rfl
theorem test_decode_read_all_flags :
    decode 8 (.desc 0x0101075000000003 (some bufB)) = .ok (.read 1 0x07 0x50 3 bufB) := rfl
theorem test_decode_present :
    decode 8 (.desc 0x1000003C00000000 none) = .ok (.present 0x3C) := rfl
theorem test_decode_read8 :
    decode 8 (.desc 0x1100004010000000 none) = .ok (.read8 0x40 0x10) := rfl
theorem test_decode_read16 :
    decode 8 (.desc 0x1200004005000000 none) = .ok (.read16 0x40 0x05) := rfl
theorem test_decode_readblock :
    decode 8 (.desc 0x1300004010000004 (some bufB)) = .ok (.readblock 0x40 0x10 4 bufB) := rfl
theorem test_decode_write8 :
    decode 8 (.desc 0x14000040010000AA none) = .ok (.write8 0x40 0x01 0xAA) := rfl
theorem test_decode_write16 :
    decode 8 (.desc 0x150000400200BEEF none) = .ok (.write16 0x40 0x02 0xBEEF) := rfl
theorem test_decode_writeblock :
    decode 8 (.desc 0x1600004020000003 (some bufB)) = .ok (.writeblock 0x40 0x20 3 bufB) := rfl
theorem test_decode_reserved_op :
    decode 8 (.desc 0x0300000000000000 none) = .error .opcode := rfl
theorem test_decode_internal_code :
    decode 8 (.desc 0x4000000000000000 none) = .error .opcode := rfl
theorem test_decode_flag_bit_3 :
    decode 8 (.desc 0x0100084800000001 (some bufB)) = .error .flags := rfl
theorem test_decode_rsv :
    decode 8 (.desc 0x1100004005010000 none) = .error .field := rfl
theorem test_decode_present_reg :
    decode 8 (.desc 0x1000003C01000000 none) = .error .field := rfl
theorem test_decode_write8_high_byte :
    decode 8 (.desc 0x1400004001000100 none) = .error .field := rfl
theorem test_decode_length_256 :
    decode 8 (.desc 0x0100035000000100 (some bufB)) = .error .length := rfl
theorem test_decode_present_with_buf :
    decode 8 (.desc 0x1000003C00000000 (some bufB)) = .error .operand := rfl
theorem test_decode_read_without_buf :
    decode 8 (.desc 0x0101035000000003 none) = .error .operand := rfl
theorem test_decode_zero_length_null :
    decode 8 (.desc 0x0100035000000000 (some .null)) = .ok (.read 0 0x03 0x50 0 .null) := rfl
theorem test_decode_vec_none : decode 8 (.vec 0x00) = .ok (.vecNone) := rfl
theorem test_decode_vec_nak : decode 8 (.vec 0x01) = .ok (.vecNak) := rfl
theorem test_decode_vec_rxrdy : decode 8 (.vec 0x02) = .ok (.vecRxrdy) := rfl
theorem test_decode_vec_txrdy : decode 8 (.vec 0x03) = .ok (.vecTxrdy) := rfl
theorem test_decode_vec_other_low : decode 8 (.vec 0x04) = .ok (.vecOther 0x04) := rfl
theorem test_decode_vec_other_high : decode 8 (.vec 0xFF) = .ok (.vecOther 0xFF) := rfl
theorem test_decode_prim_wait_clears : decode 8 (.prim 0x40 (.cond .stop)) = .ok (.waitClears .stop) := rfl
theorem test_decode_prim_wait_flag : decode 8 (.prim 0x41 (.mask .rx)) = .ok (.waitFlag .rx) := rfl
theorem test_decode_prim_check_not_busy : decode 8 (.prim 0x42 .none) = .ok (.checkNotBusy) := rfl
theorem test_decode_prim_escalate : decode 8 (.prim 0x43 (.fault .isrNak 1 2 3)) = .ok (.escalate .isrNak 1 2 3) := rfl
theorem test_decode_prim_reg_prefix : decode 8 (.prim 0x44 (.target 0x40 0x10)) = .ok (.regPrefix 0x40 0x10) := rfl
theorem test_decode_prim_init : decode 8 (.prim 0x45 .none) = .ok (.init) := rfl
theorem test_decode_prim_reserved : decode 8 (.prim 0x46 .none) = .error .opcode := rfl
theorem test_decode_prim_operands : decode 8 (.prim 0x42 (.cond .stop)) = .error .operand := rfl

/-! ### A word of the table runs as the first operation after reset -/

theorem test_first_step_vec_none : goesOn (step (State.reset.withFetchWord 8 0x00)) = true := rfl
theorem test_first_step_vec_nak : goesOn (step (State.reset.withFetchWord 8 0x01)) = true := rfl
theorem test_first_step_vec_rxrdy : goesOn (step (State.reset.withFetchWord 8 0x02)) = true := rfl
theorem test_first_step_vec_txrdy : goesOn (step (State.reset.withFetchWord 8 0x03)) = true := rfl
theorem test_first_step_vec_other : goesOn (step (State.reset.withFetchWord 8 0xFF)) = true := rfl
theorem test_first_step_escalate : goesOn (step (State.reset.withFetchWord 8 0x43)) = true := rfl
theorem test_first_step_init : goesOn (step (State.reset.withFetchWord 8 0x45)) = true := rfl
theorem test_first_step_read : goesOn (step (State.reset.withFetchWord 64 0x0100000000000000)) = true := rfl
theorem test_first_step_writeblock : goesOn (step (State.reset.withFetchWord 64 0x1600000000000000)) = true := rfl
theorem test_table_word_read :
    decodeTableWord 64 0x0101035000000003 = some (.read 1 0x03 0x50 3 .null) := rfl
theorem test_table_word_init : decodeTableWord 8 0x45 = some .init := rfl
theorem test_table_word_vec : decodeTableWord 8 0x46 = some (.vecOther 0x46) := rfl

/-! ### One step, against the vectors -/

/-- V-RX-1 with START deasserted at the first sample: STOP before the enables. -/
theorem test_read_single_byte_stop :
    let s := start [0, 5] [false] [0] [] [] []
    newEvents s (exec (.read 3 0x03 0x50 1 bufB) s) = some
      [.reset, .unreset, .now 0, .busy false, .setAddr 0x50, .clrCtl 1, .setCtl 2, .now 5, .ctl 0,
       .setCtl 4, .setIE 6, .result (.outcome .accepted)] := by
  decide

/-- V-RX-2, the command. -/
theorem test_read_start_only :
    let s := start [0] [false] [] [] [] []
    newEvents s (exec (.read 3 0x01 0x50 2 bufB) s) = some
      [.reset, .unreset, .now 0, .busy false, .setAddr 0x50, .clrCtl 1, .setCtl 2, .setIE 6,
       .result (.outcome .accepted)] := by
  decide

/-- P1, the command. -/
theorem test_write_start_stop :
    let s := start [100] [false] [] [] [] []
    newEvents s (exec (.write 1 0x03 0x48 2 bufB) s) = some
      [.reset, .unreset, .now 100, .busy false, .setAddr 0x48, .setCtl 3, .setIE 5,
       .result (.outcome .accepted)] := by
  decide

/-- V-CMD-5. -/
theorem test_write_continuation_violation :
    let s := start [] [] [] [] [] []
    newEvents s (exec (.write 0 0x02 0x48 1 bufB) s) = some
      [.result (.outcome .protocolViolation)] := by
  decide

/-- V-CMD-6: no completion follows it, whatever entry is presented. -/
theorem test_no_entry_after_violation :
    let s := { start [] [] [] [] [5] [] with
      ctx := ⟨.reading, bufB, 1, 0, 1, 0x02, false, 0x48⟩
      program := [.packet (.vec 0x02)] }
    step s = .next { s with program := [] } ∧ exec .vecNak s = .next s := ⟨rfl, rfl⟩

/-- V-REG-1. -/
theorem test_present_true :
    let s := start [0, 10, 20, 30, 40, 50, 60] [false] [0] [0] [] []
    newEvents s (exec (.present 0x3C) s) = some
      [.reset, .unreset, .now 0, .busy false, .setAddr 0x3C, .setCtl 7, .now 10, .ctl 0, .flags 0,
       .result (.present true)] := by
  decide

/-- V-REG-2. -/
theorem test_present_nak :
    let s := start [0, 10, 20, 30, 40, 50, 60] [false] [0] [4] [] []
    newEvents s (exec (.present 0x3C) s) = some
      [.reset, .unreset, .now 0, .busy false, .setAddr 0x3C, .setCtl 7, .now 10, .ctl 0, .flags 4,
       .result (.present false)] := by
  decide

/-- V-REG-3. -/
theorem test_read8 :
    let s := start [0, 10, 20, 30, 40, 50, 60] [false] [0] [1, 1, 2] [0x5A] []
    newEvents s (exec (.read8 0x40 0x10) s) = some
      [.reset, .unreset, .now 0, .busy false,
       .setAddr 0x40, .setCtl 3, .now 10, .flags 1, .wrTx 0x10, .now 20, .flags 1, .clrCtl 1, .setCtl 2,
       .now 30, .ctl 0, .setCtl 4, .now 40, .flags 2, .rdRx 0x5A,
       .result (.byte .success 0x5A)] := by
  decide

/-- V-REG-9. -/
theorem test_read8_nak :
    let s := start [0, 10, 20, 30, 40, 50, 60] [false] [0] [5] [] []
    newEvents s (exec (.read8 0x40 0x10) s) = some
      [.reset, .unreset, .now 0, .busy false,
       .setAddr 0x40, .setCtl 3, .now 10, .flags 5, .report ⟨.guardFlagNak, 1, 5, 0⟩, .reset,
       .result (.outcome .acknowledgementFailure)] := by
  decide

/-- P3. -/
theorem test_read16 :
    let s := start [0, 10, 20, 30, 40, 50, 60] [false] [0] [1, 1, 2, 2] [0x12, 0x34] []
    newEvents s (exec (.read16 0x40 0x05) s) = some
      [.reset, .unreset, .now 0, .busy false,
       .setAddr 0x40, .setCtl 3, .now 10, .flags 1, .wrTx 0x05, .now 20, .flags 1, .clrCtl 1, .setCtl 2,
       .now 30, .ctl 0, .now 40, .flags 2, .rdRx 0x12, .setCtl 4, .now 50, .flags 2, .rdRx 0x34,
       .result (.half .success 0x1234)] := by
  decide

/-- V-REG-4: the events of READ8. -/
theorem test_readblock_one :
    let s := start [0, 10, 20, 30, 40, 50, 60] [false] [0] [1, 1, 2] [0x5A] []
    newEvents s (exec (.readblock 0x40 0x10 1 bufB) s) = some
      [.reset, .unreset, .now 0, .busy false,
       .setAddr 0x40, .setCtl 3, .now 10, .flags 1, .wrTx 0x10, .now 20, .flags 1, .clrCtl 1, .setCtl 2,
       .now 30, .ctl 0, .setCtl 4, .now 40, .flags 2, .rdRx 0x5A,
       .result (.outcome .success)] := by
  decide

/-- P5 cut to three bytes: where the bytes land. -/
theorem test_readblock_memory :
    let s := start [0, 10, 20, 30, 40, 50, 60] [false] [0] [1, 1, 2, 2, 2] [1, 2, 3] []
    memAfter (exec (.readblock 0x40 0x10 3 bufB) s) = some [(100, 1), (101, 2), (102, 3)] := by
  decide

/-- V-REG-6. -/
theorem test_write8 :
    let s := start [0, 10, 20, 30, 40, 50, 60] [false] [0] [1, 1, 1] [] []
    newEvents s (exec (.write8 0x40 0x01 0xAA) s) = some
      [.reset, .unreset, .now 0, .busy false,
       .setAddr 0x40, .setCtl 3, .now 10, .flags 1, .wrTx 0x01, .now 20, .flags 1, .wrTx 0xAA, .now 30, .flags 1,
       .setCtl 4, .now 40, .ctl 0, .result (.outcome .success)] := by
  decide

/-- V-REG-12. -/
theorem test_write8_bus_busy :
    let s := start [0, 400] [true] [] [] [] []
    newEvents s (exec (.write8 0x40 0x01 0xAA) s) = some
      [.reset, .unreset, .now 0, .busy true, .now 400, .report ⟨.guardClearTimeout, 1, 0, 400⟩,
       .reset, .result (.outcome .timeout)] := by
  decide

/-- V-REG-7. -/
theorem test_write16 :
    let s := start [0, 10, 20, 30, 40, 50, 60] [false] [0] [1, 1, 1, 1] [] []
    newEvents s (exec (.write16 0x40 0x02 0xBEEF) s) = some
      [.reset, .unreset, .now 0, .busy false,
       .setAddr 0x40, .setCtl 3, .now 10, .flags 1, .wrTx 0x02, .now 20, .flags 1, .wrTx 0xBE, .now 30, .flags 1,
       .wrTx 0xEF, .now 40, .flags 1, .setCtl 4, .now 50, .ctl 0, .result (.outcome .success)] := by
  decide

/-- V-REG-8. -/
theorem test_writeblock :
    let s := start [0, 10, 20, 30, 40, 50, 60] [false] [0] [1, 1, 1, 1, 1] [] []
    newEvents s (exec (.writeblock 0x40 0x20 3 bufB) s) = some
      [.reset, .unreset, .now 0, .busy false,
       .setAddr 0x40, .setCtl 3, .now 10, .flags 1, .wrTx 0x20, .now 20, .flags 1, .wrTx 0x09, .now 30, .flags 1,
       .wrTx 0x08, .now 40, .flags 1, .wrTx 0x07, .now 50, .flags 1, .setCtl 4, .now 60, .ctl 0,
       .result (.outcome .success)] := by
  decide

/-- V-REG-10. -/
theorem test_writeblock_null :
    let s := start [] [] [] [] [] []
    newEvents s (exec (.writeblock 0x40 0x01 2 .null) s) = some
      [.result (.outcome .invalidArgument)] := by
  decide

/-- V-VEC-1. -/
theorem test_vec_none :
    let s := start [] [] [] [] [] []
    newEvents s (exec (.vecNone) s) = some
      [.irq 0] := by
  decide

/-- V-NAK-3. -/
theorem test_vec_nak_idle :
    let s := start [] [] [] [] [] []
    newEvents s (exec (.vecNak) s) = some
      [.irq 1, .report ⟨.isrInconsistent, 1, 0, 0⟩, .reset] := by
  decide

/-- V-VEC-2. -/
theorem test_vec_other :
    let s := start [] [] [] [] [] []
    newEvents s (exec (.vecOther 7) s) = some
      [.irq 7, .report ⟨.isrUnexpectedVector, 7, 0, 0⟩, .reset] := by
  decide

/-- V-VEC-3. -/
theorem test_vec_rxrdy_idle :
    let s := start [] [] [] [] [] []
    newEvents s (exec (.vecRxrdy) s) = some
      [.irq 2, .report ⟨.isrInconsistent, 2, 0, 0⟩, .reset] := by
  decide

/-- A transfer armed in direction `d`, at byte `pos` of `len`, in the buffer at 100. -/
def armed (d : Direction) (len pos : Nat) (flags : Byte) (s : State) : State :=
  { s with
    ctx := ⟨d, bufB, len, pos, len - pos, flags, true, 0x50⟩
    regs := { s.regs with rst := false, ie := armMask d } }

/-- P4, the NAK entry. -/
theorem test_vec_nak_write :
    let s := armed .writing 3 1 0x03 (start [200] [] [0] [] [] [1])
    newEvents s (exec (.vecNak) s) = some
      [.irq 1, .setCtl 4, .now 200, .ctl 0, .report ⟨.isrNak, 2, 1, 2⟩, .reset,
       .writeDone ⟨1, .acknowledgementFailure, 0x50, 3, bufB⟩] := by
  decide

/-- P2, the second entry: STOP before the byte is drained. -/
theorem test_vec_rxrdy_before_last :
    let s := armed .reading 3 1 0x03 (start [] [] [] [] [0x20] [])
    newEvents s (exec (.vecRxrdy) s) = some
      [.irq 2, .setCtl 4, .rdRx 0x20] := by
  decide

/-- P1, the second entry. -/
theorem test_vec_txrdy_push :
    let s := armed .writing 2 1 0x03 (start [] [] [] [] [] [])
    newEvents s (exec (.vecTxrdy) s) = some
      [.irq 3, .wrTx 0x08] := by
  decide

/-- V-TX-3, the last entry: STOP never deasserts. -/
theorem test_vec_txrdy_finalize :
    let s := armed .writing 1 1 0x03 (start [0, 400] [] [4] [] [] [2])
    newEvents s (exec (.vecTxrdy) s) = some
      [.irq 3, .setCtl 4, .now 0, .ctl 4, .now 400, .report ⟨.guardClearTimeout, 3, 0, 400⟩,
       .reset, .clrIE 7, .writeDone ⟨2, .timeout, 0x50, 1, bufB⟩] := by
  decide

/-- V-G-8: only CTL_START is tested. -/
theorem test_wait_clears :
    let s := start [5] [] [4] [] [] []
    newEvents s (exec (.waitClears .start) s) = some
      [.now 5, .ctl 4] := by
  decide

/-- V-G-4: NAK wins over a set TX flag. -/
theorem test_wait_flag_nak :
    let s := start [50] [] [] [7] [] []
    newEvents s (exec (.waitFlag .tx) s) = some
      [.now 50, .flags 7, .report ⟨.guardFlagNak, 1, 7, 0⟩, .reset] := by
  decide

/-- V-G-5. -/
theorem test_wait_flag_timeout :
    let s := start [0, 400] [] [] [0] [] []
    newEvents s (exec (.waitFlag .rx) s) = some
      [.now 0, .flags 0, .now 400, .report ⟨.guardFlagTimeout, 2, 0, 400⟩, .reset] := by
  decide

/-- V-G-9: the elapsed time across the wrap. -/
theorem test_check_not_busy_timeout :
    let s := start [0xFFFFFFE8, 0x178] [true] [] [] [] []
    newEvents s (exec (.checkNotBusy) s) = some
      [.reset, .unreset, .now 0xFFFFFFE8, .busy true, .now 0x178,
       .report ⟨.guardClearTimeout, 1, 0xFFFFFFE8, 400⟩, .reset] := by
  decide

/-- The example of R170. -/
theorem test_reg_prefix :
    let s := start [0, 10, 20, 30, 40, 50, 60] [false] [] [1, 1] [] []
    newEvents s (exec (.regPrefix 0x40 0x10) s) = some
      [.reset, .unreset, .now 0, .busy false,
       .setAddr 0x40, .setCtl 3, .now 10, .flags 1, .wrTx 0x10, .now 20, .flags 1] := by
  decide

/-- The example of R202. -/
theorem test_escalate :
    let s := start [] [] [] [] [] []
    newEvents s (exec (.escalate .guardClearTimeout 1 0xFFFFFF00 400) s) = some
      [.report ⟨.guardClearTimeout, 1, 0xFFFFFF00, 400⟩, .reset] := by
  decide

/-- R241: the events of INIT. -/
theorem test_init :
    let s := start [] [] [] [] [] []
    newEvents s (exec (.init) s) = some
      [.reset, .selectPins] := by
  decide

/-- V-G-1 after its first poll (e = 399): the wait goes on, and the next sample ends it. -/
theorem test_wait_goes_on :
    let s := start [1000, 1399] [true, false] [] [] [] []
    let r := Host.Core.run Sys2Proof.core 2 { s with program := [.packet (.prim 0x42 .none)] }
    newEvents s r = some [.reset, .unreset, .now 1000, .busy true, .now 1399, .busy false] := by
  decide

/-- Probe is another spelling of present (R98). -/
theorem test_probe : assemble (.probe 0x3C) = assemble (.present 0x3C) := rfl

/-! ### Witnesses: for every obligation with hypotheses, a state and operands that meet them -/

/-- Nothing waits, the bus is idle, no NAK, every wait ends at its first sample. -/
def easy : State :=
  start [0, 1, 2, 3, 4, 5, 6, 7] [false] [0, 0] [3, 3, 3, 3, 3] [0x12, 0x34, 0x56] [1]

/-- Every wait times out at its first sample: the bus is busy, the control bits read 1. -/
def stuck : State := start [0, 400, 800] [true] [7] [0] [0x12] [1]

/-- No poll ends a wait: the clock stands still. -/
def stalled : State := start [0, 0, 0] [true, true] [7, 7] [0, 0] [] []

/-- After the ProtocolViolation of V-CMD-6. -/
def violation : State := { easy with ctx := ⟨.reading, bufB, 1, 0, 1, 0x02, false, 0x48⟩ }

/-- A state in the middle of a wait. -/
def waiting (w : Wait) (s : State) : State := { s with task := some (waitTask w 0 0) }

/-- Is the answer a next state that meets `p`? -/
def nextMeets (p : State → Bool) (o : Host.Outcome State Fault Refusal) : Bool :=
  match o with
  | .next u => p u
  | .fault _ => false
  | .refused _ => false

/-- At the ends of the ranges of R82 and R89. -/
theorem witness_DecodeOfEncodeIsIdentity :
    Instr.wf 8 (.read 0xFF 0x07 0xFF 255 .null) = true ∧ Instr.wf 8 (.vecOther 4) = true ∧
      Instr.wf 8 (.writeblock 0 0 0 bufB) = true := by decide

theorem witness_EncodeOfDecodeIsIdentity :
    decode 8 (.desc 0x01FF07FF000000FF (some .null)) = .ok (.read 0xFF 0x07 0xFF 255 .null) := rfl

/-- Both sides of the equivalence, and both failing. -/
theorem witness_DecodableDescriptors :
    legalDescriptor 8 0x01FF07FF000000FF (some .null) ∧
      ¬ legalDescriptor 8 0x01FF07FF00000100 (some .null) := by decide

/-- One descriptor for every name of R84, and a Caller that may move. -/
theorem witness_RefusedDescriptors :
    decode 8 (.desc 0x0300000000000000 none) = .error .opcode ∧
      decode 8 (.desc 0x1100004005010000 none) = .error .field ∧
      decode 8 (.desc 0x0100084800000001 (some bufB)) = .error .flags ∧
      decode 8 (.desc 0x0100035000000100 (some bufB)) = .error .length ∧
      decode 8 (.desc 0x1000003C00000000 (some bufB)) = .error .operand ∧
      ¬ legalDescriptor 8 0x0300000000000000 none ∧ easy.callerReady = true ∧
      easy.par.lenBits = 8 := ⟨rfl, rfl, rfl, rfl, rfl, by decide, rfl, rfl⟩

/-- A descriptor, an entry and a primitive. -/
theorem witness_StepRunsThePresentedOperation :
    decode easy.par.lenBits (.desc 0x1000003C00000000 none) = .ok (.present 0x3C) ∧
      easy.ready (.present 0x3C) = true ∧ easy.ready .vecNak = true ∧ easy.ready .init = true ∧
      ({ easy with program := [.packet (.vec 1)] } : State).program = [.packet (.vec 1)] := ⟨rfl, rfl, rfl, rfl, rfl⟩

theorem witness_NothingInterleaves :
    (waiting (.clears .busy) easy).task = some (waitTask (.clears .busy) 0 0) ∧
      goesOn (step (waiting (.clears .busy) easy)) = true := ⟨rfl, rfl⟩

theorem witness_InFlightTheCallerHolds :
    let s := armed .reading 3 1 0x03 easy
    Instr.isCaller (.present 0) = true ∧ s.inFlight = true ∧ s.task = none ∧ s.irqs = [] ∧
      s.program = [] := by decide

/-- Each premise of the three clauses. -/
theorem witness_RaisedEntries :
    let s := armed .reading 3 1 0x03 easy
    s.task = none ∧ s.execCtx = .normal ∧ s.program = [] ∧ s.regs.ie ≠ 0 ∧ easy.regs.ie = 0 ∧
      easy.task = none ∧ easy.execCtx = .normal ∧ easy.program = [] ∧
      ({ s with irqs := [.vector 2] } : State).irqs = [.vector 2] ∧ (1 : Bits3) &&& s.regs.ie = 0 ∧
      (7 : Bits3) &&& s.regs.ie ≠ 0 ∧ violation.regs.ie = 0 ∧ violation.ctx.direction ≠ .idle ∧
      violation.task = none ∧ violation.execCtx = .normal := by decide

/-- The first and the last byte of the buffer, and the bytes just outside it. -/
theorem witness_BufferRace :
    let s := armed .reading 3 1 0x03 easy
    s.task = none ∧ s.inFlight = true ∧ bufHolds s.ctx.buffer 100 = true ∧
      bufHolds s.ctx.buffer 102 = true ∧ bufHolds s.ctx.buffer 99 = false ∧
      bufHolds s.ctx.buffer 103 = false ∧ easy.inFlight = false := by decide

theorem witness_InvalidArgumentTouchesNothing :
    easy.callerReady = true ∧ (0 : BitVec 16) = 0 ∧ bufCap (.region 5 0) = 0 := by decide

theorem witness_LengthOverCapacityRefused :
    easy.callerReady = true ∧ 0 < bufCap bufB ∧ bufCap bufB < (4 : BitVec 16).toNat := by decide

/-- START and RESTART, one byte with STOP and three. -/
theorem witness_ReadWithStartAccepted :
    easy.callerReady = true ∧ has (0x03 : Byte) 0x05 = true ∧ has (0x06 : Byte) 0x05 = true ∧
      0 < (1 : BitVec 16).toNat ∧ (3 : BitVec 16).toNat ≤ bufCap bufB ∧ easy.busyAt 0 = false ∧
      has (easy.ctlAt 0) 0x2 = false := by decide

/-- No START outstanding, and one outstanding. -/
theorem witness_Continuations :
    let t := easy.setStarted true
    easy.callerReady = true ∧ easy.ctx.started = false ∧ t.callerReady = true ∧
      t.ctx.started = true ∧ has (0x02 : Byte) 0x05 = false ∧ 0 < (1 : BitVec 16).toNat ∧
      (1 : BitVec 16).toNat ≤ bufCap bufB := by decide

/-- With RESTART, so that the bus is not sampled. -/
theorem witness_WriteWithStartAccepted :
    easy.callerReady = true ∧ has (0x01 : Byte) 0x05 = true ∧ has (0x04 : Byte) 0x05 = true ∧
      (3 : BitVec 16).toNat ≤ bufCap bufB ∧ 0 < (3 : BitVec 16).toNat ∧ easy.busyAt 0 = false := by decide

/-- Of the two waits each. -/
theorem witness_CommandTimeouts :
    (stuck.callerReady = true ∧ has (0x01 : Byte) 0x01 = true ∧ has (0x01 : Byte) 0x04 = false ∧
      0 < (3 : BitVec 16).toNat ∧ (3 : BitVec 16).toNat ≤ bufCap bufB ∧ stuck.busyAt 0 = true ∧
      stuck.par.timeoutBudget ≤ stuck.nowAt 1 - stuck.nowAt 0) ∧
    (has (0x06 : Byte) 0x05 = true ∧ (1 : BitVec 16).toNat = 1 ∧ has (0x06 : Byte) 0x02 = true ∧
      has (0x06 : Byte) 0x04 = true ∧ 1 ≤ bufCap bufB ∧ has (stuck.ctlAt 0) 0x2 = true) := by decide

/-- Each of the three turns, at the start and on a later poll. -/
theorem witness_WaitClearsTurns :
    condAt easy .stop 0 = false ∧ easy.engineFree = true ∧
      condAt stuck .busy 0 = true ∧ stuck.engineFree = true ∧
      stuck.par.timeoutBudget ≤ stuck.nowAt 1 - stuck.nowAt 0 ∧
      condAt stalled .start 0 = true ∧ stalled.engineFree = true ∧
      stalled.nowAt 1 - stalled.nowAt 0 < stalled.par.timeoutBudget ∧
      (waiting (.clears .stop) easy).task = some (waitTask (.clears .stop) 0 0) ∧
      (waitTask (.clears .stop) 0 0).rest.all Prim.inBounds = true ∧
      (waiting (.clears .stop) { stuck with env := { stuck.env with now := script [400] } }).nowAt 0 - 0
        = stuck.par.timeoutBudget := by decide

/-- Each of the four turns. -/
theorem witness_WaitFlagTurns :
    (has (easy.flagsAt 0) 0x4 = false ∧ flagReady .tx (easy.flagsAt 0)) ∧
      has ((start [0] [] [] [7] [] []).flagsAt 0) 0x4 = true ∧
      (has (stuck.flagsAt 0) 0x4 = false ∧ has (stuck.flagsAt 0) (flagBits .rx) = false ∧
        stuck.par.timeoutBudget ≤ stuck.nowAt 1 - stuck.nowAt 0) ∧
      (has (stalled.flagsAt 0) 0x4 = false ∧ has (stalled.flagsAt 0) (flagBits .rx) = false ∧
        stalled.nowAt 1 - stalled.nowAt 0 < stalled.par.timeoutBudget) ∧
      (waiting (.flag .rx) stalled).task = some (waitTask (.flag .rx) 0 0) ∧
      (waitTask (.flag .rx) 0 0).rest.all Prim.inBounds = true ∧
      easy.engineFree = true := by decide

theorem witness_CheckNotBusyResult :
    easy.engineFree = true ∧ easy.busyAt 0 = false := by decide

/-- Each of the three conclusions is met. -/
theorem witness_OneReportPerFailedWait :
    nextMeets (fun u => u.task.isSome) (exec (.waitClears .busy) stalled) = true ∧
      nextMeets (fun u => u.lastResult == some (.outcome .success))
        (exec (.waitClears .busy) easy) = true ∧
      nextMeets (fun u => u.lastResult == some (.outcome .timeout))
        (exec (.waitClears .busy) stuck) = true ∧
      easy.engineFree = true ∧ goesOn (step (waiting (.flag .tx) easy)) = true := by decide

/-- With k = 1. -/
theorem witness_StalledClockDiverges :
    stalled.engineFree = true ∧
      (∀ j ≤ 1, stalled.nowAt (j + 1) - stalled.nowAt 0 < stalled.par.timeoutBudget) ∧
      (∀ j ≤ 1, condAt stalled .busy j = true) ∧
      (∀ j ≤ 1, has (stalled.flagsAt j) 0x4 = false ∧
        has (stalled.flagsAt j) (flagBits .tx) = false) := by decide

/-- The second clock answer shows the budget used. -/
theorem witness_ProgressingClockEndsTheWait :
    let s := waiting (.clears .busy) stuck
    s.task = some (waitTask (.clears .busy) 0 0) ∧
      (waitTask (.clears .busy) 0 0).rest.all Prim.inBounds = true ∧
      clockProgress s (waitTask (.clears .busy) 0 0) 1 :=
  ⟨rfl, rfl, by show stuck.par.timeoutBudget ≤ stuck.nowAt 1 - 0; decide⟩

/-- V-G-2 beside V-G-9, and a wait that ends at its second poll, in k = 2 steps; the offset is
0xFFFFFC00, and V-G-9's report carries the shifted `t0`. -/
theorem witness_ClockOffsetInvariance :
    let s (i : Instr) (l : List Word32) : State :=
      { start l [true, true] [] [] [] [] with program := [.packet (encode i)] }
    let chk := s .checkNotBusy
    let wt := s (waitInstr (.clears .busy))
    (chk [1000, 1400]).task = none ∧ (chk [1000, 1400]).irqs = [] ∧
      (∀ j ≤ 1, (chk [0xFFFFFFE8, 0x00000178]).nowAt j = (chk [1000, 1400]).nowAt j + 0xFFFFFC00) ∧
      nextMeets (fun u => u.lastResult == some (.outcome .timeout))
        (Host.Core.run Sys2Proof.core 1 (chk [1000, 1400])) = true ∧
      nextMeets (fun u => u.trace.contains (.report ⟨.guardClearTimeout, 1, 0xFFFFFFE8, 400⟩))
        (Host.Core.run Sys2Proof.core 1 (chk [0xFFFFFFE8, 0x00000178])) = true ∧
      (wt [1000, 1005, 1400]).task = none ∧ (wt [1000, 1005, 1400]).irqs = [] ∧
      (∀ j ≤ 2, (wt [0xFFFFFFE8, 0xFFFFFFED, 0x00000178]).nowAt j =
        (wt [1000, 1005, 1400]).nowAt j + 0xFFFFFC00) ∧
      nextMeets (fun u => u.lastResult == some (.outcome .timeout))
        (Host.Core.run Sys2Proof.core 2 (wt [1000, 1005, 1400])) = true := by decide

/-- A busy bus at the first sample, and the environment that leaves that sample out, under the null
clock. -/
theorem witness_PollingLongerMakesNoDifference :
    let s : State :=
      { start [] [true] [] [] [] [] with
        par := { Params.default with clockNull := true }
        program := [.packet (.prim 0x40 (.cond .busy))] }
    ∃ u v t, step s = .next u ∧ u.task = some t ∧ step u = .next v ∧
      lastPollLeftOut t.wait s u { s with env := { s.env with busy := ⟨[], 1⟩ } } := by
  refine ⟨_, _, _, rfl, rfl, rfl, fun _ => rfl, fun j => ?_, fun _ => rfl, fun _ => rfl,
    fun _ => rfl, fun _ => rfl⟩
  show Config.freeBusy (1 + j) = Config.freeBusy (0 + (j + 1))
  rw [Nat.add_comm 1 j, Nat.zero_add]

/-- The last byte of the buffer. -/
theorem witness_TxrdyPushesAByte :
    let s := armed .writing 3 2 0x03 easy
    s.entryReady = true ∧ s.ctx.direction = .writing ∧ 0 < s.ctx.remaining ∧
      bufAddr s.ctx.buffer s.ctx.position = some 102 := by decide

theorem witness_TxrdyFinalizes :
    let s := armed .writing 3 3 0x03 easy
    s.entryReady = true ∧ s.ctx.direction = .writing ∧ s.ctx.remaining = 0 ∧
      has (s.ctlAt 0) 0x4 = false := by decide

/-- Two bytes remain, with STOP. -/
theorem witness_RxrdyFillsAByte :
    let s := armed .reading 3 1 0x03 easy
    s.entryReady = true ∧ s.ctx.direction = .reading ∧ 1 < s.ctx.remaining ∧
      bufAddr s.ctx.buffer s.ctx.position = some 101 := by decide

theorem witness_RxrdyFinalizes :
    let s := armed .reading 3 2 0x03 easy
    s.entryReady = true ∧ s.ctx.direction = .reading ∧ s.ctx.remaining = 1 ∧
      bufAddr s.ctx.buffer s.ctx.position = some 102 ∧ has (s.ctlAt 0) 0x4 = false := by decide

/-- Either direction. -/
theorem witness_FinalizeStopTimeout :
    let s := armed .writing 3 3 0x03 stuck
    let t := armed .reading 3 2 0x03 stuck
    s.entryReady = true ∧ t.entryReady = true ∧ has s.ctx.flags 0x02 = true ∧
      has (s.ctlAt 0) 0x4 = true ∧ s.par.timeoutBudget ≤ s.nowAt 1 - s.nowAt 0 ∧
      s.ctx.remaining = 0 ∧ t.ctx.remaining = 1 ∧
      bufAddr t.ctx.buffer t.ctx.position = some 102 := by decide

/-- Both clauses. -/
theorem witness_NakAborts :
    let s := armed .writing 3 1 0x03 stuck
    let t := armed .reading 3 0 0x03 easy
    s.entryReady = true ∧ s.ctx.direction ≠ .idle ∧ has (s.ctlAt 0) 0x4 = true ∧
      s.par.timeoutBudget ≤ s.nowAt 1 - s.nowAt 0 ∧ t.entryReady = true ∧
      t.ctx.direction ≠ .idle ∧ has (t.ctlAt 0) 0x4 = false := by decide

/-- Each clause; an RX-ready entry also in its direction with nothing remaining. -/
theorem witness_InconsistentEntryEscalates :
    let s := armed .reading 3 3 0x03 easy
    easy.entryReady = true ∧ easy.ctx.direction = .idle ∧ easy.ctx.direction ≠ .writing ∧
      s.entryReady = true ∧ s.ctx.remaining = 0 := by decide

theorem witness_VecNoneChangesNothing :
    easy.entryReady = true := by decide

theorem witness_UnexpectedVectorEscalates :
    easy.entryReady = true ∧ 4 ≤ (0x04 : Byte).toNat ∧ 4 ≤ (0xFF : Byte).toNat := by decide

theorem witness_RegPrefixResult :
    easy.engineFree = true ∧ prefixReady easy := by decide

theorem witness_PresentResult :
    easy.callerReady = true ∧ easy.busyAt 0 = false ∧ has (easy.ctlAt 0) 0x4 = false := by decide

theorem witness_Read8Result :
    easy.callerReady = true ∧ prefixReady easy ∧ has (easy.ctlAt 0) 0x2 = false ∧
      flagReady .rx (easy.flagsAt 2) := by decide

theorem witness_Read16Result :
    easy.callerReady = true ∧ prefixReady easy ∧ has (easy.ctlAt 0) 0x2 = false ∧
      flagReady .rx (easy.flagsAt 2) ∧ flagReady .rx (easy.flagsAt 3) := by decide

/-- Two bytes and three, the whole buffer. -/
theorem witness_ReadblockResult :
    easy.callerReady = true ∧ 2 ≤ (2 : BitVec 16).toNat ∧ (3 : BitVec 16).toNat ≤ 3 ∧
      prefixReady easy ∧ (∀ i < 3, flagReady .rx (easy.flagsAt (2 + i))) ∧
      has (easy.ctlAt 0) 0x4 = false := by decide

theorem witness_Write8Result :
    easy.callerReady = true ∧ prefixReady easy ∧ flagReady .tx (easy.flagsAt 2) ∧
      has (easy.ctlAt 0) 0x4 = false := by decide

theorem witness_Write16Result :
    easy.callerReady = true ∧ prefixReady easy ∧ flagReady .tx (easy.flagsAt 2) ∧
      flagReady .tx (easy.flagsAt 3) ∧ has (easy.ctlAt 0) 0x4 = false := by decide

theorem witness_WriteblockResult :
    easy.callerReady = true ∧ 0 < (1 : BitVec 16).toNat ∧ (3 : BitVec 16).toNat ≤ 3 ∧
      prefixReady easy ∧ (∀ i < 3, flagReady .tx (easy.flagsAt (2 + i))) ∧
      has (easy.ctlAt 0) 0x4 = false := by decide

theorem witness_OneByteBlocks :
    easy.callerReady = true ∧ easy.irqs = [] ∧ 1 ≤ 1 ∧ 1 ≤ easy.par.lenBits := by decide

/-- The busy bus, and the NAK on the address; then, of the clause on every wait: a READ8 in its first wait,
one whose second TX wait times out at its second poll, and a PRESENT whose STOP wait times out. -/
theorem witness_RegisterFailuresPropagate :
    let t := start [0, 1] [false] [] [5] [] []
    let late := start [0, 0, 0, 5, 400] [false] [] [1, 0, 0] [] []
    let stop := start [0, 0, 400] [false] [4] [] [] []
    (stuck.callerReady = true ∧ stuck.busyAt 0 = true ∧
      stuck.par.timeoutBudget ≤ stuck.nowAt 1 - stuck.nowAt 0 ∧ t.callerReady = true ∧
      t.busyAt 0 = false ∧ has (t.flagsAt 0) 0x4 = true ∧ 0 < (3 : BitVec 16).toNat ∧
      (3 : BitVec 16).toNat ≤ bufCap bufB) ∧
    (isRegisterOp (.read8 0x40 0x10) = true ∧ stalled.callerReady = true ∧
      ∃ u, exec (.read8 0x40 0x10) stalled = .next u ∧ inProgressFor 1 u ∧
        nextMeets (fun v => v.task.isSome) (Host.Core.run Sys2Proof.core 1 u) = true) ∧
    (late.callerReady = true ∧
      ∃ u, exec (.read8 0x40 0x10) late = .next u ∧ inProgressFor 1 u ∧
        nextMeets (fun v => v.task == none && v.lastResult == some (.outcome .timeout))
          (Host.Core.run Sys2Proof.core 1 u) = true) ∧
    (isRegisterOp (.present 0x3C) = true ∧ stop.callerReady = true ∧
      nextMeets (fun v => v.task == none && v.lastResult == some (.present false))
        (exec (.present 0x3C) stop) = true) := by
  refine ⟨by decide, ⟨rfl, by decide, _, rfl, fun j hj => ?_, rfl⟩,
    ⟨by decide, _, rfl, fun j hj => ?_, rfl⟩, by decide⟩ <;>
  · obtain rfl : j = 0 := by omega
    exact ⟨_, rfl, fun h => nomatch h⟩

/-- A READ8 that polls twice. -/
theorem witness_RegisterOpsLeaveTheContext :
    isRegisterOp (.read8 0x40 0x10) = true ∧ stalled.callerReady = true ∧
      (∃ u, exec (.read8 0x40 0x10) stalled = .next u ∧ inProgressFor 1 u ∧
        goesOn (Host.Core.run Sys2Proof.core 1 u) = true) ∧
      (armed .reading 3 0 0x03 easy).callerReady = false := by
  refine ⟨rfl, by decide, ⟨_, rfl, fun j hj => ?_, rfl⟩, by decide⟩
  obtain rfl : j = 0 := by omega
  exact ⟨_, rfl, fun h => nomatch h⟩

theorem witness_EscalateEffect :
    easy.engineFree = true := by decide

theorem witness_SinkOnlyRecords :
    hideSink easy = hideSink { easy with par := { easy.par with sinkNull := true } } ∧
      goesOn (step { easy with program := [.packet (.vec 7)] }) = true := by decide

theorem witness_InitEffect :
    State.reset.engineFree = true := by decide

/-- A state that meets the invariant, in flight. -/
theorem armed_inv (d : Direction) (len pos : Nat) (s : State) (_hd : d ≠ .idle) (hlen : len ≤ 3)
    (h0 : 0 < len) (hpos : pos ≤ len) (hs : s = easy ∨ s = stuck) : Inv (armed d len pos 0x03 s) := by
  have hpar : s.par = Params.default := by rcases hs with rfl | rfl <;> rfl
  refine ⟨?_, ?_, .inr ⟨?_, h0, ?_, hlen⟩, .inr rfl, ?_, ?_⟩
  · show s.par.wf; rw [hpar]; decide
  · show s.mem.wf; rcases hs with rfl | rfl <;> decide
  · show pos + (len - pos) = len; omega
  · show len < 2 ^ s.par.lenBits; rw [hpar]; show len < 256; omega
  · show s.execCtx = .interrupt ↔ ∃ t, s.task = some t ∧ t.frame.agent = .isr
    rcases hs with rfl | rfl <;> simp [easy, stuck, start, State.reset]
  · intro t ht; rcases hs with rfl | rfl <;> cases ht

/-- In flight, and the step answers. -/
theorem witness_StepKeepsInvariant :
    let s := armed .reading 3 1 0x03 easy
    Inv s ∧ goesOn (step { s with irqs := [.vector 2] }) = true :=
  ⟨armed_inv _ _ _ _ (by decide) (by decide) (by decide) (by decide) (.inl rfl), rfl⟩

theorem witness_NoBufferIndexFault : Inv (armed .writing 3 2 0x03 easy) :=
  armed_inv _ _ _ _ (by decide) (by decide) (by decide) (by decide) (.inl rfl)

theorem witness_TraceOnlyGrows :
    goesOn (step { easy with program := [.packet (.vec 7)] }) = true := rfl

/-- A receiving entry, a block read, and an operation in a wait. -/
theorem witness_MemoryFrame :
    goesOn (exec .vecRxrdy (armed .reading 3 1 0x03 easy)) = true ∧
      goesOn (exec (.readblock 0x40 0x10 2 bufB) easy) = true ∧
      goesOn (step (waiting (.flag .rx) easy)) = true := ⟨rfl, rfl, rfl⟩

theorem witness_ContextWriters :
    goesOn (exec .vecTxrdy (armed .writing 3 1 0x03 easy)) = true ∧
      goesOn (exec (.present 0x3C) easy) = true ∧
      goesOn (step (waiting (.flag .rx) easy)) = true := ⟨rfl, rfl, rfl⟩

/-- Idle, with the script of `easy`: the invariant. -/
theorem easy_inv (p : List Item) : Inv { easy with program := p } := by
  refine ⟨by show Params.default.wf; decide, by show Memory.wf easy.mem; decide, .inl rfl, .inl rfl,
    ?_, ?_⟩
  · simp [easy, start, State.reset]
  · intro t ht; cases ht

/-- The direction changes: by READ, by WRITE, by an entry. -/
theorem witness_DirectionTransitions :
    Inv { easy with program := [.packet (encode (.read 0 0x01 0x50 3 bufB))] } ∧
      nextMeets (fun u => u.ctx.direction == .reading)
        (step { easy with program := [.packet (encode (.read 0 0x01 0x50 3 bufB))] }) = true ∧
      nextMeets (fun u => u.ctx.direction == .writing)
        (step { easy with program := [.packet (encode (.write 0 0x01 0x50 3 bufB))] }) = true ∧
      nextMeets (fun u => u.ctx.direction == .idle)
        (step { armed .reading 3 2 0x03 easy with irqs := [.vector 2] }) = true :=
  ⟨easy_inv _, rfl, rfl, rfl⟩

/-- A result that is Accepted, and one that is not. -/
theorem witness_ResultTellsWhetherArmed :
    Inv { easy with program := [.packet (encode (.read 0 0x01 0x50 3 bufB))] } ∧
      nextMeets (fun u => u.trace.contains (.result (.outcome .accepted)))
        (step { easy with program := [.packet (encode (.read 0 0x01 0x50 3 bufB))] }) = true ∧
      nextMeets (fun u => u.trace.contains (.result (.outcome .protocolViolation)))
        (step { easy with program := [.packet (encode (.read 0 0x02 0x50 3 bufB))] }) = true ∧
      easy.regs.ie = 0 ∧ easy.task = none :=
  ⟨easy_inv _, by decide, by decide, rfl, rfl⟩

/-- A completion in the step of the last entry. -/
theorem witness_CompletionContent :
    Inv (armed .reading 3 2 0x03 easy) ∧
      nextMeets (fun u => u.trace.any Event.isDone)
        (step { armed .reading 3 2 0x03 easy with irqs := [.vector 2] }) = true :=
  ⟨armed_inv _ _ _ _ (by decide) (by decide) (by decide) (by decide) (.inl rfl), by decide⟩

/-- Armed, from the middle of a transfer, with the entries that end it. -/
theorem witness_WriteTransferCompletes :
    let s := armed .writing 3 1 0x03 easy
    Inv s ∧ s.task = none ∧ s.ctx.direction = .writing ∧ s.regs.ie ≠ 0 ∧
      s.ctx.buffer = .region 100 3 ∧ s.program = [] ∧ s.ctx.remaining = 2 ∧
      has (s.ctlAt 0) 0x4 = false :=
  ⟨armed_inv _ _ _ _ (by decide) (by decide) (by decide) (by decide) (.inl rfl), by decide⟩

theorem witness_ReadTransferCompletes :
    let s := armed .reading 3 0 0x03 easy
    Inv s ∧ s.task = none ∧ s.ctx.direction = .reading ∧ s.regs.ie ≠ 0 ∧
      s.ctx.buffer = .region 100 3 ∧ s.program = [] ∧ 0 < s.ctx.remaining ∧
      has (s.ctlAt 0) 0x4 = false :=
  ⟨armed_inv _ _ _ _ (by decide) (by decide) (by decide) (by decide) (.inl rfl), by decide⟩

end Sys2Proof.Tests
end

section
/-! What presentations decode to, and the step that runs one. -/

namespace Sys2Proof

/-- A descriptor that decodes has passed every test of R84, and makes the operation of its row. -/
theorem decodeDesc_ok {n : Nat} {w : BitVec 64} {buf : Option BufRef} {i : Instr}
    (h : decodeDesc n w buf = .ok i) :
    ∃ u make, opRow (fieldsOf w).op = some (u, make) ∧ u.badField (fieldsOf w) = false ∧
      u.badFlags (fieldsOf w) = false ∧ u.badLength n (fieldsOf w) = false ∧
      buf.isSome = u.buf ∧ i = make (fieldsOf w) (buf.getD .null) := by
  simp only [decodeDesc] at h
  split at h
  · cases h
  · rename_i u make hrow
    simp only [ite_eq_iff, reduceCtorEq, and_false, false_or, Except.ok.injEq, Bool.not_eq_true,
      bne_iff_ne, ne_eq, not_not] at h
    obtain ⟨hfield, hflags, hlength, hbuf, rfl⟩ := h
    exact ⟨u, make, hrow, hfield, hflags, hlength, hbuf, rfl⟩

/-- The operation of a row is one the Caller issues, and is well formed when the row's flags and
count tests pass (R81, R82). -/
theorem opRow_make {op : Byte} {u : FieldUse} {make : Fields → BufRef → Instr}
    (h : opRow op = some (u, make)) (n : Nat) (f : Fields) (b : BufRef) :
    (make f b).isCaller = true ∧
      (u.badFlags f = false → u.badLength n f = false → (make f b).wf n = true) := by
  simp only [opRow] at h
  split at h <;> cases h <;>
    simp_all [Instr.isCaller, Instr.wf, FieldUse.badFlags, FieldUse.badLength, flagsLegal]

/-- What a vector decodes to is an entry, well formed (R89). -/
theorem decodeVector_entry (v : Byte) (n : Nat) :
    (decodeVector v).isCaller = false ∧ (decodeVector v).wf n = true := by
  simp only [decodeVector]
  split
  · exact ⟨rfl, rfl⟩
  · exact ⟨rfl, rfl⟩
  · exact ⟨rfl, rfl⟩
  · exact ⟨rfl, rfl⟩
  · refine ⟨rfl, ?_⟩
    simp only [Instr.wf, decide_eq_true_eq, otherVectorLegal]
    grind

/-- What an internal code decodes to is no Caller operation, and has no operand to be ill formed
(R90). -/
theorem decodePrim_ok {c : Byte} {args : PrimArgs} {i : Instr} (h : decodePrim c args = .ok i)
    (n : Nat) : i.isCaller = false ∧ i.wf n = true := by
  simp only [decodePrim] at h
  split at h
  case h_7 => split at h <;> cases h
  all_goals cases h; exact ⟨rfl, rfl⟩

/-- A presentation decodes to well-formed operations only, and a descriptor, alone, to an operation
of the Caller (R80 to R90). -/
theorem decode_ok {n : Nat} {p : Packet} {i : Instr} (h : decode n p = .ok i) :
    i.isCaller = Machine.Packet.byCaller p ∧ i.wf n = true := by
  cases p with
  | desc w buf =>
    obtain ⟨u, make, hrow, -, hflags, hlength, -, rfl⟩ := decodeDesc_ok h
    obtain ⟨hcaller, hwf⟩ := opRow_make hrow n (fieldsOf w) (buf.getD .null)
    exact ⟨hcaller, hwf hflags hlength⟩
  | vec v => cases h; exact decodeVector_entry v n
  | prim c args => exact decodePrim_ok h n

end Sys2Proof

namespace Sys2Proof.Machine

theorem task_of_engineFree {s : State} (h : s.engineFree = true) : s.task = none := by
  simpa [State.engineFree] using h

/-- An agent may move only while no operation is in progress (R110, R207). -/
theorem task_of_ready {s : State} {i : Instr} (h : s.ready i = true) : s.task = none := by
  refine task_of_engineFree ?_
  simp only [State.ready, State.callerReady, State.entryReady] at h
  split_ifs at h
  · obtain ⟨⟨hfree, -⟩, -⟩ := by simpa only [Bool.and_eq_true] using h
    exact hfree
  · obtain ⟨⟨hfree, -⟩, -⟩ := by simpa only [Bool.and_eq_true] using h
    exact hfree
  · exact h

/-- Settles O7: the packet decodes, so a descriptor gives a Caller operation, and the agent that may
move is the one `fetchItem` asks for. -/
theorem stepRunsThePresentedOperation : Obligations.StepRunsThePresentedOperation := by
  intro s p rest i hprog hdec hready
  have hcaller : (Packet.byCaller p && !s.callerReady) = false := by
    rw [← (decode_ok hdec).1]
    cases hi : i.isCaller with
    | false => rfl
    | true => simpa [State.ready, hi] using hready
  simp [step, task_of_ready hready, fetch, hprog, fetchItem, hcaller, hdec, hready]

/-- Settles O49: R40's values are those `State.reset` is written with. -/
theorem resetState : Obligations.ResetState := by
  unfold Obligations.ResetState
  refine ⟨?_, ?_, ?_, ?_, ?_, ?_, ?_, ?_, ?_⟩ <;> rfl

/-- Settles O50: at reset the block is `Idle`, with nothing enabled, stored or in progress. -/
theorem invariantAtReset : Obligations.InvariantAtReset where
  par := by decide
  mem := by decide
  ctx := .inl rfl
  ie := .inl rfl
  execCtx := ⟨nofun, nofun⟩
  task := nofun

end Sys2Proof.Machine
end

section
/-! What one operation can do, said once per kind of operation: the eleven operations that run a
fixed list of primitives, the two commands, the two data handlers. -/

namespace Sys2Proof.Machine

/-! ### The operations that run a fixed list of primitives -/

/-- Who runs the operation, and the primitives it runs from the state it starts in, for the
operations whose primitives do not depend on that state. -/
def fixedScript : Instr → Option (Agent × List Prim)
  | .present addr => some (.caller, presentOps addr)
  | .read8 addr reg => some (.caller, read8Ops addr reg ++ [.retByte])
  | .read16 addr reg => some (.caller, read16Ops addr reg)
  | .readblock addr reg n buf => some (.caller, readblockOps addr reg n.toNat buf)
  | .write8 addr reg v => some (.caller, write8Ops addr reg v)
  | .write16 addr reg v => some (.caller, write16Ops addr reg v)
  | .writeblock addr reg n buf => some (.caller, writeblockOps addr reg n.toNat buf)
  | .waitClears c => some (.primitive, [.wait (.clears c) .ret, .ret .success])
  | .waitFlag m => some (.primitive, [.wait (.flag m) .ret, .ret .success])
  | .checkNotBusy => some (.primitive, checkNotBusyOps .ret ++ [.ret .success])
  | .regPrefix addr reg => some (.primitive, regPrefixOps addr reg ++ [.ret .success])
  | .read .. | .write .. | .vecNone | .vecNak | .vecRxrdy | .vecTxrdy | .vecOther .. => none
  | .escalate .. | .init => none

/-- A count that has passed the tests of R110 and R178 is positive and within the buffer. -/
theorem transfer_bounds {n : Nat} {buf : BufRef} (hfits : fitsCapacity n buf = true)
    (hbad : badArgument n buf = false) : 0 < n ∧ n ≤ bufCap buf := by
  simp only [badArgument, Bool.or_eq_false_iff, beq_eq_false_iff_ne] at hbad
  simp only [fitsCapacity, hbad.2, Bool.false_or, decide_eq_true_eq] at hfits
  exact ⟨Nat.pos_of_ne_zero hbad.1, hfits⟩

/-- An index below the capacity names a byte (R61). -/
theorem bufAddr_isSome {buf : BufRef} {i : Nat} (h : i < bufCap buf) :
    (bufAddr buf i).isSome = true := by
  cases buf with
  | null => exact absurd h (Nat.not_lt_zero i)
  | region base cap => simp [bufAddr, show i < cap from h]

theorem inBounds_regPrefixOps (addr reg : Byte) :
    (regPrefixOps addr reg).all Prim.inBounds = true := rfl

/-- READBLOCK stores within its buffer (R174). -/
theorem inBounds_readblockOps (addr reg : Byte) {n : Nat} {buf : BufRef} (h0 : 0 < n)
    (h : n ≤ bufCap buf) : (readblockOps addr reg n buf).all Prim.inBounds = true := by
  simp only [readblockOps]
  split
  · have h0 := bufAddr_isSome (Nat.lt_of_lt_of_le h0 h)
    simp [read8Ops, readTurnOps, inBounds_regPrefixOps, Prim.inBounds, h0]
  · have hturn : ∀ i < n, (readByteOps n buf i).all Prim.inBounds = true := by
      intro i hi
      have hsome := bufAddr_isSome (Nat.lt_of_lt_of_le hi h)
      cases hlast : (n - 1 - i == 1) <;> simp [readByteOps, hlast, Prim.inBounds, hsome]
    simpa [readTurnOps, inBounds_regPrefixOps, Prim.inBounds, List.all_flatMap] using hturn

/-- WRITEBLOCK loads within its buffer (R177). -/
theorem inBounds_writeblockOps (addr reg : Byte) {n : Nat} {buf : BufRef} (h : n ≤ bufCap buf) :
    (writeblockOps addr reg n buf).all Prim.inBounds = true := by
  have hturn : ∀ i < n, (writeByteOps buf i).all Prim.inBounds = true := fun i hi => by
    simp [writeByteOps, Prim.inBounds, bufAddr_isSome (Nat.lt_of_lt_of_le hi h)]
  simpa [writeblockOps, writeEndOps, inBounds_regPrefixOps, Prim.inBounds, List.all_flatMap]
    using hturn

/-- What a transfer of the Caller can do: it holds, returns InvalidArgument (R111, R112, R178), or
runs with a count that fits its buffer (R110). -/
theorem asCaller_transfer_next {s u body : State} {n : Nat} {buf : BufRef}
    (e : asCaller s (fitsCapacity n buf)
      (if badArgument n buf then s.returnResult (.outcome .invalidArgument) else body) = .next u) :
    u = s ∨ (s.callerReady = true ∧ u = s.returnResult (.outcome .invalidArgument)) ∨
      (s.callerReady = true ∧ 0 < n ∧ n ≤ bufCap buf ∧ u = body) := by
  rcases asCaller_next e with ⟨hready, hfits, rfl⟩ | ⟨-, rfl⟩
  · cases hbad : badArgument n buf with
    | true => exact .inr (.inl ⟨hready, rfl⟩)
    | false =>
      obtain ⟨h0, hcap⟩ := transfer_bounds hfits hbad
      exact .inr (.inr ⟨hready, h0, hcap, rfl⟩)
  · exact .inl rfl

/-- What an operation `i` that runs the list `ps` for agent `a` can do: it holds, returns
InvalidArgument, or runs the list, within its buffer. -/
def ScriptOutcome (i : Instr) (a : Agent) (ps : List Prim) (s u : State) : Prop :=
  u = s ∨ (s.callerReady = true ∧ u = s.returnResult (.outcome .invalidArgument)) ∨
    (s.ready i = true ∧ ps.all Prim.inBounds = true ∧ u = runOps ps (.new a .success) s)

section

variable {i : Instr} {ps : List Prim} {s u : State}

theorem ready_of_callerReady (hi : i.isCaller = true) (h : s.callerReady = true) :
    s.ready i = true := by
  simpa [State.ready, hi] using h

theorem scriptOutcome_of_caller (hi : i.isCaller = true) (hin : ps.all Prim.inBounds = true)
    (e : asCaller s true (runOps ps callerFrame s) = .next u) : ScriptOutcome i .caller ps s u := by
  rcases asCaller_next e with ⟨hready, -, rfl⟩ | ⟨-, rfl⟩
  · exact .inr (.inr ⟨ready_of_callerReady hi hready, hin, rfl⟩)
  · exact .inl rfl

theorem scriptOutcome_of_transfer {n : Nat} {buf : BufRef} (hi : i.isCaller = true)
    (hin : 0 < n → n ≤ bufCap buf → ps.all Prim.inBounds = true)
    (e : asCaller s (fitsCapacity n buf)
      (if badArgument n buf then s.returnResult (.outcome .invalidArgument)
        else runOps ps callerFrame s) = .next u) : ScriptOutcome i .caller ps s u := by
  rcases asCaller_transfer_next e with rfl | hbad | ⟨hready, h0, hcap, rfl⟩
  · exact .inl rfl
  · exact .inr (.inl hbad)
  · exact .inr (.inr ⟨ready_of_callerReady hi hready, hin h0 hcap, rfl⟩)

theorem scriptOutcome_of_primitive (hc : i.isCaller = false) (he : i.isEntry = false)
    (hin : ps.all Prim.inBounds = true) (e : asPrimitive s (runOps ps primFrame s) = .next u) :
    ScriptOutcome i .primitive ps s u := by
  rcases asPrimitive_next e with ⟨hfree, rfl⟩ | ⟨-, rfl⟩
  · exact .inr (.inr ⟨by simpa [State.ready, hc, he] using hfree, hin, rfl⟩)
  · exact .inl rfl

end

/-- An operation with a fixed script does nothing but what `ScriptOutcome` says. -/
theorem exec_fixedScript_next {i : Instr} {a : Agent} {ps : List Prim} {s u : State}
    (hi : fixedScript i = some (a, ps)) (e : exec i s = .next u) : ScriptOutcome i a ps s u := by
  cases i with
  | present | read8 | read16 | write8 | write16 =>
    cases hi; exact scriptOutcome_of_caller rfl rfl e
  | readblock => cases hi; exact scriptOutcome_of_transfer rfl (inBounds_readblockOps _ _) e
  | writeblock =>
    cases hi; exact scriptOutcome_of_transfer rfl (fun _ => inBounds_writeblockOps _ _) e
  | waitClears | waitFlag | checkNotBusy | regPrefix =>
    cases hi; exact scriptOutcome_of_primitive rfl rfl rfl e
  | _ => cases hi

/-! ### The data handlers -/

/-- What VEC_TXRDY can do inside its entry (R150): escalate in the wrong direction, push a byte, or
finalize. -/
theorem isrTxrdy_next {s u : State} (e : isrTxrdy s = .next u) :
    (s.ctx.direction ≠ .writing ∧ u = inconsistent 0x03 s) ∨
      (∃ a, s.ctx.direction = .writing ∧ 0 < s.ctx.remaining ∧
        bufAddr s.ctx.buffer s.ctx.position = some a ∧
        u = ((s.pWrTx (s.mem.read a)).moveByte).leaveIsr) ∨
      (s.ctx.direction = .writing ∧ s.ctx.remaining = 0 ∧
        u = runOps (txFinalizeOps s.par s.ctx.flags) (isrFrame .success) s) := by
  simp only [isrTxrdy] at e
  split at e
  · cases e; exact .inl ⟨‹_›, rfl⟩
  · have hdir : s.ctx.direction = .writing := not_not.1 ‹_›
    split at e
    · split at e
      · cases e
      · cases e; exact .inr (.inl ⟨_, hdir, ‹_›, ‹_›, rfl⟩)
    · cases e; exact .inr (.inr ⟨hdir, by omega, rfl⟩)

/-- What VEC_RXRDY can do inside its entry (R151): escalate in the wrong direction or with nothing
left, read the last byte and finalize, or read a byte. -/
theorem isrRxrdy_next {s u : State} (e : isrRxrdy s = .next u) :
    ((s.ctx.direction ≠ .reading ∨ s.ctx.remaining = 0) ∧ u = inconsistent 0x02 s) ∨
      (∃ a, s.ctx.direction = .reading ∧ bufAddr s.ctx.buffer s.ctx.position = some a ∧
        ((s.ctx.remaining = 1 ∧
            u = runOps (rxFinalizeOps s.par s.ctx.flags) (isrFrame .success) (rxByte a s)) ∨
          (1 < s.ctx.remaining ∧ u = (rxByte a s).leaveIsr))) := by
  simp only [isrRxrdy] at e
  split at e
  · cases e; exact .inl ⟨‹_›, rfl⟩
  · obtain ⟨hdir, hrem⟩ := not_or.1 ‹_›
    split at e
    · cases e
    · refine .inr ⟨_, not_not.1 hdir, ‹_›, ?_⟩
      split at e
      · cases e; exact .inl ⟨by omega, rfl⟩
      · cases e; exact .inr ⟨by omega, rfl⟩

end Sys2Proof.Machine
end

section
/-! Every step keeps the invariant: the scripts of all operations are `opsOk`, the data handlers
keep the counts, and `Running.runOps` does the rest. -/

namespace Sys2Proof.Machine

/-! ### The scripts are `opsOk` -/

/-- The primitive returns a value other than `Accepted`. -/
def Prim.returns : Prim → Bool
  | .ret o => o != .accepted
  | .retByte | .retHalf | .retPresent => true
  | _ => false

/-- The primitive is one of a blocking operation: it leaves the transfer context and the enables
alone (a reset clears them), and a wait that fails ends the operation (43_register_protocol.md). -/
def Prim.blocking : Prim → Bool
  | .reset | .unreset | .setAddr _ | .setCtl _ | .clrCtl _ => true
  | .wrTx _ | .wrTxFrom _ _ | .rdRx | .store _ _ => true
  | .wait _ f => !f.goesOn && f.honest
  | p => p.returns

/-- A blocking list that returns is `opsOk`, for the Caller with nothing enabled. -/
theorem opsOk_of_blocking {a : Agent} (ha : a ≠ .isr) (d : Direction) (ps : List Prim)
    (hps : ps.all Prim.blocking = true) (hret : ps.any Prim.returns = true) :
    ∀ ie : Bits3, (a = .caller → ie = 0) → opsOk a d ie ps = true := by
  induction ps with
  | nil => simp at hret
  | cons p ps ih =>
    intro ie hie
    simp only [List.all_cons, Bool.and_eq_true] at hps
    have rest : p.returns = false → ∀ ie : Bits3, (a = .caller → ie = 0) →
        opsOk a d ie ps = true :=
      fun hp => ih hps.2 (by simpa [hp] using hret)
    have back : a = .primitive ∨ (a = .caller ∧ ie = 0) := by
      cases a <;> simp_all
    cases p with
    | reset => exact rest rfl 0 fun _ => rfl
    | unreset | setAddr | setCtl | clrCtl | wrTx | wrTxFrom | rdRx | store => exact rest rfl ie hie
    | wait w f =>
      obtain ⟨hstop, hhonest⟩ : f.goesOn = false ∧ f.honest = true := by
        simpa [Prim.blocking] using hps.1
      have hcaller : a ≠ .caller ∨ ie = 0 := by tauto
      simpa [opsOk, rest rfl ie hie, hstop, hhonest, ha] using hcaller
    | ret o =>
      have ho : o ≠ .accepted := by simpa [Prim.blocking, Prim.returns] using hps.1
      rcases back with rfl | ⟨rfl, rfl⟩ <;> simp [opsOk, ho]
    | retByte | retHalf | retPresent => rcases back with rfl | ⟨rfl, rfl⟩ <;> simp [opsOk]
    | _ => simp [Prim.blocking, Prim.returns] at hps

theorem blocking_regPrefixOps (addr reg : Byte) :
    (regPrefixOps addr reg).all Prim.blocking = true := rfl

theorem blocking_readTurnOps (addr reg : Byte) :
    (readTurnOps addr reg).all Prim.blocking = true := rfl

theorem blocking_readblockOps (addr reg : Byte) (n : Nat) (buf : BufRef) :
    (readblockOps addr reg n buf).all Prim.blocking = true ∧
      (readblockOps addr reg n buf).any Prim.returns = true := by
  simp only [readblockOps]
  split
  · exact ⟨rfl, rfl⟩
  · have hturn : ∀ i, (readByteOps n buf i).all Prim.blocking = true := fun i => by
      simp only [readByteOps]; split <;> rfl
    have hend : [Prim.wait (.clears .stop) .ret, .ret .success].all Prim.blocking = true := rfl
    refine ⟨?_, by simp [Prim.returns]⟩
    simp only [List.all_append, List.all_flatMap, blocking_readTurnOps, hturn, hend, Bool.and_true,
      Bool.true_and, List.all_eq_true, implies_true]

theorem blocking_writeblockOps (addr reg : Byte) (n : Nat) (buf : BufRef) :
    (writeblockOps addr reg n buf).all Prim.blocking = true ∧
      (writeblockOps addr reg n buf).any Prim.returns = true := by
  have hturn : ∀ i, (writeByteOps buf i).all Prim.blocking = true := fun _ => rfl
  have hend : writeEndOps.all Prim.blocking = true := rfl
  refine ⟨?_, by simp [writeblockOps, writeEndOps, Prim.returns]⟩
  simp only [writeblockOps, List.all_append, List.all_flatMap, blocking_regPrefixOps, hturn, hend,
    Bool.and_true, Bool.true_and, List.all_eq_true, implies_true]

/-- The fixed scripts are blocking lists, of the Caller or of a primitive presented alone. -/
theorem fixedScript_blocking {i : Instr} {a : Agent} {ps : List Prim}
    (hi : fixedScript i = some (a, ps)) :
    a ≠ .isr ∧ ps.all Prim.blocking = true ∧ ps.any Prim.returns = true := by
  cases i with
  | readblock addr reg n buf => cases hi; exact ⟨by decide, blocking_readblockOps _ _ _ _⟩
  | writeblock addr reg n buf => cases hi; exact ⟨by decide, blocking_writeblockOps _ _ _ _⟩
  | present | read8 | read16 | write8 | write16 => cases hi; exact ⟨by decide, rfl, rfl⟩
  | waitClears | waitFlag | checkNotBusy | regPrefix => cases hi; exact ⟨by decide, rfl, rfl⟩
  | _ => cases hi

/-- The Caller's fixed scripts are those of its operations (R81). -/
theorem isCaller_of_fixedScript {i : Instr} {ps : List Prim}
    (hi : fixedScript i = some (.caller, ps)) : i.isCaller = true := by
  cases i with
  | present | read8 | read16 | readblock | write8 | write16 | writeblock => rfl
  | _ => cases hi

/-- READ arms for `Reading`, and fails with nothing enabled (R111, R115). -/
theorem opsOk_readOps (started : Bool) (flags addr : Byte) (len : Nat) :
    opsOk .caller .reading 0 (readOps started flags addr len) = true := by
  simp only [readOps, readStartOps]
  split_ifs <;> rfl

/-- WRITE arms for `Writing`, and fails with nothing enabled (R112, R115). -/
theorem opsOk_writeOps (started : Bool) (flags addr : Byte) :
    opsOk .caller .writing 0 (writeOps started flags addr) = true := by
  simp only [writeOps, writeStartOps]
  split_ifs <;> rfl

/-- The commands touch no buffer. -/
theorem inBounds_readOps (started : Bool) (flags addr : Byte) (len : Nat) :
    (readOps started flags addr len).all Prim.inBounds = true := by
  simp only [readOps, readStartOps]
  split_ifs <;> rfl

theorem inBounds_writeOps (started : Bool) (flags addr : Byte) :
    (writeOps started flags addr).all Prim.inBounds = true := by
  simp only [writeOps, writeStartOps]
  split_ifs <;> rfl

/-- Clearing every enable leaves none. -/
theorem and_not_ifAll (ie : Bits3) : ie &&& ~~~ifAll = 0 := by
  revert ie; decide

/-- The finalize of a write disables, goes `Idle` and signals, whether the STOP wait fails or not
(R150). -/
theorem opsOk_txFinalizeOps (p : Params) (flags : Byte) (d : Direction) (ie : Bits3) :
    opsOk .isr d ie (txFinalizeOps p flags) = true := by
  simp only [txFinalizeOps, alwaysClearOps]
  split_ifs <;> simp [opsOk, and_not_ifAll, OnFail.goesOn, OnFail.honest]

/-- The finalize of a read disables first (R151). -/
theorem opsOk_rxFinalizeOps (p : Params) (flags : Byte) (d : Direction) (ie : Bits3) :
    opsOk .isr d ie (rxFinalizeOps p flags) = true := by
  simp only [rxFinalizeOps, alwaysClearOps]
  split_ifs <;> simp [opsOk, and_not_ifAll, OnFail.goesOn, OnFail.honest]

/-- The NAK handler escalates before it signals (R152). -/
theorem opsOk_nakOps (s : State) (d : Direction) (ie : Bits3) :
    opsOk .isr d ie (nakOps s) = true := by
  simp only [nakOps]
  split_ifs <;> simp [opsOk, OnFail.goesOn, OnFail.honest]

theorem inBounds_txFinalizeOps (p : Params) (flags : Byte) :
    (txFinalizeOps p flags).all Prim.inBounds = true := by
  simp only [txFinalizeOps, alwaysClearOps]
  split_ifs <;> rfl

theorem inBounds_rxFinalizeOps (p : Params) (flags : Byte) :
    (rxFinalizeOps p flags).all Prim.inBounds = true := by
  simp only [rxFinalizeOps, alwaysClearOps]
  split_ifs <;> rfl

theorem inBounds_nakOps (s : State) : (nakOps s).all Prim.inBounds = true := by
  simp only [nakOps]
  split_ifs <;> rfl

/-! ### From the invariant to a running operation, and back -/

/-- An operation that is no entry starts in the normal context. -/
theorem Inv.running {s : State} {a : Agent} (h : Inv s) (ht : s.task = none) (ha : a ≠ .isr) :
    Running a s :=
  ⟨h.par, h.mem, h.ctx, h.ie, by simp [h.execCtx, ht, ha], ht⟩

/-- An entry starts in the interrupt context (R207). -/
theorem Inv.running_enterIsr {s : State} (h : Inv s) (ht : s.task = none) (v : Byte) :
    Running .isr (s.enterIsr v) :=
  ⟨h.par, h.mem, h.ctx, h.ie, by simp, ht⟩

/-- A resumed operation runs in the context of its agent. -/
theorem Inv.running_resumed {s : State} {t : Task} (h : Inv s) (ht : s.task = some t) :
    Running t.frame.agent (s.setTask none) :=
  ⟨h.par, h.mem, h.ctx, h.ie, by simp [h.execCtx, ht], rfl⟩

/-- What is presented, raised or stored by the Caller is not part of the invariant. -/
theorem Inv.boundary {s : State} (h : Inv s) (is : List Item) (rs : List IrqRequest) {m : Memory}
    (hm : m.wf) : Inv { s with program := is, irqs := rs, mem := m } :=
  ⟨h.par, hm, h.ctx, h.ie, h.execCtx, h.task⟩

/-- The Caller moves with nothing enabled (R110). -/
theorem ie_of_callerReady {s : State} (h : s.callerReady = true) : s.regs.ie = 0 := by
  simp only [State.callerReady, Bool.and_eq_true] at h
  simpa [State.inFlight] using h.2

theorem Running.inconsistent {s : State} {a : Agent} (h : Running a s) (v : Byte) :
    Inv (inconsistent v s) :=
  (h.escalate _).inv_leaveIsr

theorem Running.wrTx {s : State} {a : Agent} (h : Running a s) (b : Byte) : Running a (s.pWrTx b) :=
  h.of_same rfl h.mem (fun _ => rfl) rfl rfl rfl

/-- A byte moved keeps the counts adding up, and `position` does not wrap (R24, R25, R29). -/
theorem Running.moveByte {s : State} {a : Agent} (h : Running a s)
    (hrem : s.ctx.direction = .idle ∨ 0 < s.ctx.remaining) : Running a s.moveByte := by
  refine ⟨h.par, h.mem, ?_, h.ie, h.execCtx, h.task⟩
  rcases h.ctx with hidle | ⟨hsum, hpos, hlen, hcap⟩
  · exact .inl hidle
  · rcases hrem with hidle | hrem
    · exact .inl hidle
    · refine .inr ⟨?_, hpos, hlen, hcap⟩
      have hwrap : countSucc s.par.lenBits s.ctx.position = s.ctx.position + 1 :=
        Nat.mod_eq_of_lt (by omega)
      simp only [State.moveByte_ctx, hwrap]
      omega

/-- The received byte is stored, and one byte has moved (R151). -/
theorem Running.rxByte {s : State} {a : Agent} (h : Running a s) (hrem : 0 < s.ctx.remaining)
    (x : Nat) : Running a (rxByte x s) := by
  simp only [Machine.rxByte]
  split
  all_goals
    refine Running.moveByte ?_ (.inr hrem)
    exact h.of_same rfl (Memory.write_wf _ _ _ h.mem) (fun _ => rfl) rfl rfl rfl

/-- A recorded command is active within its buffer (R111, R112). -/
theorem Running.recordCtx {s : State} {a : Agent} (h : Running a s) (hie : s.regs.ie = 0)
    (d : Direction) {buf : BufRef} {len : Nat} (flags addr : Byte) (h0 : 0 < len)
    (hlen : len < 2 ^ s.par.lenBits) (hcap : len ≤ bufCap buf) :
    Running a (s.recordCtx d buf len flags addr) :=
  ⟨h.par, h.mem, .inr ⟨Nat.zero_add _, h0, hlen, hcap⟩, .inl hie, h.execCtx, h.task⟩

/-! ### Every operation keeps the invariant -/

section

variable {s u : State} (h : Inv s)

include h

/-- A Caller operation that only returns a value keeps the invariant. -/
theorem Inv.returnResult (ht : s.task = none) (r : OpResult) : Inv (s.returnResult r) :=
  Running.finish (f := callerFrame) (h.running ht (by decide)) (by decide) r

theorem Inv.exec_fixedScript {i : Instr} {a : Agent} {ps : List Prim} (ht : s.task = none)
    (hi : fixedScript i = some (a, ps)) (e : exec i s = .next u) : Inv u := by
  obtain ⟨ha, hblock, hret⟩ := fixedScript_blocking hi
  rcases exec_fixedScript_next hi e with rfl | ⟨-, rfl⟩ | ⟨hready, hin, rfl⟩
  · exact h
  · exact h.returnResult ht _
  · have hie : a = .caller → s.regs.ie = 0 := by
      rintro rfl
      exact ie_of_callerReady (by simpa [State.ready, isCaller_of_fixedScript hi] using hready)
    exact Running.runOps ps (.new a .success) s (h.running ht ha)
      (opsOk_of_blocking ha _ ps hblock hret _ hie) hin rfl

/-- A command that records its transfer and runs an `opsOk` script keeps the invariant. -/
theorem Inv.runOps_recordCtx {d : Direction} {buf : BufRef} {len flags addr} {ps : List Prim}
    (ht : s.task = none) (hready : s.callerReady = true) (h0 : 0 < len)
    (hlen : len < 2 ^ s.par.lenBits) (hcap : len ≤ bufCap buf)
    (hok : opsOk .caller d 0 ps = true) (hin : ps.all Prim.inBounds = true) :
    Inv (runOps ps callerFrame (s.recordCtx d buf len flags addr)) := by
  have hie := ie_of_callerReady hready
  have hrun : Running .caller s := h.running ht (by decide)
  refine Running.runOps ps callerFrame _ (hrun.recordCtx hie d flags addr h0 hlen hcap) ?_ hin rfl
  change opsOk .caller d s.regs.ie ps = true
  rw [hie, hok]

theorem Inv.execRead {client flags addr : Byte} {len : BitVec 16} {buf : BufRef}
    (ht : s.task = none) (hlen : countLegal s.par.lenBits len)
    (e : execRead client flags addr len buf s = .next u) : Inv u := by
  rcases asCaller_transfer_next e with rfl | ⟨-, rfl⟩ | ⟨hready, h0, hcap, rfl⟩
  · exact h
  · exact h.returnResult ht _
  · exact h.runOps_recordCtx ht hready h0 hlen hcap (opsOk_readOps _ _ _ _)
      (inBounds_readOps _ _ _ _)

theorem Inv.execWrite {client flags addr : Byte} {len : BitVec 16} {buf : BufRef}
    (ht : s.task = none) (hlen : countLegal s.par.lenBits len)
    (e : execWrite client flags addr len buf s = .next u) : Inv u := by
  rcases asCaller_transfer_next e with rfl | ⟨-, rfl⟩ | ⟨hready, h0, hcap, rfl⟩
  · exact h
  · exact h.returnResult ht _
  · exact h.runOps_recordCtx ht hready h0 hlen hcap (opsOk_writeOps _ _ _)
      (inBounds_writeOps _ _ _)

theorem Inv.execVecNone (ht : s.task = none) (e : execVecNone s = .next u) : Inv u := by
  rcases asEntry_next e with ⟨-, e⟩ | ⟨-, rfl⟩
  · cases e; exact (h.running_enterIsr ht _).inv_leaveIsr
  · exact h

theorem Inv.execVecNak (ht : s.task = none) (e : execVecNak s = .next u) : Inv u := by
  rcases asEntry_next e with ⟨-, e⟩ | ⟨-, rfl⟩
  · cases e
    have hrun := h.running_enterIsr ht 0x01
    simp only [isrNak]
    split
    · exact hrun.inconsistent _
    · exact Running.runOps _ (isrFrame .acknowledgementFailure) _ hrun (opsOk_nakOps _ _ _)
        (inBounds_nakOps _) rfl
  · exact h

theorem Inv.execVecTxrdy (ht : s.task = none) (e : execVecTxrdy s = .next u) : Inv u := by
  rcases asEntry_next e with ⟨-, e⟩ | ⟨-, rfl⟩
  · have hrun := h.running_enterIsr ht 0x03
    rcases isrTxrdy_next e with ⟨-, rfl⟩ | ⟨a, -, hrem, -, rfl⟩ | ⟨-, -, rfl⟩
    · exact hrun.inconsistent _
    · exact ((hrun.wrTx _).moveByte (.inr hrem)).inv_leaveIsr
    · exact Running.runOps _ (isrFrame .success) _ hrun (opsOk_txFinalizeOps _ _ _ _)
        (inBounds_txFinalizeOps _ _) rfl
  · exact h

theorem Inv.execVecRxrdy (ht : s.task = none) (e : execVecRxrdy s = .next u) : Inv u := by
  rcases asEntry_next e with ⟨-, e⟩ | ⟨-, rfl⟩
  · have hrun := h.running_enterIsr ht 0x02
    rcases isrRxrdy_next e with ⟨-, rfl⟩ | ⟨a, -, -, ⟨hrem, rfl⟩ | ⟨hrem, rfl⟩⟩
    · exact hrun.inconsistent _
    · exact Running.runOps _ (isrFrame .success) _ (hrun.rxByte (by omega) a)
        (opsOk_rxFinalizeOps _ _ _ _) (inBounds_rxFinalizeOps _ _) rfl
    · exact (hrun.rxByte (by omega) a).inv_leaveIsr
  · exact h

theorem Inv.execVecOther {v : Byte} (ht : s.task = none) (e : execVecOther v s = .next u) :
    Inv u := by
  rcases asEntry_next e with ⟨-, e⟩ | ⟨-, rfl⟩
  · cases e; exact ((h.running_enterIsr ht v).escalate _).inv_leaveIsr
  · exact h

theorem Inv.execEscalate {loc : Loc} {d1 d2 d3 : Word32} (ht : s.task = none)
    (e : execEscalate loc d1 d2 d3 s = .next u) : Inv u := by
  rcases asPrimitive_next e with ⟨-, rfl⟩ | ⟨-, rfl⟩
  · exact ((h.running ht (a := .primitive) (by decide)).escalate _).inv (by decide)
  · exact h

/-- INIT leaves nothing enabled and `Idle` (R241). -/
theorem Inv.execInit (ht : s.task = none) (e : execInit s = .next u) : Inv u := by
  rcases asPrimitive_next e with ⟨-, rfl⟩ | ⟨-, rfl⟩
  · exact ⟨h.par, h.mem, .inl rfl, .inl rfl, by simp [ht], by simp [ht]⟩
  · exact h

/-- Every operation that some presentation decodes to keeps the invariant. -/
theorem Inv.exec {i : Instr} (ht : s.task = none) (hi : i.wf s.par.lenBits = true)
    (e : exec i s = .next u) : Inv u := by
  cases i with
  | read client => exact h.execRead (client := client) ht (of_decide_eq_true hi).2 e
  | write client => exact h.execWrite (client := client) ht (of_decide_eq_true hi).2 e
  | vecNone => exact h.execVecNone ht e
  | vecNak => exact h.execVecNak ht e
  | vecRxrdy => exact h.execVecRxrdy ht e
  | vecTxrdy => exact h.execVecTxrdy ht e
  | vecOther => exact h.execVecOther ht e
  | escalate => exact h.execEscalate ht e
  | init => exact h.execInit ht e
  | _ => exact h.exec_fixedScript ht rfl e

/-- A resumed operation keeps the invariant: `taskOk` is what `Running.afterPoll` asks. -/
theorem Inv.resumeTask {t : Task} (ht : s.task = some t) (e : resumeTask t s = .next u) :
    Inv u := by
  obtain ⟨hok, hin, hout⟩ := h.task t ht
  simp only [Machine.resumeTask, hin, if_true] at e
  cases e
  exact (h.running_resumed ht).afterPoll t.wait t.t0 t.onFail hok hin hout
    fun f s hs hok hf => Running.runOps t.rest f s hs hok hin hf

end

/-- Settles O51: the operation in progress goes on, what is presented or raised runs, or the
boundary passes. -/
theorem stepKeepsInvariant : Obligations.StepKeepsInvariant := by
  intro s u h e
  rcases step_next e with ⟨t, ht, e⟩ | ⟨ht, i, s', hfetch, e⟩ | ⟨ht, hfetch⟩
  · exact h.resumeTask ht e
  · obtain ⟨⟨p, hdec⟩, is, rs, rfl⟩ := fetch_run hfetch
    exact (h.boundary is rs h.mem).exec ht (decode_ok hdec).2 e
  · obtain ⟨is, rs, m, rfl, rfl | ⟨a, b, -, rfl⟩⟩ := fetch_pass hfetch
    · exact h.boundary is rs h.mem
    · exact h.boundary is rs (Memory.write_wf _ a b h.mem)

end Sys2Proof.Machine
end

section
/-! What every step keeps, proved once for all steps (`step_closed`), and its first use: the trace
only grows, and no parameter changes. -/

namespace Sys2Proof.Machine

/-- A property of states that no step destroys: no primitive, no other update an operation makes,
and no boundary. -/
structure StepClosed (P : State → Prop) : Prop extends OpsClosed P where
  recordCtx : ∀ s d buf len flags addr, P s → P (s.recordCtx d buf len flags addr)
  moveByte : ∀ s, P s → P s.moveByte
  enterIsr : ∀ s v, P s → P (s.enterIsr v)
  initialise : ∀ s, P s → P s.initialise
  resume : ∀ s, P s → P (s.setTask none)
  boundary : ∀ s is rs m, P s → P { s with program := is, irqs := rs, mem := m }

section

variable {P : State → Prop} {s u : State}

theorem asEntry_closed {body : Host.Outcome State Fault Refusal} (h : P s)
    (hbody : body = .next u → P u) (e : asEntry s body = .next u) : P u := by
  rcases asEntry_next e with ⟨-, e⟩ | ⟨-, rfl⟩
  · exact hbody e
  · exact h

theorem asPrimitive_closed {body : State} (h : P s) (hbody : P body)
    (e : asPrimitive s body = .next u) : P u := by
  rcases asPrimitive_next e with ⟨-, rfl⟩ | ⟨-, rfl⟩
  · exact hbody
  · exact h

variable (hP : StepClosed P)

include hP

theorem inconsistent_closed (v : Byte) (h : P s) : P (inconsistent v s) :=
  hP.leaveIsr _ (hP.escalate _ _ h)

theorem rxByte_closed (a : Nat) (h : P s) : P (rxByte a s) := by
  have hread : ∀ t, P t → P ((t.readRx.setMem (t.readRx.mem.write a (t.rdRxAt 0))).moveByte) :=
    fun t ht => hP.moveByte _ (hP.boundary _ _ _ _ (hP.readRx _ ht))
  simp only [rxByte]
  split
  · exact hread _ (hP.pSetCtl _ _ h)
  · exact hread _ h

theorem isrTxrdy_closed (h : P s) (e : isrTxrdy s = .next u) : P u := by
  rcases isrTxrdy_next e with ⟨-, rfl⟩ | ⟨a, -, -, -, rfl⟩ | ⟨-, -, rfl⟩
  · exact inconsistent_closed hP _ h
  · exact hP.leaveIsr _ (hP.moveByte _ (hP.pWrTx _ _ h))
  · exact runOps_closed hP.toOpsClosed _ _ _ h

theorem isrRxrdy_closed (h : P s) (e : isrRxrdy s = .next u) : P u := by
  rcases isrRxrdy_next e with ⟨-, rfl⟩ | ⟨a, -, -, ⟨-, rfl⟩ | ⟨-, rfl⟩⟩
  · exact inconsistent_closed hP _ h
  · exact runOps_closed hP.toOpsClosed _ _ _ (rxByte_closed hP a h)
  · exact hP.leaveIsr _ (rxByte_closed hP a h)

theorem isrNak_closed (h : P s) : P (isrNak s) := by
  simp only [isrNak]
  split
  · exact inconsistent_closed hP _ h
  · exact runOps_closed hP.toOpsClosed _ _ _ h

theorem asCaller_transfer_closed {n : Nat} {buf : BufRef} {body : State} (h : P s) (hbody : P body)
    (e : asCaller s (fitsCapacity n buf)
      (if badArgument n buf then s.returnResult (.outcome .invalidArgument) else body) = .next u) :
    P u := by
  rcases asCaller_transfer_next e with rfl | ⟨-, rfl⟩ | ⟨-, -, -, rfl⟩
  · exact h
  · exact hP.returnResult _ _ h
  · exact hbody

theorem exec_fixedScript_closed {i : Instr} {a : Agent} {ps : List Prim} (h : P s)
    (hi : fixedScript i = some (a, ps)) (e : exec i s = .next u) : P u := by
  rcases exec_fixedScript_next hi e with rfl | ⟨-, rfl⟩ | ⟨-, -, rfl⟩
  · exact h
  · exact hP.returnResult _ _ h
  · exact runOps_closed hP.toOpsClosed _ _ _ h

/-- No operation destroys the property. -/
theorem exec_closed {i : Instr} (h : P s) (e : exec i s = .next u) : P u := by
  have entry : ∀ v, P (s.enterIsr v) := fun v => hP.enterIsr s v h
  cases i with
  | read | write =>
    exact asCaller_transfer_closed hP h
      (runOps_closed hP.toOpsClosed _ _ _ (hP.recordCtx _ _ _ _ _ _ h)) e
  | vecNone => exact asEntry_closed h (by rintro ⟨⟩; exact hP.leaveIsr _ (entry _)) e
  | vecNak => exact asEntry_closed h (by rintro ⟨⟩; exact isrNak_closed hP (entry _)) e
  | vecRxrdy => exact asEntry_closed h (isrRxrdy_closed hP (entry _)) e
  | vecTxrdy => exact asEntry_closed h (isrTxrdy_closed hP (entry _)) e
  | vecOther =>
    exact asEntry_closed h (by rintro ⟨⟩; exact hP.leaveIsr _ (hP.escalate _ _ (entry _))) e
  | escalate => exact asPrimitive_closed h (hP.escalate _ _ h) e
  | init => exact asPrimitive_closed h (hP.initialise _ h) e
  | _ => exact exec_fixedScript_closed hP h rfl e

/-- No step destroys the property. -/
theorem step_closed (h : P s) (e : step s = .next u) : P u := by
  rcases step_next e with ⟨t, -, e⟩ | ⟨-, i, s', hfetch, e⟩ | ⟨-, hfetch⟩
  · exact resumeTask_closed hP.toOpsClosed t s u (hP.resume s h) e
  · obtain ⟨-, is, rs, rfl⟩ := fetch_run hfetch
    exact exec_closed hP (hP.boundary s is rs s.mem h) e
  · obtain ⟨is, rs, m, rfl, -⟩ := fetch_pass hfetch
    exact hP.boundary s is rs m h

end

/-! ### The trace only grows -/

/-- From `s` to `u` events are appended and no parameter changes. -/
def Grown (s u : State) : Prop := s.trace <+: u.trace ∧ u.par = s.par

theorem Grown.refl (s : State) : Grown s s := ⟨⟨[], List.append_nil _⟩, rfl⟩

theorem Grown.append {s u v : State} (h : Grown s u) {evs : List Event}
    (htrace : v.trace = u.trace ++ evs) (hpar : v.par = u.par) : Grown s v :=
  ⟨h.1.trans ⟨evs, htrace.symm⟩, hpar.trans h.2⟩

/-- Every update of a step appends its events to the trace and leaves the parameters alone (R37,
R6). -/
theorem stepClosed_grown (s : State) : StepClosed (Grown s) where
  pReset _ h := h.append rfl rfl
  pUnreset _ h := h.append rfl rfl
  pSetAddr _ _ h := h.append rfl rfl
  pSetCtl _ _ h := h.append rfl rfl
  pClrCtl _ _ h := h.append rfl rfl
  pSetIE _ _ h := h.append rfl rfl
  pClrIE _ _ h := h.append rfl rfl
  pWrTx _ _ h := h.append rfl rfl
  readNow _ h := h.append rfl rfl
  readBusy _ h := h.append rfl rfl
  readCtl _ h := h.append rfl rfl
  readFlags _ h := h.append rfl rfl
  readRx _ h := h.append rfl rfl
  store _ _ _ _ h := h
  setStarted _ _ h := h
  setIdle _ h := h
  escalate t r h := h.append ((t.escalate_trace r).trans (List.append_assoc ..)) (t.escalate_par r)
  signalRead _ _ h := h.append rfl rfl
  signalWrite _ _ h := h.append rfl rfl
  suspend _ _ h := h
  leaveIsr _ h := h
  setResult _ _ h := h
  returnResult _ _ h := h.append rfl rfl
  recordCtx _ _ _ _ _ _ h := h
  moveByte _ h := h
  enterIsr _ _ h := h.append rfl rfl
  initialise t h := h.append t.initialise_trace rfl
  resume _ h := h
  boundary _ _ _ _ h := h

/-- Settles O53: every step is `Grown`, and the fault record is a filter of the trace. -/
theorem traceOnlyGrows : Obligations.TraceOnlyGrows := by
  intro s u e
  obtain ⟨⟨evs, htrace⟩, hpar⟩ := step_closed (stepClosed_grown s) (Grown.refl s) e
  refine ⟨⟨evs, htrace.symm, ?_⟩, hpar⟩
  simp only [State.faultRecord, ← htrace, List.filter_append]

end Sys2Proof.Machine
end

section
/-! Which operations write which fields of the transfer context (R22 to R28). -/

namespace Sys2Proof.Machine

/-! ### No primitive writes more than direction and started -/

/-- From `s` to `u` no field of the context but direction and started changes. -/
def TransferKept (s u : State) : Prop :=
  u.ctx = { s.ctx with direction := u.ctx.direction, started := u.ctx.started }

theorem TransferKept.trans {s u v : State} (h : TransferKept s u) (hv : TransferKept u v) :
    TransferKept s v := by
  unfold TransferKept at h hv ⊢
  rw [hv, h]

theorem opsClosed_transferKept (s : State) : OpsClosed (TransferKept s) where
  pReset _ h := h
  pUnreset _ h := h
  pSetAddr _ _ h := h
  pSetCtl _ _ h := h
  pClrCtl _ _ h := h
  pSetIE _ _ h := h
  pClrIE _ _ h := h
  pWrTx _ _ h := h
  readNow _ h := h
  readBusy _ h := h
  readCtl _ h := h
  readFlags _ h := h
  readRx _ h := h
  store _ _ _ _ h := h
  setStarted _ _ h := h.trans rfl
  setIdle _ h := h.trans rfl
  escalate t r h := h.trans (by simp [TransferKept])
  signalRead _ _ h := h
  signalWrite _ _ h := h
  suspend _ _ h := h
  leaveIsr _ h := h
  setResult _ _ h := h
  returnResult _ _ h := h

/-! ### started is written by `setStarted` only -/

theorem pollWait_started (w : Wait) (t0 : Word32) (s : State) :
    (pollWait w t0 s).2.ctx.started = s.ctx.started := by
  rcases pollWait_cases w t0 s with ⟨q, e, hq⟩ | ⟨q, e, hq, -⟩ | ⟨q, r, e, hq, -⟩ | ⟨m, -, -, e⟩ <;>
    rw [e]
  · rcases hq with rfl | rfl | rfl <;> rfl
  · rcases hq with rfl | rfl | rfl <;> rfl
  · rcases hq with rfl | rfl | rfl <;> simp
  · simp

@[simp] theorem finish_ctx (f : Frame) (r : OpResult) (s : State) : (finish f r s).ctx = s.ctx := by
  simp only [finish]
  split <;> rfl

@[simp] theorem endOfOps_ctx (f : Frame) (s : State) : (endOfOps f s).ctx = s.ctx := by
  simp only [endOfOps]
  split <;> rfl

theorem afterPoll_started (w : Wait) (t0 : Word32) (onFail : OnFail) (rest : List Prim) (f : Frame)
    {k : Frame → State → State} (hk : ∀ f s, (k f s).ctx.started = s.ctx.started)
    (p : Poll × State) : (afterPoll w t0 onFail rest f k p).ctx.started = p.2.ctx.started := by
  simp only [afterPoll]
  split
  · exact hk _ _
  · rfl
  · cases onFail <;> simp [hk]

/-- A list with no write to started leaves it alone. -/
theorem runOps_started (ps : List Prim) (h : ∀ b, .setStarted b ∉ ps) (f : Frame) (s : State) :
    (runOps ps f s).ctx.started = s.ctx.started := by
  induction ps generalizing f s with
  | nil => rw [runOps_nil, endOfOps_ctx]
  | cons p ps ih =>
    have rest : ∀ f s, (runOps ps f s).ctx.started = s.ctx.started :=
      ih fun b hb => h b (List.mem_cons_of_mem _ hb)
    cases p with
    | setStarted b => exact absurd (List.mem_cons_self ..) (h b)
    | wait w onFail =>
      rw [runOps_wait, afterPoll_started _ _ _ _ _ rest, pollWait_started]
      rfl
    | escalate r => rw [runOps_escalate, rest, State.escalate_ctx]
    | ret | retByte | retHalf | retPresent => exact congrArg Context.started (finish_ctx _ _ _)
    | _ => exact rest _ _

/-- The fixed scripts, being blocking, do not write started. -/
theorem setStarted_notMem_of_blocking {ps : List Prim} (h : ps.all Prim.blocking = true)
    (b : Bool) : .setStarted b ∉ ps := fun hb => by
  simpa [Prim.blocking, Prim.returns] using List.all_eq_true.1 h _ hb

/-! ### The operations -/

/-- From `s` to `u` no field of the context but direction changes. -/
def DirectionOnly (s u : State) : Prop := u.ctx = { s.ctx with direction := u.ctx.direction }

/-- With started kept too, only the direction may have changed. -/
theorem TransferKept.directionOnly {s u : State} (h : TransferKept s u)
    (hstarted : u.ctx.started = s.ctx.started) : DirectionOnly s u := by
  unfold TransferKept at h
  unfold DirectionOnly
  rw [h, hstarted]

/-- From `s` to `u` the fields that only a command or INIT writes are kept. -/
def CommandFieldsKept (s u : State) : Prop :=
  u.ctx.buffer = s.ctx.buffer ∧ u.ctx.length = s.ctx.length ∧ u.ctx.flags = s.ctx.flags ∧
    u.ctx.address = s.ctx.address

theorem TransferKept.commandFields {s u : State} (h : TransferKept s u) :
    CommandFieldsKept s u := by
  unfold TransferKept at h
  rw [CommandFieldsKept, h]
  exact ⟨rfl, rfl, rfl, rfl⟩

@[simp] theorem inconsistent_ctx (v : Byte) (s : State) :
    (inconsistent v s).ctx = { s.ctx with direction := .idle } :=
  State.escalate_ctx _ _

theorem inconsistent_transferKept (v : Byte) (s : State) : TransferKept s (inconsistent v s) := by
  simp [TransferKept]

@[simp] theorem rxByte_ctx (a : Nat) (s : State) : (rxByte a s).ctx = s.moveByte.ctx := by
  simp only [rxByte]
  split <;> rfl

/-- The blocking operations and the waits write the direction only. -/
theorem exec_fixedScript_directionOnly {i : Instr} {a : Agent} {ps : List Prim} {s u : State}
    (hi : fixedScript i = some (a, ps)) (e : exec i s = .next u) : DirectionOnly s u := by
  rcases exec_fixedScript_next hi e with rfl | ⟨-, rfl⟩ | ⟨-, -, rfl⟩
  · rfl
  · rfl
  · obtain ⟨-, hblock, -⟩ := fixedScript_blocking hi
    have hkept : TransferKept s (runOps ps (.new a .success) s) :=
      runOps_closed (opsClosed_transferKept s) ps _ s rfl
    exact hkept.directionOnly (runOps_started ps (setStarted_notMem_of_blocking hblock) _ s)

theorem isrNak_transferKept (s : State) : TransferKept s (isrNak s) := by
  simp only [isrNak]
  split
  · exact inconsistent_transferKept _ s
  · exact runOps_closed (opsClosed_transferKept s) _ _ s rfl

theorem isrTxrdy_commandFields {s u : State} (e : isrTxrdy s = .next u) :
    CommandFieldsKept s u := by
  rcases isrTxrdy_next e with ⟨-, rfl⟩ | ⟨a, -, -, -, rfl⟩ | ⟨-, -, rfl⟩
  · exact (inconsistent_transferKept _ s).commandFields
  · exact ⟨rfl, rfl, rfl, rfl⟩
  · exact TransferKept.commandFields (runOps_closed (opsClosed_transferKept s) _ _ s rfl)

theorem isrRxrdy_commandFields {s u : State} (e : isrRxrdy s = .next u) :
    CommandFieldsKept s u := by
  have hbyte : ∀ a v, TransferKept (rxByte a s) v → CommandFieldsKept s v := fun a v hv => by
    simpa [CommandFieldsKept] using hv.commandFields
  rcases isrRxrdy_next e with ⟨-, rfl⟩ | ⟨a, -, -, ⟨-, rfl⟩ | ⟨-, rfl⟩⟩
  · exact (inconsistent_transferKept _ s).commandFields
  · exact hbyte a _ (runOps_closed (opsClosed_transferKept (rxByte a s)) _ _ _ rfl)
  · exact hbyte a _ rfl

/-- A resumed operation writes direction and started only, and started only where that write is
still to come. -/
theorem resumeTask_ctx {t : Task} {s u : State} (e : resumeTask t s = .next u) :
    TransferKept s u ∧ ((∀ b, .setStarted b ∉ t.rest) → u.ctx.started = s.ctx.started) := by
  refine ⟨resumeTask_closed (opsClosed_transferKept s) t s u rfl e, fun h => ?_⟩
  simp only [resumeTask] at e
  split at e
  · cases e
    rw [afterPoll_started _ _ _ _ _ (runOps_started t.rest h), pollWait_started]
    rfl
  · cases e

theorem execVecOther_directionOnly {v : Byte} {s u : State} (e : execVecOther v s = .next u) :
    DirectionOnly s u :=
  asEntry_closed (P := DirectionOnly s) rfl (by rintro ⟨⟩; simp [DirectionOnly]) e

theorem execEscalate_directionOnly {loc : Loc} {d1 d2 d3 : Word32} {s u : State}
    (e : execEscalate loc d1 d2 d3 s = .next u) : DirectionOnly s u :=
  asPrimitive_closed (P := DirectionOnly s) rfl (by simp [DirectionOnly]) e

/-- Settles O55, operation by operation: the fixed scripts, the handlers, and a resumed step. -/
theorem contextWriters : Obligations.ContextWriters := by
  refine ⟨fun s u i e => ?_, fun s u t ht e => ?_⟩
  · cases i with
    | read | write | init => trivial
    | vecNak =>
      exact asEntry_closed (P := TransferKept s) rfl
        (by rintro ⟨⟩; exact isrNak_transferKept (s.enterIsr 0x01)) e
    | vecRxrdy =>
      exact asEntry_closed (P := CommandFieldsKept s) ⟨rfl, rfl, rfl, rfl⟩
        (isrRxrdy_commandFields (s := s.enterIsr 0x02)) e
    | vecTxrdy =>
      exact asEntry_closed (P := CommandFieldsKept s) ⟨rfl, rfl, rfl, rfl⟩
        (isrTxrdy_commandFields (s := s.enterIsr 0x03)) e
    | vecNone => exact asEntry_closed (P := DirectionOnly s) rfl (by rintro ⟨⟩; rfl) e
    | vecOther => exact execVecOther_directionOnly e
    | escalate => exact execEscalate_directionOnly e
    | _ => exact exec_fixedScript_directionOnly rfl e
  · rw [step, ht] at e
    exact resumeTask_ctx e

end Sys2Proof.Machine
end

section
/-! What operations read and write of the caller's memory (20_memory.md): no index outside its buffer
is reached (R61), which bytes may change (R61, R76), and the Caller's own accesses (R71). -/

namespace Sys2Proof.Machine

/-! ### No operation faults but a data handler, on its index -/

theorem asCaller_ne_fault {s body : State} {fits : Bool} {x : Fault} :
    asCaller s fits body ≠ .fault x := by
  unfold asCaller
  split_ifs <;> nofun

theorem asPrimitive_ne_fault {s body : State} {x : Fault} : asPrimitive s body ≠ .fault x := by
  unfold asPrimitive
  split_ifs <;> nofun

/-- An entry faults only in its handler. -/
theorem asEntry_fault {s : State} {body : Host.Outcome State Fault Refusal} {x : Fault}
    (e : asEntry s body = .fault x) : body = .fault x := by
  unfold asEntry at e
  split_ifs at e
  exact e

/-- The context is in a transfer with bytes left, and its position is not in its buffer. -/
def OutOfBuffer (c : Context) : Prop :=
  c.direction ≠ .idle ∧ 0 < c.remaining ∧ bufAddr c.buffer c.position = none

/-- R29 rules it out: the position is below the length, which the buffer holds. -/
theorem not_outOfBuffer_of_ctxOk {p : Params} {c : Context} (h : ctxOk p c) : ¬ OutOfBuffer c := by
  rintro ⟨hdir, hrem, hnone⟩
  obtain ⟨hsum, -, -, hcap⟩ := h.resolve_left hdir
  have hsome := bufAddr_isSome (buf := c.buffer) (i := c.position) (by omega)
  simp [hnone] at hsome

theorem isrTxrdy_fault {s : State} {x : Fault} (e : isrTxrdy s = .fault x) : OutOfBuffer s.ctx := by
  unfold isrTxrdy at e
  split at e
  · cases e
  · have hdir : s.ctx.direction = .writing := not_not.1 ‹_›
    split at e
    · split at e
      · exact ⟨by simp [hdir], ‹_›, ‹_›⟩
      · cases e
    · cases e

theorem isrRxrdy_fault {s : State} {x : Fault} (e : isrRxrdy s = .fault x) : OutOfBuffer s.ctx := by
  unfold isrRxrdy at e
  split at e
  · cases e
  · obtain ⟨hdir, hrem⟩ := not_or.1 ‹_›
    split at e
    · exact ⟨by simp [not_not.1 hdir], Nat.pos_of_ne_zero hrem, ‹_›⟩
    · split at e <;> cases e

/-- Of all operations only the data handlers fault, on the index of the context (R61). -/
theorem exec_fault {i : Instr} {s : State} {x : Fault} (e : exec i s = .fault x) :
    OutOfBuffer s.ctx := by
  cases i with
  | vecTxrdy => exact isrTxrdy_fault (s := s.enterIsr 0x03) (asEntry_fault e)
  | vecRxrdy => exact isrRxrdy_fault (s := s.enterIsr 0x02) (asEntry_fault e)
  | vecNone | vecNak | vecOther => exact nomatch asEntry_fault e
  | waitClears | waitFlag | checkNotBusy | escalate | regPrefix | init =>
    exact absurd e asPrimitive_ne_fault
  | _ => exact absurd e asCaller_ne_fault

/-- What moves next is never the fault `bufferIndex`; a Caller access may be a race (R71). -/
theorem fetch_stop {s : State} {x : Fault} (h : fetch s = .stop x) : x = .bufferRace := by
  have hraised : raised s ≠ .stop x := by
    rcases raised_cases s with ⟨v, rs, e⟩ | ⟨rs, e⟩ <;> rw [e] <;> nofun
  unfold fetch at h
  split at h
  · exact absurd h hraised
  · rename_i it rest _
    cases it with
    | store a b => simp only [fetchItem] at h; split at h <;> cases h; rfl
    | load a => simp only [fetchItem] at h; split at h <;> cases h; rfl
    | packet p =>
      simp only [fetchItem] at h
      split at h
      · exact absurd h hraised
      · split at h
        · cases h
        · split at h <;> cases h

/-- The two ways to the fault `bufferIndex`: a resumed operation has an access outside its buffer
still to come, or a data handler runs with its index there. -/
theorem step_bufferIndex {s : State} (e : step s = .fault .bufferIndex) :
    (∃ t, s.task = some t ∧ t.rest.all Prim.inBounds = false) ∨ OutOfBuffer s.ctx := by
  unfold step at e
  split at e
  · rename_i t ht
    refine .inl ⟨t, ht, ?_⟩
    unfold resumeTask at e
    split at e
    · cases e
    · exact eq_false_of_ne_true ‹_›
  · split at e
    · rename_i hfetch
      obtain ⟨-, is, rs, rfl⟩ := fetch_run hfetch
      have hout := exec_fault e
      exact .inr hout
    · cases e
    · rename_i hfetch
      cases fetch_stop hfetch; cases e
    · cases e

/-- Settles O52: the invariant keeps every access of a waiting operation, and the index of the
context, in its buffer. -/
theorem noBufferIndexFault : Obligations.NoBufferIndexFault := by
  intro s h e
  rcases step_bufferIndex e with ⟨t, ht, hout⟩ | hout
  · obtain ⟨-, hin, -⟩ := h.task t ht
    simp [hin] at hout
  · exact not_outOfBuffer_of_ctxOk h.ctx hout

/-! ### Which bytes an operation may change -/

@[simp] theorem finish_mem (f : Frame) (r : OpResult) (s : State) : (finish f r s).mem = s.mem := by
  simp only [finish]
  split <;> rfl

@[simp] theorem endOfOps_mem (f : Frame) (s : State) : (endOfOps f s).mem = s.mem := by
  simp only [endOfOps]
  split <;> rfl

@[simp] theorem pollWait_mem (w : Wait) (t0 : Word32) (s : State) :
    (pollWait w t0 s).2.mem = s.mem := by
  rcases pollWait_cases w t0 s with ⟨q, e, hq⟩ | ⟨q, e, hq, -⟩ | ⟨q, r, e, hq, -⟩ | ⟨m, -, -, e⟩ <;>
    rw [e]
  · rcases hq with rfl | rfl | rfl <;> rfl
  · rcases hq with rfl | rfl | rfl <;> rfl
  · rcases hq with rfl | rfl | rfl <;> simp
  · simp

section

variable {Q : Memory → Prop}

/-- What follows a poll changes memory only by the rest of the operation. -/
theorem afterPoll_mem (w : Wait) (t0 : Word32) (onFail : OnFail) (rest : List Prim) (f : Frame)
    {k : Frame → State → State} (hk : ∀ f s, Q s.mem → Q (k f s).mem) (p : Poll × State)
    (h : Q p.2.mem) : Q (afterPoll w t0 onFail rest f k p).mem := by
  simp only [afterPoll]
  split
  · exact hk _ _ h
  · exact h
  · cases onFail with
    | record | ignore => exact hk _ _ h
    | ret | retAs | retFalse => simpa using h

/-- A list of primitives changes memory only by its stores. -/
theorem runOps_mem {ps : List Prim}
    (hQ : ∀ buf j, .store buf j ∈ ps → ∀ m v, Q m → Q (memWrite m buf j v)) (f : Frame) (s : State)
    (h : Q s.mem) : Q (runOps ps f s).mem := by
  induction ps generalizing f s with
  | nil => simpa using h
  | cons p ps ih =>
    have rest : ∀ f s, Q s.mem → Q (runOps ps f s).mem :=
      ih fun buf j hj => hQ buf j (List.mem_cons_of_mem _ hj)
    cases p with
    | store buf j => exact rest _ _ (hQ buf j (List.mem_cons_self ..) _ _ h)
    | wait w onFail =>
      rw [runOps_wait]
      exact afterPoll_mem _ _ _ _ _ rest _ (by simpa using h)
    | escalate r => exact rest _ _ (by simpa using h)
    | ret | retByte | retHalf | retPresent => simpa using h
    | _ => exact rest _ _ h

/-- The rest of a waiting operation changes memory only by its stores. -/
theorem resumeTask_mem {t : Task} {s u : State}
    (hQ : ∀ buf j, .store buf j ∈ t.rest → ∀ m v, Q m → Q (memWrite m buf j v))
    (e : resumeTask t s = .next u) (h : Q s.mem) : Q u.mem := by
  unfold resumeTask at e
  split at e
  · cases e
    exact afterPoll_mem _ _ _ _ _ (runOps_mem hQ) _ (by simpa using h)
  · cases e

end

/-- A byte that no store of the list names keeps its value. -/
theorem keeps_byte_of_stores {ps : List Prim} {a : Nat} {b : Byte}
    (h : ∀ buf j, .store buf j ∈ ps → bufAddr buf j ≠ some a) :
    ∀ buf j, .store buf j ∈ ps → ∀ (m : Memory) v, m.read a = b → (memWrite m buf j v).read a = b :=
  fun buf j hj m v hm => (read_memWrite_other m buf j a v (h buf j hj)).trans hm

/-- The primitive is not `MemWrite`. -/
def Prim.storeFree : Prim → Bool
  | .store .. => false
  | _ => true

/-- A list without a store leaves memory alone. -/
theorem runOps_mem_of_storeFree {ps : List Prim} (h : ps.all Prim.storeFree = true) (f : Frame)
    (s : State) : (runOps ps f s).mem = s.mem :=
  runOps_mem (Q := (· = s.mem))
    (fun _ _ hj => absurd (List.all_eq_true.1 h _ hj) Bool.false_ne_true) f s rfl

theorem storeFree_readOps (started : Bool) (flags addr : Byte) (len : Nat) :
    (readOps started flags addr len).all Prim.storeFree = true := by
  simp only [readOps, readStartOps]
  split_ifs <;> rfl

theorem storeFree_writeOps (started : Bool) (flags addr : Byte) :
    (writeOps started flags addr).all Prim.storeFree = true := by
  simp only [writeOps, writeStartOps]
  split_ifs <;> rfl

theorem storeFree_txFinalizeOps (p : Params) (flags : Byte) :
    (txFinalizeOps p flags).all Prim.storeFree = true := by
  simp only [txFinalizeOps, alwaysClearOps]
  split_ifs <;> rfl

theorem storeFree_rxFinalizeOps (p : Params) (flags : Byte) :
    (rxFinalizeOps p flags).all Prim.storeFree = true := by
  simp only [rxFinalizeOps, alwaysClearOps]
  split_ifs <;> rfl

theorem storeFree_nakOps (s : State) : (nakOps s).all Prim.storeFree = true := by
  simp only [nakOps]
  split_ifs <;> rfl

/-- WRITEBLOCK only loads (R177). -/
theorem storeFree_writeblockOps (addr reg : Byte) (n : Nat) (buf : BufRef) :
    (writeblockOps addr reg n buf).all Prim.storeFree = true := by
  have hphase : (regPrefixOps addr reg).all Prim.storeFree = true := rfl
  have hend : writeEndOps.all Prim.storeFree = true := rfl
  have hturn : ∀ i < n, (writeByteOps buf i).all Prim.storeFree = true := fun _ _ => rfl
  simpa only [writeblockOps, List.all_append, List.all_flatMap, hphase, hend, Bool.true_and,
    Bool.and_true, List.all_eq_true, List.mem_range] using hturn

/-- READBLOCK stores at the indices 0 to n - 1 of its buffer, and nowhere else (R174). -/
theorem store_mem_readblockOps {addr reg : Byte} {n : Nat} {buf b : BufRef} {j : Nat} (h0 : 0 < n)
    (h : .store b j ∈ readblockOps addr reg n buf) : b = buf ∧ j < n := by
  have hturn : ∀ i, .store b j ∈ readByteOps n buf i → b = buf ∧ j = i := fun i hi => by
    simp only [readByteOps] at hi
    split_ifs at hi <;> simpa using hi
  have hphase : .store b j ∉ readTurnOps addr reg := by
    simp [readTurnOps, regPrefixOps, checkNotBusyOps]
  simp only [readblockOps] at h
  split at h
  · obtain ⟨rfl, rfl⟩ : b = buf ∧ j = 0 := by simpa [read8Ops, hphase] using h
    exact ⟨rfl, h0⟩
  · obtain ⟨i, hi, hmem⟩ : ∃ i < n, .store b j ∈ readByteOps n buf i := by simpa [hphase] using h
    obtain ⟨rfl, rfl⟩ := hturn i hmem
    exact ⟨rfl, hi⟩

section

variable {s u : State}

theorem exec_fixedScript_mem {i : Instr} {a : Agent} {ps : List Prim}
    (hi : fixedScript i = some (a, ps)) (hfree : ps.all Prim.storeFree = true)
    (e : exec i s = .next u) : u.mem = s.mem := by
  rcases exec_fixedScript_next hi e with rfl | ⟨-, rfl⟩ | ⟨-, -, rfl⟩
  · rfl
  · rfl
  · exact runOps_mem_of_storeFree hfree _ s

theorem execRead_mem {client flags addr : Byte} {len : BitVec 16} {buf : BufRef}
    (e : execRead client flags addr len buf s = .next u) : u.mem = s.mem := by
  rcases asCaller_transfer_next e with rfl | ⟨-, rfl⟩ | ⟨-, -, -, rfl⟩
  · rfl
  · rfl
  · exact runOps_mem_of_storeFree (storeFree_readOps _ _ _ _) _ _

theorem execWrite_mem {client flags addr : Byte} {len : BitVec 16} {buf : BufRef}
    (e : execWrite client flags addr len buf s = .next u) : u.mem = s.mem := by
  rcases asCaller_transfer_next e with rfl | ⟨-, rfl⟩ | ⟨-, -, -, rfl⟩
  · rfl
  · rfl
  · exact runOps_mem_of_storeFree (storeFree_writeOps _ _ _) _ _

/-- READBLOCK changes no byte but those at the indices 0 to n - 1 of its buffer (R174). -/
theorem execReadblock_mem_read {addr reg : Byte} {n : BitVec 16} {buf : BufRef} {a : Nat}
    (ha : ∀ j < n.toNat, bufAddr buf j ≠ some a) (e : execReadblock addr reg n buf s = .next u) :
    u.mem.read a = s.mem.read a := by
  rcases asCaller_transfer_next e with rfl | ⟨-, rfl⟩ | ⟨-, h0, -, rfl⟩
  · rfl
  · rfl
  · have hstores : ∀ b j, .store b j ∈ readblockOps addr reg n.toNat buf → bufAddr b j ≠ some a :=
      fun b j hj => by
        obtain ⟨rfl, hlt⟩ := store_mem_readblockOps h0 hj
        exact ha j hlt
    exact runOps_mem (keeps_byte_of_stores hstores) callerFrame s rfl

@[simp] theorem inconsistent_mem (v : Byte) (s : State) : (inconsistent v s).mem = s.mem :=
  State.escalate_mem _ _

theorem isrNak_mem (s : State) : (isrNak s).mem = s.mem := by
  simp only [isrNak]
  split
  · exact inconsistent_mem _ s
  · exact runOps_mem_of_storeFree (storeFree_nakOps s) _ s

/-- VEC_TXRDY only loads (R150). -/
theorem isrTxrdy_mem (e : isrTxrdy s = .next u) : u.mem = s.mem := by
  rcases isrTxrdy_next e with ⟨-, rfl⟩ | ⟨a, -, -, -, rfl⟩ | ⟨-, -, rfl⟩
  · exact inconsistent_mem _ s
  · rfl
  · exact runOps_mem_of_storeFree (storeFree_txFinalizeOps _ _) _ s

/-- The byte received is stored at the address of the current position (R151). -/
theorem rxByte_mem (a : Nat) (s : State) : (rxByte a s).mem = s.mem.write a (s.rdRxAt 0) := by
  simp only [rxByte]
  split <;> rfl

/-- VEC_RXRDY changes no byte but the one at the current position of the buffer (R151). -/
theorem isrRxrdy_mem_read {a : Nat} (ha : bufAddr s.ctx.buffer s.ctx.position ≠ some a)
    (e : isrRxrdy s = .next u) : u.mem.read a = s.mem.read a := by
  have hbyte : ∀ x, bufAddr s.ctx.buffer s.ctx.position = some x →
      (rxByte x s).mem.read a = s.mem.read a := fun x hx => by
    rw [rxByte_mem]
    exact Memory.read_write_other _ _ _ _ fun hax => ha (hax ▸ hx)
  rcases isrRxrdy_next e with ⟨-, rfl⟩ | ⟨x, -, hx, ⟨-, rfl⟩ | ⟨-, rfl⟩⟩
  · rw [inconsistent_mem]
  · rw [runOps_mem_of_storeFree (storeFree_rxFinalizeOps _ _), hbyte x hx]
  · exact hbyte x hx

end

/-- Settles O54, operation by operation: what an operation may change is what its list stores, and
VEC_RXRDY its one byte. -/
theorem memoryFrame : Obligations.MemoryFrame := by
  refine ⟨fun s u i e => ?_, fun s u t ht e a ha => ?_⟩
  · cases i with
    | read client => exact execRead_mem (client := client) e
    | write client => exact execWrite_mem (client := client) e
    | readblock => exact fun a ha => execReadblock_mem_read ha e
    | writeblock => exact exec_fixedScript_mem rfl (storeFree_writeblockOps _ _ _ _) e
    | vecRxrdy =>
      exact fun a ha => asEntry_closed (P := fun v => v.mem.read a = s.mem.read a) rfl
        (isrRxrdy_mem_read (s := s.enterIsr 0x02) ha) e
    | vecTxrdy =>
      exact asEntry_closed (P := fun v => v.mem = s.mem) rfl
        (isrTxrdy_mem (s := s.enterIsr 0x03)) e
    | vecNone => exact asEntry_closed (P := fun v => v.mem = s.mem) rfl (by rintro ⟨⟩; rfl) e
    | vecNak =>
      exact asEntry_closed (P := fun v => v.mem = s.mem) rfl
        (by rintro ⟨⟩; exact isrNak_mem (s.enterIsr 0x01)) e
    | vecOther => exact asEntry_closed (P := fun v => v.mem = s.mem) rfl (by rintro ⟨⟩; simp) e
    | escalate => exact asPrimitive_closed (P := fun v => v.mem = s.mem) rfl (by simp) e
    | init => exact asPrimitive_closed (P := fun v => v.mem = s.mem) rfl (by simp) e
    | _ => exact exec_fixedScript_mem rfl rfl e
  · rw [step, ht] at e
    exact resumeTask_mem (keeps_byte_of_stores ha) e rfl

/-! ### The Caller's own accesses (R71) -/

/-- Settles O11: the access is the item at the head of the queue, so it moves next, and `races`
decides it. -/
theorem bufferRace : Obligations.BufferRace := by
  intro s a b rest ht
  refine ⟨fun hflight hin => ?_, fun hfree => ?_⟩
  · have hraces : races s a = true := by simp [races, hflight, hin]
    constructor <;> intro hprog <;> simp [step, ht, fetch, hprog, fetchItem, hraces]
  · have hraces : races s a = false := by simpa only [races, Bool.and_eq_false_iff] using hfree
    constructor <;> intro hprog <;> simp [step, ht, fetch, hprog, fetchItem, hraces]

end Sys2Proof.Machine
end

section
/-! The 16-bit register operations when every wait ends at its first sample (R173, R176): one equation
for the address phase (R170), which all register operations with a register phase begin with. -/

namespace Sys2Proof.Machine

theorem asCaller_ready {s body : State} (h : s.callerReady = true) :
    asCaller s true body = .next body := by
  simp [asCaller, h]

/-- `runOps_waitFlag_done` in the words of the statements (`flagReady`). -/
theorem runOps_waitFlag_ready {m : DataFlag} {onFail : OnFail} {ps : List Prim} {f : Frame}
    {s : State} (h : flagReady m (s.flagsAt 0)) :
    runOps (.wait (.flag m) onFail :: ps) f s = runOps ps f s.readNow.readFlags :=
  runOps_waitFlag_done ps f s m onFail h.1 h.2

/-- The state after the address phase, with a ready bus and no NAK (R170). -/
def prefixDone (s : State) (addr reg : Byte) : State :=
  { s with
    regs := { s.regs with rst := false, ie := 0, ctlw := 0x3, addr := addr, txbuf := reg }
    env :=
      { s.env with
        now := s.env.now.skip 3, busy := s.env.busy.skip 1, flags := s.env.flags.skip 2 }
    trace := s.trace ++ prefixEvents s addr reg }

section

variable (s : State) (addr reg : Byte) (k : Nat)

@[simp] theorem prefixDone_par : (prefixDone s addr reg).par = s.par := rfl
@[simp] theorem prefixDone_ctx : (prefixDone s addr reg).ctx = s.ctx := rfl
@[simp] theorem prefixDone_regs : (prefixDone s addr reg).regs =
    { s.regs with rst := false, ie := 0, ctlw := 0x3, addr := addr, txbuf := reg } := rfl
@[simp] theorem prefixDone_execCtx : (prefixDone s addr reg).execCtx = s.execCtx := rfl
@[simp] theorem prefixDone_trace :
    (prefixDone s addr reg).trace = s.trace ++ prefixEvents s addr reg := rfl
@[simp] theorem prefixDone_sink : (prefixDone s addr reg).sink = s.sink := rfl
@[simp] theorem prefixDone_mem : (prefixDone s addr reg).mem = s.mem := rfl
@[simp] theorem prefixDone_task : (prefixDone s addr reg).task = s.task := rfl
@[simp] theorem prefixDone_lastResult : (prefixDone s addr reg).lastResult = s.lastResult := rfl
@[simp] theorem prefixDone_program : (prefixDone s addr reg).program = s.program := rfl
@[simp] theorem prefixDone_irqs : (prefixDone s addr reg).irqs = s.irqs := rfl
@[simp] theorem prefixDone_env : (prefixDone s addr reg).env =
    { s.env with
      now := s.env.now.skip 3, busy := s.env.busy.skip 1, flags := s.env.flags.skip 2 } := rfl
@[simp] theorem prefixDone_fresh : (prefixDone s addr reg).fresh = s.fresh := rfl

@[simp] theorem prefixDone_nowAt : (prefixDone s addr reg).nowAt k = s.nowAt (3 + k) := by
  simp [State.nowAt]
@[simp] theorem prefixDone_ctlAt : (prefixDone s addr reg).ctlAt k = s.ctlAt k := rfl
@[simp] theorem prefixDone_flagsAt : (prefixDone s addr reg).flagsAt k = s.flagsAt (2 + k) := by
  simp [State.flagsAt]
@[simp] theorem prefixDone_rdRxAt : (prefixDone s addr reg).rdRxAt k = s.rdRxAt k := rfl

end

/-- The address phase at the head of a list of primitives (R170). -/
theorem runOps_regPrefixOps {s : State} (h : prefixReady s) (addr reg : Byte) (ps : List Prim)
    (f : Frame) :
    runOps (regPrefixOps addr reg ++ ps) f s = runOps ps f (prefixDone s addr reg) := by
  obtain ⟨hbusy, htx0, htx1⟩ := h
  simp only [regPrefixOps, checkNotBusyOps, List.cons_append, List.nil_append, runOps_reset,
    runOps_unreset]
  rw [runOps_waitClears_done _ _ _ _ _ (by simpa [State.condAsserted] using hbusy),
    runOps_setAddr, runOps_setCtl, State.sampleCond, runOps_waitFlag_ready (by simpa using htx0),
    runOps_wrTx, runOps_waitFlag_ready (by simpa using htx1)]
  congr 1
  apply State.eq_of_fields <;> simp [prefixEvents, hbusy, ctlTr, ctlStart]

/-- Settles O38: after the address phase START deasserts, and each byte comes with its receive flag;
STOP is set between the two. -/
theorem read16Result : Obligations.Read16Result := by
  intro s addr reg hready hphase (hstart : has (s.ctlAt 0) ctlStart = false) hrx0 hrx1
  have hie := ie_of_callerReady hready
  refine (asCaller_ready hready).trans (congrArg _ ?_)
  simp only [read16Ops, readTurnOps, List.append_assoc, runOps_regPrefixOps hphase,
    List.cons_append, List.nil_append, runOps_clrCtl, runOps_setCtl]
  rw [runOps_waitClears_done _ _ _ _ _ (by simpa [State.condAsserted] using hstart),
    State.sampleCond, runOps_waitFlag_ready (by simpa using hrx0), runOps_rdRx, runOps_setCtl,
    runOps_waitFlag_ready (by simpa using hrx1), runOps_rdRx, runOps_retHalf]
  apply State.eq_of_fields <;>
    simp [finish, callerFrame, Frame.new, bigEndian, hie, ctlTr, ctlStart, ctlStop]

/-- Settles O41: after the address phase the high byte and the low byte, each with its transmit
flag, then STOP, which deasserts. -/
theorem write16Result : Obligations.Write16Result := by
  intro s addr reg v hready hphase htx0 htx1 (hstop : has (s.ctlAt 0) ctlStop = false)
  have hie := ie_of_callerReady hready
  refine (asCaller_ready hready).trans (congrArg _ ?_)
  simp only [write16Ops, writeEndOps, List.append_assoc, runOps_regPrefixOps hphase,
    List.cons_append, List.nil_append, runOps_wrTx]
  rw [runOps_waitFlag_ready (by simpa using htx0), runOps_wrTx,
    runOps_waitFlag_ready (by simpa using htx1), runOps_setCtl,
    runOps_waitClears_done _ _ _ _ _ (by simpa [State.condAsserted] using hstop), State.sampleCond,
    runOps_ret]
  apply State.eq_of_fields <;>
    simp [finish, callerFrame, Frame.new, hie, highByte, lowByte, ctlStop]

end Sys2Proof.Machine
end

section
/-! The tables of the encoding (R80 to R90), each read once: the rows of the opcode table, the tests
of a descriptor, the vectors and the codes of the internal primitives. -/

namespace Sys2Proof

/-! ### The rows of the opcode table -/

/-- The codes of the Caller operations (R81). -/
def callerCodes : List Byte := [0x01, 0x02, 0x10, 0x11, 0x12, 0x13, 0x14, 0x15, 0x16]

theorem mem_callerCodes {op : Byte} :
    op ∈ callerCodes ↔ op = 0x01 ∨ op = 0x02 ∨ op = 0x10 ∨ op = 0x11 ∨ op = 0x12 ∨ op = 0x13 ∨
      op = 0x14 ∨ op = 0x15 ∨ op = 0x16 := by
  simp [callerCodes]

theorem opRow_of_mem : ∀ op ∈ callerCodes, ∃ u make, opRow op = some (u, make) := by
  intro op hop
  rcases mem_callerCodes.mp hop with rfl | rfl | rfl | rfl | rfl | rfl | rfl | rfl | rfl <;>
    exact ⟨_, _, rfl⟩

section

variable {op : Byte} {u : FieldUse} {make : Fields → BufRef → Instr} {n : Nat}

theorem mem_callerCodes_of_opRow (h : opRow op = some (u, make)) : op ∈ callerCodes := by
  have isCode (k : Byte) (hk : op.toNat = k.toNat) (hmem : k ∈ callerCodes) : op ∈ callerCodes :=
    BitVec.eq_of_toNat_eq hk ▸ hmem
  simp only [opRow] at h
  split at h
  · exact isCode 0x01 ‹_› (by decide)
  · exact isCode 0x02 ‹_› (by decide)
  · exact isCode 0x10 ‹_› (by decide)
  · exact isCode 0x11 ‹_› (by decide)
  · exact isCode 0x12 ‹_› (by decide)
  · exact isCode 0x13 ‹_› (by decide)
  · exact isCode 0x14 ‹_› (by decide)
  · exact isCode 0x15 ‹_› (by decide)
  · exact isCode 0x16 ‹_› (by decide)
  · cases h

/-- The columns of the table of R82, each as the list of the codes that have its value. -/
theorem opRow_columns (h : opRow op = some (u, make)) :
    (u.client = true ↔ op ∈ ([0x01, 0x02] : List Byte)) ∧
    (u.flags = true ↔ op ∈ ([0x01, 0x02] : List Byte)) ∧
    (u.reg = false ↔ op ∈ ([0x01, 0x02, 0x10] : List Byte)) ∧
    (u.arg = .zero ↔ op ∈ ([0x10, 0x11, 0x12] : List Byte)) ∧
    (u.arg = .byte ↔ op = 0x14) ∧
    (u.arg = .count ↔ op ∈ ([0x01, 0x02, 0x13, 0x16] : List Byte)) ∧
    (u.buf = true ↔ op ∈ ([0x01, 0x02, 0x13, 0x16] : List Byte)) ∧
    (u.buf = false ↔ op ∈ ([0x10, 0x11, 0x12, 0x14, 0x15] : List Byte)) := by
  rcases mem_callerCodes.mp (mem_callerCodes_of_opRow h) with
    rfl | rfl | rfl | rfl | rfl | rfl | rfl | rfl | rfl
  all_goals
    cases h
    decide

/-! ### The tests of a descriptor -/

theorem shiftRight_8_eq_zero_iff (v : BitVec 16) : v >>> 8 = 0#16 ↔ v.toNat < 256 := by
  rw [← BitVec.toNat_inj]
  simp [Nat.shiftRight_eq_div_pow]

/-- A half word below 256 is what its low byte widens to (`WRITE8`, R82). -/
theorem setWidth_setWidth_of_high_zero {v : BitVec 16} (h : v >>> 8 = 0#16) :
    (v.setWidth 8).setWidth 16 = v := by
  have hlt := (shiftRight_8_eq_zero_iff v).mp h
  apply BitVec.eq_of_toNat_eq
  simp only [BitVec.toNat_setWidth]
  omega

theorem rsv_zero_of_badField {f : Fields} (h : u.badField f = false) : f.rsv = 0 := by
  simp only [FieldUse.badField, Bool.or_eq_false_iff, bne_eq_false_iff_eq] at h
  obtain ⟨⟨⟨-, hrsv⟩, -⟩, -⟩ := h
  exact hrsv

theorem badFlags_of_legal {f : Fields} (h : flagsLegal f.flags) : u.badFlags f = false := by
  have hzero : f.flags &&& 0xF8 = 0 := h
  rw [FieldUse.badFlags, hzero]
  exact Bool.and_false _

theorem badLength_of_legal {f : Fields} (h : countLegal n f.arg) : u.badLength n f = false := by
  simp [FieldUse.badLength, h]

/-- What a row's field test finds, in the words of R84 about the descriptor. -/
theorem nonzero_of_badField {f : Fields} (hrow : opRow f.op = some (u, make))
    (h : u.badField f = true) :
    f.rsv ≠ 0 ∨ (f.op ∉ ([0x01, 0x02] : List Byte) ∧ (f.client ≠ 0 ∨ f.flags ≠ 0)) ∨
      (f.op ∈ ([0x01, 0x02, 0x10] : List Byte) ∧ f.reg ≠ 0) ∨
      (f.op ∈ ([0x10, 0x11, 0x12] : List Byte) ∧ f.arg ≠ 0) ∨
      (f.op = 0x14 ∧ 256 ≤ f.arg.toNat) := by
  obtain ⟨hclient, hflags, hreg, hzero, hbyte, -⟩ := opRow_columns hrow
  have hsame : u.client = u.flags := by rw [Bool.eq_iff_iff, hclient, hflags]
  rw [← hclient, ← hreg, ← hzero, ← hbyte, ← Nat.not_lt, ← shiftRight_8_eq_zero_iff]
  simp only [FieldUse.badField, hsame, Bool.or_eq_true, Bool.and_eq_true, Bool.not_eq_true',
    bne_iff_ne, beq_iff_eq, Bool.not_eq_true] at h ⊢
  tauto

/-- A descriptor decodes exactly when it has a row and passes the row's tests (R84). -/
theorem decodeDesc_ok_iff {w : BitVec 64} {buf : Option BufRef} {i : Instr} :
    decodeDesc n w buf = .ok i ↔
      ∃ u make, opRow (fieldsOf w).op = some (u, make) ∧ u.badField (fieldsOf w) = false ∧
        u.badFlags (fieldsOf w) = false ∧ u.badLength n (fieldsOf w) = false ∧
        buf.isSome = u.buf ∧ i = make (fieldsOf w) (buf.getD .null) := by
  refine ⟨decodeDesc_ok, ?_⟩
  rintro ⟨u, make, hrow, hfield, hflags, hlength, hbuf, rfl⟩
  simp [decodeDesc, hrow, hfield, hflags, hlength, hbuf]

/-- A refusal names a test that the descriptor fails (R84). -/
theorem decodeDesc_error {w : BitVec 64} {buf : Option BufRef} {e : Reject}
    (h : decodeDesc n w buf = .error e) :
    (e = .opcode ∧ opRow (fieldsOf w).op = none) ∨
      ∃ u make, opRow (fieldsOf w).op = some (u, make) ∧
        ((e = .field ∧ u.badField (fieldsOf w) = true) ∨
          (e = .flags ∧ u.badFlags (fieldsOf w) = true) ∨
          (e = .length ∧ u.badLength n (fieldsOf w) = true) ∨
          (e = .operand ∧ buf.isSome ≠ u.buf)) := by
  simp only [decodeDesc] at h
  split at h
  · rename_i hrow
    cases h
    exact .inl ⟨rfl, hrow⟩
  · rename_i u make hrow
    refine .inr ⟨u, make, hrow, ?_⟩
    split_ifs at h with hfield hflags hlength hbuf <;> cases h
    · exact .inl ⟨rfl, hfield⟩
    · exact .inr (.inl ⟨rfl, hflags⟩)
    · exact .inr (.inr (.inl ⟨rfl, hlength⟩))
    · exact .inr (.inr (.inr ⟨rfl, bne_iff_ne.mp hbuf⟩))

/-! ### Descriptors to operations and back -/

/-- A word made of fields decodes, when the fields pass the tests of their row (R80 to R84). -/
theorem decode_mkDesc {client flags addr reg : Byte} {arg : BitVec 16} {buf : Option BufRef}
    {i : Instr} (hrow : opRow op = some (u, make))
    (hmake : make ⟨op, client, flags, addr, reg, 0, arg⟩ (buf.getD .null) = i)
    (hfield : u.badField ⟨op, client, flags, addr, reg, 0, arg⟩ = false)
    (hflags : u.badFlags ⟨op, client, flags, addr, reg, 0, arg⟩ = false)
    (hlength : u.badLength n ⟨op, client, flags, addr, reg, 0, arg⟩ = false)
    (hbuf : buf.isSome = u.buf) :
    decode n (.desc (mkDesc op client flags addr reg arg) buf) = .ok i :=
  decodeDesc_ok_iff.mpr ⟨u, make, by rw [fieldsOf_mkDesc, hrow], by rw [fieldsOf_mkDesc, hfield],
    by rw [fieldsOf_mkDesc, hflags], by rw [fieldsOf_mkDesc, hlength], hbuf,
    by rw [fieldsOf_mkDesc, hmake]⟩

/-- The operation of a row keeps every field that the row uses, and the others are 0. -/
theorem encode_make {f : Fields} {buf : Option BufRef} (hrow : opRow f.op = some (u, make))
    (hfield : u.badField f = false) (hbuf : buf.isSome = u.buf) :
    encode (make f (buf.getD .null)) =
      .desc (mkDesc f.op f.client f.flags f.addr f.reg f.arg) buf := by
  rcases mem_callerCodes.mp (mem_callerCodes_of_opRow hrow) with e | e | e | e | e | e | e | e | e
  all_goals
    rw [e] at hrow
    cases hrow
    cases buf <;> simp_all [FieldUse.badField, encode, setWidth_setWidth_of_high_zero]

end

/-! ### Vectors -/

/-- The table of R89. -/
theorem decodeVector_eq (v : Byte) :
    decodeVector v = if v = 0x00 then .vecNone else if v = 0x01 then .vecNak
      else if v = 0x02 then .vecRxrdy else if v = 0x03 then .vecTxrdy else .vecOther v := by
  split_ifs with h0 h1 h2 h3
  · rw [h0]; rfl
  · rw [h1]; rfl
  · rw [h2]; rfl
  · rw [h3]; rfl
  · simp only [decodeVector]
    split
    · exact absurd (BitVec.eq_of_toNat_eq ‹_›) h0
    · exact absurd (BitVec.eq_of_toNat_eq ‹_›) h1
    · exact absurd (BitVec.eq_of_toNat_eq ‹_›) h2
    · exact absurd (BitVec.eq_of_toNat_eq ‹_›) h3
    · rfl

theorem decodeVector_other {v : Byte} (h : otherVectorLegal v) : decodeVector v = .vecOther v := by
  have ne (k : Byte) (hk : k.toNat < 4) : v ≠ k := by
    rintro rfl
    exact Nat.not_le.mpr hk h
  rw [decodeVector_eq, if_neg (ne 0 (by decide)), if_neg (ne 1 (by decide)),
    if_neg (ne 2 (by decide)), if_neg (ne 3 (by decide))]

theorem encode_decodeVector (v : Byte) : encode (decodeVector v) = .vec v := by
  rw [decodeVector_eq]
  split_ifs <;> simp [encode, *]

/-! ### Internal primitives -/

/-- A code decodes with its own kind of operands only, and the operation keeps both (R90). -/
theorem encode_of_decodePrim {code : Byte} {args : PrimArgs} {i : Instr}
    (h : decodePrim code args = .ok i) : encode i = .prim code args := by
  have isCode (k : Byte) (hk : code.toNat = k.toNat) : code = k := BitVec.eq_of_toNat_eq hk
  simp only [decodePrim] at h
  split at h
  case h_7 => split at h <;> cases h
  · cases h; rw [isCode 0x40 ‹_›]; rfl
  · cases h; rw [isCode 0x41 ‹_›]; rfl
  · cases h; rw [isCode 0x42 ‹_›]; rfl
  · cases h; rw [isCode 0x43 ‹_›]; rfl
  · cases h; rw [isCode 0x44 ‹_›]; rfl
  · cases h; rw [isCode 0x45 ‹_›]; rfl

end Sys2Proof
end

section
/-! Decoder and encoder against each other and against the tables of the spec (R80 to R90, R99). -/

namespace Sys2Proof.Machine

/-- Settles O1: the fields of an encoded word pass the tests of their row, by well-formedness where a
row tests the flags or a count; a vector and an internal code are read back by their table. -/
theorem decodeOfEncodeIsIdentity : Obligations.DecodeOfEncodeIsIdentity := by
  intro n i hwf
  cases i with
  | read | write =>
    obtain ⟨hflags, hcount⟩ := of_decide_eq_true hwf
    exact decode_mkDesc rfl rfl rfl (badFlags_of_legal hflags) (badLength_of_legal hcount) rfl
  | readblock | writeblock =>
    exact decode_mkDesc rfl rfl rfl rfl (badLength_of_legal (of_decide_eq_true hwf)) rfl
  | present | read8 | read16 | write16 => exact decode_mkDesc rfl rfl rfl rfl rfl rfl
  | write8 addr reg v =>
    have hhigh : v.setWidth 16 >>> 8 = 0#16 := by ext; simp
    refine decode_mkDesc rfl ?_ ?_ rfl rfl rfl
    · simp
    · simp [FieldUse.badField, hhigh]
  | vecOther v => exact congrArg _ (decodeVector_other (of_decide_eq_true hwf))
  | vecNone | vecNak | vecRxrdy | vecTxrdy => rfl
  | waitClears | waitFlag | checkNotBusy | escalate | regPrefix | init => rfl

/-- Settles O2, format by format: of a descriptor, the row's operation keeps the fields it uses, the
others are tested to be 0, and a word is made of its fields. -/
theorem encodeOfDecodeIsIdentity : Obligations.EncodeOfDecodeIsIdentity := by
  intro n p i hdec
  refine ⟨?_, (decode_ok hdec).2⟩
  cases p with
  | desc w buf =>
    obtain ⟨u, make, hrow, hfield, -, -, hbuf, rfl⟩ := decodeDesc_ok hdec
    rw [encode_make hrow hfield hbuf, mkDesc_fieldsOf w (rsv_zero_of_badField hfield)]
  | vec v => cases hdec; exact encode_decodeVector v
  | prim code args => exact encode_of_decodePrim hdec

section

variable {n : Nat} {w : BitVec 64} {buf : Option BufRef}

theorem mem_callerCodes_of_legalDescriptor (h : legalDescriptor n w buf) :
    (fieldsOf w).op ∈ callerCodes := by
  rw [mem_callerCodes]
  simp only [legalDescriptor] at h
  simp only [fieldsOf]
  tauto

/-- Row by row, the table of R82 allows what passes the four tests. -/
theorem legalDescriptor_iff {u : FieldUse} {make : Fields → BufRef → Instr}
    (hrow : opRow (fieldsOf w).op = some (u, make)) :
    legalDescriptor n w buf ↔
      u.badField (fieldsOf w) = false ∧ u.badFlags (fieldsOf w) = false ∧
        u.badLength n (fieldsOf w) = false ∧ buf.isSome = u.buf := by
  rcases mem_callerCodes.mp (mem_callerCodes_of_opRow hrow) with e | e | e | e | e | e | e | e | e
  all_goals
    rw [e] at hrow
    cases hrow
    simp only [fieldsOf] at e
    simp [e, legalDescriptor, fieldsOf, FieldUse.badField, FieldUse.badFlags, FieldUse.badLength,
      shiftRight_8_eq_zero_iff]
    tauto

/-- A refused descriptor has no step (R84). -/
theorem step_refused_of_decode_error {s : State} {rest : List Item} {e : Reject}
    (hready : s.callerReady = true) (hprog : s.program = .packet (.desc w buf) :: rest)
    (hdec : decode s.par.lenBits (.desc w buf) = .error e) :
    step s = .refused (.undecodable e) := by
  have htask : s.task = none := task_of_ready (ready_of_callerReady (i := .present 0) rfl hready)
  simp [step, htask, fetch, hprog, fetchItem, hready, hdec]

end

/-- Settles O4: a descriptor decodes when it has a row and passes the row's tests, which are the
table's conditions. -/
theorem decodableDescriptors : Obligations.DecodableDescriptors := by
  intro n w buf
  constructor
  · rintro ⟨i, hdec⟩
    obtain ⟨u, make, hrow, hfield, hflags, hlength, hbuf, -⟩ := decodeDesc_ok hdec
    exact (legalDescriptor_iff hrow).mpr ⟨hfield, hflags, hlength, hbuf⟩
  · intro hlegal
    obtain ⟨u, make, hrow⟩ := opRow_of_mem _ (mem_callerCodes_of_legalDescriptor hlegal)
    obtain ⟨hfield, hflags, hlength, hbuf⟩ := (legalDescriptor_iff hrow).mp hlegal
    exact ⟨_, decodeDesc_ok_iff.mpr ⟨u, make, hrow, hfield, hflags, hlength, hbuf, rfl⟩⟩

/-- Settles O5: what is not allowed does not decode (O4); a refusal names a failed test of the row,
and the columns of the table say what that test found. -/
theorem refusedDescriptors : Obligations.RefusedDescriptors := by
  intro n w buf
  constructor
  · intro hillegal
    cases hdec : decode n (.desc w buf) with
    | ok i => exact absurd ((decodableDescriptors n w buf).mp ⟨i, hdec⟩) hillegal
    | error e => exact ⟨e, rfl⟩
  · intro e hdec
    refine ⟨?_, fun s rest hready hlen hprog =>
      step_refused_of_decode_error hready hprog (hlen ▸ hdec)⟩
    rcases decodeDesc_error hdec with ⟨rfl, hnone⟩ | ⟨u, make, hrow, hfailed⟩
    · have hcode : (fieldsOf w).op ∉ callerCodes := fun hmem => by
        obtain ⟨u, make, hrow⟩ := opRow_of_mem _ hmem
        simp [hnone] at hrow
      exact hcode
    · obtain ⟨-, hflags, -, -, -, hcount, hpresent, habsent⟩ := opRow_columns hrow
      rcases hfailed with ⟨rfl, h⟩ | ⟨rfl, h⟩ | ⟨rfl, h⟩ | ⟨rfl, h⟩
      · exact nonzero_of_badField hrow h
      · simp only [FieldUse.badFlags, Bool.and_eq_true, bne_iff_ne] at h
        exact ⟨hflags.mp h.1, h.2⟩
      · simp only [FieldUse.badLength, Bool.and_eq_true, beq_iff_eq, Bool.not_eq_true',
          decide_eq_false_iff_not, Nat.not_lt] at h
        exact ⟨hcount.mp h.1, h.2⟩
      · cases buf with
        | none => exact .inl ⟨hpresent.mp (by simpa using h), rfl⟩
        | some b => exact .inr ⟨habsent.mp (by simpa using h), nofun⟩

/-- Settles O3: the eight lines are fixed words, which assembler and decoder compute. -/
theorem workedEncodings : Obligations.WorkedEncodings := fun _ =>
  ⟨⟨rfl, rfl⟩, ⟨rfl, rfl⟩, ⟨rfl, rfl⟩, ⟨rfl, rfl⟩, ⟨rfl, rfl⟩, ⟨rfl, rfl⟩, ⟨rfl, rfl⟩, ⟨rfl, rfl⟩⟩

/-- Settles O6, by the table of vectors. -/
theorem everyVectorDecodes : Obligations.EveryVectorDecodes :=
  fun _ v => congrArg _ (decodeVector_eq v)

end Sys2Proof.Machine
end

section
/-! The commands READ and WRITE (R110 to R112): what their tests refuse, and what they leave when
every wait of theirs ends at its first sample or is given up at the clock answer after it. -/

namespace Sys2Proof.Machine

/-! ### The tests of a command (R110) -/

theorem fitsCapacity_eq_false {n : Nat} {buf : BufRef} (h0 : 0 < bufCap buf) (h : bufCap buf < n) :
    fitsCapacity n buf = false := by
  simp [fitsCapacity, bufEmpty, Nat.ne_of_gt h0, h]

theorem asCaller_refused {s body : State} (h : s.callerReady = true) :
    asCaller s false body = .refused .lengthOverCapacity := by
  simp [asCaller, h]

/-- Settles O13: all four operations ask `fitsCapacity` before anything else. -/
theorem lengthOverCapacityRefused : Obligations.LengthOverCapacityRefused := by
  intro s client flags addr reg n buf hready h0 hover
  have refused (body : State) :
      asCaller s (fitsCapacity n.toNat buf) body = .refused .lengthOverCapacity := by
    rw [fitsCapacity_eq_false h0 hover, asCaller_refused hready]
  exact ⟨refused _, refused _, refused _, refused _⟩

/-- A count within the buffer passes the tests of R110, R111 and R112: the converse of
`transfer_bounds`. -/
theorem transfer_accepted {n : Nat} {buf : BufRef} (h0 : 0 < n) (h : n ≤ bufCap buf) :
    fitsCapacity n buf = true ∧ badArgument n buf = false := by
  have hcap : bufCap buf ≠ 0 := by omega
  simp [fitsCapacity, badArgument, bufEmpty, Nat.ne_of_gt h0, h, hcap]

section

variable {s : State} {client flags addr : Byte} {n : BitVec 16} {buf : BufRef}

/-- READ, its tests passed, records the context and runs its list (R111). -/
theorem exec_read_accepted (hready : s.callerReady = true) (h0 : 0 < n.toNat)
    (h : n.toNat ≤ bufCap buf) :
    exec (.read client flags addr n buf) s =
      .next (runOps (readOps s.ctx.started flags addr n.toNat) callerFrame
        (s.recordCtx .reading buf n.toNat flags addr)) := by
  obtain ⟨hfits, hgood⟩ := transfer_accepted h0 h
  simp [exec, execRead, hfits, hgood, asCaller_ready hready]

/-- WRITE, its tests passed, records the context and runs its list (R112). -/
theorem exec_write_accepted (hready : s.callerReady = true) (h0 : 0 < n.toNat)
    (h : n.toNat ≤ bufCap buf) :
    exec (.write client flags addr n buf) s =
      .next (runOps (writeOps s.ctx.started flags addr) callerFrame
        (s.recordCtx .writing buf n.toNat flags addr)) := by
  obtain ⟨hfits, hgood⟩ := transfer_accepted h0 h
  simp [exec, execWrite, hfits, hgood, asCaller_ready hready]

end

/-! ### The lists of the commands, by the flags of the request -/

section

variable (started : Bool) {flags : Byte} (addr : Byte) (len : Nat)

/-- READ with START or RESTART, its busy check first (R111). -/
theorem readOps_start (h : wantsStart flags = true) :
    readOps started flags addr len =
      (if skipBusy flags then [] else checkNotBusyOps (.retAs .busBusyTimeout)) ++
        (.setAddr addr :: .clrCtl ctlTr :: .setCtl ctlStart :: .setStarted true ::
          ((if len == 1 && wantsStop flags then [.wait (.clears .start) .ret, .setCtl ctlStop]
            else []) ++ readArmOps)) := by
  simp [readOps, h, readStartOps]

/-- WRITE with START or RESTART, its busy check first (R112). -/
theorem writeOps_start (h : wantsStart flags = true) :
    writeOps started flags addr =
      (if skipBusy flags then [] else checkNotBusyOps (.retAs .busBusyTimeout)) ++
        (.setAddr addr :: .setCtl (ctlTr ||| ctlStart) :: .setStarted true :: writeArmOps) := by
  simp [writeOps, h, writeStartOps]

/-- A continuation of READ (R111). -/
theorem readOps_continue (h : wantsStart flags = false) :
    readOps started flags addr len =
      if started then
        (if len == 1 && wantsStop flags then [.setCtl ctlStop] else []) ++ readArmOps
      else [.ret .protocolViolation] := by
  cases started <;> simp [readOps, h]

/-- A continuation of WRITE (R112). -/
theorem writeOps_continue (h : wantsStart flags = false) :
    writeOps started flags addr =
      if started then writeArmOps else [.ret .protocolViolation] := by
  cases started <;> simp [writeOps, h]

end

/-- The end of a READ that is accepted: NAK and RX enabled (R111, R205). -/
theorem runOps_readArmOps (s : State) :
    runOps readArmOps callerFrame s = (s.pSetIE 0x6).returnResult (.outcome .accepted) := rfl

/-- The end of a WRITE that is accepted: NAK and TX enabled (R112, R205). -/
theorem runOps_writeArmOps (s : State) :
    runOps writeArmOps callerFrame s = (s.pSetIE 0x5).returnResult (.outcome .accepted) := rfl

/-- Settles O15: a continuation only returns, or sets STOP where it is due and arms. -/
theorem continuations : Obligations.Continuations := by
  intro s client flags addr n buf hready (hstart : wantsStart flags = false) h0 hcap single
  have hie := ie_of_callerReady hready
  rw [exec_read_accepted hready h0 hcap, exec_write_accepted hready h0 hcap,
    readOps_continue _ _ _ hstart, writeOps_continue _ _ hstart]
  refine ⟨fun hstarted => ?_, fun hstarted => ?_⟩
  · constructor <;> refine congrArg _ ?_ <;> apply State.eq_of_fields <;>
      simp [hstarted, finish, callerFrame, Frame.new]
  · have hsingle : (n.toNat == 1 && wantsStop flags) = single := rfl
    constructor <;> refine congrArg _ ?_
    · cases hs : single <;> apply State.eq_of_fields <;>
        simp [hstarted, hsingle, hs, runOps_readArmOps, hie, ctlStop]
    · apply State.eq_of_fields <;> simp [hstarted, runOps_writeArmOps, hie]

/-! ### START and RESTART -/

/-- The state after the busy check of a command on an idle bus; a RESTART leaves it out (R133). -/
def busChecked (restart : Bool) (s : State) : State :=
  if restart then s else s.pReset.pUnreset.readNow.readBusy

/-- The busy check at the head of a command finds the bus idle at the first sample. -/
theorem runOps_busCheck {s : State} {restart : Bool} (h : restart = false → s.busyAt 0 = false)
    (onFail : OnFail) (ps : List Prim) (f : Frame) :
    runOps ((if restart then [] else checkNotBusyOps onFail) ++ ps) f s =
      runOps ps f (busChecked restart s) := by
  cases restart with
  | true => rfl
  | false =>
    have hidle : s.pReset.pUnreset.readNow.condAsserted .busy = false := h rfl
    exact runOps_waitClears_done ps f s.pReset.pUnreset .busy onFail hidle

@[simp] theorem busChecked_par (restart : Bool) (s : State) :
    (busChecked restart s).par = s.par := by
  cases restart <;> rfl

@[simp] theorem busChecked_ctlAt (restart : Bool) (s : State) (k : Nat) :
    (busChecked restart s).ctlAt k = s.ctlAt k := by
  cases restart <;> rfl

@[simp] theorem busChecked_nowAt (restart : Bool) (s : State) (k : Nat) :
    (busChecked restart s).nowAt k = s.nowAt ((if restart then 0 else 1) + k) := by
  cases restart <;> simp [busChecked]

/-- Settles O14: the busy check, the address phase, for a single byte with STOP the wait for START,
and the end that arms. -/
theorem readWithStartAccepted : Obligations.ReadWithStartAccepted := by
  intro s client flags addr n buf hready (hstart : wantsStart flags = true) h0 hcap restart single k
    hidle hclear
  have hie := ie_of_callerReady hready
  have hrestart : skipBusy flags = restart := rfl
  have hsingle : (n.toNat == 1 && wantsStop flags) = single := rfl
  refine (exec_read_accepted hready h0 hcap).trans (congrArg _ ?_)
  rw [readOps_start _ _ _ hstart, hrestart, hsingle, runOps_busCheck (by simpa using hidle)]
  simp only [runOps_setAddr, runOps_clrCtl, runOps_setCtl, runOps_setStarted]
  cases hs : single with
  | false =>
    cases hr : restart <;> apply State.eq_of_fields <;>
      simp_all [k, busChecked, runOps_readArmOps, ctlTr, ctlStart]
  | true =>
    rw [if_pos rfl, List.cons_append,
      runOps_waitClears_done _ _ _ _ _ (by simpa [State.condAsserted, ctlStart] using hclear hs)]
    cases hr : restart <;> apply State.eq_of_fields <;>
      simp_all [k, busChecked, runOps_readArmOps, State.sampleCond, ctlTr, ctlStart, ctlStop]

/-- Settles O16: the busy check, the address phase, and the end that arms. -/
theorem writeWithStartAccepted : Obligations.WriteWithStartAccepted := by
  intro s client flags addr n buf hready (hstart : wantsStart flags = true) h0 hcap restart k hidle
  have hie := ie_of_callerReady hready
  have hrestart : skipBusy flags = restart := rfl
  refine (exec_write_accepted hready h0 hcap).trans (congrArg _ ?_)
  rw [writeOps_start _ _ hstart, hrestart, runOps_busCheck (by simpa using hidle)]
  simp only [runOps_setAddr, runOps_setCtl, runOps_setStarted, runOps_writeArmOps]
  cases hr : restart <;> apply State.eq_of_fields <;>
    simp_all [k, busChecked, ctlTr, ctlStart]

/-! ### Waits that time out -/

/-- A condition asserted in the first sample, with the budget used at the next clock answer: the
wait escalates, and the operation does what it says of the failure (R131, R202). -/
theorem runOps_waitClears_timeout {s : State} {c : Cond} (onFail : OnFail) (ps : List Prim)
    (f : Frame) (h : s.readNow.condAsserted c = true)
    (hbudget : s.par.timeoutBudget ≤ (s.readNow.sampleCond c).elapsedFrom (s.nowAt 0)) :
    runOps (.wait (.clears c) onFail :: ps) f s =
      afterPoll (.clears c) (s.nowAt 0) onFail ps f (runOps ps)
        (.failed .timeout, (s.readNow.sampleCond c).readNow.escalate
          (clearTimeoutReport c (s.nowAt 0)
            ((s.readNow.sampleCond c).elapsedFrom (s.nowAt 0)))) := by
  simp [runOps_wait, pollWait, pollClears, h, hbudget]

/-- The busy check at the head of a command gives up and returns BusBusyTimeout (R111, R112). -/
theorem runOps_busCheck_timeout {s : State} (hbusy : s.busyAt 0 = true)
    (hbudget : s.par.timeoutBudget ≤ s.nowAt 1 - s.nowAt 0) (ps : List Prim) :
    runOps (checkNotBusyOps (.retAs .busBusyTimeout) ++ ps) callerFrame s =
      (s.pReset.pUnreset.readNow.readBusy.readNow.escalate
        ⟨.guardClearTimeout, 0x01, s.nowAt 0, s.nowAt 1 - s.nowAt 0⟩).returnResult
          (.outcome .busBusyTimeout) := by
  have hpoll := runOps_waitClears_timeout (s := s.pReset.pUnreset) (c := .busy)
    (.retAs .busBusyTimeout) ps callerFrame hbusy
    (by simpa [State.sampleCond, State.elapsedFrom] using hbudget)
  refine hpoll.trans ?_
  simp [afterPoll, finish, callerFrame, Frame.new, State.sampleCond, State.elapsedFrom,
    clearTimeoutReport, diagCode, condCode]

/-- A value has a mask of two parts when it has one of the parts (R7). -/
theorem has_or {w : Nat} (v m n : BitVec w) : has v (m ||| n) = (has v m || has v n) := by
  simp [has, BitVec.and_or_distrib_left, BitVec.or_eq_zero_iff, bne, Bool.beq_eq_decide_eq]

/-- Settles O17: both waits are at the front of what is left of the list, and their failure is
returned. -/
theorem commandTimeouts : Obligations.CommandTimeouts := by
  constructor
  · intro s client flags addr n buf hready hstart (hrestart : skipBusy flags = false) h0 hcap e r
      hbusy hbudget t
    have hwants : wantsStart flags = true := by
      rw [wantsStart, has_or, Bool.or_eq_true]
      exact .inl hstart
    have timeout (d : Direction) (ps : List Prim) :
        runOps (checkNotBusyOps (.retAs .busBusyTimeout) ++ ps) callerFrame
          (s.recordCtx d buf n.toNat flags addr) = t := by
      rw [runOps_busCheck_timeout (by simpa using hbusy) (by simpa using hbudget)]
      apply State.eq_of_fields <;> simp [t, r, e, hbusy, escalatedRegs, escalation, delivered] <;>
        rfl
    rw [exec_read_accepted hready h0 hcap, exec_write_accepted hready h0 hcap,
      readOps_start _ _ _ hwants, writeOps_start _ _ hwants, hrestart]
    exact ⟨congrArg _ (timeout _ _), congrArg _ (timeout _ _)⟩
  · intro s client flags addr n buf hready (hstart : wantsStart flags = true) hone
      (hstop : wantsStop flags = true) hcap restart k e r hidle hasserted hbudget
    have hrestart : skipBusy flags = restart := rfl
    have hsingle : (n.toNat == 1 && wantsStop flags) = true := by simp [hone, hstop]
    refine (exec_read_accepted hready (by omega) (by omega)).trans (congrArg _ ?_)
    rw [readOps_start _ _ _ hstart, hrestart, if_pos hsingle,
      runOps_busCheck (by simpa using hidle)]
    simp only [runOps_setAddr, runOps_clrCtl, runOps_setCtl, runOps_setStarted, List.cons_append]
    rw [runOps_waitClears_timeout _ _ _ (by simpa [State.condAsserted, ctlStart] using hasserted)
      (by simpa [State.sampleCond, State.elapsedFrom, e, k, Nat.add_comm] using hbudget)]
    cases hr : restart <;> apply State.eq_of_fields <;>
      simp_all [k, e, r, busChecked, afterPoll, finish, callerFrame, Frame.new, State.sampleCond,
        State.elapsedFrom, clearTimeoutReport, diagCode, condCode, escalatedRegs, escalation,
        delivered, ctlTr, ctlStart] <;> rfl

end Sys2Proof.Machine
end

section
/-! The armed phase (R110, R114, R253): the Caller holds, an entry the peripheral raises runs. -/

namespace Sys2Proof.Machine

theorem callerReady_of_inFlight {s : State} (h : s.inFlight = true) : s.callerReady = false := by
  simp [State.callerReady, h]

theorem asCaller_held {s body : State} {fits : Bool} (h : s.callerReady = false) :
    asCaller s fits body = .next s := by
  simp [asCaller, h]

theorem raised_of_no_request {s : State} (h : s.irqs = []) : raised s = .pass s := by
  simp only [raised, h]
  split <;> rfl

/-- With nothing presented, or a Caller operation that holds, what moves next is what the peripheral
raises (R110). -/
theorem fetch_of_held {s : State} (hheld : s.callerReady = false)
    (hprog : s.program = [] ∨ ∃ w buf rest, s.program = .packet (.desc w buf) :: rest) :
    fetch s = raised s := by
  rcases hprog with hprog | ⟨w, buf, rest, hprog⟩ <;>
    simp [fetch, hprog, fetchItem, Packet.byCaller, hheld]

/-- A state whose step is itself stays for ever. -/
theorem run_of_step_self {s : State} (h : step s = .next s) (k : Nat) :
    Host.Core.run Sys2Proof.core k s = .next s := by
  induction k with
  | zero => rfl
  | succ k ih => simpa [Host.Core.run, Sys2Proof.core, h] using ih

/-- Settles O9: every Caller operation asks `callerReady` first; and with no request a step passes
and takes nothing. -/
theorem inFlightTheCallerHolds : Obligations.InFlightTheCallerHolds := by
  constructor
  · intro s i hi hflight
    have held (fits : Bool) (body : State) : asCaller s fits body = .next s :=
      asCaller_held (callerReady_of_inFlight hflight)
    cases i with
    | read | write | present | read8 | read16 | readblock | write8 | write16 | writeblock =>
      exact held _ _
    | _ => cases hi
  · intro s hflight htask hirqs hprog
    have hfetch : fetch s = .pass s := by
      rw [fetch_of_held (callerReady_of_inFlight hflight) hprog, raised_of_no_request hirqs]
    exact run_of_step_self (by simp [step, htask, hfetch])

end Sys2Proof.Machine
end

section
/-! Armed transfers to their completion (R114, R150, R151, R154): the step of a raised vector, one
step per byte, the finalize when STOP deasserts at its first sample, and the induction over the
bytes left. -/

namespace Sys2Proof.Machine

/-! ### What a data handler does, case by case -/

theorem isrTxrdy_push {s : State} {a : Nat} (hdir : s.ctx.direction = .writing)
    (hrem : 0 < s.ctx.remaining) (ha : bufAddr s.ctx.buffer s.ctx.position = some a) :
    isrTxrdy s = .next ((s.pWrTx (s.mem.read a)).moveByte).leaveIsr := by
  simp [isrTxrdy, hdir, hrem, ha]

theorem isrTxrdy_finalize {s : State} (hdir : s.ctx.direction = .writing)
    (hrem : s.ctx.remaining = 0) :
    isrTxrdy s = .next (runOps (txFinalizeOps s.par s.ctx.flags) (isrFrame .success) s) := by
  simp [isrTxrdy, hdir, hrem]

theorem isrRxrdy_byte {s : State} {a : Nat} (hdir : s.ctx.direction = .reading)
    (hrem : 1 < s.ctx.remaining) (ha : bufAddr s.ctx.buffer s.ctx.position = some a) :
    isrRxrdy s = .next (rxByte a s).leaveIsr := by
  have h0 : s.ctx.remaining ≠ 0 := by omega
  have h1 : s.ctx.remaining - 1 ≠ 0 := by omega
  simp [isrRxrdy, hdir, h0, h1, ha]

theorem isrRxrdy_last {s : State} {a : Nat} (hdir : s.ctx.direction = .reading)
    (hrem : s.ctx.remaining = 1) (ha : bufAddr s.ctx.buffer s.ctx.position = some a) :
    isrRxrdy s =
      .next (runOps (rxFinalizeOps s.par s.ctx.flags) (isrFrame .success) (rxByte a s)) := by
  simp [isrRxrdy, hdir, hrem, ha]

/-! ### The byte of VEC_RXRDY: what it changes beside context and memory -/

section

variable (a : Nat) (s : State)

@[simp] theorem rxByte_par : (rxByte a s).par = s.par := by
  simp only [rxByte]; split <;> rfl
@[simp] theorem rxByte_ie : (rxByte a s).regs.ie = s.regs.ie := by
  simp only [rxByte]; split <;> rfl
@[simp] theorem rxByte_trace : (rxByte a s).trace =
    s.trace ++ (if wantsStop s.ctx.flags = true ∧ s.ctx.remaining = 2 then [.setCtl 0x4] else []) ++
      [.rdRx (s.rdRxAt 0)] := by
  have htwo : s.ctx.remaining - 1 = 1 ↔ s.ctx.remaining = 2 := by omega
  simp only [rxByte, Bool.and_eq_true, beq_iff_eq, htwo, and_comm]
  split <;> simp [ctlStop]
@[simp] theorem rxByte_task : (rxByte a s).task = s.task := by
  simp only [rxByte]; split <;> rfl
@[simp] theorem rxByte_program : (rxByte a s).program = s.program := by
  simp only [rxByte]; split <;> rfl
@[simp] theorem rxByte_irqs : (rxByte a s).irqs = s.irqs := by
  simp only [rxByte]; split <;> rfl
@[simp] theorem rxByte_env :
    (rxByte a s).env = { s.env with rdRx := s.env.rdRx.skip 1 } := by
  simp only [rxByte]; split <;> rfl
@[simp] theorem rxByte_nowAt (k : Nat) : (rxByte a s).nowAt k = s.nowAt k :=
  State.nowAt_congr (rxByte_par a s) (by simp) k
@[simp] theorem rxByte_ctlAt (k : Nat) : (rxByte a s).ctlAt k = s.ctlAt k := by
  simp [State.ctlAt]
@[simp] theorem rxByte_rdRxAt (k : Nat) : (rxByte a s).rdRxAt k = s.rdRxAt (1 + k) := by
  simp [State.rdRxAt]
@[simp] theorem rxByte_clientAt (k : Nat) : (rxByte a s).clientAt k = s.clientAt k := by
  simp [State.clientAt]

end

/-! ### The finalizes, STOP deasserting at the first sample -/

/-- From `s` to `u` a transfer has ended: the events `evs`, `Idle` with nothing enabled, and the
memory and the requests as they were. -/
structure Finalized (s u : State) (evs : List Event) : Prop where
  trace : u.trace = s.trace ++ evs
  mem : u.mem = s.mem
  direction : u.ctx.direction = .idle
  ie : u.regs.ie = 0
  irqs : u.irqs = s.irqs

/-- `P_CLEAR_STARTED` decides about `started` only. -/
theorem runOps_alwaysClearOps (p : Params) (ps : List Prim) (f : Frame) (s : State) :
    ∃ b, runOps (alwaysClearOps p ++ ps) f s = runOps ps f (s.setStarted b) := by
  simp only [alwaysClearOps]
  split
  · exact ⟨false, rfl⟩
  · exact ⟨s.ctx.started, rfl⟩

section

variable {s : State} {flags : Byte}
  (hstop : wantsStop flags = true → has (s.ctlAt 0) ctlStop = false)

include hstop

/-- The finalize of a write: STOP and its wait when requested, then the completion (R150). -/
theorem txFinalize_done (p : Params) :
    Finalized s (runOps (txFinalizeOps p flags) (isrFrame .success) s)
      ((if wantsStop flags then [.setCtl 0x4, .now (s.nowAt 0), .ctl (s.ctlAt 0)] else []) ++
        [.clrIE 0x7, .writeDone (s.completion .success)]) := by
  rw [txFinalizeOps, List.append_assoc]
  cases hs : wantsStop flags with
  | false =>
    obtain ⟨b, hclear⟩ := runOps_alwaysClearOps p [.clrIE ifAll, .setIdle, .signalWrite]
      (isrFrame .success) s
    rw [if_neg Bool.false_ne_true, List.nil_append, hclear]
    constructor <;> simp [endOfOps, isrFrame, Frame.new, ifAll, State.completion]
  | true =>
    obtain ⟨b, hclear⟩ := runOps_alwaysClearOps p [.clrIE ifAll, .setIdle, .signalWrite]
      (isrFrame .success) ((s.pSetCtl ctlStop).readNow.readCtl.setStarted false)
    rw [if_pos rfl, List.cons_append, runOps_setCtl, List.cons_append,
      runOps_waitClears_done _ _ _ _ _ (by simpa [State.condAsserted] using hstop hs),
      List.cons_append, runOps_setStarted, List.nil_append, State.sampleCond, hclear]
    constructor <;> simp [endOfOps, isrFrame, Frame.new, ifAll, ctlStop, State.completion]

/-- The finalize of a read: the STOP wait when STOP was requested, then the completion (R151). -/
theorem rxFinalize_done (p : Params) :
    Finalized s (runOps (rxFinalizeOps p flags) (isrFrame .success) s)
      (.clrIE 0x7 :: (if wantsStop flags then [.now (s.nowAt 0), .ctl (s.ctlAt 0)] else []) ++
        [.readDone (s.completion .success)]) := by
  rw [rxFinalizeOps, List.append_assoc, List.append_assoc, List.cons_append, List.nil_append,
    runOps_clrIE]
  cases hs : wantsStop flags with
  | false =>
    obtain ⟨b, hclear⟩ := runOps_alwaysClearOps p [.setIdle, .signalRead] (isrFrame .success)
      (s.pClrIE ifAll)
    rw [if_neg Bool.false_ne_true, List.nil_append, hclear]
    constructor <;> simp [endOfOps, isrFrame, Frame.new, ifAll, State.completion]
  | true =>
    obtain ⟨b, hclear⟩ := runOps_alwaysClearOps p [.setIdle, .signalRead] (isrFrame .success)
      ((s.pClrIE ifAll).readNow.readCtl.setStarted false)
    rw [if_pos rfl, List.cons_append,
      runOps_waitClears_done _ _ _ _ _ (by simpa [State.condAsserted] using hstop hs),
      List.cons_append, runOps_setStarted, List.nil_append, State.sampleCond, hclear]
    constructor <;> simp [endOfOps, isrFrame, Frame.new, ifAll, State.completion]

end

/-! ### The step of an armed transfer -/

/-- The state in which a handler starts: its request taken, the entry recorded (R207). -/
def entered (v : Byte) (rs : List IrqRequest) (s : State) : State :=
  State.enterIsr { s with irqs := rs } v

section

variable (v : Byte) (rs : List IrqRequest) (s : State) (k : Nat)

@[simp] theorem entered_par : (entered v rs s).par = s.par := rfl
@[simp] theorem entered_ctx : (entered v rs s).ctx = s.ctx := rfl
@[simp] theorem entered_regs : (entered v rs s).regs = s.regs := rfl
@[simp] theorem entered_trace : (entered v rs s).trace = s.trace ++ [.irq v] := rfl
@[simp] theorem entered_mem : (entered v rs s).mem = s.mem := rfl
@[simp] theorem entered_task : (entered v rs s).task = s.task := rfl
@[simp] theorem entered_program : (entered v rs s).program = s.program := rfl
@[simp] theorem entered_irqs : (entered v rs s).irqs = rs := rfl
@[simp] theorem entered_env : (entered v rs s).env = s.env := rfl
@[simp] theorem entered_nowAt : (entered v rs s).nowAt k = s.nowAt k := rfl
@[simp] theorem entered_ctlAt : (entered v rs s).ctlAt k = s.ctlAt k := rfl
@[simp] theorem entered_rdRxAt : (entered v rs s).rdRxAt k = s.rdRxAt k := rfl
@[simp] theorem entered_clientAt : (entered v rs s).clientAt k = s.clientAt k := rfl

end

/-- A transfer in direction `d` is armed, and nothing is presented. -/
structure Armed (d : Direction) (base cap : Nat) (s : State) : Prop where
  inv : Inv s
  task : s.task = none
  direction : s.ctx.direction = d
  ie : s.regs.ie ≠ 0
  buffer : s.ctx.buffer = .region base cap
  program : s.program = []

theorem Inv.execCtx_normal {s : State} (h : Inv s) (ht : s.task = none) : s.execCtx = .normal := by
  cases he : s.execCtx with
  | normal => rfl
  | interrupt => simpa [ht] using h.execCtx.mp he

section

variable {d : Direction} {base cap : Nat} {s : State} (h : Armed d base cap s)

include h

theorem Armed.inFlight : s.inFlight = true := by
  simpa [State.inFlight] using h.ie

theorem Armed.entryReady : s.entryReady = true := by
  simp [State.entryReady, State.engineFree, h.task, h.inv.execCtx_normal h.task, h.inFlight]

/-- The vector raised next is entered (R207). -/
theorem Armed.step_vector {v : Byte} {rs : List IrqRequest} (hirqs : s.irqs = .vector v :: rs) :
    step s = exec (decodeVector v) { s with irqs := rs } := by
  have hraised : raised s = .run (decodeVector v) { s with irqs := rs } := by
    simp only [raised, h.inFlight, h.entryReady, hirqs]
    rfl
  simp only [step, h.task, fetch, h.program, hraised]

theorem Armed.step_txrdy {rs : List IrqRequest} (hirqs : s.irqs = .vector 0x03 :: rs) :
    step s = isrTxrdy (entered 0x03 rs s) :=
  (h.step_vector hirqs).trans (if_pos h.entryReady)

theorem Armed.step_rxrdy {rs : List IrqRequest} (hirqs : s.irqs = .vector 0x02 :: rs) :
    step s = isrRxrdy (entered 0x02 rs s) :=
  (h.step_vector hirqs).trans (if_pos h.entryReady)

/-- While bytes are left, the position is in the buffer and does not wrap (R29). -/
theorem Armed.position (hd : d ≠ .idle) (hrem : 0 < s.ctx.remaining) :
    bufAddr s.ctx.buffer s.ctx.position = some (base + s.ctx.position) ∧
      countSucc s.par.lenBits s.ctx.position = s.ctx.position + 1 := by
  have hidle : s.ctx.direction ≠ .idle := h.direction ▸ hd
  obtain ⟨hsum, -, hlen, hcap⟩ := h.inv.ctx.resolve_left hidle
  rw [h.buffer] at hcap ⊢
  have hlt : s.ctx.position < cap := Nat.lt_of_lt_of_le (by omega) hcap
  exact ⟨if_pos hlt, Nat.mod_eq_of_lt (by omega)⟩

end

theorem run_succ {s v : State} (h : step s = .next v) (k : Nat) :
    Host.Core.run Sys2Proof.core (k + 1) s = Host.Core.run Sys2Proof.core k v := by
  simp [Host.Core.run, Sys2Proof.core, h]

/-! ### An armed write -/

/-- The state after the entry that pushes the byte at the position (R150). -/
def pushed (base : Nat) (rs : List IrqRequest) (s : State) : State :=
  (((entered 0x03 rs s).pWrTx (s.mem.read (base + s.ctx.position))).moveByte).leaveIsr

/-- The trace when the rest of an armed write is done: `n` bytes, each in its entry, and the
finalize (R150). -/
def writeTrace (base n : Nat) (s : State) : List Event :=
  s.trace ++ (List.range n).flatMap
      (fun i => [Event.irq 0x03, Event.wrTx (s.mem.read (base + (s.ctx.position + i)))]) ++
    [Event.irq 0x03] ++
    (if wantsStop s.ctx.flags then
      [Event.setCtl 0x4, Event.now (s.nowAt 0), Event.ctl (s.ctlAt 0)] else []) ++
    [Event.clrIE 0x7, Event.writeDone (s.completion .success)]

section

variable {base cap n : Nat} {s : State} {rs : List IrqRequest}

theorem writeTrace_pushed
    (hpos : countSucc s.par.lenBits s.ctx.position = s.ctx.position + 1) :
    writeTrace base n (pushed base rs s) = writeTrace base (n + 1) s := by
  simp [writeTrace, pushed, hpos, State.completion, List.range_succ_eq_map, List.flatMap_map,
    Nat.add_assoc, Nat.add_comm 1]

variable (h : Armed .writing base cap s) (hirqs : s.irqs = .vector 0x03 :: rs)

include h hirqs

theorem Armed.step_push (hrem : 0 < s.ctx.remaining) :
    step s = .next (pushed base rs s) ∧ Armed .writing base cap (pushed base rs s) := by
  have hstep : step s = .next (pushed base rs s) :=
    (h.step_txrdy hirqs).trans (isrTxrdy_push h.direction hrem (h.position (by decide) hrem).1)
  exact ⟨hstep, stepKeepsInvariant s _ h.inv hstep, h.task, h.direction, h.ie, h.buffer, h.program⟩

/-- The entry after the last byte ends the write (R150). -/
theorem Armed.step_finishWrite (hrem : s.ctx.remaining = 0)
    (hstop : wantsStop s.ctx.flags = true → has (s.ctlAt 0) ctlStop = false) :
    ∃ u, step s = .next u ∧ u.trace = writeTrace base 0 s ∧
      u.mem = s.mem ∧ u.ctx.direction = .idle ∧ u.regs.ie = 0 ∧ u.irqs = rs := by
  obtain ⟨htrace, hmem, hdir, hie, hrs⟩ := txFinalize_done (s := entered 0x03 rs s) hstop s.par
  refine ⟨_, (h.step_txrdy hirqs).trans (isrTxrdy_finalize h.direction hrem), ?_, hmem, hdir, hie,
    hrs⟩
  exact htrace.trans (by simp [writeTrace, State.completion])

end

theorem Armed.run_write {base cap : Nat} (n : Nat) : ∀ {s : State}, Armed .writing base cap s →
    s.ctx.remaining = n → s.irqs = List.replicate (n + 1) (.vector 0x03) →
    (wantsStop s.ctx.flags = true → has (s.ctlAt 0) ctlStop = false) →
    ∃ u, Host.Core.run Sys2Proof.core (n + 1) s = .next u ∧
      u.trace = writeTrace base n s ∧
      u.mem = s.mem ∧ u.ctx.direction = .idle ∧ u.regs.ie = 0 ∧ u.irqs = [] := by
  induction n with
  | zero =>
    intro s h hrem hirqs hstop
    obtain ⟨u, hstep, hu⟩ := h.step_finishWrite hirqs hrem hstop
    exact ⟨u, run_succ hstep 0, hu⟩
  | succ n ih =>
    intro s h hrem hirqs hstop
    have hpos : 0 < s.ctx.remaining := by omega
    obtain ⟨hstep, harmed⟩ := h.step_push hirqs hpos
    obtain ⟨u, hrun, htrace, hu⟩ := ih harmed (by simp [pushed, hrem]) rfl hstop
    rw [writeTrace_pushed (h.position (by decide) hpos).2] at htrace
    exact ⟨u, (run_succ hstep _).trans hrun, htrace, hu⟩

/-- Settles O59, by induction on the bytes left: one step per byte, and one for the finalize. -/
theorem writeTransferCompletes : Obligations.WriteTransferCompletes :=
  fun _ _ _ hinv ht hdir hie hbuf hprog hirqs hstop =>
    Armed.run_write _ ⟨hinv, ht, hdir, hie, hbuf, hprog⟩ rfl hirqs hstop

/-! ### An armed read -/

/-- The state after the entry that receives the byte at the position, before it returns or
finalizes (R151). -/
def received (base : Nat) (rs : List IrqRequest) (s : State) : State :=
  rxByte (base + s.ctx.position) (entered 0x02 rs s)

/-- The trace when the rest of an armed read is done: `n` bytes, each in its entry, STOP before the
last but one, and the finalize (R151). -/
def readTrace (n : Nat) (s : State) : List Event :=
  s.trace ++ (List.range n).flatMap (fun i =>
      [Event.irq 0x02] ++
      (if wantsStop s.ctx.flags = true ∧ i + 2 = n then [Event.setCtl 0x4] else []) ++
      [Event.rdRx (s.rdRxAt i)]) ++
    [Event.clrIE 0x7] ++
    (if wantsStop s.ctx.flags then [Event.now (s.nowAt 0), Event.ctl (s.ctlAt 0)] else []) ++
    [Event.readDone (s.completion .success)]

/-- The memory after `n` more bytes have been received. -/
def readMemory (base n : Nat) (s : State) : Memory :=
  (List.range n).foldl (fun m i => m.write (base + (s.ctx.position + i)) (s.rdRxAt i)) s.mem

section

variable {base cap n : Nat} {s : State} {rs : List IrqRequest}

theorem readTrace_received (hrem : s.ctx.remaining = n + 1) :
    readTrace n (received base rs s).leaveIsr = readTrace (n + 1) s := by
  simp [readTrace, received, hrem, State.completion, List.range_succ_eq_map, List.flatMap_map,
    Nat.add_comm 1, eq_comm (a := 1)]

theorem readMemory_received
    (hpos : countSucc s.par.lenBits s.ctx.position = s.ctx.position + 1) :
    readMemory base n (received base rs s).leaveIsr = readMemory base (n + 1) s := by
  simp [readMemory, received, hpos, rxByte_mem, List.range_succ_eq_map, List.foldl_map,
    Nat.add_assoc, Nat.add_comm 1]

variable (h : Armed .reading base cap s) (hirqs : s.irqs = .vector 0x02 :: rs)

include h hirqs

theorem Armed.step_receive (hrem : 1 < s.ctx.remaining) :
    step s = .next (received base rs s).leaveIsr ∧
      Armed .reading base cap (received base rs s).leaveIsr := by
  have hstep : step s = .next (received base rs s).leaveIsr :=
    (h.step_rxrdy hirqs).trans
      (isrRxrdy_byte h.direction hrem (h.position (by decide) (by omega)).1)
  refine ⟨hstep, stepKeepsInvariant s _ h.inv hstep, ?_, ?_, ?_, ?_, ?_⟩
  · simpa [received] using h.task
  · simpa [received] using h.direction
  · simpa [received] using h.ie
  · simpa [received] using h.buffer
  · simpa [received] using h.program

/-- The entry of the last byte ends the read (R151). -/
theorem Armed.step_finishRead (hrem : s.ctx.remaining = 1)
    (hstop : wantsStop s.ctx.flags = true → has (s.ctlAt 0) ctlStop = false) :
    ∃ u, step s = .next u ∧ u.trace = readTrace 1 s ∧
      u.mem = readMemory base 1 s ∧ u.ctx.direction = .idle ∧ u.regs.ie = 0 ∧ u.irqs = rs := by
  obtain ⟨htrace, hmem, hdir, hie, hrs⟩ :=
    rxFinalize_done (s := received base rs s) (flags := s.ctx.flags)
      (by simpa [received] using hstop) s.par
  refine ⟨_, (h.step_rxrdy hirqs).trans
    (isrRxrdy_last h.direction hrem (h.position (by decide) (by omega)).1), ?_, ?_, hdir, hie, ?_⟩
  · exact htrace.trans (by simp [received, readTrace, hrem, State.completion])
  · exact hmem.trans (by simp [received, readMemory, rxByte_mem])
  · exact hrs.trans (by simp [received])

end

theorem Armed.run_read {base cap : Nat} (n : Nat) : ∀ {s : State}, Armed .reading base cap s →
    s.ctx.remaining = n + 1 → s.irqs = List.replicate (n + 1) (.vector 0x02) →
    (wantsStop s.ctx.flags = true → has (s.ctlAt 0) ctlStop = false) →
    ∃ u, Host.Core.run Sys2Proof.core (n + 1) s = .next u ∧
      u.trace = readTrace (n + 1) s ∧
      u.mem = readMemory base (n + 1) s ∧ u.ctx.direction = .idle ∧ u.regs.ie = 0 ∧
      u.irqs = [] := by
  induction n with
  | zero =>
    intro s h hrem hirqs hstop
    obtain ⟨u, hstep, hu⟩ := h.step_finishRead hirqs hrem hstop
    exact ⟨u, run_succ hstep 0, hu⟩
  | succ n ih =>
    intro s h hrem hirqs hstop
    obtain ⟨hstep, harmed⟩ := h.step_receive hirqs (by omega)
    obtain ⟨u, hrun, htrace, hmem, hu⟩ :=
      ih harmed (by simp [received, hrem]) (by simp [received]) (by simpa [received] using hstop)
    rw [readTrace_received hrem] at htrace
    rw [readMemory_received (h.position (by decide) (by omega)).2] at hmem
    exact ⟨u, (run_succ hstep _).trans hrun, htrace, hmem, hu⟩

/-- Settles O60, by induction on the bytes left: one step per byte, the last one with the
finalize. -/
theorem readTransferCompletes : Obligations.ReadTransferCompletes := by
  intro s base cap hinv ht hdir hie hbuf hprog n stop hn hirqs hstop
  obtain ⟨m, hm⟩ : ∃ m, n = m + 1 := ⟨n - 1, by omega⟩
  have harmed : Armed .reading base cap s := ⟨hinv, ht, hdir, hie, hbuf, hprog⟩
  rw [hm] at hirqs ⊢
  exact harmed.run_read m hm hirqs hstop

end Sys2Proof.Machine
end

section
/-! How a step ends (R113, R115): what an operation emits on its way, and the three ways it ends. -/

namespace Sys2Proof.Machine

/-! ### On the way -/

/-- The event is a completion or the return of a Caller operation. -/
def Event.ends : Event → Bool
  | .readDone _ | .writeDone _ | .result _ => true
  | _ => false

/-- From `s` on agent `a` has emitted `evs`, which end nothing, and the state is `u`: the direction
has changed only to `Idle`, with a fault report (R202), and only the Caller may have enabled an
interrupt (R205). -/
structure Progress (a : Agent) (s u : State) (evs : List Event) : Prop where
  trace : u.trace = s.trace ++ evs
  goesOn : evs.any Event.ends = false
  direction : u.ctx.direction = s.ctx.direction ∨
    (u.ctx.direction = .idle ∧ evs.any Event.isReport = true)
  ie : a ≠ .caller → s.regs.ie = 0 → u.regs.ie = 0

theorem Progress.refl (a : Agent) (s : State) : Progress a s s [] :=
  ⟨(List.append_nil _).symm, rfl, .inl rfl, fun _ h => h⟩

section

variable {a : Agent} {s u v : State} {evs : List Event}

/-- More events, with the direction kept. -/
theorem Progress.append (h : Progress a s u evs) {es : List Event}
    (htrace : v.trace = u.trace ++ es) (hes : es.any Event.ends = false)
    (hdir : v.ctx.direction = u.ctx.direction)
    (hie : a ≠ .caller → u.regs.ie = 0 → v.regs.ie = 0) : Progress a s v (evs ++ es) := by
  refine ⟨by rw [htrace, h.trace, List.append_assoc], by simp [h.goesOn, hes], ?_,
    fun ha hs => hie ha (h.ie ha hs)⟩
  rw [hdir]
  exact h.direction.imp_right fun ⟨hidle, hrep⟩ => ⟨hidle, by simp [hrep]⟩

/-- An update that emits nothing and keeps the direction and the enables. -/
theorem Progress.update (h : Progress a s u evs) (htrace : v.trace = u.trace)
    (hdir : v.ctx.direction = u.ctx.direction) (hie : v.regs.ie = u.regs.ie) :
    Progress a s v evs := by
  obtain ⟨h1, h2, h3, h4⟩ := h
  exact ⟨htrace.trans h1, h2, hdir ▸ h3, hie ▸ h4⟩

theorem Progress.sample (h : Progress a s u evs)
    (hv : v = u.readBusy ∨ v = u.readCtl ∨ v = u.readFlags) : ∃ es, Progress a s v es := by
  rcases hv with rfl | rfl | rfl <;>
    exact ⟨_, h.append (by rfl) (by rfl) rfl fun _ h => h⟩

theorem Progress.readNow (h : Progress a s u evs) : ∃ es, Progress a s u.readNow es :=
  ⟨_, h.append (by rfl) (by rfl) rfl fun _ h => h⟩

/-- An escalation reports, goes `Idle` and disables (R202). -/
theorem Progress.escalate (h : Progress a s u evs) (r : FaultReport) :
    Progress a s (u.escalate r) (evs ++ escalation u r) where
  trace := by simp [h.trace, escalation]
  goesOn := by simp only [List.any_append, h.goesOn, escalation]; split <;> rfl
  direction := .inr ⟨by simp, by simp [escalation, Event.isReport]⟩
  ie _ _ := by simp

end

/-! ### The ends -/

/-- R115: Accepted exactly when the enables of the direction are set, any other result with none. -/
def ResultTells (r : OpResult) (u : State) : Prop :=
  (r = .outcome .accepted → u.ctx.direction ≠ .idle ∧ u.regs.ie = armMask u.ctx.direction) ∧
    (r ≠ .outcome .accepted → u.regs.ie = 0)

theorem resultTells_of_disabled {r : OpResult} {u : State} (hr : r ≠ .outcome .accepted)
    (hie : u.regs.ie = 0) : ResultTells r u :=
  ⟨fun h => absurd h hr, fun _ => hie⟩

/-- The ways in which an operation of agent `a`, run from `s`, ends its step in `u`: it waits or is
over with no more event, a Caller operation returns a value (R110), or an entry signals its
completion (R154). -/
inductive Ended (a : Agent) (s u : State) : Prop where
  | quiet {evs : List Event} (h : Progress a s u evs)
      (htask : ∀ t, u.task = some t → t.frame.agent = a) (hie : a = .caller → u.regs.ie = 0)
  | returned {evs : List Event} {v : State} {r : OpResult} (h : Progress a s v evs)
      (ha : a = .caller) (htask : v.task = none) (htells : ResultTells r v)
      (hu : u = v.returnResult r)
  | signalled {evs : List Event} {e : Event} (ha : a = .isr)
      (htrace : u.trace = s.trace ++ (evs ++ [e])) (hevs : evs.any Event.ends = false)
      (he : e.isDone = true) (hdir : u.ctx.direction = .idle)

section

variable {s u : State} {evs : List Event} {f : Frame}

theorem Progress.ended_finish (h : Progress f.agent s u evs) (htask : u.task = none)
    (hf : f.agent ≠ .isr) {r : OpResult} (htells : f.agent = .caller → ResultTells r u) :
    Ended f.agent s (finish f r u) := by
  cases ha : f.agent with
  | caller =>
    rw [ha] at h
    exact .returned h rfl htask (htells ha) (by simp only [finish, ha])
  | primitive =>
    rw [ha] at h
    have hu : finish f r u = u.setResult r := by simp only [finish, ha]
    rw [hu]
    exact .quiet (h.update rfl rfl rfl) (by simp [htask]) nofun
  | isr => exact absurd ha hf

/-- A completion is the last event of its entry, which returns `Idle` (R154). -/
theorem Progress.ended_signal (h : Progress f.agent s u evs) (ha : f.agent = .isr) {v : State}
    {e : Event} (htrace : v.trace = u.trace ++ [e]) (he : e.isDone = true)
    (hdir : v.ctx.direction = .idle) : Ended f.agent s (runOps [] f v) := by
  have hv : runOps [] f v = v.leaveIsr := by simp only [runOps_nil, endOfOps, ha]
  rw [hv]
  exact .signalled ha (by simp [htrace, h.trace]) h.goesOn he hdir

/-- What `opsOk` asks of a Caller's `return` is R115. -/
theorem resultTells_of_opsOk_ret {o : OutcomeCode} {ps : List Prim}
    (hok : opsOk .caller u.ctx.direction u.regs.ie (.ret o :: ps) = true) :
    ResultTells (.outcome o) u := by
  simp only [opsOk] at hok
  split at hok
  · simp only [Bool.and_eq_true, beq_iff_eq, bne_iff_ne] at hok
    exact ⟨fun _ => ⟨hok.2, hok.1⟩, fun hne => absurd (congrArg _ ‹o = .accepted›) hne⟩
  · exact resultTells_of_disabled (by simpa using ‹¬ o = .accepted›) (by simpa using hok)

/-- A poll, and what follows it. -/
theorem Progress.ended_afterPoll {rest : List Prim} (h : Progress f.agent s u evs)
    (htask : u.task = none) (w : Wait) (t0 : Word32) (onFail : OnFail)
    (hok : opsOk f.agent u.ctx.direction u.regs.ie (.wait w onFail :: rest) = true)
    (ih : ∀ (f' : Frame) (v : State) (es : List Event), f'.agent = f.agent →
      Progress f.agent s v es → v.task = none →
      opsOk f.agent v.ctx.direction v.regs.ie rest = true → Ended f.agent s (runOps rest f' v)) :
    Ended f.agent s (afterPoll w t0 onFail rest f (runOps rest) (pollWait w t0 u)) := by
  simp only [opsOk, Bool.and_eq_true] at hok
  obtain ⟨⟨⟨⟨hrest, hisr⟩, hcaller⟩, hhonest⟩, hfail⟩ := hok
  have failed (o : OutcomeCode) (ho : o ≠ .accepted) (q : State) (r : FaultReport)
      (hq : ∃ es, Progress f.agent s q es) (hqtask : q.task = none) :
      Ended f.agent s (afterPoll w t0 onFail rest f (runOps rest) (.failed o, q.escalate r)) := by
    obtain ⟨es, hq⟩ := hq
    have hesc := hq.escalate r
    have ht : (q.escalate r).task = none := by simpa using hqtask
    have hie : (q.escalate r).regs.ie = 0 := by simp
    have goes : onFail.goesOn = true → ∀ f' : Frame, f'.agent = f.agent →
        Ended f.agent s (runOps rest f' (q.escalate r)) := fun hgo f' hf' =>
      ih f' _ _ hf' hesc ht (by simpa [hgo] using hfail)
    have stops : onFail.goesOn = false → ∀ res : OpResult, res ≠ .outcome .accepted →
        Ended f.agent s (finish f res (q.escalate r)) := fun hgo res hres =>
      hesc.ended_finish ht (by simpa [hgo] using hisr) fun _ => resultTells_of_disabled hres hie
    cases onFail with
    | ret => exact stops rfl _ (by simpa using ho)
    | retAs o' => exact stops rfl _ (by simpa [OnFail.honest] using hhonest)
    | retFalse => exact stops rfl _ nofun
    | record => exact goes rfl { f with outcome := o } rfl
    | ignore => exact goes rfl f rfl
  have kept : ∀ q, q = u.readBusy ∨ q = u.readCtl ∨ q = u.readFlags →
      q.task = none ∧ q.ctx.direction = u.ctx.direction ∧ q.regs.ie = u.regs.ie := by
    rintro q (rfl | rfl | rfl) <;> exact ⟨htask, rfl, rfl⟩
  rcases pollWait_cases w t0 u with ⟨q, e, hq⟩ | ⟨q, e, hq, -⟩ | ⟨q, r, e, hq, -⟩ | ⟨m, -, -, e⟩ <;>
    rw [e]
  · obtain ⟨hqtask, hqdir, hqie⟩ := kept q hq
    obtain ⟨es, hprog⟩ := h.sample hq
    exact ih f q es rfl hprog hqtask (by rw [hqdir, hqie]; exact hrest)
  · obtain ⟨-, -, hqie⟩ := kept q hq
    obtain ⟨es, hprog⟩ := h.sample hq
    obtain ⟨es', hprog'⟩ := hprog.readNow
    refine .quiet (evs := es') (hprog'.update rfl rfl rfl) ?_ fun ha => ?_
    · rintro t ⟨⟩; rfl
    · have hzero : u.regs.ie = 0 := by simpa [ha] using hcaller
      exact hqie.trans hzero
  · obtain ⟨es, hprog⟩ := h.sample hq
    exact failed _ (by decide) _ _ hprog.readNow (kept q hq).1
  · exact failed _ (by decide) _ _ (h.sample (.inr (.inr rfl))) htask

/-- A list of primitives that is `opsOk` ends in one of the three ways. -/
theorem Progress.ended_runOps (ps : List Prim) : ∀ (f : Frame) {u : State} {evs : List Event},
    Progress f.agent s u evs → u.task = none →
    opsOk f.agent u.ctx.direction u.regs.ie ps = true → Ended f.agent s (runOps ps f u) := by
  induction ps with
  | nil =>
    intro f u evs h htask hok
    have ha : f.agent = .isr := by simpa [opsOk] using hok
    have hu : runOps [] f u = u.leaveIsr := by simp only [runOps_nil, endOfOps, ha]
    rw [hu]
    exact .quiet (h.update rfl rfl rfl) (by simp [htask]) (by simp [ha])
  | cons p ps ih =>
    intro f u evs h htask hok
    have more : ∀ (f' : Frame) (v : State) (es : List Event), f'.agent = f.agent →
        Progress f.agent s v es → v.task = none →
        opsOk f.agent v.ctx.direction v.regs.ie ps = true → Ended f.agent s (runOps ps f' v) :=
      fun f' v es ha hv ht hok => ha ▸ ih f' (by rwa [ha]) ht (by rwa [ha])
    have emit (f' : Frame) (v : State) (es : List Event) (ha : f'.agent = f.agent)
        (htrace : v.trace = u.trace ++ es) (hes : es.any Event.ends = false)
        (hdir : v.ctx.direction = u.ctx.direction) (hie : v.regs.ie = u.regs.ie)
        (ht : v.task = u.task)
        (hok : opsOk f.agent u.ctx.direction u.regs.ie ps = true) :
        Ended f.agent s (runOps ps f' v) :=
      more f' v (evs ++ es) ha (h.append htrace hes hdir fun _ h => hie.trans h) (ht.trans htask)
        (by rw [hdir, hie]; exact hok)
    cases p with
    | unreset => exact emit f _ [.unreset] rfl rfl rfl rfl rfl rfl hok
    | setAddr x => exact emit f _ [.setAddr x] rfl rfl rfl rfl rfl rfl hok
    | setCtl m => exact emit f _ [.setCtl m] rfl rfl rfl rfl rfl rfl hok
    | clrCtl m => exact emit f _ [.clrCtl m] rfl rfl rfl rfl rfl rfl hok
    | wrTx b => exact emit f _ [.wrTx b] rfl rfl rfl rfl rfl rfl hok
    | wrTxFrom buf i =>
      exact emit f _ [.wrTx (memRead u.mem buf i)] rfl rfl rfl rfl rfl rfl hok
    | rdRx =>
      exact emit { f with prev := f.last, last := u.rdRxAt 0 } _ [.rdRx (u.rdRxAt 0)] rfl rfl rfl
        rfl rfl rfl hok
    | store buf i => exact emit f _ [] rfl (List.append_nil _).symm rfl rfl rfl rfl hok
    | setStarted b => exact emit f _ [] rfl (List.append_nil _).symm rfl rfl rfl rfl hok
    | reset =>
      exact more f u.pReset (evs ++ [.reset]) rfl (h.append rfl rfl rfl fun _ _ => rfl) htask hok
    | setIE m =>
      simp only [opsOk, Bool.and_eq_true, beq_iff_eq] at hok
      obtain ⟨⟨ha, -⟩, hok⟩ := hok
      exact more f (u.pSetIE m) (evs ++ [.setIE m]) rfl
        (h.append rfl rfl rfl fun hne => absurd ha hne) htask hok
    | clrIE m =>
      simp only [opsOk, Bool.and_eq_true] at hok
      exact more f (u.pClrIE m) (evs ++ [.clrIE m]) rfl
        (h.append rfl rfl rfl fun _ hie => by simp [hie]) htask hok.2
    | escalate r =>
      exact more f (u.escalate r) _ rfl (h.escalate r) (by simpa using htask)
        (by simpa [opsOk] using hok)
    | setIdle =>
      simp only [opsOk, Bool.and_eq_true, Bool.or_eq_true, beq_iff_eq] at hok
      obtain ⟨⟨ha, -⟩, rfl | rfl⟩ := hok
      · exact h.ended_signal ha (v := (u.setDirection .idle).signalRead f.outcome) rfl rfl rfl
      · exact h.ended_signal ha (v := (u.setDirection .idle).signalWrite f.outcome) rfl rfl rfl
    | signalRead =>
      simp only [opsOk, Bool.and_eq_true, List.isEmpty_iff, beq_iff_eq] at hok
      obtain ⟨⟨⟨ha, hdir⟩, -⟩, rfl⟩ := hok
      exact h.ended_signal ha (v := u.signalRead f.outcome) rfl rfl hdir
    | signalWrite =>
      simp only [opsOk, Bool.and_eq_true, List.isEmpty_iff, beq_iff_eq] at hok
      obtain ⟨⟨⟨ha, hdir⟩, -⟩, rfl⟩ := hok
      exact h.ended_signal ha (v := u.signalWrite f.outcome) rfl rfl hdir
    | wait w onFail =>
      obtain ⟨es, hprog⟩ := h.readNow
      rw [runOps_wait]
      exact hprog.ended_afterPoll htask w _ onFail hok more
    | ret o =>
      exact h.ended_finish htask (fun hi => by simp [opsOk, hi] at hok)
        fun hc => resultTells_of_opsOk_ret (hc ▸ hok)
    | retByte | retHalf =>
      exact h.ended_finish htask (fun hi => by simp [opsOk, hi] at hok)
        fun hc => resultTells_of_disabled nofun (by simpa [opsOk, hc] using hok)
    | retPresent =>
      obtain ⟨es, hprog⟩ := h.sample (.inr (.inr rfl))
      exact hprog.ended_finish htask (fun hi => by simp [opsOk, hi] at hok)
        fun hc => resultTells_of_disabled nofun (by simpa [opsOk, hc] using hok)

end

/-- Only the trace so far, the direction and the enables of the start matter. -/
theorem Ended.of_start {a : Agent} {s s' u : State} (h : Ended a s' u) (htrace : s'.trace = s.trace)
    (hdir : s'.ctx.direction = s.ctx.direction) (hie : s'.regs.ie = s.regs.ie) : Ended a s u := by
  have start {v : State} {evs : List Event} (hv : Progress a s' v evs) : Progress a s v evs :=
    ⟨htrace ▸ hv.trace, hv.goesOn, hdir ▸ hv.direction, hie ▸ hv.ie⟩
  cases h with
  | quiet h htask hie => exact .quiet (start h) htask hie
  | returned h ha htask htells hu => exact .returned (start h) ha htask htells hu
  | signalled ha htr hevs he hd => exact .signalled ha (htrace ▸ htr) hevs he hd

/-! ### The operations -/

section

variable {s u : State}

/-- A list that is `opsOk` for the state it starts from. -/
theorem ended_runOps {f : Frame} {ps : List Prim} (htask : s.task = none)
    (hok : opsOk f.agent s.ctx.direction s.regs.ie ps = true) : Ended f.agent s (runOps ps f s) :=
  (Progress.refl _ s).ended_runOps ps f htask hok

theorem ended_invalidArgument (htask : s.task = none) (hready : s.callerReady = true) :
    Ended .caller s (s.returnResult (.outcome .invalidArgument)) :=
  .returned (Progress.refl _ s) rfl htask
    (resultTells_of_disabled (by decide) (ie_of_callerReady hready)) rfl

theorem exec_fixedScript_ended {i : Instr} {a : Agent} {ps : List Prim} (htask : s.task = none)
    (hi : fixedScript i = some (a, ps)) (e : exec i s = .next u) :
    u = s ∨ ∃ a, a ≠ .isr ∧ Ended a s u := by
  obtain ⟨ha, hblock, hret⟩ := fixedScript_blocking hi
  rcases exec_fixedScript_next hi e with rfl | ⟨hready, rfl⟩ | ⟨hready, -, rfl⟩
  · exact .inl rfl
  · exact .inr ⟨.caller, by decide, ended_invalidArgument htask hready⟩
  · have hie : a = .caller → s.regs.ie = 0 := by
      rintro rfl
      exact ie_of_callerReady (by simpa [State.ready, isCaller_of_fixedScript hi] using hready)
    exact .inr ⟨a, ha, ended_runOps (f := .new a .success) htask
      (opsOk_of_blocking ha _ ps hblock hret _ hie)⟩

/-- What a command does: it holds, returns InvalidArgument, or records its transfer, its argument
check passed, and ends its list from there (R111, R112). -/
theorem command_ended {d : Direction} {n : Nat} {buf : BufRef} {flags addr : Byte} {ps : List Prim}
    (htask : s.task = none) (hok : opsOk .caller d 0 ps = true)
    (e : asCaller s (fitsCapacity n buf)
      (if badArgument n buf then s.returnResult (.outcome .invalidArgument)
        else runOps ps callerFrame (s.recordCtx d buf n flags addr)) = .next u) :
    u = s ∨ Ended .caller s u ∨
      (badArgument n buf = false ∧ Ended .caller (s.setDirection d) u) := by
  rcases asCaller_transfer_next e with rfl | ⟨hready, rfl⟩ | ⟨hready, h0, hcap, rfl⟩
  · exact .inl rfl
  · exact .inr (.inl (ended_invalidArgument htask hready))
  · obtain ⟨-, hgood⟩ := transfer_accepted h0 hcap
    have hrun : Ended .caller (s.recordCtx d buf n flags addr) _ :=
      ended_runOps (f := callerFrame) (ps := ps) htask
        (by simpa [callerFrame, Frame.new, ie_of_callerReady hready] using hok)
    exact .inr (.inr ⟨hgood, hrun.of_start rfl rfl rfl⟩)

end

/-- From `s` an entry is over in `u`, with no completion. -/
def EntryOver (s u : State) : Prop := ∃ evs, Progress .isr s u evs ∧ u.task = none

theorem EntryOver.ended {s u : State} (h : EntryOver s u) : Ended .isr s u := by
  obtain ⟨evs, hprog, htask⟩ := h
  exact .quiet hprog (by simp [htask]) nofun

section

variable {s u v : State}

theorem EntryOver.enterIsr (vec : Byte) (htask : s.task = none) : EntryOver s (s.enterIsr vec) :=
  ⟨[.irq vec], (Progress.refl .isr s).append rfl rfl rfl fun _ h => h, htask⟩

theorem EntryOver.append (h : EntryOver s u) {es : List Event} (htrace : v.trace = u.trace ++ es)
    (hes : es.any Event.ends = false) (hdir : v.ctx.direction = u.ctx.direction)
    (hie : v.regs.ie = u.regs.ie) (htask : v.task = u.task) : EntryOver s v := by
  obtain ⟨evs, hprog, hnone⟩ := h
  exact ⟨_, hprog.append htrace hes hdir fun _ h => hie.trans h, htask.trans hnone⟩

theorem EntryOver.leaveIsr (h : EntryOver s u) : EntryOver s u.leaveIsr := by
  obtain ⟨evs, hprog, hnone⟩ := h
  exact ⟨evs, hprog.update rfl rfl rfl, hnone⟩

theorem EntryOver.escalate (h : EntryOver s u) (r : FaultReport) :
    EntryOver s (u.escalate r) := by
  obtain ⟨evs, hprog, hnone⟩ := h
  exact ⟨_, hprog.escalate r, by simpa using hnone⟩

theorem EntryOver.rxByte (h : EntryOver s u) (a : Nat) : EntryOver s (rxByte a u) := by
  refine h.append (es := _) ((rxByte_trace a u).trans (List.append_assoc ..)) ?_ (by simp) (by simp)
    (by simp)
  split <;> rfl

theorem EntryOver.ended_runOps (h : EntryOver s u) {o : OutcomeCode} {ps : List Prim}
    (hok : opsOk .isr u.ctx.direction u.regs.ie ps = true) :
    Ended .isr s (runOps ps (isrFrame o) u) := by
  obtain ⟨evs, hprog, hnone⟩ := h
  exact Progress.ended_runOps ps (isrFrame o) hprog hnone hok

/-- What an entry ends in: it is over at once in `Idle`, and in one of the three ways otherwise. -/
def EntryEnded (s u : State) : Prop :=
  Ended .isr s u ∧ (s.ctx.direction = .idle → EntryOver s u)

theorem EntryOver.entryEnded (h : EntryOver s u) : EntryEnded s u := ⟨h.ended, fun _ => h⟩

theorem isrNak_ended (htask : s.task = none) : EntryEnded s (isrNak (s.enterIsr 0x01)) := by
  have hin := EntryOver.enterIsr 0x01 htask
  unfold isrNak
  split
  · exact (hin.escalate _).leaveIsr.entryEnded
  · exact ⟨hin.ended_runOps (opsOk_nakOps _ _ _), fun hidle => absurd hidle ‹_›⟩

theorem isrTxrdy_ended (htask : s.task = none) (e : isrTxrdy (s.enterIsr 0x03) = .next u) :
    EntryEnded s u := by
  have hin := EntryOver.enterIsr 0x03 htask
  rcases isrTxrdy_next e with ⟨-, rfl⟩ | ⟨a, -, -, -, rfl⟩ | ⟨hdir, -, rfl⟩
  · exact (hin.escalate _).leaveIsr.entryEnded
  · have hbyte : EntryOver s ((s.enterIsr 0x03).pWrTx ((s.enterIsr 0x03).mem.read a)).moveByte :=
      hin.append (es := [.wrTx _]) rfl rfl rfl rfl rfl
    exact hbyte.leaveIsr.entryEnded
  · exact ⟨hin.ended_runOps (opsOk_txFinalizeOps _ _ _ _),
      fun hidle => nomatch hidle.symm.trans hdir⟩

theorem isrRxrdy_ended (htask : s.task = none) (e : isrRxrdy (s.enterIsr 0x02) = .next u) :
    EntryEnded s u := by
  have hin := EntryOver.enterIsr 0x02 htask
  rcases isrRxrdy_next e with ⟨-, rfl⟩ | ⟨a, hdir, -, ⟨-, rfl⟩ | ⟨-, rfl⟩⟩
  · exact (hin.escalate _).leaveIsr.entryEnded
  · exact ⟨(hin.rxByte a).ended_runOps (opsOk_rxFinalizeOps _ _ _ _),
      fun hidle => nomatch hidle.symm.trans hdir⟩
  · exact (hin.rxByte a).leaveIsr.entryEnded

/-- An entry that starts with `IE = 0` starts from `Idle` (log entry 5). -/
theorem direction_of_entryReady (h : s.entryReady = true) (hie : s.regs.ie = 0) :
    s.ctx.direction = .idle := by
  obtain ⟨-, hidle⟩ : _ ∧ s.ctx.direction = .idle := by
    simpa [State.entryReady, State.inFlight, hie] using h
  exact hidle

end

/-! ### The step -/

/-- The command of direction `d` runs next, its argument check passed. -/
def CommandNext (next : Fetched) : Direction → Prop
  | .idle => False
  | .reading => ∃ c f a n b s', next = .run (.read c f a n b) s' ∧ badArgument n.toNat b = false
  | .writing => ∃ c f a n b s', next = .run (.write c f a n b) s' ∧ badArgument n.toNat b = false

/-- How a step ends, by what moved in it; `next` is what moves when no operation is in progress. -/
inductive StepEnds (next : Fetched) (s u : State) : Prop where
  | nothing (htrace : u.trace = s.trace) (hctx : u.ctx = s.ctx) (hregs : u.regs = s.regs)
      (htask : u.task = s.task)
  | resumed (t : Task) (ht : s.task = some t) (h : Ended t.frame.agent s u)
  | blocking (a : Agent) (ha : a ≠ .isr) (h : Ended a s u)
  | entry (h : Ended .isr s u) (hdisabled : s.regs.ie = 0 → EntryOver s u)
  | command (d : Direction) (ht : s.task = none) (hnext : CommandNext next d)
      (h : Ended .caller (s.setDirection d) u)
  | init (s' : State) (ht : s.task = none) (hnext : next = .run .init s')
      (htrace : u.trace = s.trace ++ [.reset, .selectPins]) (hdir : u.ctx.direction = .idle)
      (hie : u.regs.ie = 0) (htask : u.task = none)

section

variable {s s' u : State} {i : Instr} {next : Fetched}

theorem StepEnds.held : StepEnds next s s := .nothing rfl rfl rfl rfl

theorem StepEnds.of_entry {body : Host.Outcome State Fault Refusal}
    (hbody : body = .next u → EntryEnded s u) (e : asEntry s body = .next u) :
    StepEnds next s u := by
  rcases asEntry_next e with ⟨hready, e⟩ | ⟨-, rfl⟩
  · obtain ⟨hended, hidle⟩ := hbody e
    exact .entry hended fun hie => hidle (direction_of_entryReady hready hie)
  · exact .held

theorem StepEnds.of_command {d : Direction} {n : Nat} {buf : BufRef} {flags addr : Byte}
    {ps : List Prim} (ht : s.task = none) (hok : opsOk .caller d 0 ps = true)
    (hnext : badArgument n buf = false → CommandNext next d)
    (e : asCaller s (fitsCapacity n buf)
      (if badArgument n buf then s.returnResult (.outcome .invalidArgument)
        else runOps ps callerFrame (s.recordCtx d buf n flags addr)) = .next u) :
    StepEnds next s u := by
  rcases command_ended ht hok e with rfl | h | ⟨hgood, h⟩
  · exact .held
  · exact .blocking .caller (by decide) h
  · exact .command d ht (hnext hgood) h

theorem StepEnds.of_escalate {r : FaultReport} (ht : s.task = none)
    (e : asPrimitive s (s.escalate r) = .next u) : StepEnds next s u := by
  rcases asPrimitive_next e with ⟨-, rfl⟩ | ⟨-, rfl⟩
  · exact .blocking .primitive (by decide)
      (.quiet ((Progress.refl _ s).escalate r) (by simp [ht]) nofun)
  · exact .held

theorem exec_ends (ht : s.task = none) (e : exec i s = .next u) : StepEnds (.run i s) s u := by
  have hin := fun v => EntryOver.enterIsr v ht
  cases i with
  | read c f a n b =>
    exact .of_command ht (opsOk_readOps _ _ _ _) (fun hgood => ⟨c, f, a, n, b, s, rfl, hgood⟩) e
  | write c f a n b =>
    exact .of_command ht (opsOk_writeOps _ _ _) (fun hgood => ⟨c, f, a, n, b, s, rfl, hgood⟩) e
  | vecNone => exact .of_entry (by rintro ⟨⟩; exact (hin 0x00).leaveIsr.entryEnded) e
  | vecNak => exact .of_entry (by rintro ⟨⟩; exact isrNak_ended ht) e
  | vecRxrdy => exact .of_entry (isrRxrdy_ended ht) e
  | vecTxrdy => exact .of_entry (isrTxrdy_ended ht) e
  | vecOther v => exact .of_entry (by rintro ⟨⟩; exact ((hin v).escalate _).leaveIsr.entryEnded) e
  | escalate => exact .of_escalate ht e
  | init =>
    rcases asPrimitive_next e with ⟨-, rfl⟩ | ⟨-, rfl⟩
    · exact .init s ht rfl (by simp) rfl rfl ht
    · exact .held
  | _ =>
    rcases exec_fixedScript_ended ht rfl e with rfl | ⟨a, ha, h⟩
    · exact .held
    · exact .blocking a ha h

/-- What is presented and raised does not matter for how the step ends. -/
theorem StepEnds.of_queues {is : List Item} {rs : List IrqRequest}
    (h : StepEnds next { s with program := is, irqs := rs } u) : StepEnds next s u := by
  cases h with
  | nothing htrace hctx hregs htask => exact .nothing htrace hctx hregs htask
  | resumed t ht h => exact .resumed t ht (h.of_start rfl rfl rfl)
  | blocking a ha h => exact .blocking a ha (h.of_start rfl rfl rfl)
  | entry h hdisabled =>
    exact .entry (h.of_start rfl rfl rfl) fun hie => by
      obtain ⟨evs, ⟨htrace, hgoes, hdir, hkeep⟩, htask⟩ := hdisabled hie
      exact ⟨evs, ⟨htrace, hgoes, hdir, hkeep⟩, htask⟩
  | command d ht hnext h => exact .command d ht hnext (h.of_start rfl rfl rfl)
  | init s' ht hnext htrace hdir hie htask => exact .init s' ht hnext htrace hdir hie htask

/-- Every step from the invariant ends in one of these ways. -/
theorem Inv.step_ends (hinv : Inv s) (e : step s = .next u) : StepEnds (fetch s) s u := by
  rcases step_next e with ⟨t, ht, e⟩ | ⟨ht, i, s', hfetch, e⟩ | ⟨ht, hfetch⟩
  · obtain ⟨hok, hin, -⟩ := hinv.task t ht
    simp only [Machine.resumeTask, hin, if_true] at e
    cases e
    have hended := (Progress.refl t.frame.agent (s.setTask none)).ended_afterPoll rfl t.wait t.t0
      t.onFail hok fun f v es ha hv hnone hrest =>
        ha ▸ Progress.ended_runOps t.rest f (ha ▸ hv) hnone (ha ▸ hrest)
    exact .resumed t ht (hended.of_start rfl rfl rfl)
  · obtain ⟨-, is, rs, rfl⟩ := fetch_run hfetch
    rw [hfetch]
    exact (exec_ends (s := { s with program := is, irqs := rs }) ht e).of_queues
  · obtain ⟨is, rs, m, rfl, -⟩ := fetch_pass hfetch
    exact .nothing rfl rfl rfl rfl

end

/-! ### What the end says of the direction (R113) -/

/-- The step from `s` to `u` has emitted a fault report or a completion. -/
def Notified (s u : State) : Prop :=
  ∃ evs e, u.trace = s.trace ++ evs ∧ e ∈ evs ∧ (e.isReport = true ∨ e.isDone = true)

section

variable {a : Agent} {s u : State}

theorem notified_of_report {evs es : List Event} (htrace : u.trace = s.trace ++ (evs ++ es))
    (h : evs.any Event.isReport = true) : Notified s u := by
  obtain ⟨e, he, hrep⟩ := List.any_eq_true.1 h
  exact ⟨_, e, htrace, List.mem_append_left _ he, .inl hrep⟩

theorem Ended.direction (h : Ended a s u) :
    u.ctx.direction = s.ctx.direction ∨ (u.ctx.direction = .idle ∧ Notified s u) := by
  cases h with
  | quiet h =>
    exact h.direction.imp_right fun ⟨hidle, hrep⟩ =>
      ⟨hidle, notified_of_report (es := []) (by simpa using h.trace) hrep⟩
  | @returned evs v r h _ _ _ hu =>
    subst hu
    exact h.direction.imp_right fun ⟨hidle, hrep⟩ =>
      ⟨hidle, notified_of_report (es := [.result r]) (by simp [h.trace]) hrep⟩
  | signalled _ htrace _ he hdir => exact .inr ⟨hdir, _, _, htrace, by simp, .inr he⟩

end

/-- Settles O56: of the ways a step ends, a command alone starts in another direction than it was
given, INIT alone goes `Idle` without a report or a completion. -/
theorem directionTransitions : Obligations.DirectionTransitions := by
  intro s u hinv e hne
  have left {a : Agent} (h : Ended a s u) : u.ctx.direction = .idle ∧ Notified s u :=
    h.direction.resolve_left hne
  cases hinv.step_ends e with
  | nothing _ hctx => exact absurd (congrArg _ hctx) hne
  | resumed t _ h => exact .inr (.inr ((left h).imp_right .inl))
  | blocking a _ h => exact .inr (.inr ((left h).imp_right .inl))
  | entry h => exact .inr (.inr ((left h).imp_right .inl))
  | command d ht hnext h =>
    rcases h.direction with hdir | ⟨hidle, hev⟩
    · cases d with
      | idle => exact hnext.elim
      | reading => exact .inl ⟨hdir, ht, hnext⟩
      | writing => exact .inr (.inl ⟨hdir, ht, hnext⟩)
    · exact .inr (.inr ⟨hidle, .inl hev⟩)
  | init s' ht hnext _ hdir => exact .inr (.inr ⟨hdir, .inr ⟨ht, s', hnext⟩⟩)

/-! ### What the end says of results and completions (R115) -/

/-- Events that end nothing hold no completion and no result. -/
theorem noEnd_of_goesOn {evs : List Event} (h : evs.any Event.ends = false) :
    (∀ e ∈ evs, e.isDone = false) ∧ ∀ r, .result r ∉ evs := by
  rw [List.any_eq_false] at h
  refine ⟨fun e he => ?_, fun r hr => h _ hr rfl⟩
  cases e with
  | readDone | writeDone => exact absurd rfl (h _ he)
  | _ => rfl

theorem isDone_append_result {evs : List Event} (h : evs.any Event.ends = false) (r : OpResult) :
    ∀ e ∈ evs ++ [.result r], e.isDone = false := by
  intro e he
  rcases List.mem_append.1 he with he | he
  · exact (noEnd_of_goesOn h).1 e he
  · rw [List.mem_singleton.1 he]; rfl

section

variable {a : Agent} {s u : State} {evs : List Event}

theorem events_eq {evs' : List Event} (htrace : u.trace = s.trace ++ evs)
    (htrace' : u.trace = s.trace ++ evs') : evs = evs' :=
  List.append_cancel_left (htrace.symm.trans htrace')

/-- A step of an operation that returns a value has no completion in it. -/
theorem Ended.result (h : Ended a s u) (htrace : u.trace = s.trace ++ evs) {r : OpResult}
    (hr : .result r ∈ evs) :
    (r = .outcome .accepted → u.ctx.direction ≠ .idle ∧ u.regs.ie = armMask u.ctx.direction) ∧
      (r ≠ .outcome .accepted → u.regs.ie = 0) ∧ ∀ e ∈ evs, e.isDone = false := by
  cases h with
  | quiet h =>
    obtain rfl := events_eq htrace h.trace
    exact absurd hr ((noEnd_of_goesOn h.goesOn).2 r)
  | @returned evs' v r' h _ _ htells hu =>
    subst hu
    obtain rfl := events_eq htrace (evs' := evs' ++ [.result r']) (by simp [h.trace])
    obtain rfl : r = r' := by simpa [(noEnd_of_goesOn h.goesOn).2 r] using hr
    exact ⟨htells.1, htells.2, isDone_append_result h.goesOn r⟩
  | @signalled evs' e _ htrace' hevs he =>
    obtain rfl := events_eq htrace htrace'
    have hsame : .result r = e := by simpa [(noEnd_of_goesOn hevs).2 r] using hr
    exact nomatch hsame ▸ he

/-- The step has no completion in it, `IE` is 0 unless it returned Accepted, and no entry is left in
progress. -/
def Disarmed (u : State) (evs : List Event) : Prop :=
  (∀ e ∈ evs, e.isDone = false) ∧ (u.regs.ie ≠ 0 → .result (.outcome .accepted) ∈ evs) ∧
    ∀ t, u.task = some t → t.frame.agent ≠ .isr

/-- An operation that is no entry, run while `IE = 0`. -/
theorem Ended.disarmed (h : Ended a s u) (ha : a ≠ .isr) (hie : s.regs.ie = 0)
    (htrace : u.trace = s.trace ++ evs) : Disarmed u evs := by
  cases h with
  | quiet h htask hcaller =>
    obtain rfl := events_eq htrace h.trace
    have hzero : u.regs.ie = 0 := (em (a = .caller)).elim hcaller fun hne => h.ie hne hie
    exact ⟨(noEnd_of_goesOn h.goesOn).1, fun hne => absurd hzero hne, fun t ht => htask t ht ▸ ha⟩
  | @returned evs' v r h _ htask htells hu =>
    subst hu
    obtain rfl := events_eq htrace (evs' := evs' ++ [.result r]) (by simp [h.trace])
    refine ⟨isDone_append_result h.goesOn r, fun hne => ?_, by simp [htask]⟩
    have hr : r = .outcome .accepted := not_not.1 fun hr => hne (htells.2 hr)
    simp [hr]
  | signalled hisr => exact absurd hisr ha

theorem EntryOver.disarmed (h : EntryOver s u) (hie : s.regs.ie = 0)
    (htrace : u.trace = s.trace ++ evs) : Disarmed u evs := by
  obtain ⟨es, hprog, htask⟩ := h
  obtain rfl := events_eq htrace hprog.trace
  exact ⟨(noEnd_of_goesOn hprog.goesOn).1, fun hne => absurd (hprog.ie nofun hie) hne,
    by simp [htask]⟩

/-- A step that ends nothing and leaves `IE = 0`. -/
theorem disarmed_of_quiet (hevs : evs.any Event.ends = false) (hie : u.regs.ie = 0)
    (htask : ∀ t, u.task = some t → t.frame.agent ≠ .isr) : Disarmed u evs :=
  ⟨(noEnd_of_goesOn hevs).1, fun hne => absurd hie hne, htask⟩

end

/-- Settles O57, by what moved in the step: an operation that returns tells by `opsOk`; with
`IE = 0` an entry that is not in progress already starts from `Idle`, where it is over at once. -/
theorem resultTellsWhetherArmed : Obligations.ResultTellsWhetherArmed := by
  intro s u evs hinv e htrace
  cases hinv.step_ends e with
  | nothing htr _ hregs htask =>
    obtain rfl := events_eq htrace (evs' := []) (by simpa using htr)
    exact ⟨nofun, fun hie hagent => disarmed_of_quiet rfl (hregs ▸ hie) (htask ▸ hagent)⟩
  | resumed t ht h =>
    exact ⟨fun _ => h.result htrace, fun hie hagent => h.disarmed (hagent t ht) hie htrace⟩
  | blocking a ha h => exact ⟨fun _ => h.result htrace, fun hie _ => h.disarmed ha hie htrace⟩
  | entry h hdisabled =>
    exact ⟨fun _ => h.result htrace, fun hie _ => (hdisabled hie).disarmed hie htrace⟩
  | command d _ _ h =>
    exact ⟨fun _ => h.result htrace, fun hie _ => h.disarmed (by decide) hie htrace⟩
  | init s' _ _ htr _ hie htask =>
    obtain rfl := events_eq htrace htr
    exact ⟨by simp, fun _ _ => disarmed_of_quiet rfl hie (by simp [htask])⟩

end Sys2Proof.Machine
end

section
/-! One poll of a wait (R131, R132), said once for both kinds: what its sample says, and the state
it leaves in each case. From it, the steps of a wait, presented alone and inside any operation. -/

namespace Sys2Proof.Machine

/-! ### What a sample says -/

/-- The sample ends the wait with Success, fails it at once with a report (a NAK), or leaves it to
the clock. -/
inductive Verdict where
  | ready
  | nak (r : FaultReport)
  | pending

/-- What the next sample says of a wait (R131; R132: the NAK first). -/
def State.verdict (s : State) : Wait → Verdict
  | .clears c => if condAt s c 0 then .pending else .ready
  | .flag m =>
    if has (s.flagsAt 0) ifNak then .nak (flagNakReport m (s.flagsAt 0))
    else if has (s.flagsAt 0) (flagBits m) then .ready else .pending

/-- Take the sample of a wait. -/
def State.sampleWait (s : State) : Wait → State
  | .clears c => s.sampleCond c
  | .flag _ => s.readFlags

/-- The event of a sample. -/
def State.sampleEvent (s : State) : Wait → Event
  | .clears c => condEvent s c 0
  | .flag _ => .flags (s.flagsAt 0)

/-- The report of a wait started at `t0` that times out after the next sample, with `e` elapsed
(R203). -/
def State.timeoutReport (s : State) (w : Wait) (t0 e : Word32) : FaultReport :=
  match w with
  | .clears c => clearTimeoutReport c t0 e
  | .flag m => flagTimeoutReport m (s.flagsAt 0) e

section

variable {s : State} {c : Cond} {m : DataFlag}

theorem verdict_clears_ready (h : condAt s c 0 = false) : s.verdict (.clears c) = .ready := by
  simp [State.verdict, h]

theorem verdict_clears_pending (h : condAt s c 0 = true) : s.verdict (.clears c) = .pending := by
  simp [State.verdict, h]

theorem verdict_flag_nak (h : has (s.flagsAt 0) 0x4 = true) :
    s.verdict (.flag m) = .nak (flagNakReport m (s.flagsAt 0)) :=
  if_pos h

theorem verdict_flag_ready (h : flagReady m (s.flagsAt 0)) : s.verdict (.flag m) = .ready := by
  simp [State.verdict, h.1, h.2]

theorem verdict_flag_pending (hnak : has (s.flagsAt 0) 0x4 = false)
    (h : has (s.flagsAt 0) (flagBits m) = false) : s.verdict (.flag m) = .pending := by
  simp [State.verdict, h, show has (s.flagsAt 0) ifNak = false from hnak]

end

/-- Only a wait for a flag sees a NAK (R132). -/
theorem loc_of_verdict_nak {s : State} {w : Wait} {r : FaultReport} (h : s.verdict w = .nak r) :
    r.loc = .guardFlagNak := by
  cases w with
  | clears c => simp only [State.verdict] at h; split at h <;> cases h
  | flag m =>
    simp only [State.verdict] at h
    split at h
    · cases h; rfl
    · split at h <;> cases h

/-- What a sample takes: one answer of its kind, and one event; nothing else changes. -/
theorem sampleWait_cases (s : State) (w : Wait) :
    s.sampleWait w = s.readBusy ∨ s.sampleWait w = s.readCtl ∨ s.sampleWait w = s.readFlags := by
  rcases w with (_ | _ | _) | m <;> simp [State.sampleWait, State.sampleCond]

section

variable (s : State) (w : Wait) (k : Nat)

@[simp] theorem sampleWait_par : (s.sampleWait w).par = s.par := by
  rcases sampleWait_cases s w with h | h | h <;> rw [h] <;> rfl
@[simp] theorem sampleWait_ctx : (s.sampleWait w).ctx = s.ctx := by
  rcases sampleWait_cases s w with h | h | h <;> rw [h] <;> rfl
@[simp] theorem sampleWait_regs : (s.sampleWait w).regs = s.regs := by
  rcases sampleWait_cases s w with h | h | h <;> rw [h] <;> rfl
@[simp] theorem sampleWait_task : (s.sampleWait w).task = s.task := by
  rcases sampleWait_cases s w with h | h | h <;> rw [h] <;> rfl
@[simp] theorem sampleWait_lastResult : (s.sampleWait w).lastResult = s.lastResult := by
  rcases sampleWait_cases s w with h | h | h <;> rw [h] <;> rfl
@[simp] theorem sampleWait_program : (s.sampleWait w).program = s.program := by
  rcases sampleWait_cases s w with h | h | h <;> rw [h] <;> rfl
@[simp] theorem sampleWait_irqs : (s.sampleWait w).irqs = s.irqs := by
  rcases sampleWait_cases s w with h | h | h <;> rw [h] <;> rfl
@[simp] theorem sampleWait_nowAt : (s.sampleWait w).nowAt k = s.nowAt k := by
  rcases sampleWait_cases s w with h | h | h <;> rw [h] <;> rfl

end

@[simp] theorem sampleWait_trace (s : State) (w : Wait) :
    (s.sampleWait w).trace = s.trace ++ [s.sampleEvent w] := by
  rcases w with (_ | _ | _) | m <;> rfl

theorem isSample_sampleEvent (s : State) (w : Wait) : (s.sampleEvent w).isSample = true := by
  rcases w with (_ | _ | _) | m <;> rfl

/-! ### One poll, case by case -/

/-- What a poll finds and leaves once the sample is taken, by what the sample says; the clock is
read for a pending wait only. -/
def afterSample (t0 : Word32) (report : Word32 → FaultReport) (s : State) : Verdict → Poll × State
  | .ready => (.done, s)
  | .nak r => (.failed .acknowledgementFailure, s.escalate r)
  | .pending =>
    if s.par.timeoutBudget ≤ s.nowAt 0 - t0 then
      (.failed .timeout, s.readNow.escalate (report (s.nowAt 0 - t0)))
    else (.again (s.nowAt 0 - t0), s.readNow)

theorem pollWait_eq (w : Wait) (t0 : Word32) (s : State) :
    pollWait w t0 s = afterSample t0 (s.timeoutReport w t0) (s.sampleWait w) (s.verdict w) := by
  cases w with
  | clears c =>
    have hcond : s.condAsserted c = condAt s c 0 := by cases c <;> rfl
    have hpar : (s.sampleCond c).par = s.par := by cases c <;> rfl
    simp only [pollWait, pollClears, State.verdict, hcond, State.elapsedFrom, ← hpar]
    cases condAt s c 0 <;> rfl
  | flag m =>
    simp only [pollWait, pollFlag, State.verdict]
    split
    · rfl
    · split <;> rfl

section

variable {s : State} {w : Wait} (t0 : Word32)

theorem pollWait_ready (h : s.verdict w = .ready) :
    pollWait w t0 s = (.done, s.sampleWait w) := by
  rw [pollWait_eq, h]; rfl

theorem pollWait_nak {r : FaultReport} (h : s.verdict w = .nak r) :
    pollWait w t0 s = (.failed .acknowledgementFailure, (s.sampleWait w).escalate r) := by
  rw [pollWait_eq, h]; rfl

theorem pollWait_timeout (h : s.verdict w = .pending)
    (hbudget : s.par.timeoutBudget ≤ s.nowAt 0 - t0) :
    pollWait w t0 s =
      (.failed .timeout,
        (s.sampleWait w).readNow.escalate (s.timeoutReport w t0 (s.nowAt 0 - t0))) := by
  simp [pollWait_eq, h, afterSample, hbudget]

theorem pollWait_again (h : s.verdict w = .pending)
    (hbudget : s.nowAt 0 - t0 < s.par.timeoutBudget) :
    pollWait w t0 s = (.again (s.nowAt 0 - t0), (s.sampleWait w).readNow) := by
  simp [pollWait_eq, h, afterSample, BitVec.not_le.2 hbudget]

end

/-! ### The step of a wait -/

/-- An operation in a wait polls it, once its buffer accesses are within bounds. -/
theorem step_of_task {s : State} {t : Task} (htask : s.task = some t)
    (hin : t.rest.all Prim.inBounds = true) :
    step s = .next (afterPoll t.wait t.t0 t.onFail t.rest t.frame (runOps t.rest)
      (pollWait t.wait t.t0 (s.setTask none))) := by
  simp [step, htask, resumeTask, hin]

/-- A wait presented alone reads the clock, and is then the step of a wait in progress (R130). -/
theorem exec_waitInstr {s : State} (hfree : s.engineFree = true) (w : Wait) (e : Word32) :
    exec (waitInstr w) s = step (s.readNow.setTask (some (waitTask w (s.nowAt 0) e))) := by
  have hnone : (s.readNow.setTask (some (waitTask w (s.nowAt 0) e))).setTask none = s.readNow := by
    simp only [State.setTask, State.readNow, task_of_engineFree hfree]
  have hexec : exec (waitInstr w) s =
      asPrimitive s (runOps [.wait w .ret, .ret .success] primFrame s) := by
    cases w <;> rfl
  rw [hexec, step_of_task rfl rfl, hnone]
  exact if_pos hfree

/-- What an operation does when its wait has failed with outcome `o`. -/
def afterFailure (t : Task) (o : OutcomeCode) (s : State) : State :=
  afterPoll t.wait t.t0 t.onFail t.rest t.frame (runOps t.rest) (.failed o, s)

section

variable {s : State} {t : Task} (htask : s.task = some t) (hin : t.rest.all Prim.inBounds = true)

include htask hin

theorem step_ready (h : (s.setTask none).verdict t.wait = .ready) :
    step s = .next (runOps t.rest t.frame ((s.setTask none).sampleWait t.wait)) := by
  rw [step_of_task htask hin, pollWait_ready _ h]; rfl

theorem step_nak {r : FaultReport} (h : (s.setTask none).verdict t.wait = .nak r) :
    step s = .next (afterFailure t .acknowledgementFailure
      (((s.setTask none).sampleWait t.wait).escalate r)) := by
  rw [step_of_task htask hin, pollWait_nak _ h]; rfl

theorem step_timeout (h : (s.setTask none).verdict t.wait = .pending)
    (hbudget : s.par.timeoutBudget ≤ s.nowAt 0 - t.t0) :
    step s = .next (afterFailure t .timeout
      (((s.setTask none).sampleWait t.wait).readNow.escalate
        ((s.setTask none).timeoutReport t.wait t.t0 (s.nowAt 0 - t.t0)))) := by
  rw [step_of_task htask hin, pollWait_timeout _ h hbudget]; rfl

theorem step_again (h : (s.setTask none).verdict t.wait = .pending)
    (hbudget : s.nowAt 0 - t.t0 < s.par.timeoutBudget) :
    step s = .next (((s.setTask none).sampleWait t.wait).readNow.setTask
      (some { t with elapsed := s.nowAt 0 - t.t0 })) := by
  rw [step_of_task htask hin, pollWait_again _ h hbudget]; rfl

end

/-! ### The updates of a poll, in the words of the statements -/

/-- The state after the sample of a `WAIT_CLEARS` in progress. -/
theorem sampleWait_clears (s : State) (c : Cond) :
    (s.setTask none).sampleWait (.clears c) =
      { s with
        env := condSkip c 1 s.env, trace := s.trace ++ [condEvent s c 0], task := none } := by
  cases c <;> rfl

/-- The state after the sample of a `WAIT_CLEARS` in progress and the clock answer that follows. -/
theorem sampleWait_clears_readNow (s : State) (c : Cond) :
    ((s.setTask none).sampleWait (.clears c)).readNow =
      { s with
        env := condSkip c 1 { s.env with now := s.env.now.skip 1 }
        trace := s.trace ++ [condEvent s c 0, .now (s.nowAt 0)], task := none } := by
  rw [State.readNow, sampleWait_nowAt, sampleWait_clears]
  cases c <;> simp [condSkip]

/-- The state after the sample of a `WAIT_FLAG` in progress and the clock answer that follows. -/
theorem sampleWait_flag_readNow (s : State) (m : DataFlag) :
    ((s.setTask none).sampleWait (.flag m)).readNow =
      { s with
        env := { s.env with now := s.env.now.skip 1, flags := s.env.flags.skip 1 }
        trace := s.trace ++ [.flags (s.flagsAt 0), .now (s.nowAt 0)], task := none } := by
  apply State.eq_of_fields <;> simp [State.sampleWait]

theorem escalate_eq (s : State) (r : FaultReport) :
    s.escalate r =
      { s with
        ctx := { s.ctx with direction := .idle }
        regs := escalatedRegs s
        trace := s.trace ++ escalation s r
        sink := delivered s r } := by
  apply State.eq_of_fields <;> simp [escalatedRegs, escalation, delivered]

/-! ### `WAIT_CLEARS` -/

section

variable {s : State} {t : Task} {c : Cond} (htask : s.task = some t) (hw : t.wait = .clears c)
  (hin : t.rest.all Prim.inBounds = true)

include htask hw hin

theorem step_clears_ready (h : condAt s c 0 = false) :
    step s = .next (runOps t.rest t.frame
      { s with
        env := condSkip c 1 s.env
        trace := s.trace ++ [condEvent s c 0]
        task := none }) := by
  rw [step_ready htask hin (hw ▸ verdict_clears_ready h), hw, sampleWait_clears]

theorem step_clears_timeout (h : condAt s c 0 = true)
    (hbudget : s.par.timeoutBudget ≤ s.nowAt 0 - t.t0) :
    step s = .next (afterFailure t .timeout
      { s with
        ctx := { s.ctx with direction := .idle }
        regs := escalatedRegs s
        env := condSkip c 1 { s.env with now := s.env.now.skip 1 }
        trace := s.trace ++ [condEvent s c 0, .now (s.nowAt 0)] ++
          escalation s (clearTimeoutReport c t.t0 (s.nowAt 0 - t.t0))
        sink := delivered s (clearTimeoutReport c t.t0 (s.nowAt 0 - t.t0))
        task := none }) := by
  rw [step_timeout htask hin (hw ▸ verdict_clears_pending h) hbudget, hw,
    sampleWait_clears_readNow, escalate_eq]
  rfl

theorem step_clears_again (h : condAt s c 0 = true)
    (hbudget : s.nowAt 0 - t.t0 < s.par.timeoutBudget) :
    step s = .next
      { s with
        env := condSkip c 1 { s.env with now := s.env.now.skip 1 }
        trace := s.trace ++ [condEvent s c 0, .now (s.nowAt 0)]
        task := some { t with elapsed := s.nowAt 0 - t.t0 } } := by
  rw [step_again htask hin (hw ▸ verdict_clears_pending h) hbudget, hw, sampleWait_clears_readNow]
  rfl

end

/-- Settles O18: the wait in progress is `step_clears_ready`, `step_clears_timeout` and
`step_clears_again`, in any operation; presented alone it is the wait in progress once the clock has
been read. -/
theorem waitClearsTurns : Obligations.WaitClearsTurns := by
  intro s c
  refine ⟨fun hfree => ?_, fun t0 e0 htask => ?_, fun t htask hw hin => ?_⟩
  · have hnone := task_of_engineFree hfree
    have htask := s.readNow.setTask_task (some (waitTask (.clears c) (s.nowAt 0) 0))
    refine ⟨fun h => ?_, fun h hbudget => ?_, fun h hbudget => ?_⟩ <;>
      refine (exec_waitInstr hfree (.clears c) 0).trans ?_
    · refine (step_clears_ready htask rfl rfl h).trans (congrArg _ ?_)
      apply State.eq_of_fields <;> simp [hnone, condEvent, waitTask, finish, primFrame, Frame.new]
    · refine (step_clears_timeout htask rfl rfl h (by simpa [waitTask] using hbudget)).trans
        (congrArg _ ?_)
      apply State.eq_of_fields <;>
        simp [hnone, condEvent, waitTask, finish, primFrame, Frame.new, afterFailure, afterPoll,
          escalatedRegs, escalation, delivered, clearTimeoutReport]
      rfl
    · refine (step_clears_again htask rfl rfl h (by simpa [waitTask] using hbudget)).trans
        (congrArg _ ?_)
      apply State.eq_of_fields <;> simp [condEvent, waitTask]
  · exact ⟨step_clears_ready htask rfl rfl, step_clears_timeout htask rfl rfl,
      step_clears_again htask rfl rfl⟩
  · refine ⟨step_clears_ready htask hw hin, fun h hbudget => ?_, step_clears_again htask hw hin⟩
    rw [step_clears_timeout htask hw hin h hbudget]
    obtain ⟨w, t0, e, onFail, rest, frame⟩ := t
    cases onFail <;> rfl

/-! ### `WAIT_FLAG` -/

section

variable {s : State} {t : Task} {m : DataFlag} (htask : s.task = some t) (hw : t.wait = .flag m)
  (hin : t.rest.all Prim.inBounds = true)

include htask hw hin

theorem step_flag_nak (h : has (s.flagsAt 0) 0x4 = true) :
    step s = .next (afterFailure t .acknowledgementFailure
      { s with
        ctx := { s.ctx with direction := .idle }
        regs := escalatedRegs s
        env := { s.env with flags := s.env.flags.skip 1 }
        trace := s.trace ++ [.flags (s.flagsAt 0)] ++
          escalation s (flagNakReport m (s.flagsAt 0))
        sink := delivered s (flagNakReport m (s.flagsAt 0))
        task := none }) := by
  rw [step_nak htask hin (hw ▸ verdict_flag_nak h), hw, escalate_eq]
  rfl

theorem step_flag_ready (h : flagReady m (s.flagsAt 0)) :
    step s = .next (runOps t.rest t.frame
      { s with
        env := { s.env with flags := s.env.flags.skip 1 }
        trace := s.trace ++ [.flags (s.flagsAt 0)]
        task := none }) := by
  rw [step_ready htask hin (hw ▸ verdict_flag_ready h), hw]
  rfl

theorem step_flag_timeout (hnak : has (s.flagsAt 0) 0x4 = false)
    (h : has (s.flagsAt 0) (flagBits m) = false)
    (hbudget : s.par.timeoutBudget ≤ s.nowAt 0 - t.t0) :
    step s = .next (afterFailure t .timeout
      { s with
        ctx := { s.ctx with direction := .idle }
        regs := escalatedRegs s
        env := { s.env with now := s.env.now.skip 1, flags := s.env.flags.skip 1 }
        trace := s.trace ++ [.flags (s.flagsAt 0), .now (s.nowAt 0)] ++
          escalation s (flagTimeoutReport m (s.flagsAt 0) (s.nowAt 0 - t.t0))
        sink := delivered s (flagTimeoutReport m (s.flagsAt 0) (s.nowAt 0 - t.t0))
        task := none }) := by
  rw [step_timeout htask hin (hw ▸ verdict_flag_pending hnak h) hbudget, hw,
    sampleWait_flag_readNow, escalate_eq]
  rfl

theorem step_flag_again (hnak : has (s.flagsAt 0) 0x4 = false)
    (h : has (s.flagsAt 0) (flagBits m) = false)
    (hbudget : s.nowAt 0 - t.t0 < s.par.timeoutBudget) :
    step s = .next
      { s with
        env := { s.env with now := s.env.now.skip 1, flags := s.env.flags.skip 1 }
        trace := s.trace ++ [.flags (s.flagsAt 0), .now (s.nowAt 0)]
        task := some { t with elapsed := s.nowAt 0 - t.t0 } } := by
  rw [step_again htask hin (hw ▸ verdict_flag_pending hnak h) hbudget, hw, sampleWait_flag_readNow]
  rfl

end

/-- Settles O19, as O18 is settled: a wait in progress, in any operation; presented alone it is the
wait in progress once the clock has been read. -/
theorem waitFlagTurns : Obligations.WaitFlagTurns := by
  intro s m f
  refine ⟨fun hfree => ?_, fun t0 e0 htask => ?_, fun t htask hw hin => ?_⟩
  · have hnone := task_of_engineFree hfree
    have htask := s.readNow.setTask_task (some (waitTask (.flag m) (s.nowAt 0) 0))
    refine ⟨fun h => ?_, fun h => ?_, fun hnak h hbudget => ?_, fun hnak h hbudget => ?_⟩ <;>
      refine (exec_waitInstr hfree (.flag m) 0).trans ?_
    · refine (step_flag_nak htask rfl rfl h).trans (congrArg _ ?_)
      apply State.eq_of_fields <;>
        simp [hnone, f, waitTask, finish, primFrame, Frame.new, afterFailure, afterPoll,
          escalatedRegs, escalation, delivered, flagNakReport] <;> rfl
    · refine (step_flag_ready htask rfl rfl h).trans (congrArg _ ?_)
      apply State.eq_of_fields <;> simp [hnone, f, waitTask, finish, primFrame, Frame.new]
    · refine (step_flag_timeout htask rfl rfl hnak h (by simpa [waitTask] using hbudget)).trans
        (congrArg _ ?_)
      apply State.eq_of_fields <;>
        simp [hnone, f, waitTask, finish, primFrame, Frame.new, afterFailure, afterPoll,
          escalatedRegs, escalation, delivered, flagTimeoutReport]
      rfl
    · refine (step_flag_again htask rfl rfl hnak h (by simpa [waitTask] using hbudget)).trans
        (congrArg _ ?_)
      apply State.eq_of_fields <;> simp [f, waitTask]
  · exact ⟨step_flag_nak htask rfl rfl, step_flag_ready htask rfl rfl,
      step_flag_timeout htask rfl rfl, step_flag_again htask rfl rfl⟩
  · refine ⟨fun h => ?_, step_flag_ready htask hw hin, fun hnak h hbudget => ?_,
      step_flag_again htask hw hin⟩
    · rw [step_flag_nak htask hw hin h]
      obtain ⟨w, t0, e, onFail, rest, frame⟩ := t
      cases onFail <;> rfl
    · rw [step_flag_timeout htask hw hin hnak h hbudget]
      obtain ⟨w, t0, e, onFail, rest, frame⟩ := t
      cases onFail <;> rfl

/-! ### `CHECK_NOT_BUSY` -/

/-- The busy check is `WAIT_CLEARS(C_BUSY)` from a peripheral reset and released (R133). -/
theorem exec_checkNotBusy {s : State} (hfree : s.engineFree = true) :
    exec .checkNotBusy s = exec (.waitClears .busy) s.pReset.pUnreset :=
  (if_pos hfree).trans (if_pos (c := State.engineFree s.pReset.pUnreset = true) hfree).symm

/-- Settles O20: `exec_checkNotBusy`, and the first turn of O18. -/
theorem checkNotBusyResult : Obligations.CheckNotBusyResult := by
  intro s hfree
  refine ⟨(exec_checkNotBusy hfree).trans (congrArg _ ?_), fun hidle => ?_⟩
  · apply State.eq_of_fields <;> simp
  · have hready := ((waitClearsTurns s.pReset.pUnreset .busy).1 hfree).1 hidle
    refine (exec_checkNotBusy hfree).trans (hready.trans (congrArg _ ?_))
    apply State.eq_of_fields <;> simp [condEvent, condSkip, hidle]

end Sys2Proof.Machine
end

section
/-! A wait presented alone, step by step (R134, R135): it reports once when it fails, and polls on
while nothing ends it and the clock stays below the budget. -/

namespace Sys2Proof.Machine

/-! ### The fault record of a poll (R37) -/

@[simp] theorem readNow_faultCount (s : State) : s.readNow.faultCount = s.faultCount := by
  simp [State.faultCount, State.faultRecord, Event.isReport]

@[simp] theorem sampleWait_faultCount (s : State) (w : Wait) :
    (s.sampleWait w).faultCount = s.faultCount := by
  rcases sampleWait_cases s w with h | h | h <;>
    simp [h, State.faultCount, State.faultRecord, Event.isReport]

@[simp] theorem setTask_faultCount (s : State) (t : Option Task) :
    (s.setTask t).faultCount = s.faultCount := rfl

@[simp] theorem setResult_faultCount (s : State) (r : OpResult) :
    (s.setResult r).faultCount = s.faultCount := rfl

/-- A wait presented alone returns the outcome of its failure. -/
theorem afterFailure_waitTask (w : Wait) (t0 e : Word32) (o : OutcomeCode) (s : State) :
    afterFailure (waitTask w t0 e) o s = s.setResult (.outcome o) := rfl

/-- A wait presented alone returns Success when it ends. -/
theorem runOps_waitTask (w : Wait) (t0 e : Word32) (s : State) :
    runOps (waitTask w t0 e).rest (waitTask w t0 e).frame s = s.setResult (.outcome .success) := rfl

/-- What R134 says of a step from `s` to `u`. -/
def ReportsOnce (s u : State) : Prop :=
  (u.task ≠ none ∧ u.faultCount = s.faultCount) ∨
  (u.task = none ∧ u.lastResult = some (.outcome .success) ∧ u.faultCount = s.faultCount) ∨
  (u.task = none ∧ (∃ o, o ≠ .success ∧ u.lastResult = some (.outcome o)) ∧
    u.faultCount = s.faultCount + 1)

/-- A failure is one escalation. -/
theorem reportsOnce_failed {s x : State} {o : OutcomeCode} (ho : o ≠ .success) (r : FaultReport)
    (htask : x.task = none) (hcount : x.faultCount = s.faultCount) :
    ReportsOnce s ((x.escalate r).setResult (.outcome o)) :=
  .inr (.inr ⟨by simpa using htask, ⟨o, ho, rfl⟩, by simp [State.escalate_faultCount, hcount]⟩)

/-- The step of a wait in progress, by what its sample says. -/
theorem reportsOnce_step {s u : State} {w : Wait} {t0 e : Word32}
    (htask : s.task = some (waitTask w t0 e)) (h : step s = .next u) : ReportsOnce s u := by
  cases hv : (s.setTask none).verdict w with
  | ready =>
    rw [step_ready htask rfl hv, runOps_waitTask] at h
    cases h
    exact .inr (.inl ⟨by simp, rfl, by simp⟩)
  | nak r =>
    rw [step_nak htask rfl hv, afterFailure_waitTask] at h
    cases h
    exact reportsOnce_failed (by decide) r (by simp) (by simp)
  | pending =>
    by_cases hbudget : s.par.timeoutBudget ≤ s.nowAt 0 - t0
    · rw [step_timeout htask rfl hv hbudget, afterFailure_waitTask] at h
      cases h
      exact reportsOnce_failed (by decide) _ (by simp) (by simp)
    · rw [step_again htask rfl hv (BitVec.not_le.1 hbudget)] at h
      cases h
      exact .inl ⟨by simp, by simp⟩

/-- Settles O21: a wait presented alone is one in progress once the clock has been read. -/
theorem oneReportPerFailedWait : Obligations.OneReportPerFailedWait := by
  rintro s u w (⟨hfree, h⟩ | ⟨t0, e, htask, h⟩)
  · rw [exec_waitInstr hfree w 0] at h
    have honce := reportsOnce_step rfl h
    simpa only [ReportsOnce, setTask_faultCount, readNow_faultCount] using honce
  · exact reportsOnce_step htask h

/-! ### Polling on (R135) -/

/-- The `k`-th sample from now on leaves the wait to the clock. -/
def pendingAt (s : State) (k : Nat) : Wait → Prop
  | .clears c => condAt s c k = true
  | .flag m => has (s.flagsAt k) 0x4 = false ∧ has (s.flagsAt k) (flagBits m) = false

theorem verdict_of_pendingAt {s : State} {w : Wait} (h : pendingAt s 0 w) :
    s.verdict w = .pending := by
  cases w with
  | clears c => exact verdict_clears_pending h
  | flag m => exact verdict_flag_pending h.1 h.2

/-- The samples to come after one sample. -/
theorem pendingAt_sampleWait (s : State) (k : Nat) (w : Wait) :
    pendingAt (s.sampleWait w) k w ↔ pendingAt s (1 + k) w := by
  rcases w with (_ | _ | _) | m <;>
    simp [pendingAt, condAt, State.sampleWait, State.sampleCond]

/-- The state after one unsuccessful poll of a wait presented alone. -/
def polledOn (w : Wait) (t0 : Word32) (s : State) : State :=
  ((s.setTask none).sampleWait w).readNow.setTask (some (waitTask w t0 (s.nowAt 0 - t0)))

/-- A pending sample with the clock below the budget is an unsuccessful poll. -/
theorem step_polledOn {s : State} {w : Wait} {t0 e : Word32}
    (htask : s.task = some (waitTask w t0 e)) (hpending : pendingAt s 0 w)
    (hclock : s.nowAt 0 - t0 < s.par.timeoutBudget) :
    step s = .next (polledOn w t0 s) :=
  step_again htask rfl (verdict_of_pendingAt hpending) hclock

/-- `k` polls with the samples pending and the clock below the budget leave the wait in progress,
with no result and no report. -/
theorem run_waitTask_pending (w : Wait) (t0 : Word32) (k : Nat) : ∀ (s : State) (e : Word32),
    s.task = some (waitTask w t0 e) → (∀ j < k, s.nowAt j - t0 < s.par.timeoutBudget) →
    (∀ j < k, pendingAt s j w) →
    ∃ v, Host.Core.run Sys2Proof.core k s = .next v ∧ v.task ≠ none ∧
      v.lastResult = s.lastResult ∧ v.faultCount = s.faultCount := by
  induction k with
  | zero => exact fun s e htask _ _ => ⟨s, rfl, by simp [htask], rfl, rfl⟩
  | succ k ih =>
    intro s e htask hclock hpending
    have hstep : step s = .next (polledOn w t0 s) :=
      step_polledOn htask (hpending 0 k.succ_pos) (hclock 0 k.succ_pos)
    obtain ⟨v, hrun, hv, hres, hcount⟩ := ih (polledOn w t0 s) _ rfl
      (fun j hj => by simpa [polledOn, Nat.add_comm] using hclock (j + 1) (by omega))
      (fun j hj => (pendingAt_sampleWait (s.setTask none) j w).2
        (Nat.add_comm 1 j ▸ hpending (j + 1) (by omega)))
    exact ⟨v, (run_succ hstep k).trans hrun, hv, by simpa [polledOn] using hres,
      by simpa [polledOn] using hcount⟩

/-- The wait presented, and `k` polls more. -/
theorem run_waitInstr_pending {s : State} (hfree : s.engineFree = true) (w : Wait) (k : Nat)
    (hclock : ∀ j ≤ k, s.nowAt (j + 1) - s.nowAt 0 < s.par.timeoutBudget)
    (hpending : ∀ j ≤ k, pendingAt s j w) :
    ∃ u v, exec (waitInstr w) s = .next u ∧ Host.Core.run Sys2Proof.core k u = .next v ∧
      v.task ≠ none ∧ v.lastResult = s.lastResult ∧ v.faultCount = s.faultCount := by
  have htask := s.readNow.setTask_task (some (waitTask w (s.nowAt 0) 0))
  have hclock' : ∀ j < k + 1, s.readNow.nowAt j - s.nowAt 0 < s.par.timeoutBudget := fun j hj => by
    simpa [Nat.add_comm] using hclock j (by omega)
  have hpending' : ∀ j < k + 1, pendingAt s j w := fun j hj => hpending j (by omega)
  have hstep := step_polledOn htask (hpending' 0 k.succ_pos) (hclock' 0 k.succ_pos)
  obtain ⟨v, hrun, hv, hres, hcount⟩ :=
    run_waitTask_pending w (s.nowAt 0) (k + 1) _ _ htask hclock' hpending'
  exact ⟨_, v, (exec_waitInstr hfree w 0).trans hstep, (run_succ hstep k).symm.trans hrun, hv, hres,
    by simpa using hcount⟩

/-- Settles O22: both waits are `run_waitInstr_pending`. -/
theorem stalledClockDiverges : Obligations.StalledClockDiverges :=
  fun _ hfree k hclock =>
    ⟨fun c hc => run_waitInstr_pending hfree (.clears c) k hclock hc,
      fun m hm => run_waitInstr_pending hfree (.flag m) k hclock hm⟩

end Sys2Proof.Machine
end

section
/-! Two runs of a wait whose clocks differ by a constant (R136). -/

namespace Sys2Proof.Machine

/-! ### States whose clocks differ -/

@[simp] theorem shiftClock_reset (d : Word32) : Event.shiftClock d .reset = .reset := rfl

@[simp] theorem shiftClock_unreset (d : Word32) : Event.shiftClock d .unreset = .unreset := rfl

@[simp] theorem shiftClock_now (d t : Word32) : Event.shiftClock d (.now t) = .now (t + d) := rfl

theorem shiftClock_sampleEvent (d : Word32) (s : State) (w : Wait) :
    Event.shiftClock d (s.sampleEvent w) = s.sampleEvent w := by
  rcases w with (_ | _ | _) | m <;> rfl

/-- A report with no start time in it is not shifted. -/
theorem shiftClock_report (d : Word32) {r : FaultReport} (h : r.loc ≠ .guardClearTimeout) :
    Event.shiftClock d (.report r) = .report r := by
  obtain ⟨loc, d1, d2, d3⟩ := r
  cases loc with
  | guardClearTimeout => exact absurd rfl h
  | _ => rfl

/-- `y` is `x` with a clock that is `d` ahead for the next `n` answers, after the same events but
for what `Event.shiftClock` shifts, from the trace `tr` on. The sink and the operation in progress
are left open. -/
structure ClockAhead (d : Word32) (n : Nat) (tr : List Event) (x y : State) : Prop where
  same : y =
    { x with
      env := { x.env with now := y.env.now }, trace := y.trace, sink := y.sink, task := y.task }
  now : ∀ j < n, y.nowAt j = x.nowAt j + d
  trace : ∃ evs, x.trace = tr ++ evs ∧ y.trace = tr ++ evs.map (Event.shiftClock d)

section

variable {d : Word32} {n : Nat} {tr : List Event} {x y : State}

namespace ClockAhead

theorem par (h : ClockAhead d n tr x y) : y.par = x.par := by rw [h.same]

theorem mono (h : ClockAhead d (n + 1) tr x y) : ClockAhead d n tr x y :=
  { h with now := fun j hj => h.now j (by omega) }

/-- An update of each that takes no clock answer, with the same events but for the shift. -/
theorem update (h : ClockAhead d n tr x y) {X Y : State} (evs : List Event)
    (hsame : Y =
      { X with
        env := { X.env with now := Y.env.now }, trace := Y.trace, sink := Y.sink, task := Y.task })
    (hX : X.trace = x.trace ++ evs) (hY : Y.trace = y.trace ++ evs.map (Event.shiftClock d))
    (hnowX : ∀ j, X.nowAt j = x.nowAt j) (hnowY : ∀ j, Y.nowAt j = y.nowAt j) :
    ClockAhead d n tr X Y where
  same := hsame
  now j hj := by rw [hnowX, hnowY, h.now j hj]
  trace := by
    obtain ⟨es, ex, ey⟩ := h.trace
    exact ⟨es ++ evs, by rw [hX, ex, List.append_assoc], by
      rw [hY, ey, List.append_assoc, List.map_append]⟩

theorem setTask (h : ClockAhead d n tr x y) (a b : Option Task) :
    ClockAhead d n tr (x.setTask a) (y.setTask b) :=
  h.update [] (by rw [h.same]; rfl) (by simp) (by simp) (fun _ => rfl) (fun _ => rfl)

theorem setResult (h : ClockAhead d n tr x y) (r : OpResult) :
    ClockAhead d n tr (x.setResult r) (y.setResult r) :=
  h.update [] (by rw [h.same]; rfl) (by simp) (by simp) (fun _ => rfl) (fun _ => rfl)

theorem pReset (h : ClockAhead d n tr x y) : ClockAhead d n tr x.pReset y.pReset :=
  h.update [.reset] (by rw [h.same]; rfl) rfl rfl (fun _ => rfl) (fun _ => rfl)

theorem pUnreset (h : ClockAhead d n tr x y) : ClockAhead d n tr x.pUnreset y.pUnreset :=
  h.update [.unreset] (by rw [h.same]; rfl) rfl rfl (fun _ => rfl) (fun _ => rfl)

/-- The two read the same samples. -/
theorem verdict (h : ClockAhead d n tr x y) (w : Wait) : y.verdict w = x.verdict w := by
  rw [h.same]; cases w <;> rfl

theorem sampleEvent (h : ClockAhead d n tr x y) (w : Wait) :
    y.sampleEvent w = x.sampleEvent w := by
  rw [h.same]; rcases w with (_ | _ | _) | m <;> rfl

theorem sampleWait (h : ClockAhead d n tr x y) (w : Wait) :
    ClockAhead d n tr (x.sampleWait w) (y.sampleWait w) := by
  refine h.update [x.sampleEvent w] ?_ (sampleWait_trace x w) ?_ (sampleWait_nowAt x w)
    (sampleWait_nowAt y w)
  · rw [h.same]; rcases w with (_ | _ | _) | m <;> rfl
  · rw [sampleWait_trace, h.sampleEvent, List.map_singleton, shiftClock_sampleEvent]

theorem readNow (h : ClockAhead d (n + 1) tr x y) : ClockAhead d n tr x.readNow y.readNow where
  same := by rw [h.same]; rfl
  now j hj := by simpa using h.now (1 + j) (by omega)
  trace := by
    obtain ⟨es, ex, ey⟩ := h.trace
    refine ⟨es ++ [.now (x.nowAt 0)], by simp [ex], ?_⟩
    simp [ey, h.now 0 n.succ_pos]

/-- Reports that differ by the shift. -/
theorem escalate (h : ClockAhead d n tr x y) {r r' : FaultReport}
    (hr : Event.shiftClock d (.report r) = .report r') :
    ClockAhead d n tr (x.escalate r) (y.escalate r') :=
  h.update (escalation x r) (by rw [escalate_eq, escalate_eq, h.same]; rfl) (by simp [escalation])
    (by simp only [State.escalate_trace, escalation, h.par]; split <;> simp [hr])
    (x.escalate_nowAt r) (y.escalate_nowAt r')

/-- The time elapsed since two start times that differ by `d`. -/
theorem elapsed (h : ClockAhead d (n + 1) tr x y) (t0 : Word32) :
    y.nowAt 0 - (t0 + d) = x.nowAt 0 - t0 := by
  rw [h.now 0 n.succ_pos, add_sub_add_right_eq_sub]

/-- The reports of a wait that times out, from start times that differ by `d`. -/
theorem timeoutReport (h : ClockAhead d (n + 1) tr x y) (t0 : Word32) (w : Wait) :
    Event.shiftClock d (.report (x.timeoutReport w t0 (x.nowAt 0 - t0))) =
      .report (y.timeoutReport w (t0 + d) (y.nowAt 0 - (t0 + d))) := by
  cases w with
  | clears c =>
    simp [State.timeoutReport, clearTimeoutReport, Event.shiftClock, h.elapsed]
  | flag m =>
    have hflags : y.flagsAt 0 = x.flagsAt 0 := by rw [h.same]; rfl
    simp [State.timeoutReport, flagTimeoutReport, Event.shiftClock, h.elapsed, hflags]

end ClockAhead

end

/-! ### A wait presented alone, in both -/

/-- Nothing else is presented or raised, and the same wait is in progress in both, or in neither. -/
structure WaitAhead (w : Wait) (d : Word32) (n : Nat) (tr : List Event) (x y : State) : Prop
    extends ClockAhead d n tr x y where
  program : x.program = []
  irqs : x.irqs = []
  task : (x.task = none ∧ y.task = none) ∨
    ∃ t0 e, x.task = some (waitTask w t0 e) ∧ y.task = some (waitTask w (t0 + d) e)

namespace WaitAhead

variable {w : Wait} {d : Word32} {n : Nat} {tr : List Event} {x y : State}

/-- With nothing in progress, presented or raised, a step changes nothing (R10). -/
theorem step_quiet {s : State} (htask : s.task = none) (hprog : s.program = [])
    (hirqs : s.irqs = []) : step s = .next s := by
  simp [step, htask, fetch, hprog, raised_of_no_request hirqs]

/-- A step is the same poll in both, or nothing in both. -/
theorem step (h : WaitAhead w d (n + 1) tr x y) :
    ∃ u v, Machine.step x = .next u ∧ Machine.step y = .next v ∧ WaitAhead w d n tr u v := by
  have hprog : y.program = [] := by rw [h.same]; exact h.program
  have hirqs : y.irqs = [] := by rw [h.same]; exact h.irqs
  rcases h.task with ⟨hx, hy⟩ | ⟨t0, e, hx, hy⟩
  · exact ⟨x, y, step_quiet hx h.program h.irqs, step_quiet hy hprog hirqs,
      { h with toClockAhead := h.toClockAhead.mono }⟩
  · have hfree := h.toClockAhead.setTask none none
    have hsample := hfree.sampleWait w
    have hverdict := hfree.verdict w
    cases hv : (x.setTask none).verdict w with
    | ready =>
      exact ⟨_, _, step_ready hx rfl hv, step_ready hy rfl (hverdict.trans hv),
        (hsample.setResult _).mono, by simp [runOps_waitTask, h.program],
        by simp [runOps_waitTask, h.irqs], .inl (by simp [runOps_waitTask])⟩
    | nak r =>
      have hr := shiftClock_report d (r := r) (by simp [loc_of_verdict_nak hv])
      exact ⟨_, _, step_nak hx rfl hv, step_nak hy rfl (hverdict.trans hv),
        ((hsample.escalate hr).setResult _).mono, by simp [afterFailure_waitTask, h.program],
        by simp [afterFailure_waitTask, h.irqs], .inl (by simp [afterFailure_waitTask])⟩
    | pending =>
      have hclock := hsample.readNow
      have helapsed := h.elapsed t0
      by_cases hbudget : x.par.timeoutBudget ≤ x.nowAt 0 - t0
      · have hbudget' : y.par.timeoutBudget ≤ y.nowAt 0 - (t0 + d) := by
          rwa [h.par, helapsed]
        exact ⟨_, _, step_timeout hx rfl hv hbudget,
          step_timeout hy rfl (hverdict.trans hv) hbudget',
          (hclock.escalate (hfree.timeoutReport t0 w)).setResult _,
          by simp [afterFailure_waitTask, h.program], by simp [afterFailure_waitTask, h.irqs],
          .inl (by simp [afterFailure_waitTask])⟩
      · have hbudget := BitVec.not_le.1 hbudget
        have hbudget' : y.nowAt 0 - (t0 + d) < y.par.timeoutBudget := by
          rwa [h.par, helapsed]
        exact ⟨_, _, step_again hx rfl hv hbudget, step_again hy rfl (hverdict.trans hv) hbudget',
          hclock.setTask _ _, by simp [h.program], by simp [h.irqs],
          .inr ⟨t0, x.nowAt 0 - t0, rfl, by rw [← helapsed]; rfl⟩⟩

/-- As many steps as the clock is known to be ahead for. -/
theorem run (k : Nat) : ∀ {x y : State}, WaitAhead w d k tr x y →
    ∃ u v, Host.Core.run Sys2Proof.core k x = .next u ∧
      Host.Core.run Sys2Proof.core k y = .next v ∧ WaitAhead w d 0 tr u v := by
  induction k with
  | zero => exact fun {x y} h => ⟨x, y, rfl, rfl, h⟩
  | succ k ih =>
    intro x y h
    obtain ⟨x', y', hx, hy, h'⟩ := h.step
    obtain ⟨u, v, hu, hv, huv⟩ := ih h'
    exact ⟨u, v, (run_succ hx k).trans hu, (run_succ hy k).trans hv, huv⟩

/-- What the statement says of two states. -/
theorem outcome (h : WaitAhead w d n tr x y) :
    ∃ evs, y.lastResult = x.lastResult ∧ y.task.isSome = x.task.isSome ∧ y.ctx = x.ctx ∧
      y.regs = x.regs ∧ x.trace = tr ++ evs ∧ y.trace = tr ++ evs.map (Event.shiftClock d) := by
  obtain ⟨evs, hx, hy⟩ := h.trace
  refine ⟨evs, by rw [h.same], ?_, by rw [h.same], by rw [h.same], hx, hy⟩
  rcases h.task with ⟨ex, ey⟩ | ⟨t0, e, ex, ey⟩ <;> simp [ex, ey]

end WaitAhead

/-- A wait presented in both: the clock is read, and the wait is in progress in both. -/
theorem ClockAhead.waitAhead {d : Word32} {n : Nat} {tr : List Event} {x y : State} (w : Wait)
    (h : ClockAhead d (n + 1) tr x y) (hprog : x.program = []) (hirqs : x.irqs = []) :
    WaitAhead w d n tr (x.readNow.setTask (some (waitTask w (x.nowAt 0) 0)))
      (y.readNow.setTask (some (waitTask w (y.nowAt 0) 0))) where
  toClockAhead := h.readNow.setTask _ _
  program := hprog
  irqs := hirqs
  task := .inr ⟨x.nowAt 0, 0, rfl, by rw [← h.now 0 n.succ_pos]; rfl⟩

theorem run_succ_congr {s x : State} (h : step s = step x) (k : Nat) :
    Host.Core.run Sys2Proof.core (k + 1) s = Host.Core.run Sys2Proof.core (k + 1) x := by
  simp [Host.Core.run, Sys2Proof.core, h]

theorem engineFree_of_task {s : State} (h : s.task = none) : s.engineFree = true := by
  simp [State.engineFree, h]

/-- The internal primitives that are a wait, or the busy check, are presented and decode to
themselves, and run as soon as no operation is in progress (R90). -/
theorem step_waitPrimitive {s : State} {i : Instr} (hi : i = .checkNotBusy ∨ ∃ w, i = waitInstr w)
    (htask : s.task = none) (hprog : s.program = [.packet (encode i)]) :
    step s = exec i { s with program := [] } := by
  have hfree : s.engineFree = true := engineFree_of_task htask
  have hdec : decode s.par.lenBits (encode i) = .ok i := by
    obtain rfl | ⟨_ | _, rfl⟩ := hi <;> rfl
  have hready : s.ready i = true := by
    obtain rfl | ⟨_ | _, rfl⟩ := hi <;> exact hfree
  exact stepRunsThePresentedOperation s (encode i) [] i hprog hdec hready

/-- Two runs whose first step presents a wait in states with clocks `d` apart. -/
theorem ClockAhead.run {d : Word32} {k : Nat} {tr : List Event} {s s' x y u : State} {w : Wait}
    (h : ClockAhead d (k + 2) tr x y) (hprog : x.program = []) (hirqs : x.irqs = [])
    (hx : x.task = none) (hy : y.task = none) (hs : step s = exec (waitInstr w) x)
    (hs' : step s' = exec (waitInstr w) y)
    (hrun : Host.Core.run Sys2Proof.core (k + 1) s = .next u) :
    ∃ v, Host.Core.run Sys2Proof.core (k + 1) s' = .next v ∧ WaitAhead w d 0 tr u v := by
  obtain ⟨u', v, hu, hv, huv⟩ := (h.waitAhead w hprog hirqs).run (k + 1)
  rw [exec_waitInstr (engineFree_of_task hx) w 0] at hs
  rw [exec_waitInstr (engineFree_of_task hy) w 0] at hs'
  rw [run_succ_congr hs, hu] at hrun
  cases hrun
  exact ⟨v, (run_succ_congr hs' k).trans hv, huv⟩

/-- Settles O24: the first step presents a wait, for the busy check with the peripheral reset and
released; every later step is a poll of it, or nothing. -/
theorem clockOffsetInvariance : Obligations.ClockOffsetInvariance := by
  intro s i now' d k u hi htask hprog hirqs s' hclock hrun
  cases k with
  | zero => cases hrun; exact ⟨s', [], rfl, rfl, rfl, rfl, rfl, by simp, by simp [s']⟩
  | succ k =>
    have hstep := step_waitPrimitive hi htask hprog
    have hstep' : step s' = exec i { s' with program := [] } :=
      step_waitPrimitive hi htask hprog
    have hstart : ClockAhead d (k + 2) s.trace { s with program := [] }
        { s' with program := [] } :=
      ⟨rfl, fun j hj => hclock j (by omega), [], by simp, by simp [s']⟩
    suffices ∃ w v, Host.Core.run Sys2Proof.core (k + 1) s' = .next v ∧
        WaitAhead w d 0 s.trace u v by
      obtain ⟨w, v, hv, h⟩ := this
      obtain ⟨evs, hevs⟩ := h.outcome
      exact ⟨v, evs, hv, hevs⟩
    obtain rfl | ⟨w, rfl⟩ := hi
    · exact ⟨.clears .busy, hstart.pReset.pUnreset.run rfl hirqs htask htask
        (hstep.trans (exec_checkNotBusy (engineFree_of_task htask)))
        (hstep'.trans (exec_checkNotBusy (engineFree_of_task htask))) hrun⟩
    · exact ⟨w, hstart.run rfl hirqs htask htask hstep hstep' hrun⟩

end Sys2Proof.Machine
end

section
/-! An operation uses the environment only through the answers it takes: another environment that
agrees on those leads to the same place. -/

namespace Sys2Proof.Machine

/-! ### Numbers of answers -/

/-- How many answers of each kind are taken. -/
structure Counts where
  now : Nat := 0
  busy : Nat := 0
  ctl : Nat := 0
  flags : Nat := 0
  rdRx : Nat := 0
  client : Nat := 0

/-- These many answers, and then those. -/
def Counts.add (c d : Counts) : Counts :=
  ⟨c.now + d.now, c.busy + d.busy, c.ctl + d.ctl, c.flags + d.flags, c.rdRx + d.rdRx,
    c.client + d.client⟩

/-- The environment after these many answers. -/
def Env.skip (e : Env) (c : Counts) : Env :=
  ⟨e.now.skip c.now, e.busy.skip c.busy, e.ctl.skip c.ctl, e.flags.skip c.flags,
    e.rdRx.skip c.rdRx, e.client.skip c.client⟩

@[simp] theorem Env.skip_skip (e : Env) (c d : Counts) : (e.skip c).skip d = e.skip (c.add d) := by
  simp [Env.skip, Counts.add]

/-- The state with another environment. -/
def State.withEnv (s : State) (e : Env) : State := { s with env := e }

/-- The environment `e` gives the answers to come from `x` on, as far as these numbers of them
go. -/
structure AgreesFor (c : Counts) (x : State) (e : Env) : Prop where
  now : ∀ j < c.now, (x.withEnv e).nowAt j = x.nowAt j
  busy : ∀ j < c.busy, (x.withEnv e).busyAt j = x.busyAt j
  ctl : ∀ j < c.ctl, (x.withEnv e).ctlAt j = x.ctlAt j
  flags : ∀ j < c.flags, (x.withEnv e).flagsAt j = x.flagsAt j
  rdRx : ∀ j < c.rdRx, (x.withEnv e).rdRxAt j = x.rdRxAt j
  client : ∀ j < c.client, (x.withEnv e).clientAt j = x.clientAt j

theorem AgreesFor.refl (c : Counts) (x : State) : AgreesFor c x x.env :=
  ⟨fun _ _ => rfl, fun _ _ => rfl, fun _ _ => rfl, fun _ _ => rfl, fun _ _ => rfl, fun _ _ => rfl⟩

theorem AgreesFor.left {c d : Counts} {x : State} {e : Env} (h : AgreesFor (c.add d) x e) :
    AgreesFor c x e where
  now j hj := h.now j (Nat.lt_add_right _ hj)
  busy j hj := h.busy j (Nat.lt_add_right _ hj)
  ctl j hj := h.ctl j (Nat.lt_add_right _ hj)
  flags j hj := h.flags j (Nat.lt_add_right _ hj)
  rdRx j hj := h.rdRx j (Nat.lt_add_right _ hj)
  client j hj := h.client j (Nat.lt_add_right _ hj)

/-! ### From one state to another -/

/-- `y` comes from `x`: with these answers taken, and events appended. -/
structure Advanced (c : Counts) (x y : State) : Prop where
  par : y.par = x.par
  env : y.env = x.env.skip c
  trace : ∃ evs, y.trace = x.trace ++ evs

theorem Advanced.trans {c d : Counts} {x y z : State} (h1 : Advanced c x y) (h2 : Advanced d y z) :
    Advanced (c.add d) x z := by
  obtain ⟨a, ha⟩ := h1.trace
  obtain ⟨b, hb⟩ := h2.trace
  exact ⟨h2.par.trans h1.par, by rw [h2.env, h1.env, Env.skip_skip],
    a ++ b, by rw [hb, ha, List.append_assoc]⟩

section

variable {c : Counts} {x y : State} (h : Advanced c x y) (j : Nat)

include h

theorem Advanced.nowAt : y.nowAt j = x.nowAt (c.now + j) := by
  simp only [State.nowAt, h.par, h.env, Env.skip, Draws.at_skip]
theorem Advanced.busyAt : y.busyAt j = x.busyAt (c.busy + j) := by
  simp only [State.busyAt, h.env, Env.skip, Draws.at_skip]
theorem Advanced.ctlAt : y.ctlAt j = x.ctlAt (c.ctl + j) := by
  simp only [State.ctlAt, h.env, Env.skip, Draws.at_skip]
theorem Advanced.flagsAt : y.flagsAt j = x.flagsAt (c.flags + j) := by
  simp only [State.flagsAt, h.env, Env.skip, Draws.at_skip]
theorem Advanced.rdRxAt : y.rdRxAt j = x.rdRxAt (c.rdRx + j) := by
  simp only [State.rdRxAt, h.env, Env.skip, Draws.at_skip]
theorem Advanced.clientAt : y.clientAt j = x.clientAt (c.client + j) := by
  simp only [State.clientAt, h.env, Env.skip, Draws.at_skip]

/-- In another environment too. -/
theorem Advanced.withEnv (e : Env) : Advanced c (x.withEnv e) (y.withEnv (e.skip c)) where
  par := h.par
  env := rfl
  trace := h.trace

end

/-- The answers to come once some have been taken. -/
theorem AgreesFor.right {c d : Counts} {x y : State} {e : Env} (h : AgreesFor (c.add d) x e)
    (hy : Advanced c x y) : AgreesFor d y (e.skip c) where
  now j hj := by
    rw [(hy.withEnv e).nowAt, hy.nowAt]; exact h.now _ (Nat.add_lt_add_left hj _)
  busy j hj := by
    rw [(hy.withEnv e).busyAt, hy.busyAt]; exact h.busy _ (Nat.add_lt_add_left hj _)
  ctl j hj := by
    rw [(hy.withEnv e).ctlAt, hy.ctlAt]; exact h.ctl _ (Nat.add_lt_add_left hj _)
  flags j hj := by
    rw [(hy.withEnv e).flagsAt, hy.flagsAt]; exact h.flags _ (Nat.add_lt_add_left hj _)
  rdRx j hj := by
    rw [(hy.withEnv e).rdRxAt, hy.rdRxAt]; exact h.rdRx _ (Nat.add_lt_add_left hj _)
  client j hj := by
    rw [(hy.withEnv e).clientAt, hy.clientAt]; exact h.client _ (Nat.add_lt_add_left hj _)

/-- `f` at `x` is `g` at `y`, further on; and so in every environment that agrees on the answers
taken on the way. -/
structure LeadsTo {α : Type} (c : Counts) (f g : State → α) (x y : State) : Prop where
  advanced : Advanced c x y
  eq : ∀ e, AgreesFor c x e → f (x.withEnv e) = g (y.withEnv (e.skip c))

section

variable {α β : Type} {c d : Counts} {f g h : State → α} {x y z : State}

theorem LeadsTo.trans (h1 : LeadsTo c f g x y) (h2 : LeadsTo d g h y z) :
    LeadsTo (c.add d) f h x z where
  advanced := h1.advanced.trans h2.advanced
  eq e he := by
    rw [h1.eq e he.left, h2.eq _ (he.right h1.advanced), Env.skip_skip]

theorem LeadsTo.map (k : α → β) (h : LeadsTo c f g x y) :
    LeadsTo c (fun s => k (f s)) (fun s => k (g s)) x y :=
  ⟨h.advanced, fun e he => congrArg k (h.eq e he)⟩

/-- In the environment at hand. -/
theorem LeadsTo.here (h : LeadsTo c f g x y) : f x = g y := by
  have hx := h.eq x.env (.refl c x)
  rwa [← h.advanced.env] at hx

/-- Nothing is taken, and nothing happens. -/
theorem LeadsTo.of_eq (heq : ∀ e, f (x.withEnv e) = g (x.withEnv e)) : LeadsTo {} f g x x :=
  ⟨⟨rfl, rfl, [], by simp⟩, fun e _ => heq e⟩

/-- An update that takes no answer and does not read the environment. -/
theorem LeadsTo.of_update (upd : State → State) (evs : List Event)
    (hupd : ∀ e tr, upd { x with env := e, trace := tr } =
      { upd x with env := e, trace := tr ++ evs }) (hpar : (upd x).par = x.par) :
    LeadsTo {} (fun s => g (upd s)) g x (upd x) := by
  have hx : upd x = { upd x with env := x.env, trace := x.trace ++ evs } := hupd x.env x.trace
  refine ⟨⟨hpar, by rw [hx]; rfl, evs, by rw [hx]⟩, fun e _ => congrArg g ?_⟩
  exact (hupd e x.trace).trans (by rw [hx]; rfl)

end

/-! ### Queries and polls -/

section

variable {α : Type} (x : State)

theorem leadsTo_readNow (g : Word32 → State → α) :
    LeadsTo { now := 1 } (fun s => g (s.nowAt 0) s.readNow) (g (x.nowAt 0)) x x.readNow where
  advanced := ⟨rfl, rfl, _, rfl⟩
  eq e he := by simp only [State.readNow, he.now 0 Nat.one_pos]; rfl

theorem leadsTo_readBusy (g : Bool → State → α) :
    LeadsTo { busy := 1 } (fun s => g (s.busyAt 0) s.readBusy) (g (x.busyAt 0)) x x.readBusy where
  advanced := ⟨rfl, rfl, _, rfl⟩
  eq e he := by simp only [State.readBusy, he.busy 0 Nat.one_pos]; rfl

theorem leadsTo_readCtl (g : Bits3 → State → α) :
    LeadsTo { ctl := 1 } (fun s => g (s.ctlAt 0) s.readCtl) (g (x.ctlAt 0)) x x.readCtl where
  advanced := ⟨rfl, rfl, _, rfl⟩
  eq e he := by simp only [State.readCtl, he.ctl 0 Nat.one_pos]; rfl

theorem leadsTo_readFlags (g : Bits3 → State → α) :
    LeadsTo { flags := 1 } (fun s => g (s.flagsAt 0) s.readFlags) (g (x.flagsAt 0)) x
      x.readFlags where
  advanced := ⟨rfl, rfl, _, rfl⟩
  eq e he := by simp only [State.readFlags, he.flags 0 Nat.one_pos]; rfl

theorem leadsTo_readRx (g : Byte → State → α) :
    LeadsTo { rdRx := 1 } (fun s => g (s.rdRxAt 0) s.readRx) (g (x.rdRxAt 0)) x x.readRx where
  advanced := ⟨rfl, rfl, _, rfl⟩
  eq e he := by simp only [State.readRx, he.rdRx 0 Nat.one_pos]; rfl

theorem leadsTo_signalRead (o : OutcomeCode) (g : State → α) :
    LeadsTo { client := 1 } (fun s => g (s.signalRead o)) g x (x.signalRead o) where
  advanced := ⟨rfl, rfl, _, rfl⟩
  eq e he := by
    simp only [State.signalRead, State.completion, he.client 0 Nat.one_pos]; rfl

theorem leadsTo_signalWrite (o : OutcomeCode) (g : State → α) :
    LeadsTo { client := 1 } (fun s => g (s.signalWrite o)) g x (x.signalWrite o) where
  advanced := ⟨rfl, rfl, _, rfl⟩
  eq e he := by
    simp only [State.signalWrite, State.completion, he.client 0 Nat.one_pos]; rfl

theorem leadsTo_escalate (r : FaultReport) (g : State → α) :
    LeadsTo {} (fun s => g (s.escalate r)) g x (x.escalate r) :=
  .of_update (·.escalate r) _ (fun e tr => x.escalate_env_trace r e tr) (x.escalate_par r)

end

/-- A sample takes one answer. -/
def Wait.sampleCounts : Wait → Counts
  | .clears .busy => { busy := 1 }
  | .clears .start | .clears .stop => { ctl := 1 }
  | .flag _ => { flags := 1 }

/-- What a sample says, the report it may lead to, and the state it leaves. -/
theorem leadsTo_sampleWait {α : Type} (x : State) (w : Wait) (t0 : Word32)
    (g : (Word32 → FaultReport) → State → Verdict → α) :
    LeadsTo w.sampleCounts (fun s => g (s.timeoutReport w t0) (s.sampleWait w) (s.verdict w))
      (fun s => g (x.timeoutReport w t0) s (x.verdict w)) x (x.sampleWait w) := by
  rcases w with (_ | _ | _) | m
  · exact leadsTo_readBusy x fun b s =>
      g (clearTimeoutReport .busy t0) s (if b then .pending else .ready)
  · exact leadsTo_readCtl x fun b s =>
      g (clearTimeoutReport .start t0) s (if has b ctlStart then .pending else .ready)
  · exact leadsTo_readCtl x fun b s =>
      g (clearTimeoutReport .stop t0) s (if has b ctlStop then .pending else .ready)
  · exact leadsTo_readFlags x fun b s =>
      g (flagTimeoutReport m b) s
        (if has b ifNak then .nak (flagNakReport m b)
          else if has b (flagBits m) then .ready else .pending)

/-- What follows a sample takes the clock answer of a pending wait. -/
theorem leadsTo_afterSample (t0 : Word32) (report : Word32 → FaultReport) (x : State)
    (v : Verdict) :
    ∃ c, LeadsTo c (fun s => afterSample t0 report s v) (Prod.mk (afterSample t0 report x v).1) x
      (afterSample t0 report x v).2 := by
  cases v with
  | ready => exact ⟨_, .of_eq fun _ => rfl⟩
  | nak r => exact ⟨_, leadsTo_escalate x r _⟩
  | pending =>
    have hclock := leadsTo_readNow x fun t s =>
      if s.par.timeoutBudget ≤ t - t0 then (Poll.failed .timeout, s.escalate (report (t - t0)))
      else (.again (t - t0), s)
    simp only [afterSample]
    split
    · exact ⟨_, hclock.trans ((LeadsTo.of_eq fun e => if_pos ‹_›).trans
        (leadsTo_escalate _ _ (Prod.mk (Poll.failed .timeout))))⟩
    · exact ⟨_, hclock.trans (LeadsTo.of_eq fun e => if_neg ‹_›)⟩

/-- A poll takes its answers and finds the same in every environment that agrees on those. -/
theorem leadsTo_pollWait (w : Wait) (t0 : Word32) (x : State) :
    ∃ c, LeadsTo c (pollWait w t0) (Prod.mk (pollWait w t0 x).1) x (pollWait w t0 x).2 := by
  obtain ⟨c, hafter⟩ :=
    leadsTo_afterSample t0 (x.timeoutReport w t0) (x.sampleWait w) (x.verdict w)
  have hpoll := (leadsTo_sampleWait x w t0 (afterSample t0)).trans hafter
  simp only [← pollWait_eq] at hpoll
  exact ⟨_, hpoll⟩

end Sys2Proof.Machine
end

section
/-! A step that leaves an operation in a wait has come to an unsuccessful poll. The environment that
leaves this poll out leads there too, with the answers of the next poll (R131, R132, D27). -/

namespace Sys2Proof.Machine

/-! ### Running primitives up to an unsuccessful poll -/

/-- Poll the wait of `t`, and go on. -/
def goOn (t : Task) (s : State) : Host.Outcome State Fault Refusal :=
  .next (afterPoll t.wait t.t0 t.onFail t.rest t.frame (runOps t.rest) (pollWait t.wait t.t0 s))

/-- From `x` the operation comes to an unsuccessful poll of the wait of `t`, and stays in it. -/
def LastPoll (f : State → Host.Outcome State Fault Refusal) (t : Task) (x : State) : Prop :=
  ∃ c p, LeadsTo c f (goOn t) x p ∧ p.task = none ∧
    goOn t p = .next ((p.sampleWait t.wait).readNow.setTask (some t))

theorem LeadsTo.lastPoll {c : Counts} {f g : State → Host.Outcome State Fault Refusal}
    {t : Task} {x y : State} (h : LeadsTo c f g x y) (hy : LastPoll g t y) : LastPoll f t x := by
  obtain ⟨d, p, hp, hnone, hlast⟩ := hy
  exact ⟨_, p, h.trans hp, hnone, hlast⟩

@[simp] theorem finish_task (f : Frame) (r : OpResult) (s : State) :
    (finish f r s).task = s.task := by
  simp only [finish]
  split <;> rfl

@[simp] theorem endOfOps_task (f : Frame) (s : State) : (endOfOps f s).task = s.task := by
  simp only [endOfOps]
  split <;> rfl

@[simp] theorem pollWait_task (w : Wait) (t0 : Word32) (s : State) :
    (pollWait w t0 s).2.task = s.task := by
  rw [pollWait_eq]
  cases s.verdict w with
  | ready => simp [afterSample]
  | nak r => simp [afterSample]
  | pending => simp only [afterSample]; split <;> simp

/-- An unsuccessful poll has taken the sample and one clock answer. -/
theorem pollWait_snd_of_again {w : Wait} {t0 e : Word32} {s : State}
    (h : (pollWait w t0 s).1 = .again e) : (pollWait w t0 s).2 = (s.sampleWait w).readNow := by
  rw [pollWait_eq] at h ⊢
  cases hv : s.verdict w with
  | ready => rw [hv] at h; cases h
  | nak r => rw [hv] at h; cases h
  | pending =>
    simp only [hv, afterSample] at h ⊢
    split at h
    · cases h
    · rw [if_neg ‹_›]

/-- What follows a poll, when the rest of the operation is known to come to its last poll. -/
theorem afterPoll_lastPoll {w : Wait} {t0 : Word32} {onFail : OnFail} {ps : List Prim} {f : Frame}
    {t : Task} {x : State}
    (ih : ∀ f x, x.task = none → (runOps ps f x).task = some t →
      LastPoll (fun s => .next (runOps ps f s)) t x)
    (hx : x.task = none)
    (ht : (afterPoll w t0 onFail ps f (runOps ps) (pollWait w t0 x)).task = some t) :
    LastPoll (fun s => .next (afterPoll w t0 onFail ps f (runOps ps) (pollWait w t0 s))) t x := by
  obtain ⟨c, hpoll⟩ := leadsTo_pollWait w t0 x
  have hlead := hpoll.map fun p =>
    (.next (afterPoll w t0 onFail ps f (runOps ps) p) : Host.Outcome State Fault Refusal)
  have hnone := (pollWait_task w t0 x).trans hx
  cases hp : (pollWait w t0 x).1 with
  | done =>
    simp only [afterPoll, hp] at ht hlead
    exact hlead.lastPoll (ih f _ hnone ht)
  | again e =>
    have hx2 := pollWait_snd_of_again hp
    simp only [afterPoll, hp, State.setTask_task, Option.some.injEq] at ht
    subst ht
    exact ⟨_, x, .of_eq fun _ => rfl, hx, by simp only [goOn, afterPoll, hp, hx2]⟩
  | failed o =>
    simp only [afterPoll, hp] at ht hlead
    cases onFail with
    | ret | retAs | retFalse => simp [hx] at ht
    | record => exact hlead.lastPoll (ih _ _ hnone ht)
    | ignore => exact hlead.lastPoll (ih _ _ hnone ht)

/-- A list that leaves its operation in a wait has come to an unsuccessful poll. -/
theorem runOps_lastPoll {t : Task} (ps : List Prim) : ∀ (f : Frame) (x : State), x.task = none →
    (runOps ps f x).task = some t → LastPoll (fun s => .next (runOps ps f s)) t x := by
  induction ps with
  | nil => intro f x hx ht; simp [hx] at ht
  | cons p ps ih =>
    intro f x hx ht
    have update : ∀ (g : State → State) (evs : List Event),
        (∀ e tr, g { x with env := e, trace := tr } =
          { g x with env := e, trace := tr ++ evs }) → (g x).par = x.par → (g x).task = x.task →
        (runOps ps f (g x)).task = some t →
        LastPoll (fun s => .next (runOps ps f (g s))) t x := fun g evs hg hpar htask ht =>
      (LeadsTo.of_update (g := fun s => .next (runOps ps f s)) g evs hg hpar).lastPoll
        (ih f _ (htask.trans hx) ht)
    cases p with
    | reset => exact update (·.pReset) [.reset] (fun _ _ => rfl) rfl rfl ht
    | unreset => exact update (·.pUnreset) [.unreset] (fun _ _ => rfl) rfl rfl ht
    | setAddr a => exact update (·.pSetAddr a) [.setAddr a] (fun _ _ => rfl) rfl rfl ht
    | setCtl m => exact update (·.pSetCtl m) [.setCtl m] (fun _ _ => rfl) rfl rfl ht
    | clrCtl m => exact update (·.pClrCtl m) [.clrCtl m] (fun _ _ => rfl) rfl rfl ht
    | setIE m => exact update (·.pSetIE m) [.setIE m] (fun _ _ => rfl) rfl rfl ht
    | clrIE m => exact update (·.pClrIE m) [.clrIE m] (fun _ _ => rfl) rfl rfl ht
    | wrTx b => exact update (·.pWrTx b) [.wrTx b] (fun _ _ => rfl) rfl rfl ht
    | wrTxFrom buf i =>
      exact update (fun s => s.pWrTx (memRead s.mem buf i)) [.wrTx (memRead x.mem buf i)]
        (fun _ _ => rfl) rfl rfl ht
    | rdRx =>
      exact (leadsTo_readRx x fun b s =>
        .next (runOps ps { f with prev := f.last, last := b } s)).lastPoll
          (ih _ x.readRx hx ht)
    | store buf i =>
      exact update (fun s => s.setMem (memWrite s.mem buf i f.last)) []
        (fun _ _ => by simp [State.setMem]) rfl rfl ht
    | setStarted b =>
      exact update (·.setStarted b) [] (fun _ _ => by simp [State.setStarted]) rfl rfl ht
    | setIdle =>
      exact update (·.setDirection .idle) [] (fun _ _ => by simp [State.setDirection]) rfl rfl ht
    | escalate r =>
      exact (leadsTo_escalate x r fun s => .next (runOps ps f s)).lastPoll
        (ih f _ ((x.escalate_task r).trans hx) ht)
    | signalRead =>
      exact (leadsTo_signalRead x f.outcome fun s => .next (runOps ps f s)).lastPoll
        (ih f (x.signalRead f.outcome) hx ht)
    | signalWrite =>
      exact (leadsTo_signalWrite x f.outcome fun s => .next (runOps ps f s)).lastPoll
        (ih f (x.signalWrite f.outcome) hx ht)
    | wait w onFail =>
      exact (leadsTo_readNow x fun t0 s =>
        .next (afterPoll w t0 onFail ps f (runOps ps) (pollWait w t0 s))).lastPoll
          (afterPoll_lastPoll (x := x.readNow) ih hx ht)
    | ret | retByte | retHalf | retPresent => simp [hx] at ht

/-! ### Operations -/

section

variable {s u : State} {t : Task}

/-- A Caller operation that is left in a wait has not held. -/
theorem asCaller_lastPoll {fits : Bool} {body : State → State} (hs : s.task = none)
    (ht : u.task = some t) (hbody : (body s).task = some t → LastPoll (fun s => .next (body s)) t s)
    (e : asCaller s fits (body s) = .next u) :
    LastPoll (fun s => asCaller s fits (body s)) t s := by
  rcases asCaller_next e with ⟨hready, rfl, rfl⟩ | ⟨-, rfl⟩
  · exact (LeadsTo.of_eq fun _ => if_pos hready).lastPoll (hbody ht)
  · simp [hs] at ht

/-- Nor has an internal primitive. -/
theorem asPrimitive_lastPoll {body : State → State} (hs : s.task = none)
    (ht : u.task = some t) (hbody : (body s).task = some t → LastPoll (fun s => .next (body s)) t s)
    (e : asPrimitive s (body s) = .next u) : LastPoll (fun s => asPrimitive s (body s)) t s := by
  rcases asPrimitive_next e with ⟨hready, rfl⟩ | ⟨-, rfl⟩
  · exact (LeadsTo.of_eq fun _ => if_pos hready).lastPoll (hbody ht)
  · simp [hs] at ht

/-- A handler entry left in a wait has started; `h` is what it does inside (R207). -/
theorem asEntry_lastPoll {h : State → Host.Outcome State Fault Refusal} {v : Byte}
    (hs : s.task = none) (ht : u.task = some t)
    (hbody : h (s.enterIsr v) = .next u → LastPoll h t (s.enterIsr v))
    (e : asEntry s (h (s.enterIsr v)) = .next u) :
    LastPoll (fun s => asEntry s (h (s.enterIsr v))) t s := by
  rcases asEntry_next e with ⟨hready, e⟩ | ⟨-, rfl⟩
  · exact (LeadsTo.of_eq fun _ => if_pos hready).lastPoll
      ((LeadsTo.of_update (·.enterIsr v) [.irq v] (fun _ _ => rfl) rfl).lastPoll (hbody e))
  · simp [hs] at ht

/-- A transfer of the Caller left in a wait has passed its tests (R110). -/
theorem transfer_lastPoll {n : Nat} {buf : BufRef} {body : State → State} (hs : s.task = none)
    (ht : u.task = some t) (hbody : (body s).task = some t → LastPoll (fun s => .next (body s)) t s)
    (e : asCaller s (fitsCapacity n buf)
      (if badArgument n buf then s.returnResult (.outcome .invalidArgument) else body s) =
        .next u) :
    LastPoll (fun s => asCaller s (fitsCapacity n buf)
      (if badArgument n buf then s.returnResult (.outcome .invalidArgument) else body s)) t s := by
  cases hbad : badArgument n buf with
  | true => rcases asCaller_next e with ⟨-, -, rfl⟩ | ⟨-, rfl⟩ <;> simp [hs, hbad] at ht
  | false => rw [hbad] at e; exact asCaller_lastPoll hs ht hbody e

/-- The lists of READ and WRITE, run once the context is recorded, depend on the state but for the
environment and the trace. -/
theorem recordCtx_lastPoll {d : Direction} {buf : BufRef} {len : Nat} {flags addr : Byte}
    {f : Frame} {ps : State → List Prim} (hs : s.task = none) (hps : ∀ e, ps (s.withEnv e) = ps s)
    (ht : (runOps (ps s) f (s.recordCtx d buf len flags addr)).task = some t) :
    LastPoll (fun s => .next (runOps (ps s) f (s.recordCtx d buf len flags addr))) t s := by
  have hrun := runOps_lastPoll (ps s) f (s.recordCtx d buf len flags addr) hs ht
  exact (LeadsTo.of_eq fun e => by rw [hps e]).lastPoll
    ((LeadsTo.of_update (·.recordCtx d buf len flags addr) []
      (fun _ _ => by simp [State.recordCtx]) rfl).lastPoll hrun)

theorem isrNak_lastPoll (hs : s.task = none) (ht : (isrNak s).task = some t) :
    LastPoll (fun s => .next (isrNak s)) t s := by
  by_cases hidle : s.ctx.direction = .idle
  · simp [isrNak, hidle, inconsistent, hs] at ht
  · rw [isrNak, if_neg hidle] at ht
    have hrun := runOps_lastPoll (nakOps s) _ s hs ht
    exact (LeadsTo.of_eq (f := fun s => .next (isrNak s)) fun _ =>
      congrArg Host.Outcome.next (if_neg hidle)).lastPoll hrun

theorem isrTxrdy_lastPoll (hs : s.task = none) (ht : u.task = some t)
    (e : isrTxrdy s = .next u) : LastPoll isrTxrdy t s := by
  rcases isrTxrdy_next e with ⟨-, rfl⟩ | ⟨a, -, -, -, rfl⟩ | ⟨hdir, hrem, rfl⟩
  · simp [inconsistent, hs] at ht
  · simp [hs] at ht
  · exact (LeadsTo.of_eq fun _ => by simp [isrTxrdy, State.withEnv, hdir, hrem]).lastPoll
      (runOps_lastPoll (txFinalizeOps s.par s.ctx.flags) _ s hs ht)

/-- The byte of VEC_RXRDY is one answer (R151). -/
theorem leadsTo_rxByte {α : Type} (a : Nat) (s : State) (g : State → α) :
    LeadsTo { rdRx := 1 } (fun s => g (rxByte a s)) g s (rxByte a s) where
  advanced := ⟨rxByte_par a s, rxByte_env a s, _, (rxByte_trace a s).trans (List.append_assoc ..)⟩
  eq e he := by
    have hbyte := he.rdRx 0 Nat.one_pos
    have hbyte' : ∀ m, ((s.withEnv e).pSetCtl m).rdRxAt 0 = s.rdRxAt 0 := fun _ => hbyte
    have hctx : (s.withEnv e).ctx = s.ctx := rfl
    refine congrArg g ?_
    simp only [rxByte, hctx]
    split
    · simp only [State.readRx, hbyte']; rfl
    · simp only [State.readRx, hbyte]; rfl

theorem isrRxrdy_lastPoll (hs : s.task = none) (ht : u.task = some t)
    (e : isrRxrdy s = .next u) : LastPoll isrRxrdy t s := by
  rcases isrRxrdy_next e with ⟨-, rfl⟩ | ⟨a, hdir, haddr, ⟨hrem, rfl⟩ | ⟨-, rfl⟩⟩
  · simp [inconsistent, hs] at ht
  · exact (LeadsTo.of_eq fun _ => by simp [isrRxrdy, State.withEnv, hdir, hrem, haddr]).lastPoll
      ((leadsTo_rxByte a s fun y => .next
        (runOps (rxFinalizeOps s.par s.ctx.flags) (isrFrame .success) y)).lastPoll
          (runOps_lastPoll _ _ _ (by simp [hs]) ht))
  · simp [hs] at ht

/-- Every operation left in a wait has come to an unsuccessful poll. -/
theorem exec_lastPoll {i : Instr} (hs : s.task = none) (ht : u.task = some t)
    (e : exec i s = .next u) : LastPoll (exec i) t s := by
  cases i with
  | read client flags addr len buf =>
    exact transfer_lastPoll hs ht
      (recordCtx_lastPoll (ps := fun s => readOps s.ctx.started flags addr len.toNat) hs
        fun _ => rfl) e
  | write client flags addr len buf =>
    exact transfer_lastPoll hs ht
      (recordCtx_lastPoll (ps := fun s => writeOps s.ctx.started flags addr) hs fun _ => rfl) e
  | present | read8 | read16 | write8 | write16 =>
    exact asCaller_lastPoll hs ht (runOps_lastPoll _ _ s hs) e
  | readblock | writeblock => exact transfer_lastPoll hs ht (runOps_lastPoll _ _ s hs) e
  | waitClears | waitFlag | checkNotBusy | regPrefix =>
    exact asPrimitive_lastPoll hs ht (runOps_lastPoll _ _ s hs) e
  | escalate loc d1 d2 d3 => exact asPrimitive_lastPoll hs ht (by simp [hs]) e
  | init => exact asPrimitive_lastPoll hs ht (by simp [hs]) e
  | vecNone =>
    exact asEntry_lastPoll (h := fun s => .next s.leaveIsr) hs ht
      (by rintro ⟨⟩; simp [hs] at ht) e
  | vecNak =>
    exact asEntry_lastPoll (h := fun s => .next (isrNak s)) hs ht
      (by rintro ⟨⟩; exact isrNak_lastPoll hs ht) e
  | vecRxrdy => exact asEntry_lastPoll hs ht (isrRxrdy_lastPoll hs ht) e
  | vecTxrdy => exact asEntry_lastPoll hs ht (isrTxrdy_lastPoll hs ht) e
  | vecOther v =>
    exact asEntry_lastPoll (h := fun s => .next (s.escalate (unexpectedReport v s)).leaveIsr) hs ht
      (by rintro ⟨⟩; simp [hs] at ht) e

/-- An operation in a wait whose step answers has its buffer accesses within bounds (R61). -/
theorem inBounds_of_step (htask : s.task = some t) (e : step s = .next u) :
    t.rest.all Prim.inBounds = true := by
  simp only [step, htask, resumeTask] at e
  split at e
  · assumption
  · cases e

theorem step_of_fetch_run {i : Instr} {s' : State} (hs : s.task = none) (h : fetch s = .run i s') :
    step s = exec i s' := by
  simp only [step, hs, h]

/-- Every step that leaves an operation in a wait has come to an unsuccessful poll. -/
theorem step_lastPoll (ht : u.task = some t) (e : step s = .next u) : LastPoll step t s := by
  rcases step_next e with ⟨t', htask, -⟩ | ⟨htask, i, s', hfetch, e⟩ | ⟨htask, hfetch⟩
  · have hin := inBounds_of_step htask e
    rw [step_of_task htask hin] at e
    cases e
    exact (LeadsTo.of_eq fun e => step_of_task (s := s.withEnv e) htask hin).lastPoll
      ((LeadsTo.of_update (·.setTask none) [] (fun _ _ => by simp [State.setTask]) rfl).lastPoll
        (afterPoll_lastPoll (runOps_lastPoll _) rfl ht))
  · obtain ⟨-, is, rs, rfl⟩ := fetch_run hfetch
    have hstep : ∀ e, step (s.withEnv e) = exec i { s.withEnv e with program := is, irqs := rs } :=
      fun e => step_of_fetch_run htask ((fetch_env s e).trans (by rw [hfetch]; rfl))
    exact (LeadsTo.of_eq hstep).lastPoll
      ((LeadsTo.of_update (fun s => { s with program := is, irqs := rs }) []
        (fun _ _ => by simp) rfl).lastPoll (exec_lastPoll htask ht e))
  · obtain ⟨is, rs, m, rfl, -⟩ := fetch_pass hfetch
    simp [htask] at ht

end

/-! ### The environment without the last poll -/

/-- An unsuccessful poll takes a sample and a clock answer (R131, R132). -/
def Wait.pollCounts (w : Wait) : Counts := w.sampleCounts.add { now := 1 }

/-- Kind by kind, as `lastPollLeftOut` asks for it. -/
theorem pollCounts_eq (w : Wait) : w.pollCounts =
    { now := 1
      busy := if w == .clears .busy then 1 else 0
      ctl := if w == .clears .start || w == .clears .stop then 1 else 0
      flags := if w == .flag .tx || w == .flag .rx then 1 else 0 } := by
  rcases w with (_ | _ | _) | _ | _ <;> rfl

/-- Of the answers of one kind, `c` and then `n` taken, the last left out if it is one of the last
poll: the first `c` are the same, and then come those after the `n`. -/
theorem leavesOut_answers {α : Type} {hit : Bool} {taken c n : Nat} {d d' : Nat → α}
    (hn : n = if hit then 1 else 0) (h : leavesOut hit (taken + (c + n) - taken - 1) d d') :
    (∀ j < c, d' j = d j) ∧ ∀ j, d' (c + j) = d (c + n + j) := by
  cases hit with
  | false => subst hn; exact ⟨fun j _ => h j, fun j => h (c + j)⟩
  | true =>
    obtain rfl : n = 1 := hn
    have hlast : taken + (c + 1) - taken - 1 = c := by omega
    rw [hlast] at h
    refine ⟨fun j hj => ?_, fun j => ?_⟩
    · rw [h j, if_neg (by simp; omega)]
    · rw [h (c + j), if_pos (by simp), Nat.add_right_comm]

/-- The environment without the last poll gives the answers taken before that poll, and then those
that come after it. -/
theorem lastPollLeftOut_answers {c : Counts} {w : Wait} {s u p : State} {e : Env}
    (hp : Advanced c s p) (hu : Advanced (c.add w.pollCounts) s u)
    (h : lastPollLeftOut w s u (s.withEnv e)) :
    AgreesFor c s e ∧ sameAnswers u (p.withEnv (e.skip c)) := by
  have hq := hp.withEnv e
  rw [pollCounts_eq] at hu
  rw [lastPollLeftOut, hu.env] at h
  obtain ⟨hnow, hbusy, hctl, hflags, hrdRx, hclient⟩ := h
  obtain ⟨hnow, hnow'⟩ := leavesOut_answers rfl hnow
  obtain ⟨hbusy, hbusy'⟩ := leavesOut_answers rfl hbusy
  obtain ⟨hctl, hctl'⟩ := leavesOut_answers rfl hctl
  obtain ⟨hflags, hflags'⟩ := leavesOut_answers rfl hflags
  refine ⟨⟨hnow, hbusy, hctl, hflags, fun j _ => hrdRx j, fun j _ => hclient j⟩,
    fun j => ⟨?_, ?_, ?_, ?_, ?_, ?_⟩⟩
  · rw [hq.nowAt, hu.nowAt]; exact hnow' j
  · rw [hq.busyAt, hu.busyAt]; exact hbusy' j
  · rw [hq.ctlAt, hu.ctlAt]; exact hctl' j
  · rw [hq.flagsAt, hu.flagsAt]; exact hflags' j
  · rw [hq.rdRxAt, hu.rdRxAt]; exact hrdRx _
  · rw [hq.clientAt, hu.clientAt]; exact hclient _

/-- An unsuccessful poll appends its events and takes its answers. -/
theorem advanced_poll (p : State) (t : Task) :
    Advanced t.wait.pollCounts p ((p.sampleWait t.wait).readNow.setTask (some t)) := by
  have hsample := (leadsTo_sampleWait p t.wait 0 fun _ s _ => s).advanced
  exact hsample.trans ⟨rfl, rfl, _, rfl⟩

/-- Beside its answers and events it leaves nothing but the operation in progress. -/
theorem withEnv_eq_of_poll {p : State} (h : p.task = none) (e : Env) (t : Task) :
    p.withEnv e =
      { ((p.sampleWait t.wait).readNow.setTask (some t)).setTask none with
        env := e, trace := p.trace } := by
  rcases sampleWait_cases p t.wait with hs | hs | hs <;> rw [hs] <;>
    simp [State.withEnv, State.setTask, State.readNow, State.readBusy, State.readCtl,
      State.readFlags, h]

/-- Settles O25: both ways lead to the same poll `p` (`step_lastPoll`), and the states the next poll
finds there are alike (`sameToCome`), so what follows is the same. -/
theorem pollingLongerMakesNoDifference : Obligations.PollingLongerMakesNoDifference := by
  intro s u v t e hsu ht huv s' hleft
  obtain ⟨c, p, hlead, hnone, hlast⟩ := step_lastPoll ht hsu
  have hu : (p.sampleWait t.wait).readNow.setTask (some t) = u :=
    Host.Outcome.next.inj ((hlast.symm.trans hlead.here.symm).trans hsu)
  obtain ⟨hagrees, hanswers⟩ :=
    lastPollLeftOut_answers hlead.advanced (hlead.advanced.trans (hu ▸ advanced_poll p t)) hleft
  have hcome : sameToCome (u.setTask none) (p.withEnv (e.skip c)) :=
    ⟨hu ▸ withEnv_eq_of_poll hnone _ t, hanswers⟩
  obtain ⟨⟨more, hm, hm'⟩, hsame, hans⟩ :=
    hcome.afterPoll t.wait t.t0 t.onFail t.rest t.frame (sameToCome.runOps _)
  rw [step_of_task ht (inBounds_of_step ht huv)] at huv
  cases huv
  obtain ⟨evs, hevs⟩ := hlead.advanced.trace
  have hutrace : u.trace = s.trace ++ evs ++ [p.sampleEvent t.wait, .now (p.nowAt 0)] := by
    rw [← hu]; simp [hevs]
  exact ⟨_, evs, _, _, more, hlead.eq e hagrees, hsame, hans, isSample_sampleEvent _ _, hutrace, hm,
    hm'.trans (congrArg (· ++ more) hevs)⟩

end Sys2Proof.Machine
end

section
/-! The entries of the handlers, whole (R150 to R153): the state after every entry whose STOP wait
is over at its first sample, or given up at the clock answer after it. -/

namespace Sys2Proof.Machine

/-! ### An entry that may start -/

section

variable {s : State} (hready : s.entryReady = true)

include hready

/-- The entry returns to the context it came from (R212). -/
theorem execCtx_of_entryReady : s.execCtx = .normal := by
  simp only [State.entryReady, Bool.and_eq_true, beq_iff_eq] at hready
  exact hready.1.2

theorem exec_vecTxrdy_push {a : Nat} (hdir : s.ctx.direction = .writing)
    (hrem : 0 < s.ctx.remaining) (ha : bufAddr s.ctx.buffer s.ctx.position = some a) :
    exec .vecTxrdy s = .next (((s.enterIsr 0x03).pWrTx (s.mem.read a)).moveByte).leaveIsr :=
  (if_pos hready).trans (isrTxrdy_push (s := s.enterIsr 0x03) hdir hrem ha)

theorem exec_vecTxrdy_finalize (hdir : s.ctx.direction = .writing) (hrem : s.ctx.remaining = 0) :
    exec .vecTxrdy s =
      .next (runOps (txFinalizeOps s.par s.ctx.flags) (isrFrame .success) (s.enterIsr 0x03)) :=
  (if_pos hready).trans (isrTxrdy_finalize (s := s.enterIsr 0x03) hdir hrem)

theorem exec_vecRxrdy_byte {a : Nat} (hdir : s.ctx.direction = .reading)
    (hrem : 1 < s.ctx.remaining) (ha : bufAddr s.ctx.buffer s.ctx.position = some a) :
    exec .vecRxrdy s = .next (rxByte a (s.enterIsr 0x02)).leaveIsr :=
  (if_pos hready).trans (isrRxrdy_byte (s := s.enterIsr 0x02) hdir hrem ha)

/-- The last byte sets no STOP: the entry before it has (R151). -/
theorem exec_vecRxrdy_last {a : Nat} (hdir : s.ctx.direction = .reading)
    (hrem : s.ctx.remaining = 1) (ha : bufAddr s.ctx.buffer s.ctx.position = some a) :
    exec .vecRxrdy s =
      .next (runOps (rxFinalizeOps s.par s.ctx.flags) (isrFrame .success)
        (((s.enterIsr 0x02).readRx.setMem (s.mem.write a (s.rdRxAt 0))).moveByte)) := by
  have hbyte : rxByte a (s.enterIsr 0x02) =
      ((s.enterIsr 0x02).readRx.setMem (s.mem.write a (s.rdRxAt 0))).moveByte := by
    simp [rxByte, hrem]
  rw [← hbyte]
  exact (if_pos hready).trans (isrRxrdy_last (s := s.enterIsr 0x02) hdir hrem ha)

theorem exec_vecNak_abort (hdir : s.ctx.direction ≠ .idle) :
    exec .vecNak s =
      .next (runOps (nakOps s) (isrFrame .acknowledgementFailure) (s.enterIsr 0x01)) :=
  (if_pos hready).trans (congrArg _ (if_neg hdir))

theorem exec_vecTxrdy_inconsistent (h : s.ctx.direction ≠ .writing) :
    exec .vecTxrdy s = .next (inconsistent 0x03 (s.enterIsr 0x03)) :=
  (if_pos hready).trans (if_pos h)

theorem exec_vecRxrdy_inconsistent (h : s.ctx.direction ≠ .reading ∨ s.ctx.remaining = 0) :
    exec .vecRxrdy s = .next (inconsistent 0x02 (s.enterIsr 0x02)) :=
  (if_pos hready).trans (if_pos h)

theorem exec_vecNak_inconsistent (h : s.ctx.direction = .idle) :
    exec .vecNak s = .next (inconsistent 0x01 (s.enterIsr 0x01)) :=
  (if_pos hready).trans (congrArg _ (if_pos h))

end

/-! ### A byte moved -/

/-- Settles O26: `exec_vecTxrdy_push`, field by field. -/
theorem txrdyPushesAByte : Obligations.TxrdyPushesAByte := by
  intro s a hready hdir hrem ha
  rw [exec_vecTxrdy_push hready hdir hrem ha]
  refine congrArg _ ?_
  apply State.eq_of_fields <;> simp [execCtx_of_entryReady hready, countSucc]

/-- The whole state after the byte of VEC_RXRDY: STOP is set when one byte will remain (R151). -/
theorem rxByte_eq (a : Nat) (s : State) :
    let stop := s.ctx.remaining == 2 && wantsStop s.ctx.flags
    rxByte a s =
      { s with
        ctx := s.moveByte.ctx
        regs := { s.regs with ctlw := s.regs.ctlw ||| (if stop then 0x4 else 0) }
        mem := s.mem.write a (s.rdRxAt 0)
        env := { s.env with rdRx := s.env.rdRx.skip 1 }
        trace := s.trace ++ (if stop then [.setCtl 0x4] else []) ++ [.rdRx (s.rdRxAt 0)] } := by
  intro stop
  have hstop : (s.ctx.remaining - 1 == 1 && wantsStop s.ctx.flags) = stop := by
    have htwo : (s.ctx.remaining - 1 == 1) = (s.ctx.remaining == 2) := by
      rw [Bool.eq_iff_iff, beq_iff_eq, beq_iff_eq]; omega
    rw [htwo]
  simp only [rxByte, hstop]
  cases stop <;> apply State.eq_of_fields <;> simp [ctlStop]

/-- Settles O28: `exec_vecRxrdy_byte`, its byte whole by `rxByte_eq`. -/
theorem rxrdyFillsAByte : Obligations.RxrdyFillsAByte := by
  intro s a hready hdir hrem ha stop
  rw [exec_vecRxrdy_byte hready hdir hrem ha, rxByte_eq]
  refine congrArg _ ?_
  apply State.eq_of_fields <;>
    simp [execCtx_of_entryReady hready, countSucc, stop, wantsStop, fStop]

/-! ### The STOP wait of a handler -/

/-- The report of a STOP wait given up at the clock answer after its first sample (R203). -/
def stopReport (s : State) : FaultReport :=
  ⟨.guardClearTimeout, 0x03, s.nowAt 0, s.nowAt 1 - s.nowAt 0⟩

/-- The state a STOP wait leaves that is given up at the clock answer after its first sample. -/
def stopGivenUp (s : State) : State := s.readNow.readCtl.readNow.escalate (stopReport s)

section

variable {s : State} (ps : List Prim) (f : Frame)

/-- STOP deasserts at the first sample. -/
theorem runOps_stopWait_done {onFail : OnFail} (h : has (s.ctlAt 0) 0x4 = false) :
    runOps (.wait (.clears .stop) onFail :: ps) f s = runOps ps f s.readNow.readCtl :=
  runOps_waitClears_done _ _ _ _ _ (by simpa [State.condAsserted, ctlStop] using h)

/-- A handler goes on after it has given up its STOP wait, a finalize with the outcome Timeout
(R150 to R152). -/
theorem runOps_stopWait_timeout (h : has (s.ctlAt 0) 0x4 = true)
    (hbudget : s.par.timeoutBudget ≤ s.nowAt 1 - s.nowAt 0) :
    runOps (.wait (.clears .stop) .record :: ps) f s =
        runOps ps { f with outcome := .timeout } (stopGivenUp s) ∧
      runOps (.wait (.clears .stop) .ignore :: ps) f s = runOps ps f (stopGivenUp s) := by
  have hstop : s.readNow.condAsserted .stop = true := by
    simpa [State.condAsserted, ctlStop] using h
  have helapsed : (s.readNow.sampleCond .stop).elapsedFrom (s.nowAt 0) = s.nowAt 1 - s.nowAt 0 := by
    simp [State.sampleCond, State.elapsedFrom]
  have timeout (onFail : OnFail) :=
    runOps_waitClears_timeout onFail ps f hstop (helapsed ▸ hbudget)
  constructor <;> rw [timeout, helapsed] <;> rfl

end

/-! ### The finalizes -/

section

variable (p : Params) {flags : Byte}

theorem txFinalizeOps_noStop (h : wantsStop flags = false) :
    txFinalizeOps p flags = alwaysClearOps p ++ [.clrIE ifAll, .setIdle, .signalWrite] := by
  simp [txFinalizeOps, h]

theorem txFinalizeOps_stop (h : wantsStop flags = true) :
    txFinalizeOps p flags =
      .setCtl ctlStop :: .wait (.clears .stop) .record :: .setStarted false ::
        (alwaysClearOps p ++ [.clrIE ifAll, .setIdle, .signalWrite]) := by
  simp [txFinalizeOps, h]

theorem rxFinalizeOps_noStop (h : wantsStop flags = false) :
    rxFinalizeOps p flags = .clrIE ifAll :: (alwaysClearOps p ++ [.setIdle, .signalRead]) := by
  simp [rxFinalizeOps, h]

theorem rxFinalizeOps_stop (h : wantsStop flags = true) :
    rxFinalizeOps p flags =
      .clrIE ifAll :: .wait (.clears .stop) .record :: .setStarted false ::
        (alwaysClearOps p ++ [.setIdle, .signalRead]) := by
  simp [rxFinalizeOps, h]

end

section

variable {p : Params} {ps : List Prim} {f : Frame} {s : State}

/-- `started` as `P_CLEAR_STARTED` leaves it (R27). -/
theorem runOps_alwaysClearOps_eq :
    runOps (alwaysClearOps p ++ ps) f s =
      runOps ps f (s.setStarted (p.clearStarted == .onStop && s.ctx.started)) := by
  cases hp : p.clearStarted <;> simp [alwaysClearOps, hp] <;> rfl

/-- With STOP, `started` is cleared whatever `P_CLEAR_STARTED` says (R27). -/
theorem runOps_clearAfterStop :
    runOps (.setStarted false :: (alwaysClearOps p ++ ps)) f s =
      runOps ps f (s.setStarted false) := by
  rw [runOps_setStarted, runOps_alwaysClearOps_eq, State.setStarted_ctx, Bool.and_false]
  rfl

/-- The end of the finalize of a write (R150, R154). -/
theorem runOps_endWrite (o : OutcomeCode) :
    runOps [.clrIE ifAll, .setIdle, .signalWrite] (isrFrame o) s =
      (((s.pClrIE ifAll).setDirection .idle).signalWrite o).leaveIsr := rfl

/-- The end of the finalize of a read (R151, R154). -/
theorem runOps_endRead (o : OutcomeCode) :
    runOps [.setIdle, .signalRead] (isrFrame o) s =
      ((s.setDirection .idle).signalRead o).leaveIsr := rfl

end

/-- Settles O27: with STOP its wait is over at once and clears `started`; without, `P_CLEAR_STARTED`
decides. -/
theorem txrdyFinalizes : Obligations.TxrdyFinalizes := by
  intro s hready hdir hrem stop k hclear
  rw [exec_vecTxrdy_finalize hready hdir hrem]
  refine congrArg _ ?_
  cases hs : stop with
  | false =>
    rw [txFinalizeOps_noStop _ hs, runOps_alwaysClearOps_eq, runOps_endWrite]
    apply State.eq_of_fields <;>
      simp [execCtx_of_entryReady hready, k, hs, ifAll, State.completion]
  | true =>
    rw [txFinalizeOps_stop _ hs, runOps_setCtl, runOps_stopWait_done _ _ (by simpa using hclear hs),
      runOps_clearAfterStop, runOps_endWrite]
    apply State.eq_of_fields <;>
      simp [execCtx_of_entryReady hready, k, hs, ifAll, ctlStop, State.completion]

/-- Settles O29: the last byte is stored, and the rest is as in `txrdyFinalizes`. -/
theorem rxrdyFinalizes : Obligations.RxrdyFinalizes := by
  intro s a hready hdir hrem ha stop k hclear
  rw [exec_vecRxrdy_last hready hdir hrem ha]
  refine congrArg _ ?_
  cases hs : stop with
  | false =>
    rw [rxFinalizeOps_noStop _ hs, runOps_clrIE, runOps_alwaysClearOps_eq, runOps_endRead]
    apply State.eq_of_fields <;>
      simp [execCtx_of_entryReady hready, k, hs, hrem, ifAll, countSucc, State.completion]
  | true =>
    rw [rxFinalizeOps_stop _ hs, runOps_clrIE, runOps_stopWait_done _ _ (by simpa using hclear hs),
      runOps_clearAfterStop, runOps_endRead]
    apply State.eq_of_fields <;>
      simp [execCtx_of_entryReady hready, k, hs, hrem, ifAll, countSucc, State.completion]

/-- Settles O30: the wait is given up, and the rest of either finalize runs with Timeout. -/
theorem finalizeStopTimeout : Obligations.FinalizeStopTimeout := by
  intro s a hready hstop e r hctl hbudget
  constructor
  · intro hdir hrem
    rw [exec_vecTxrdy_finalize hready hdir hrem, txFinalizeOps_stop _ hstop, runOps_setCtl,
      (runOps_stopWait_timeout _ _ (by simpa using hctl) (by simpa using hbudget)).1,
      runOps_clearAfterStop]
    refine congrArg _ ((runOps_endWrite .timeout).trans ?_)
    apply State.eq_of_fields <;>
      simp [execCtx_of_entryReady hready, stopGivenUp, stopReport, e, r, ifAll, ctlStop,
        escalatedRegs, escalation, delivered, State.completion] <;> rfl
  · intro hdir hrem ha
    rw [exec_vecRxrdy_last hready hdir hrem ha, rxFinalizeOps_stop _ hstop, runOps_clrIE,
      (runOps_stopWait_timeout _ _ (by simpa using hctl) (by simpa using hbudget)).1,
      runOps_clearAfterStop]
    refine congrArg _ ((runOps_endRead .timeout).trans ?_)
    apply State.eq_of_fields <;>
      simp [execCtx_of_entryReady hready, hrem, stopGivenUp, stopReport, e, r, ifAll, countSucc,
        escalatedRegs, escalation, delivered, State.completion] <;> rfl

/-! ### The abort -/

/-- The end of the abort, after its STOP wait: the escalation, and the completion of the direction
at entry (R152). -/
theorem runOps_endAbort (s u : State) :
    let v := (u.escalate (nakReport s)).setStarted false
    let c := v.completion .acknowledgementFailure
    runOps [.escalate (nakReport s), .setStarted false,
        if s.ctx.direction = .reading then .signalRead else .signalWrite]
        (isrFrame .acknowledgementFailure) u =
      State.leaveIsr
        { v with
          trace := v.trace ++ [if s.ctx.direction = .reading then .readDone c else .writeDone c]
          env := { v.env with client := v.env.client.skip 1 } } := by
  intro v c
  split <;> rfl

/-- Settles O31: both ways out of the STOP wait lead to the same end of the abort. -/
theorem nakAborts : Obligations.NakAborts := by
  intro s hready hdir e r1 r2 c done
  have hreport : nakReport s = r2 := by
    cases hd : s.ctx.direction with
    | idle => exact absurd hd hdir
    | reading | writing => simp [nakReport, r2, hd, diagCode, diagCount, Direction.code]
  rw [exec_vecNak_abort hready hdir, nakOps, runOps_setCtl]
  constructor
  · intro hctl
    rw [runOps_stopWait_done _ _ (by simpa using hctl), runOps_endAbort, hreport]
    refine congrArg _ ?_
    apply State.eq_of_fields <;>
      simp [execCtx_of_entryReady hready, done, c, ctlStop, escalatedRegs, escalation, delivered,
        State.completion] <;> rfl
  · intro hctl hbudget
    rw [(runOps_stopWait_timeout _ _ (by simpa using hctl) (by simpa using hbudget)).2,
      runOps_endAbort, hreport]
    refine congrArg _ ?_
    cases hnull : s.par.sinkNull <;> apply State.eq_of_fields <;>
      simp [execCtx_of_entryReady hready, hnull, stopGivenUp, stopReport, r1, e, done, c, ctlStop,
        escalatedRegs, escalation, State.completion] <;> rfl

/-- Settles O32: all three entries end in `inconsistent`, whose state is one function of the
vector. -/
theorem inconsistentEntryEscalates : Obligations.InconsistentEntryEscalates := by
  intro s hready r t
  have hreport (vec : Byte) : inconsistentReport vec (s.enterIsr vec) = r (vec.setWidth 32) := by
    cases hd : s.ctx.direction <;>
      simp [inconsistentReport, r, hd, diagCode, diagCount, Direction.code, State.rem0]
  have entry (vec : Byte) : inconsistent vec (s.enterIsr vec) = t vec (r (vec.setWidth 32)) := by
    rw [inconsistent, hreport, escalate_eq]
    apply State.eq_of_fields <;>
      simp [execCtx_of_entryReady hready, t, escalatedRegs, escalation, delivered] <;> rfl
  refine ⟨fun h => ?_, fun h => ?_, fun h => ?_⟩
  · exact (exec_vecTxrdy_inconsistent hready h).trans (congrArg _ (entry 0x03))
  · exact (exec_vecRxrdy_inconsistent hready h).trans (congrArg _ (entry 0x02))
  · exact (exec_vecNak_inconsistent hready h).trans (congrArg _ (entry 0x01))

end Sys2Proof.Machine
end

section
/-! A completion (R154): a step signals at most one, as its last event, and what it carries is what
it would have carried when the step began. -/

namespace Sys2Proof.Machine

/-! ### Before the signal -/

/-- From `s` to `u` no completion has been emitted. -/
def NoCompletion (s u : State) : Prop :=
  ∃ evs, u.trace = s.trace ++ evs ∧ evs.any Event.isDone = false

/-- An operation runs, from `s` to `u`, and has not signalled; a completion would still carry what
it would have carried at `s`. -/
structure Unsignalled (s u : State) : Prop where
  quiet : NoCompletion s u
  carried : u.completion = s.completion
  task : u.task = none

theorem Unsignalled.refl {s : State} (htask : s.task = none) : Unsignalled s s :=
  ⟨⟨[], (List.append_nil _).symm, rfl⟩, rfl, htask⟩

section

variable {s u v : State}

/-- More events, none of them a completion. -/
theorem NoCompletion.append (h : NoCompletion s u) {es : List Event}
    (htrace : v.trace = u.trace ++ es) (hes : es.any Event.isDone = false) : NoCompletion s v := by
  obtain ⟨evs, hu, hevs⟩ := h
  exact ⟨evs ++ es, by rw [htrace, hu, List.append_assoc], by simp [hevs, hes]⟩

theorem Unsignalled.append (h : Unsignalled s u) {es : List Event}
    (htrace : v.trace = u.trace ++ es) (hes : es.any Event.isDone = false)
    (hcarried : v.completion = u.completion) (htask : v.task = u.task) : Unsignalled s v :=
  ⟨h.quiet.append htrace hes, hcarried.trans h.carried, htask.trans h.task⟩

/-- An update that emits nothing. -/
theorem Unsignalled.update (h : Unsignalled s u) (htrace : v.trace = u.trace)
    (hcarried : v.completion = u.completion) (htask : v.task = u.task) : Unsignalled s v :=
  h.append (htrace.trans (List.append_nil _).symm) rfl hcarried htask

theorem Unsignalled.escalate (h : Unsignalled s u) (r : FaultReport) :
    Unsignalled s (u.escalate r) := by
  refine h.append (es := escalation u r) (by simp [escalation]) ?_ ?_ (by simp)
  · simp only [escalation]; split <;> rfl
  · funext o; simp [State.completion]

theorem Unsignalled.sampleWait (h : Unsignalled s u) (w : Wait) :
    Unsignalled s (u.sampleWait w) := by
  rcases sampleWait_cases u w with hs | hs | hs <;> rw [hs] <;> exact h.append rfl rfl rfl rfl

theorem Unsignalled.readNow (h : Unsignalled s u) : Unsignalled s u.readNow :=
  h.append rfl rfl rfl rfl

theorem Unsignalled.rxByte (h : Unsignalled s u) (a : Nat) : Unsignalled s (rxByte a u) := by
  refine h.append ((rxByte_trace a u).trans (List.append_assoc ..)) ?_ ?_ (rxByte_task a u)
  · split <;> rfl
  · funext o; simp [State.completion]

end

/-! ### The signal -/

/-- The step from `s` to `u` ends with the completion `e`, `Idle` and with no operation in
progress; `e` carries the transfer recorded at `s`, with an outcome of R154. -/
structure Signalled (s u : State) (e : Event) : Prop where
  last : ∃ evs, u.trace = s.trace ++ (evs ++ [e]) ∧ evs.any Event.isDone = false
  content : ∃ o, doneOutcome o = true ∧
    (e = .readDone (s.completion o) ∨ e = .writeDone (s.completion o))
  direction : u.ctx.direction = .idle
  task : u.task = none

/-- The step from `s` to `u` emits no completion, or one, last. -/
def SignalsLast (s u : State) : Prop := NoCompletion s u ∨ ∃ e, Signalled s u e

section

variable {s u : State} {f : Frame}

/-- A value returned is no completion. -/
theorem Unsignalled.finish (h : Unsignalled s u) (f : Frame) (r : OpResult) :
    NoCompletion s (finish f r u) := by
  cases ha : f.agent with
  | caller =>
    simp only [Machine.finish, ha]
    exact h.quiet.append (es := [.result r]) rfl rfl
  | primitive | isr =>
    simp only [Machine.finish, ha]
    exact h.quiet

/-- The end of an operation emits nothing. -/
theorem endOfOps_eq (f : Frame) (u : State) : endOfOps f u = u ∨ endOfOps f u = u.leaveIsr := by
  cases ha : f.agent <;> simp [endOfOps, ha]

/-- A completion that is signalled `Idle`, with nothing after it (R154). -/
theorem Unsignalled.signalled (h : Unsignalled s u) {v : State} {e : Event}
    (htrace : v.trace = u.trace ++ [e]) (htask : v.task = u.task)
    (he : ∃ o, doneOutcome o = true ∧
      (e = .readDone (u.completion o) ∨ e = .writeDone (u.completion o)))
    (hdir : v.ctx.direction = .idle) : SignalsLast s (runOps [] f v) := by
  obtain ⟨⟨evs, hu, hevs⟩, hcarried, hnone⟩ := h
  have hsig : Signalled s v e :=
    ⟨⟨evs, by simp [htrace, hu], hevs⟩, hcarried ▸ he, hdir, htask.trans hnone⟩
  rw [runOps_nil]
  rcases endOfOps_eq f v with hend | hend <;> rw [hend]
  · exact .inr ⟨e, hsig⟩
  · exact .inr ⟨e, hsig.last, hsig.content, hsig.direction, hsig.task⟩

theorem Unsignalled.signalRead (h : Unsignalled s u) (hout : doneOutcome f.outcome = true)
    (hdir : u.ctx.direction = .idle) : SignalsLast s (runOps [.signalRead] f u) :=
  h.signalled (v := u.signalRead f.outcome) rfl rfl ⟨_, hout, .inl rfl⟩ hdir

theorem Unsignalled.signalWrite (h : Unsignalled s u) (hout : doneOutcome f.outcome = true)
    (hdir : u.ctx.direction = .idle) : SignalsLast s (runOps [.signalWrite] f u) :=
  h.signalled (v := u.signalWrite f.outcome) rfl rfl ⟨_, hout, .inr rfl⟩ hdir

/-- A poll, and what follows it: an operation that goes on after a failed wait does so with an
outcome of R154. -/
theorem Unsignalled.afterPoll {rest : List Prim} (h : Unsignalled s u)
    (hout : doneOutcome f.outcome = true) (w : Wait) (t0 : Word32) (onFail : OnFail)
    (hok : opsOk f.agent u.ctx.direction u.regs.ie (.wait w onFail :: rest) = true)
    (ih : ∀ {f : Frame} {v : State}, doneOutcome f.outcome = true → Unsignalled s v →
      opsOk f.agent v.ctx.direction v.regs.ie rest = true → SignalsLast s (runOps rest f v)) :
    SignalsLast s (afterPoll w t0 onFail rest f (runOps rest) (pollWait w t0 u)) := by
  simp only [opsOk, Bool.and_eq_true] at hok
  obtain ⟨⟨⟨⟨hrest, -⟩, -⟩, -⟩, hfail⟩ := hok
  have failed (o : OutcomeCode) (ho : doneOutcome o = true) {q : State} (hq : Unsignalled s q)
      (r : FaultReport) : SignalsLast s
        (Machine.afterPoll w t0 onFail rest f (Machine.runOps rest) (.failed o, q.escalate r)) := by
    have hesc := hq.escalate r
    have goes (hgo : onFail.goesOn = true) :
        opsOk f.agent (q.escalate r).ctx.direction (q.escalate r).regs.ie rest = true := by
      simpa [hgo] using hfail
    cases onFail with
    | ret | retAs | retFalse => exact .inl (hesc.finish f _)
    | record => exact ih (f := { f with outcome := o }) ho hesc (goes rfl)
    | ignore => exact ih hout hesc (goes rfl)
  have hsample := h.sampleWait w
  rw [pollWait_eq]
  cases u.verdict w with
  | ready => exact ih hout hsample (by simpa [afterSample] using hrest)
  | nak r => exact failed .acknowledgementFailure rfl hsample r
  | pending =>
    simp only [afterSample]
    split
    · exact failed .timeout rfl hsample.readNow _
    · exact .inl hsample.readNow.quiet

/-- A list that is `opsOk` signals at most once, last. -/
theorem Unsignalled.runOps (ps : List Prim) : ∀ {f : Frame} {u : State},
    doneOutcome f.outcome = true → Unsignalled s u →
    opsOk f.agent u.ctx.direction u.regs.ie ps = true → SignalsLast s (runOps ps f u) := by
  induction ps with
  | nil =>
    intro f u _ h _
    rw [runOps_nil]
    rcases endOfOps_eq f u with hend | hend <;> rw [hend] <;> exact .inl h.quiet
  | cons p ps ih =>
    intro f u hout h hok
    cases p with
    | reset | unreset | setAddr | setCtl | clrCtl | wrTx | wrTxFrom =>
      exact ih hout (h.append rfl rfl rfl rfl) hok
    | rdRx =>
      exact ih (f := { f with prev := f.last, last := u.rdRxAt 0 }) hout
        (h.append rfl rfl rfl rfl) hok
    | store | setStarted => exact ih hout (h.update rfl rfl rfl) hok
    | setIE | clrIE =>
      simp only [opsOk, Bool.and_eq_true] at hok
      exact ih hout (h.append rfl rfl rfl rfl) hok.2
    | escalate r => exact ih hout (h.escalate r) (by simpa [opsOk] using hok)
    | setIdle =>
      simp only [opsOk, Bool.and_eq_true, Bool.or_eq_true, beq_iff_eq] at hok
      have hidle : Unsignalled s (u.setDirection .idle) := h.update rfl rfl rfl
      obtain ⟨-, rfl | rfl⟩ := hok
      · exact hidle.signalRead hout rfl
      · exact hidle.signalWrite hout rfl
    | signalRead =>
      simp only [opsOk, Bool.and_eq_true, List.isEmpty_iff, beq_iff_eq] at hok
      obtain ⟨⟨⟨-, hdir⟩, -⟩, rfl⟩ := hok
      exact h.signalRead hout hdir
    | signalWrite =>
      simp only [opsOk, Bool.and_eq_true, List.isEmpty_iff, beq_iff_eq] at hok
      obtain ⟨⟨⟨-, hdir⟩, -⟩, rfl⟩ := hok
      exact h.signalWrite hout hdir
    | wait w onFail =>
      rw [runOps_wait]
      exact h.readNow.afterPoll hout w _ onFail hok ih
    | ret | retByte | retHalf => exact .inl (h.finish f _)
    | retPresent =>
      have hflags : Unsignalled s u.readFlags := h.append rfl rfl rfl rfl
      exact .inl (hflags.finish f _)

end

/-! ### The operations -/

section

variable {s u : State}

/-- Only an entry signals. -/
theorem Ended.noCompletion {a : Agent} (h : Ended a s u) (ha : a ≠ .isr) : NoCompletion s u := by
  have quiet {evs : List Event} (h : ∀ e ∈ evs, e.isDone = false) :
      evs.any Event.isDone = false := by
    simpa using h
  cases h with
  | quiet h => exact ⟨_, h.trace, quiet (noEnd_of_goesOn h.goesOn).1⟩
  | @returned evs v r h _ _ _ hu =>
    exact ⟨evs ++ [.result r], by simp [hu, h.trace], quiet (isDone_append_result h.goesOn r)⟩
  | signalled hisr => exact absurd hisr ha

theorem isrNak_signalsLast (h : Unsignalled s u) : SignalsLast s (isrNak u) := by
  unfold isrNak
  split
  · exact .inl (h.escalate _).quiet
  · exact h.runOps _ (f := isrFrame _) rfl (opsOk_nakOps _ _ _)

theorem isrTxrdy_signalsLast {v : State} (h : Unsignalled s v) (e : isrTxrdy v = .next u) :
    SignalsLast s u := by
  rcases isrTxrdy_next e with ⟨-, rfl⟩ | ⟨a, -, -, -, rfl⟩ | ⟨-, -, rfl⟩
  · exact .inl (h.escalate _).quiet
  · exact .inl (h.quiet.append (es := [.wrTx (v.mem.read a)]) rfl rfl)
  · exact h.runOps _ (f := isrFrame _) rfl (opsOk_txFinalizeOps _ _ _ _)

theorem isrRxrdy_signalsLast {v : State} (h : Unsignalled s v) (e : isrRxrdy v = .next u) :
    SignalsLast s u := by
  rcases isrRxrdy_next e with ⟨-, rfl⟩ | ⟨a, -, -, ⟨-, rfl⟩ | ⟨-, rfl⟩⟩
  · exact .inl (h.escalate _).quiet
  · exact (h.rxByte a).runOps _ (f := isrFrame _) rfl (opsOk_rxFinalizeOps _ _ _ _)
  · exact .inl (h.rxByte a).quiet

/-- A step that leaves the trace as it is. -/
theorem SignalsLast.of_trace (h : u.trace = s.trace) : SignalsLast s u :=
  .inl ⟨[], by simpa using h, rfl⟩

theorem command_signalsLast {d : Direction} {n : Nat} {buf : BufRef} {flags addr : Byte}
    {ps : List Prim} (ht : s.task = none) (hok : opsOk .caller d 0 ps = true)
    (e : asCaller s (fitsCapacity n buf)
      (if badArgument n buf then s.returnResult (.outcome .invalidArgument)
        else runOps ps callerFrame (s.recordCtx d buf n flags addr)) = .next u) :
    SignalsLast s u := by
  rcases command_ended ht hok e with rfl | h | ⟨-, h⟩
  · exact .of_trace rfl
  · exact .inl (h.noCompletion (by decide))
  · exact .inl (h.noCompletion (by decide))

theorem exec_signalsLast {i : Instr} (ht : s.task = none) (e : exec i s = .next u) :
    SignalsLast s u := by
  have hheld : SignalsLast s s := .of_trace rfl
  have hin (v : Byte) : Unsignalled s (s.enterIsr v) := (Unsignalled.refl ht).append rfl rfl rfl rfl
  cases i with
  | read => exact command_signalsLast ht (opsOk_readOps _ _ _ _) e
  | write => exact command_signalsLast ht (opsOk_writeOps _ _ _) e
  | vecNone => exact asEntry_closed hheld (by rintro ⟨⟩; exact .inl (hin 0x00).quiet) e
  | vecNak => exact asEntry_closed hheld (by rintro ⟨⟩; exact isrNak_signalsLast (hin 0x01)) e
  | vecRxrdy => exact asEntry_closed hheld (isrRxrdy_signalsLast (hin 0x02)) e
  | vecTxrdy => exact asEntry_closed hheld (isrTxrdy_signalsLast (hin 0x03)) e
  | vecOther v =>
    exact asEntry_closed hheld (by rintro ⟨⟩; exact .inl ((hin v).escalate _).quiet) e
  | escalate => exact asPrimitive_closed hheld (.inl ((Unsignalled.refl ht).escalate _).quiet) e
  | init => exact asPrimitive_closed hheld (.inl ⟨_, State.initialise_trace s, rfl⟩) e
  | _ =>
    rcases exec_fixedScript_ended ht rfl e with rfl | ⟨a, ha, h⟩
    · exact hheld
    · exact .inl (h.noCompletion ha)

theorem Inv.resumeTask_signalsLast (hinv : Inv s) {t : Task} (ht : s.task = some t)
    (e : Machine.resumeTask t s = .next u) : SignalsLast s u := by
  obtain ⟨hok, hin, hout⟩ := hinv.task t ht
  simp only [Machine.resumeTask, hin, if_true] at e
  cases e
  have h : Unsignalled s (s.setTask none) := ⟨⟨[], (List.append_nil _).symm, rfl⟩, rfl, rfl⟩
  exact h.afterPoll hout t.wait t.t0 t.onFail hok (Unsignalled.runOps t.rest)

/-- What is presented and raised does not matter for what a completion carries. -/
theorem SignalsLast.of_queues {is : List Item} {rs : List IrqRequest}
    (h : SignalsLast { s with program := is, irqs := rs } u) : SignalsLast s u := by
  rcases h with ⟨evs, htrace, hevs⟩ | ⟨e, hlast, hcontent, hdir, htask⟩
  · exact .inl ⟨evs, htrace, hevs⟩
  · exact .inr ⟨e, hlast, hcontent, hdir, htask⟩

theorem Inv.step_signalsLast (hinv : Inv s) (e : step s = .next u) : SignalsLast s u := by
  rcases step_next e with ⟨t, ht, e⟩ | ⟨ht, i, s', hfetch, e⟩ | ⟨ht, hfetch⟩
  · exact hinv.resumeTask_signalsLast ht e
  · obtain ⟨-, is, rs, rfl⟩ := fetch_run hfetch
    exact (exec_signalsLast (s := { s with program := is, irqs := rs }) ht e).of_queues
  · obtain ⟨is, rs, m, rfl, -⟩ := fetch_pass hfetch
    exact .of_trace rfl

/-- The Caller may move after a completion: nothing is enabled while `Idle`, and no entry is in
progress (R110, R205, R212). -/
theorem Signalled.ready {e : Event} (h : Signalled s u e) (hinv : Inv u) :
    u.regs.ie = 0 ∧ u.callerReady = true := by
  have hie : u.regs.ie = 0 := by simpa [ieOk, armMask, h.direction] using hinv.ie
  exact ⟨hie, by
    simp [State.callerReady, State.engineFree, State.inFlight, h.task, hie,
      hinv.execCtx_normal h.task]⟩

end

/-- Settles O58: the step emits at most one completion, last (`Inv.step_signalsLast`), and the
invariant after it gives the rest. -/
theorem completionContent : Obligations.CompletionContent := by
  intro s u evs e hinv hstep htrace he hdone
  rcases hinv.step_signalsLast hstep with ⟨es, htr, hes⟩ | ⟨c, hsig⟩
  · obtain rfl := events_eq htrace htr
    exact absurd hdone (List.any_eq_false.1 hes e he)
  · obtain ⟨es, htr, hes⟩ := hsig.last
    obtain rfl := events_eq htrace htr
    have hec : e = c := by
      rcases List.mem_append.1 he with he | he
      · exact absurd hdone (List.any_eq_false.1 hes e he)
      · exact List.mem_singleton.1 he
    subst hec
    obtain ⟨hie, hready⟩ := hsig.ready (stepKeepsInvariant s u hinv hstep)
    obtain ⟨o, ho, hcontent⟩ := hsig.content
    refine ⟨by simp, hsig.direction, hie, hready, o, ?_, hcontent⟩
    simpa [doneOutcome, or_assoc] using ho

end Sys2Proof.Machine
end

section
/-! The register operations when every wait ends at its first sample (R170 to R172, R174, R175,
R177, R178): what follows the address phase, the loops of the blocks turn by turn. -/

namespace Sys2Proof.Machine

/-! ### A bad argument (R178) -/

/-- A count of 0 and an empty buffer fail the argument check, which comes before the test of the
capacity (R110, R178). -/
theorem transfer_rejected {n : BitVec 16} {buf : BufRef}
    (h : n = 0 ∨ buf = .null ∨ bufCap buf = 0) :
    fitsCapacity n.toNat buf = true ∧ badArgument n.toNat buf = true := by
  rcases h with rfl | rfl | h
  · simp [fitsCapacity, badArgument]
  · simp [fitsCapacity, badArgument, bufEmpty, bufCap]
  · simp [fitsCapacity, badArgument, bufEmpty, h]

/-- Settles O12: the argument check of all four operations comes first, and returns. -/
theorem invalidArgumentTouchesNothing : Obligations.InvalidArgumentTouchesNothing := by
  intro s client flags addr reg n buf hready hbad t
  obtain ⟨hfits, hbad⟩ := transfer_rejected hbad
  have returned (body : State) :
      asCaller s (fitsCapacity n.toNat buf)
        (if badArgument n.toNat buf then s.returnResult (.outcome .invalidArgument) else body) =
        .next t := by
    rw [hfits, if_pos hbad, asCaller_ready hready]
    rfl
  exact ⟨returned _, returned _, returned _, returned _⟩

/-! ### The operations of a fixed length -/

/-- Settles O35: the address phase, and the value. -/
theorem regPrefixResult : Obligations.RegPrefixResult := by
  intro s addr reg hfree hphase
  exact (if_pos hfree).trans (congrArg _ (runOps_regPrefixOps hphase addr reg _ primFrame))

/-- Settles O36: the bus is idle, STOP deasserts, and one more sample gives the value. -/
theorem presentResult : Obligations.PresentResult := by
  intro s addr hready hidle (hstop : has (s.ctlAt 0) ctlStop = false)
  have hie := ie_of_callerReady hready
  refine (asCaller_ready hready).trans (congrArg _ ?_)
  refine (runOps_busCheck (restart := false) (fun _ => hidle) .retFalse _ callerFrame).trans ?_
  rw [runOps_setAddr, runOps_setCtl,
    runOps_waitClears_done _ _ _ _ _ (by simpa [State.condAsserted] using hstop),
    State.sampleCond, runOps_retPresent]
  apply State.eq_of_fields <;>
    simp [busChecked, hidle, finish, callerFrame, Frame.new, hie, ctlTr, ctlStart, ctlStop, ifNak]

/-- Settles O37: after the address phase START deasserts, STOP is set, and the byte comes. -/
theorem read8Result : Obligations.Read8Result := by
  intro s addr reg hready hphase (hstart : has (s.ctlAt 0) ctlStart = false) hrx
  have hie := ie_of_callerReady hready
  refine (asCaller_ready hready).trans (congrArg _ ?_)
  simp only [read8Ops, readTurnOps, List.append_assoc, runOps_regPrefixOps hphase,
    List.cons_append, List.nil_append, runOps_clrCtl, runOps_setCtl]
  rw [runOps_waitClears_done _ _ _ _ _ (by simpa [State.condAsserted] using hstart),
    State.sampleCond, runOps_setCtl, runOps_waitFlag_ready (by simpa using hrx), runOps_rdRx,
    runOps_retByte]
  apply State.eq_of_fields <;>
    simp [finish, callerFrame, Frame.new, hie, ctlTr, ctlStart, ctlStop]

/-- The end of a register write whose STOP deasserts at the first sample (R175, R176, R177). -/
theorem runOps_writeEndOps {s : State} (hstop : has (s.ctlAt 0) ctlStop = false) (f : Frame) :
    runOps writeEndOps f s =
      finish f (.outcome .success) (s.pSetCtl ctlStop).readNow.readCtl :=
  runOps_waitClears_done _ f (s.pSetCtl ctlStop) .stop .ret hstop

/-- Settles O40: after the address phase the byte, its transmit flag, and the end. -/
theorem write8Result : Obligations.Write8Result := by
  intro s addr reg v hready hphase htx (hstop : has (s.ctlAt 0) ctlStop = false)
  have hie := ie_of_callerReady hready
  refine (asCaller_ready hready).trans (congrArg _ ?_)
  simp only [write8Ops, List.append_assoc, runOps_regPrefixOps hphase, List.cons_append,
    List.nil_append, runOps_wrTx]
  rw [runOps_waitFlag_ready (by simpa using htx), runOps_writeEndOps (by simpa using hstop)]
  apply State.eq_of_fields <;> simp [finish, callerFrame, Frame.new, hie, ctlStop]

/-! ### The block operations, their tests passed -/

section

variable {s : State} {addr reg : Byte} {n : BitVec 16} {buf : BufRef}

theorem exec_readblock_accepted (hready : s.callerReady = true) (h0 : 0 < n.toNat)
    (h : n.toNat ≤ bufCap buf) :
    exec (.readblock addr reg n buf) s =
      .next (runOps (readblockOps addr reg n.toNat buf) callerFrame s) := by
  obtain ⟨hfits, hgood⟩ := transfer_accepted h0 h
  simp [exec, execReadblock, hfits, hgood, asCaller_ready hready]

theorem exec_writeblock_accepted (hready : s.callerReady = true) (h0 : 0 < n.toNat)
    (h : n.toNat ≤ bufCap buf) :
    exec (.writeblock addr reg n buf) s =
      .next (runOps (writeblockOps addr reg n.toNat buf) callerFrame s) := by
  obtain ⟨hfits, hgood⟩ := transfer_accepted h0 h
  simp [exec, execWriteblock, hfits, hgood, asCaller_ready hready]

end

/-! ### The loop of WRITEBLOCK (R177) -/

/-- The state after the first `k` turns of the WRITEBLOCK loop, started in `s`. -/
def sent (base k : Nat) (s : State) : State :=
  { s with
    regs :=
      { s.regs with
        txbuf := (List.range k).foldl (fun _ i => s.mem.read (base + i)) s.regs.txbuf }
    env := { s.env with now := s.env.now.skip k, flags := s.env.flags.skip k }
    trace := s.trace ++ (List.range k).flatMap (fun i =>
      [.wrTx (s.mem.read (base + i)), .now (s.nowAt i), .flags (s.flagsAt i)]) }

section

variable (base k j : Nat) (s : State)

@[simp] theorem sent_nowAt : (sent base k s).nowAt j = s.nowAt (k + j) := by
  simp [sent, State.nowAt]
@[simp] theorem sent_ctlAt : (sent base k s).ctlAt j = s.ctlAt j := rfl
@[simp] theorem sent_flagsAt : (sent base k s).flagsAt j = s.flagsAt (k + j) := by
  simp [sent, State.flagsAt]

theorem sent_zero : sent base 0 s = s := by
  simp [sent]

/-- One more turn: the byte, and its wait. -/
theorem sent_succ :
    ((sent base k s).pWrTx (s.mem.read (base + k))).readNow.readFlags = sent base (k + 1) s := by
  apply State.eq_of_fields <;> simp <;> simp [sent, List.range_succ]

end

/-- The loop with transmit-ready at every first sample, by induction on its turns. -/
theorem runOps_writeLoop {s : State} {base cap : Nat} (f : Frame) (k : Nat) (hcap : k ≤ cap)
    (htx : ∀ i < k, flagReady .tx (s.flagsAt i)) (ps : List Prim) :
    runOps ((List.range k).flatMap (writeByteOps (.region base cap)) ++ ps) f s =
      runOps ps f (sent base k s) := by
  induction k generalizing ps with
  | zero => rw [sent_zero]; rfl
  | succ k ih =>
    have hload : memRead (sent base k s).mem (.region base cap) k = s.mem.read (base + k) := by
      simp [memRead, bufAddr, sent, Nat.lt_of_succ_le hcap]
    rw [List.range_succ, List.flatMap_append, List.append_assoc,
      ih (by omega) fun i hi => htx i (by omega), List.flatMap_singleton, writeByteOps,
      List.cons_append, runOps_wrTxFrom, hload, List.cons_append,
      runOps_waitFlag_ready (by simpa using htx k (by omega)), sent_succ, List.nil_append]

/-- Settles O42: the address phase, the loop, and the end; the last byte stays in TXBUF. -/
theorem writeblockResult : Obligations.WriteblockResult := by
  intro s addr reg n base cap hready h0 hcap hphase htx (hstop : has (s.ctlAt 0) ctlStop = false)
  have hie := ie_of_callerReady hready
  refine (exec_writeblock_accepted (buf := .region base cap) hready h0 hcap).trans (congrArg _ ?_)
  rw [writeblockOps, List.append_assoc, runOps_regPrefixOps hphase,
    runOps_writeLoop _ _ hcap (by simpa using htx), runOps_writeEndOps (by simpa using hstop)]
  obtain ⟨m, hm⟩ : ∃ m, n.toNat = m + 1 := ⟨n.toNat - 1, by omega⟩
  have hlast (b : Byte) : (List.range n.toNat).foldl (fun _ i => s.mem.read (base + i)) b =
      s.mem.read (base + (n.toNat - 1)) := by
    simp [hm, List.range_succ]
  apply State.eq_of_fields <;>
    simp [finish, callerFrame, Frame.new, hie, ctlStop] <;>
    simp [sent, hlast, show 3 + n.toNat + 1 = 4 + n.toNat by omega]

/-! ### The loop of READBLOCK (R174) -/

/-- The state after the first `k` of the `n` turns of the READBLOCK loop, started in `s`; the turn
before the last has set STOP. -/
def drained (n base k : Nat) (s : State) : State :=
  { s with
    regs := { s.regs with ctlw := s.regs.ctlw ||| (if n ≤ k + 1 then ctlStop else 0) }
    mem := (List.range k).foldl (fun m i => m.write (base + i) (s.rdRxAt i)) s.mem
    env :=
      { s.env with
        now := s.env.now.skip k, flags := s.env.flags.skip k, rdRx := s.env.rdRx.skip k }
    trace := s.trace ++ (List.range k).flatMap (fun i =>
      [.now (s.nowAt i), .flags (s.flagsAt i)] ++
        (if i + 2 = n then [.setCtl ctlStop] else []) ++ [.rdRx (s.rdRxAt i)]) }

section

variable (n base k j : Nat) (s : State)

@[simp] theorem drained_nowAt : (drained n base k s).nowAt j = s.nowAt (k + j) := by
  simp [drained, State.nowAt]
@[simp] theorem drained_ctlAt : (drained n base k s).ctlAt j = s.ctlAt j := rfl
@[simp] theorem drained_flagsAt : (drained n base k s).flagsAt j = s.flagsAt (k + j) := by
  simp [drained, State.flagsAt]
@[simp] theorem drained_rdRxAt : (drained n base k s).rdRxAt j = s.rdRxAt (k + j) := by
  simp [drained, State.rdRxAt]

theorem drained_zero (h : 2 ≤ n) : drained n base 0 s = s := by
  simp [drained, show ¬ n ≤ 1 by omega]

/-- One more turn, as `runOps_readByteOps` comes to it. -/
theorem drained_succ (hk : k < n) :
    let u := (drained n base k s).readNow.readFlags
    let v := if k + 2 = n then u.pSetCtl ctlStop else u
    v.readRx.setMem (v.readRx.mem.write (base + k) (v.rdRxAt 0)) = drained n base (k + 1) s := by
  by_cases hstop : k + 2 = n
  · subst hstop
    apply State.eq_of_fields <;> simp <;> simp [drained, List.range_succ]
  · have hset : n ≤ k + 1 ↔ n ≤ k + 1 + 1 := by omega
    apply State.eq_of_fields <;> simp [hstop] <;> simp [drained, List.range_succ, hstop, hset]

end

theorem runOps_stopIf (p : Prop) [Decidable p] (ps : List Prim) (f : Frame) (s : State) :
    runOps ((if p then [.setCtl ctlStop] else []) ++ ps) f s =
      runOps ps f (if p then s.pSetCtl ctlStop else s) := by
  split <;> rfl

/-- One turn: its wait, STOP when one byte is left after this one, and the byte. -/
theorem runOps_readByteOps {s : State} {n base cap k : Nat} (hk : k < n) (hcap : n ≤ cap)
    (hrx : flagReady .rx (s.flagsAt k)) (ps : List Prim) (f : Frame) :
    ∃ f' : Frame, f'.agent = f.agent ∧
      runOps (readByteOps n (.region base cap) k ++ ps) f (drained n base k s) =
        runOps ps f' (drained n base (k + 1) s) := by
  have hstore (m : Memory) (b : Byte) :
      memWrite m (.region base cap) k b = m.write (base + k) b := by
    simp [memWrite, bufAddr, Nat.lt_of_lt_of_le hk hcap]
  have hleft : (n - 1 - k == 1) = true ↔ k + 2 = n := by rw [beq_iff_eq]; omega
  rw [readByteOps, List.append_assoc, List.append_assoc, List.cons_append, List.nil_append,
    runOps_waitFlag_ready (by simpa using hrx), runOps_stopIf, List.cons_append, runOps_rdRx,
    List.cons_append, runOps_store, List.nil_append, hstore]
  simp only [hleft]
  exact ⟨_, by rfl, congrArg (runOps ps _) (drained_succ n base k s hk)⟩

/-- The loop with a received byte at every first sample, by induction on its turns. -/
theorem runOps_readLoop {s : State} {n base cap : Nat} (hn : 2 ≤ n) (hcap : n ≤ cap) (k : Nat)
    (hk : k ≤ n) (hrx : ∀ i < k, flagReady .rx (s.flagsAt i)) (f : Frame) (ps : List Prim) :
    ∃ f' : Frame, f'.agent = f.agent ∧
      runOps ((List.range k).flatMap (readByteOps n (.region base cap)) ++ ps) f s =
        runOps ps f' (drained n base k s) := by
  induction k generalizing ps with
  | zero => exact ⟨f, rfl, congrArg (runOps ps f) (drained_zero n base s hn).symm⟩
  | succ k ih =>
    obtain ⟨f', hf', hloop⟩ := ih (by omega) (fun i hi => hrx i (by omega))
      (readByteOps n (.region base cap) k ++ ps)
    obtain ⟨f'', hf'', hturn⟩ := runOps_readByteOps hk hcap (hrx k (by omega)) ps f'
    refine ⟨f'', hf''.trans hf', ?_⟩
    rw [List.range_succ, List.flatMap_append, List.append_assoc, List.flatMap_singleton, hloop,
      hturn]

/-- Settles O39: the address phase, the turn to reading, the loop, and STOP deasserts. -/
theorem readblockResult : Obligations.ReadblockResult := by
  intro s addr reg n base cap hready hn hcap hphase hrx (hstop : has (s.ctlAt 0) ctlStop = false)
  have hie := ie_of_callerReady hready
  refine (exec_readblock_accepted (buf := .region base cap) hready (by omega) hcap).trans
    (congrArg _ ?_)
  rw [readblockOps, if_neg (by simp; omega)]
  simp only [readTurnOps, List.append_assoc, runOps_regPrefixOps hphase, List.cons_append,
    List.nil_append, runOps_clrCtl, runOps_setCtl]
  obtain ⟨f, hf, hloop⟩ := runOps_readLoop (base := base)
    (s := ((prefixDone s addr reg).pClrCtl ctlTr).pSetCtl ctlStart) hn hcap n.toNat le_rfl
    (by simpa using hrx) callerFrame [.wait (.clears .stop) .ret, .ret .success]
  rw [hloop, runOps_waitClears_done _ _ _ _ _ (by simpa [State.condAsserted] using hstop),
    State.sampleCond, runOps_ret]
  have hagent : f.agent = .caller := hf
  apply State.eq_of_fields <;>
    simp [finish, hagent, hie, ctlTr, ctlStart] <;>
    simp [drained, ctlStop, show 3 + n.toNat + 1 = 4 + n.toNat by omega]

end Sys2Proof.Machine
end

section
/-! Every wait of a register operation propagates its failure at once (43_register_protocol.md,
introduction): the first two waits, whole, and any wait at any poll. -/

namespace Sys2Proof.Machine

/-! ### Failures in the address phase, whole -/

/-- Six of the register operations begin with the address phase (R172 to R177). -/
theorem exec_addressPhase {s : State} {addr reg v : Byte} {w n : BitVec 16} {buf : BufRef}
    {i : Instr} (hready : s.callerReady = true) (h0 : 0 < n.toNat) (hcap : n.toNat ≤ bufCap buf)
    (hi : i ∈ [.read8 addr reg, .read16 addr reg, .readblock addr reg n buf, .write8 addr reg v,
      .write16 addr reg w, .writeblock addr reg n buf]) :
    ∃ ps, exec i s = .next (runOps (regPrefixOps addr reg ++ ps) callerFrame s) := by
  have begins {qs rs : List Prim} (hexec : exec i s = .next (runOps qs callerFrame s))
      (h : qs = regPrefixOps addr reg ++ rs) :
      ∃ ps, exec i s = .next (runOps (regPrefixOps addr reg ++ ps) callerFrame s) :=
    ⟨rs, by rw [hexec, h]⟩
  simp only [List.mem_cons, List.not_mem_nil, or_false] at hi
  rcases hi with rfl | rfl | rfl | rfl | rfl | rfl
  · exact begins (asCaller_ready hready) rfl
  · exact begins (asCaller_ready hready) rfl
  · have hexec := exec_readblock_accepted (addr := addr) (reg := reg) hready h0 hcap
    rw [readblockOps] at hexec
    split at hexec
    · exact begins hexec rfl
    · exact begins hexec (by simp only [readTurnOps, List.append_assoc]; rfl)
  · exact begins (asCaller_ready hready) rfl
  · exact begins (asCaller_ready hready) rfl
  · exact begins (exec_writeblock_accepted hready h0 hcap) (List.append_assoc ..)

/-- The busy check gives up at the clock answer after its first sample (R133). -/
theorem runOps_checkNotBusy_timeout {s : State} (hbusy : s.busyAt 0 = true)
    (hbudget : s.par.timeoutBudget ≤ s.nowAt 1 - s.nowAt 0) (onFail : OnFail) (ps : List Prim)
    (f : Frame) :
    runOps (checkNotBusyOps onFail ++ ps) f s =
      afterPoll (.clears .busy) (s.nowAt 0) onFail ps f (runOps ps)
        (.failed .timeout, s.pReset.pUnreset.readNow.readBusy.readNow.escalate
          ⟨.guardClearTimeout, 0x01, s.nowAt 0, s.nowAt 1 - s.nowAt 0⟩) := by
  refine (runOps_waitClears_timeout (s := s.pReset.pUnreset) (c := .busy) onFail ps f hbusy
    (by simpa [State.sampleCond, State.elapsedFrom] using hbudget)).trans ?_
  simp [State.sampleCond, State.elapsedFrom, clearTimeoutReport, diagCode, condCode]

/-- A NAK in the first sample: the wait escalates (R132). -/
theorem runOps_waitFlag_nak {s : State} {m : DataFlag} (onFail : OnFail) (ps : List Prim)
    (f : Frame) (h : has (s.flagsAt 0) 0x4 = true) :
    runOps (.wait (.flag m) onFail :: ps) f s =
      afterPoll (.flag m) (s.nowAt 0) onFail ps f (runOps ps)
        (.failed .acknowledgementFailure,
          s.readNow.readFlags.escalate (flagNakReport m (s.flagsAt 0))) := by
  rw [runOps_wait, pollWait_nak _ (verdict_flag_nak (s := s.readNow) h)]
  rfl

/-- A NAK on the address (R170). -/
theorem runOps_regPrefixOps_nak {s : State} (hidle : s.busyAt 0 = false)
    (hnak : has (s.flagsAt 0) 0x4 = true) (addr reg : Byte) (ps : List Prim) (f : Frame) :
    runOps (regPrefixOps addr reg ++ ps) f s =
      finish f (.outcome .acknowledgementFailure)
        (((s.pReset.pUnreset.readNow.readBusy.pSetAddr addr).pSetCtl
          0x3).readNow.readFlags.escalate (flagNakReport .tx (s.flagsAt 0))) := by
  refine (runOps_busCheck (restart := false) (fun _ => hidle) .ret _ f).trans ?_
  exact runOps_waitFlag_nak (m := .tx) .ret _ f
    (s := (s.pReset.pUnreset.readNow.readBusy.pSetAddr addr).pSetCtl 0x3) hnak

/-! ### So far no failure -/

/-- The event is neither a report nor a sample of a NAK. -/
def Event.quiet : Event → Bool
  | .report _ => false
  | .flags f => !has f 0x4
  | _ => true

theorem reportsOf_eq_nil {evs : List Event} (h : evs.any Event.isReport = false) :
    reportsOf evs = [] := by
  induction evs with
  | nil => rfl
  | cons e es ih =>
    simp only [List.any_cons, Bool.or_eq_false_iff] at h
    cases e with
    | report r => exact absurd h.1 nofun
    | _ => exact ih h.2

theorem noReport_of_quiet {evs : List Event} (h : evs.all Event.quiet = true) :
    evs.any Event.isReport = false := by
  refine List.any_eq_false.2 fun e he => ?_
  have hq := List.all_eq_true.1 h e he
  cases e with
  | report r => cases hq
  | _ => nofun

theorem noNak_of_quiet {evs : List Event} (h : evs.all Event.quiet = true) (f : Bits3)
    (hf : .flags f ∈ evs) : has f 0x4 = false := by
  simpa [Event.quiet] using List.all_eq_true.1 h _ hf

/-- From `s` to `u` the events `evs` are appended, none of them a failure, and no operation is
waiting. -/
structure Unfailed (s u : State) (evs : List Event) : Prop where
  trace : u.trace = s.trace ++ evs
  quiet : evs.all Event.quiet = true
  par : u.par = s.par
  task : u.task = none

theorem Unfailed.refl {s : State} (h : s.task = none) : Unfailed s s [] :=
  ⟨(List.append_nil _).symm, rfl, rfl, h⟩

theorem Unfailed.append {s u v : State} {evs es : List Event} (h : Unfailed s u evs)
    (htrace : v.trace = u.trace ++ es) (hes : es.all Event.quiet = true)
    (hpar : v.par = u.par := by rfl) (htask : v.task = u.task := by rfl) :
    Unfailed s v (evs ++ es) :=
  ⟨by rw [htrace, h.trace, List.append_assoc], by rw [List.all_append, h.quiet, hes]; rfl,
    hpar.trans h.par, htask.trans h.task⟩

/-! ### The lists of the register operations -/

/-- What follows a failed wait of a register operation (43_register_protocol.md, introduction;
R171). -/
def onFailOf (i : Instr) : OnFail := if isPresent i then .retFalse else .ret

/-- The primitive is one of the register operation `i`: it returns no failure, its waits fail as
those of `i` do, and only PRESENT samples the flags outside a wait (R171). -/
def Prim.ofRegisterOp (i : Instr) : Prim → Bool
  | .reset | .unreset | .setAddr _ | .setCtl _ | .clrCtl _ => true
  | .wrTx _ | .wrTxFrom _ _ | .rdRx | .store _ _ => true
  | .wait _ f => f == onFailOf i
  | .ret o => o == .success
  | .retByte | .retHalf => true
  | .retPresent => isPresent i
  | _ => false

theorem ofRegisterOp_readblockOps (addr reg : Byte) (n : BitVec 16) (buf : BufRef) :
    (readblockOps addr reg n.toNat buf).all
      (Prim.ofRegisterOp (.readblock addr reg n buf)) = true := by
  simp only [readblockOps]
  split
  · rfl
  · have hturn : ∀ i, (readByteOps n.toNat buf i).all
        (Prim.ofRegisterOp (.readblock addr reg n buf)) = true := fun i => by
      simp only [readByteOps]; split <;> rfl
    have hphase : (readTurnOps addr reg).all
        (Prim.ofRegisterOp (.readblock addr reg n buf)) = true := rfl
    have hend : [Prim.wait (.clears .stop) .ret, .ret .success].all
        (Prim.ofRegisterOp (.readblock addr reg n buf)) = true := rfl
    simp only [List.all_append, List.all_flatMap, hphase, hturn, hend, Bool.and_true,
      Bool.true_and, List.all_eq_true, implies_true]

theorem ofRegisterOp_writeblockOps (addr reg : Byte) (n : BitVec 16) (buf : BufRef) :
    (writeblockOps addr reg n.toNat buf).all
      (Prim.ofRegisterOp (.writeblock addr reg n buf)) = true := by
  have hturn : ∀ i, (writeByteOps buf i).all
      (Prim.ofRegisterOp (.writeblock addr reg n buf)) = true := fun _ => rfl
  have hphase : (regPrefixOps addr reg).all
      (Prim.ofRegisterOp (.writeblock addr reg n buf)) = true := rfl
  have hend : writeEndOps.all (Prim.ofRegisterOp (.writeblock addr reg n buf)) = true := rfl
  simp only [writeblockOps, List.all_append, List.all_flatMap, hphase, hturn, hend, Bool.and_true,
    Bool.true_and, List.all_eq_true, implies_true]

/-- Every register operation is a list of its primitives, run by the Caller. -/
theorem fixedScript_registerOp {i : Instr} (hi : isRegisterOp i = true) :
    ∃ ps, fixedScript i = some (.caller, ps) ∧ ps.all (Prim.ofRegisterOp i) = true := by
  cases i with
  | present | read8 | read16 | write8 | write16 => exact ⟨_, rfl, rfl⟩
  | readblock addr reg n buf => exact ⟨_, rfl, ofRegisterOp_readblockOps addr reg n buf⟩
  | writeblock addr reg n buf => exact ⟨_, rfl, ofRegisterOp_writeblockOps addr reg n buf⟩
  | _ => cases hi

/-- A Caller's list, when the Caller may move: its argument check fails, or it runs. -/
theorem exec_fixedScript_ready {i : Instr} {ps : List Prim} {s u : State}
    (hi : fixedScript i = some (.caller, ps)) (hready : s.callerReady = true)
    (e : exec i s = .next u) :
    u = s.returnResult (.outcome .invalidArgument) ∨ u = runOps ps callerFrame s := by
  have ran {fits : Bool} {body : State} (e : asCaller s fits body = .next u) : u = body := by
    rcases asCaller_next e with ⟨-, -, hu⟩ | ⟨hheld, -⟩
    · exact hu
    · exact absurd (hready.symm.trans hheld) (by decide)
  cases i with
  | present | read8 | read16 | write8 | write16 => cases hi; exact .inr (ran e)
  | readblock addr reg n buf | writeblock addr reg n buf =>
    cases hi
    have hu := ran e
    split at hu
    · exact .inl hu
    · exact .inr hu
  | _ => cases hi

/-! ### What a failed wait leads to -/

/-- What a register operation `i`, started in `s`, has come to in `v`: it waits and nothing has
failed, it has returned and nothing had failed, or a wait has failed and it has returned that. -/
inductive Propagates (i : Instr) (s v : State) : Prop where
  | waiting {evs : List Event} {t : Task} (h : Unfailed s (v.setTask none) evs)
      (htask : v.task = some t) (hfail : t.onFail = onFailOf i) (hagent : t.frame.agent = .caller)
      (hrest : t.rest.all (Prim.ofRegisterOp i) = true)
      (hret : t.rest.any Prim.returns = true)
  | returned {evs : List Event} {x : State} {res : OpResult} (htrace : x.trace = s.trace ++ evs)
      (htask : x.task = none) (hreport : evs.any Event.isReport = false)
      (hnak : isPresent i = false → evs.all Event.quiet = true) (hres : res.failed = false)
      (hv : v = x.returnResult res)
  | failed {pre : List Event} {x : State} {r : FaultReport} (htrace : x.trace = s.trace ++ pre)
      (htask : x.task = none) (hpar : x.par = s.par) (hreport : pre.any Event.isReport = false)
      (hloc : r.loc ∈ [.guardClearTimeout, .guardFlagTimeout, .guardFlagNak])
      (hnak : r.loc = .guardFlagNak ↔
        ∃ f, pre.getLast? = some (.flags f) ∧ has f 0x4 = true)
      (hv : v = (x.escalate r).returnResult (failureResult i r))

section

variable {i : Instr} {s u : State} {evs : List Event} {f : Frame}

theorem Unfailed.returned (h : Unfailed s u evs) (hf : f.agent = .caller) {res : OpResult}
    (hres : res.failed = false) : Propagates i s (finish f res u) := by
  refine .returned h.trace h.task (noReport_of_quiet h.quiet) (fun _ => h.quiet) hres ?_
  simp only [finish, hf]

/-- A wait of the operation that fails with report `r` ends the operation. -/
theorem afterPoll_onFailOf (w : Wait) (t0 : Word32) (rest : List Prim) (hf : f.agent = .caller)
    (r : FaultReport) (x : State) :
    afterPoll w t0 (onFailOf i) rest f (runOps rest) (.failed (locClass r.loc), x) =
      x.returnResult (failureResult i r) := by
  simp only [onFailOf, failureResult]
  cases isPresent i <;> simp [afterPoll, finish, hf]

/-- Only the sample of a NAK fails a wait at once (R132). -/
theorem nak_of_verdict {w : Wait} {r : FaultReport} (h : s.verdict w = .nak r) :
    ∃ m, w = .flag m ∧ has (s.flagsAt 0) 0x4 = true := by
  cases w with
  | clears c => simp only [State.verdict] at h; split at h <;> cases h
  | flag m =>
    refine ⟨m, rfl, ?_⟩
    simp only [State.verdict] at h
    split at h
    · assumption
    · split at h <;> cases h

/-- Any other sample is a quiet event. -/
theorem quiet_sampleEvent {w : Wait} (h : ∀ r, s.verdict w ≠ .nak r) :
    (s.sampleEvent w).quiet = true := by
  rcases w with (_ | _ | _) | m
  · rfl
  · rfl
  · rfl
  · have hnak : has (s.flagsAt 0) 0x4 ≠ true := fun hnak => h _ (verdict_flag_nak hnak)
    simpa [State.sampleEvent, Event.quiet] using hnak

/-- A poll of a wait, and what follows it. -/
theorem Unfailed.propagates_afterPoll {rest : List Prim} (h : Unfailed s u evs)
    (hf : f.agent = .caller) (w : Wait) (t0 : Word32)
    (hrest : rest.all (Prim.ofRegisterOp i) = true) (hret : rest.any Prim.returns = true)
    (ih : ∀ (v : State) (es : List Event), Unfailed s v es → Propagates i s (runOps rest f v)) :
    Propagates i s
      (afterPoll w t0 (onFailOf i) rest f (runOps rest) (pollWait w t0 u)) := by
  have sampled (hv : ∀ r, u.verdict w ≠ .nak r) :
      Unfailed s (u.sampleWait w) (evs ++ [u.sampleEvent w]) :=
    h.append (by simp) (by simp [quiet_sampleEvent hv]) (by simp) (by simp)
  cases hv : u.verdict w with
  | ready =>
    rw [pollWait_ready _ hv]
    exact ih _ _ (sampled (by simp [hv]))
  | nak r =>
    obtain ⟨m, rfl, hnak⟩ := nak_of_verdict hv
    have hloc := loc_of_verdict_nak hv
    have hclass : OutcomeCode.acknowledgementFailure = locClass r.loc := by rw [hloc]; rfl
    rw [pollWait_nak _ hv, hclass, afterPoll_onFailOf _ _ _ hf]
    refine .failed (pre := evs ++ [.flags (u.flagsAt 0)])
      (x := u.sampleWait (.flag m)) (by simp [h.trace, State.sampleEvent]) (by simp [h.task])
      (by simp [h.par]) (by simp [noReport_of_quiet h.quiet, Event.isReport]) (by simp [hloc])
      (iff_of_true hloc ⟨_, List.getLast?_concat, hnak⟩) rfl
  | pending =>
    have hclock : Unfailed s (u.sampleWait w).readNow
        (evs ++ [u.sampleEvent w] ++ [.now (u.nowAt 0)]) :=
      (sampled (by simp [hv])).append (by simp) rfl
    by_cases hbudget : u.par.timeoutBudget ≤ u.nowAt 0 - t0
    · obtain ⟨r, hr⟩ : ∃ r, u.timeoutReport w t0 (u.nowAt 0 - t0) = r := ⟨_, rfl⟩
      have hloc : r.loc = .guardClearTimeout ∨ r.loc = .guardFlagTimeout := by
        subst hr; cases w <;> simp [State.timeoutReport, clearTimeoutReport, flagTimeoutReport]
      have hclass : OutcomeCode.timeout = locClass r.loc := by
        rcases hloc with hloc | hloc <;> rw [hloc] <;> rfl
      rw [pollWait_timeout _ hv hbudget, hr, hclass, afterPoll_onFailOf _ _ _ hf]
      refine .failed hclock.trace hclock.task hclock.par (noReport_of_quiet hclock.quiet)
        (by rcases hloc with hloc | hloc <;> simp [hloc]) (iff_of_false ?_ ?_) rfl
      · rcases hloc with hloc | hloc <;> simp [hloc]
      · simp
    · rw [pollWait_again _ hv (BitVec.not_le.1 hbudget)]
      exact .waiting (t := ⟨w, t0, u.nowAt 0 - t0, onFailOf i, rest, f⟩)
        ⟨hclock.trace, hclock.quiet, hclock.par, rfl⟩ rfl rfl hf hrest hret

/-- The rest of a register operation, by induction on its primitives. -/
theorem Unfailed.propagates_runOps (ps : List Prim) : ∀ {f : Frame} {u : State} {evs : List Event},
    f.agent = .caller → ps.all (Prim.ofRegisterOp i) = true → ps.any Prim.returns = true →
    Unfailed s u evs → Propagates i s (runOps ps f u) := by
  induction ps with
  | nil => intro f u evs _ _ hret; cases hret
  | cons p ps ih =>
    intro f u evs hf hps hret h
    simp only [List.all_cons, Bool.and_eq_true] at hps
    obtain ⟨hp, hps⟩ := hps
    have more (hp : p.returns = false) (f' : Frame) (hf' : f'.agent = .caller) {v : State}
        {es : List Event} (hv : Unfailed s v es) : Propagates i s (runOps ps f' v) :=
      ih hf' hps (by simpa [hp] using hret) hv
    cases p with
    | reset => exact more rfl f hf (v := u.pReset) (h.append rfl rfl)
    | unreset => exact more rfl f hf (v := u.pUnreset) (h.append rfl rfl)
    | setAddr a => exact more rfl f hf (v := u.pSetAddr a) (h.append rfl rfl)
    | setCtl m => exact more rfl f hf (v := u.pSetCtl m) (h.append rfl rfl)
    | clrCtl m => exact more rfl f hf (v := u.pClrCtl m) (h.append rfl rfl)
    | wrTx b => exact more rfl f hf (v := u.pWrTx b) (h.append rfl rfl)
    | wrTxFrom buf j =>
      exact more rfl f hf (v := u.pWrTx (memRead u.mem buf j)) (h.append rfl rfl)
    | rdRx =>
      exact more rfl { f with prev := f.last, last := u.rdRxAt 0 } hf (v := u.readRx)
        (h.append rfl rfl)
    | store buf j =>
      exact more rfl f hf (v := u.setMem (memWrite u.mem buf j f.last))
        (h.append (es := []) (List.append_nil _).symm rfl)
    | wait w onFail =>
      obtain rfl : onFail = onFailOf i := by simpa [Prim.ofRegisterOp] using hp
      have hnow : Unfailed s u.readNow (evs ++ [.now (u.nowAt 0)]) := h.append rfl rfl
      rw [runOps_wait]
      exact hnow.propagates_afterPoll hf w _ hps (by simpa [Prim.returns] using hret)
        fun _ _ hv => more rfl f hf hv
    | ret o =>
      obtain rfl : o = .success := by simpa [Prim.ofRegisterOp] using hp
      exact h.returned hf rfl
    | retByte | retHalf => exact h.returned hf rfl
    | retPresent =>
      refine .returned (x := u.readFlags) (evs := evs ++ [.flags (u.flagsAt 0)])
        (res := .present (!has (u.flagsAt 0) ifNak)) (by simp [h.trace]) h.task
        (by simp [noReport_of_quiet h.quiet, Event.isReport])
        (fun hi => absurd (hi.symm.trans hp) (by decide)) rfl ?_
      simp only [runOps_retPresent, finish, hf]
    | _ => cases hp

/-! ### Over the steps of an operation -/

/-- A register operation starts in one of the three ways. -/
theorem propagates_exec (hi : isRegisterOp i = true) (hready : s.callerReady = true)
    (e : exec i s = .next u) : Propagates i s u := by
  obtain ⟨ps, hscript, hps⟩ := fixedScript_registerOp hi
  have htask : s.task = none :=
    task_of_ready (ready_of_callerReady (isCaller_of_fixedScript hscript) hready)
  rcases exec_fixedScript_ready hscript hready e with rfl | rfl
  · exact .returned (x := s) (evs := []) (List.append_nil _).symm htask rfl (fun _ => rfl) rfl rfl
  · exact (Unfailed.refl htask).propagates_runOps ps rfl hps (fixedScript_blocking hscript).2.2

/-- While it waits, a step is a poll of its wait. -/
theorem Propagates.step {v : State} (h : Propagates i s u) (hbusy : u.task ≠ none)
    (e : step u = .next v) : Propagates i s v := by
  cases h with
  | waiting h htask hfail hagent hrest hret =>
    rw [step_of_task htask (inBounds_of_step htask e), hfail] at e
    cases e
    exact h.propagates_afterPoll hagent _ _ hrest hret fun _ _ hv =>
      hv.propagates_runOps _ hagent hrest hret
  | returned htrace htask hreport hnak hres hv => exact absurd (hv ▸ htask) hbusy
  | failed htrace htask hpar hreport hloc hnak hv =>
    exact absurd (by simpa [hv] using htask) hbusy

end

/-- What every step of an operation in progress keeps is kept over all the steps it takes. -/
theorem inProgress_induction {P : State → Prop}
    (hstep : ∀ u v, P u → u.task ≠ none → step u = .next v → P v) (k : Nat) : ∀ {u v : State},
    P u → inProgressFor k u → Host.Core.run Sys2Proof.core k u = .next v → P v := by
  induction k with
  | zero => rintro u v h - ⟨⟩; exact h
  | succ k ih =>
    intro u v h hbusy hrun
    have hu : u.task ≠ none := by
      obtain ⟨w, ⟨⟩, hw⟩ := hbusy 0 k.succ_pos
      exact hw
    cases e : step u with
    | next w =>
      rw [run_succ e] at hrun
      refine ih (hstep u w h hu e) (fun j hj => ?_) hrun
      rw [← run_succ e]
      exact hbusy (j + 1) (by omega)
    | fault r => simp [Host.Core.run, Sys2Proof.core, e] at hrun
    | refused r => simp [Host.Core.run, Sys2Proof.core, e] at hrun

theorem escalation_congr {s x : State} (h : x.par = s.par) (r : FaultReport) :
    escalation x r = escalation s r := by
  simp only [escalation, h]

/-- The events of a register operation so far, in the words of the statement. -/
theorem Propagates.events {i : Instr} {s v : State} (h : Propagates i s v) :
    ∃ evs, v.trace = s.trace ++ evs ∧
      ((reportsOf evs = [] ∧ (isPresent i = false → ∀ f, .flags f ∈ evs → has f 0x4 = false) ∧
          (∀ t, v.task = some t → t.onFail = onFailOf i) ∧
          (v.task = none → ∃ res, v.lastResult = some res ∧ res.failed = false ∧
            evs.getLast? = some (.result res))) ∨
        ∃ pre r, v.task = none ∧ v.lastResult = some (failureResult i r) ∧
          evs = pre ++ escalation s r ++ [.result (failureResult i r)] ∧ reportsOf pre = [] ∧
          r.loc ∈ [.guardClearTimeout, .guardFlagTimeout, .guardFlagNak] ∧
          (r.loc = .guardFlagNak ↔
            ∃ f, pre.getLast? = some (.flags f) ∧ has f 0x4 = true)) := by
  cases h with
  | waiting h htask hfail hagent hrest hret =>
    refine ⟨_, h.trace, .inl ⟨reportsOf_eq_nil (noReport_of_quiet h.quiet),
      fun _ => noNak_of_quiet h.quiet, fun t ht => ?_, fun hnone => ?_⟩⟩
    · obtain rfl := Option.some.inj (htask.symm.trans ht)
      exact hfail
    · exact absurd (htask.symm.trans hnone) nofun
  | @returned evs x res htrace htask hreport hnak hres hv =>
    subst hv
    refine ⟨evs ++ [.result res], by simp [htrace], .inl ⟨reportsOf_eq_nil ?_,
      fun hi f hf => ?_, fun t ht => ?_, fun _ => ⟨res, rfl, hres, List.getLast?_concat⟩⟩⟩
    · simp [hreport, Event.isReport]
    · exact noNak_of_quiet (hnak hi) f (by simpa using hf)
    · exact absurd (ht.symm.trans htask) nofun
  | @failed pre x r htrace htask hpar hreport hloc hnak hv =>
    subst hv
    refine ⟨pre ++ escalation s r ++ [.result (failureResult i r)], ?_,
      .inr ⟨pre, r, by simpa using htask, rfl, rfl, reportsOf_eq_nil hreport, hloc, hnak⟩⟩
    rw [← escalation_congr hpar]
    simp [htrace, escalation]

/-- Settles O44: the busy check and the address are at the front of the list (`exec_addressPhase`);
over the steps, `Propagates` holds from the start and every step in progress keeps it. -/
theorem registerFailuresPropagate : Obligations.RegisterFailuresPropagate := by
  refine ⟨fun s addr reg v w n buf i hready h0 hcap hi => ?_,
    fun s i k u v hi hready e hbusy hrun => ?_⟩
  · obtain ⟨ps, hexec⟩ := exec_addressPhase hready h0 hcap hi
    constructor
    · intro e r t hbusy hbudget
      have gaveUp (res : OpResult) :
          (s.pReset.pUnreset.readNow.readBusy.readNow.escalate r).returnResult res = t res := by
        apply State.eq_of_fields <;> simp [t, hbusy, escalatedRegs, escalation, delivered] <;> rfl
      refine ⟨hexec.trans (congrArg _ ?_), (asCaller_ready hready).trans (congrArg _ ?_)⟩
      · rw [regPrefixOps, List.append_assoc, runOps_checkNotBusy_timeout hbusy hbudget]
        exact gaveUp _
      · rw [presentOps, runOps_checkNotBusy_timeout hbusy hbudget]
        exact gaveUp _
    · intro f r hidle hnak
      refine hexec.trans (congrArg _ ?_)
      rw [runOps_regPrefixOps_nak hidle hnak]
      apply State.eq_of_fields <;>
        simp [finish, callerFrame, Frame.new, f, r, hidle, escalatedRegs, escalation, delivered,
          flagNakReport, diagBits, flagBits, ifTx] <;> rfl
  · exact (inProgress_induction (fun _ _ h hbusy e => h.step hbusy e) k
      (propagates_exec hi hready e) hbusy hrun).events

end Sys2Proof.Machine
end

section
/-! A block of one byte beside READ8 and WRITE8 (R174, R177), in any environment: the two run in
lockstep, wait for wait, until their lists part. -/

namespace Sys2Proof.Machine

/-! ### The state beside an operation -/

/-- The state `z` comes from `s` with memory as it was; nothing is in progress, presented or
raised. -/
structure Alone (s z : State) : Prop where
  grown : Grown s z
  mem : z.mem = s.mem
  task : z.task = none
  program : z.program = []
  irqs : z.irqs = []

section

variable {s z u : State} {f : Frame}

/-- An update that appends events and touches nothing that `Alone` speaks of. -/
theorem Alone.append (h : Alone s z) {evs : List Event} (htrace : u.trace = z.trace ++ evs)
    (hpar : u.par = z.par := by rfl) (hmem : u.mem = z.mem := by rfl)
    (htask : u.task = z.task := by rfl) (hprog : u.program = z.program := by rfl)
    (hirqs : u.irqs = z.irqs := by rfl) : Alone s u :=
  ⟨h.grown.append htrace hpar, hmem.trans h.mem, htask.trans h.task, hprog.trans h.program,
    hirqs.trans h.irqs⟩

theorem Alone.sample (h : Alone s z) (hu : u = z.readBusy ∨ u = z.readCtl ∨ u = z.readFlags) :
    Alone s u := by
  rcases hu with rfl | rfl | rfl <;> exact h.append rfl

theorem Alone.readNow (h : Alone s z) : Alone s z.readNow :=
  h.append rfl

theorem Alone.escalate (h : Alone s z) (r : FaultReport) : Alone s (z.escalate r) :=
  h.append ((z.escalate_trace r).trans (List.append_assoc ..)) (by simp) (by simp) (by simp)
    (by simp) (by simp)

theorem Alone.returnResult (h : Alone s z) (r : OpResult) : Alone s (z.returnResult r) :=
  h.append rfl

theorem Alone.pollWait (h : Alone s z) (w : Wait) (t0 : Word32) :
    Alone s (pollWait w t0 z).2 := by
  rcases pollWait_cases w t0 z with ⟨q, e, hq⟩ | ⟨q, e, hq, -⟩ | ⟨q, r, e, hq, -⟩ | ⟨m, -, -, e⟩ <;>
    rw [e]
  · exact h.sample hq
  · exact (h.sample hq).readNow
  · exact (h.sample hq).readNow.escalate r
  · exact (h.sample (.inr (.inr rfl))).escalate _

theorem finish_caller (hf : f.agent = .caller) (r : OpResult) (z : State) :
    finish f r z = z.returnResult r := by
  simp only [finish, hf]

end

/-! ### Lists that run alike -/

/-- The primitive leaves memory alone and does not return. -/
def Prim.goesAlong : Prim → Bool
  | .reset | .unreset | .setAddr _ | .setCtl _ | .clrCtl _ | .wrTx _ | .rdRx | .wait _ _ => true
  | _ => false

/-- The two lists are the same but for their ends `e` and `e'`, and for bytes loaded from memory `m`
in the first that are given in the second. -/
inductive Twin (m : Memory) (e e' : List Prim) : List Prim → List Prim → Prop where
  | ends : Twin m e e' e e'
  | same {p : Prim} {ps qs : List Prim} (hp : p.goesAlong = true) (h : Twin m e e' ps qs) :
      Twin m e e' (p :: ps) (p :: qs)
  | load {buf : BufRef} {i : Nat} {ps qs : List Prim} (hin : (bufAddr buf i).isSome = true)
      (h : Twin m e e' ps qs) :
      Twin m e e' (.wrTxFrom buf i :: ps) (.wrTx (memRead m buf i) :: qs)

section

variable {m : Memory} {e e' ps qs : List Prim}

theorem Twin.prepend (h : Twin m e e' ps qs) (l : List Prim)
    (hl : l.all Prim.goesAlong = true) : Twin m e e' (l ++ ps) (l ++ qs) := by
  induction l with
  | nil => exact h
  | cons p l ih =>
    obtain ⟨hp, hl⟩ := by simpa only [List.all_cons, Bool.and_eq_true] using hl
    exact .same hp (ih hl)

theorem Twin.inBounds (h : Twin m e e' ps qs) (he : e.all Prim.inBounds = true)
    (he' : e'.all Prim.inBounds = true) :
    ps.all Prim.inBounds = true ∧ qs.all Prim.inBounds = true := by
  induction h with
  | ends => exact ⟨he, he'⟩
  | @same p ps qs hp h ih =>
    have hin : p.inBounds = true := by
      cases p with
      | wrTxFrom | store => cases hp
      | _ => rfl
    simp [hin, ih]
  | load hin h ih => simpa [Prim.inBounds, hin] using ih

end

/-! ### In lockstep -/

/-- Two operations, started alone in `s`, are in the same wait with the rest of their lists alike,
have both returned the same, or have come to the ends of their lists in the same state. -/
inductive Lockstep (s : State) (e e' : List Prim) (x y : State) : Prop where
  | waiting {ps qs : List Prim} {t : Task} {z : State} (h : Twin s.mem e e' ps qs)
      (hagent : t.frame.agent = .caller) (hz : Alone s z)
      (hx : x = z.setTask (some { t with rest := ps }))
      (hy : y = z.setTask (some { t with rest := qs }))
  | finished (hx : Alone s x) (hy : y = x)
  | ended {f : Frame} {z : State} (hagent : f.agent = .caller) (hz : Alone s z)
      (hx : x = runOps e f z) (hy : y = runOps e' f z)

section

variable {s z x y : State} {e e' ps qs : List Prim} {f : Frame}

/-- The same poll in both, and what follows it. -/
theorem Twin.lockstep_afterPoll (h : Twin s.mem e e' ps qs) (hf : f.agent = .caller)
    (hz : Alone s z) (w : Wait) (t0 : Word32) (onFail : OnFail)
    (ih : ∀ (f : Frame) (z : State), f.agent = .caller → Alone s z →
      Lockstep s e e' (runOps ps f z) (runOps qs f z)) :
    Lockstep s e e' (afterPoll w t0 onFail ps f (runOps ps) (pollWait w t0 z))
      (afterPoll w t0 onFail qs f (runOps qs) (pollWait w t0 z)) := by
  have hpoll := hz.pollWait w t0
  generalize pollWait w t0 z = p at hpoll
  obtain ⟨found, q⟩ := p
  have returned (r : OpResult) : Lockstep s e e' (finish f r q) (finish f r q) := by
    rw [finish_caller hf]
    exact .finished (hpoll.returnResult r) rfl
  cases found with
  | done => exact ih f q hf hpoll
  | again elapsed => exact .waiting (t := ⟨w, t0, elapsed, onFail, [], f⟩) h hf hpoll rfl rfl
  | failed o =>
    cases onFail with
    | ret => exact returned (.outcome o)
    | retAs o' => exact returned (.outcome o')
    | retFalse => exact returned (.present false)
    | record => exact ih { f with outcome := o } q hf hpoll
    | ignore => exact ih f q hf hpoll

theorem Twin.lockstep_runOps (h : Twin s.mem e e' ps qs) (f : Frame) (z : State)
    (hf : f.agent = .caller) (hz : Alone s z) :
    Lockstep s e e' (runOps ps f z) (runOps qs f z) := by
  induction h generalizing f z with
  | ends => exact .ended hf hz rfl rfl
  | @same p ps qs hp h ih =>
    cases p with
    | reset => exact ih f _ hf (hz.append (u := z.pReset) rfl)
    | unreset => exact ih f _ hf (hz.append (u := z.pUnreset) rfl)
    | setAddr a => exact ih f _ hf (hz.append (u := z.pSetAddr a) rfl)
    | setCtl c => exact ih f _ hf (hz.append (u := z.pSetCtl c) rfl)
    | clrCtl c => exact ih f _ hf (hz.append (u := z.pClrCtl c) rfl)
    | wrTx b => exact ih f _ hf (hz.append (u := z.pWrTx b) rfl)
    | rdRx =>
      exact ih { f with prev := f.last, last := z.rdRxAt 0 } _ hf
        (hz.append (u := z.readRx) rfl)
    | wait w onFail =>
      rw [runOps_wait, runOps_wait]
      exact h.lockstep_afterPoll hf hz.readNow w _ onFail ih
    | _ => cases hp
  | @load buf i ps qs hin h ih =>
    rw [runOps_wrTxFrom, runOps_wrTx, hz.mem]
    exact ih f _ hf (hz.append (u := z.pWrTx (memRead s.mem buf i)) rfl)

/-- What the ends of two lists must be: within their buffers, and no more than the return of a
value. -/
structure Returning (s : State) (e : List Prim) : Prop where
  inBounds : e.all Prim.inBounds = true
  step : ∀ f z, f.agent = .caller → Alone s z → step (runOps e f z) = .next (runOps e f z)

/-- The same step in both, or nothing in both. -/
theorem Lockstep.step (h : Lockstep s e e' x y) (he : Returning s e) (he' : Returning s e') :
    ∃ u v, Machine.step x = .next u ∧ Machine.step y = .next v ∧ Lockstep s e e' u v := by
  cases h with
  | @waiting ps qs t z h hagent hz hx hy =>
    obtain ⟨hps, hqs⟩ := h.inBounds he.inBounds he'.inBounds
    have hfree (t : Option Task) : (z.setTask t).setTask none = z := by
      simp only [State.setTask, ← hz.task]
    subst hx hy
    refine ⟨_, _, step_of_task rfl hps, step_of_task rfl hqs, ?_⟩
    rw [hfree, hfree]
    exact h.lockstep_afterPoll hagent hz _ _ _ h.lockstep_runOps
  | finished hx hy =>
    subst hy
    have hquiet := WaitAhead.step_quiet hx.task hx.program hx.irqs
    exact ⟨y, y, hquiet, hquiet, .finished hx rfl⟩
  | ended hagent hz hx hy =>
    subst hx hy
    exact ⟨_, _, he.step _ _ hagent hz, he'.step _ _ hagent hz, .ended hagent hz rfl rfl⟩

theorem Lockstep.run (he : Returning s e) (he' : Returning s e') (k : Nat) : ∀ {x y : State},
    Lockstep s e e' x y → ∃ u v, Host.Core.run Sys2Proof.core k x = .next u ∧
      Host.Core.run Sys2Proof.core k y = .next v ∧ Lockstep s e e' u v := by
  induction k with
  | zero => exact fun {x y} h => ⟨x, y, rfl, rfl, h⟩
  | succ k ih =>
    intro x y h
    obtain ⟨x', y', hx, hy, h'⟩ := h.step he he'
    obtain ⟨u, v, hu, hv, huv⟩ := ih h'
    exact ⟨u, v, (run_succ hx k).trans hu, (run_succ hy k).trans hv, huv⟩

end

/-! ### The presentations -/

/-- An operation of the Caller presented alone, when the Caller may move, runs (R110). -/
theorem step_presented {s : State} {i : Instr} (hwf : i.wf s.par.lenBits = true)
    (hi : i.isCaller = true) (hready : s.callerReady = true) :
    step { s with program := [.packet (encode i)] } = exec i { s with program := [] } :=
  stepRunsThePresentedOperation { s with program := [.packet (encode i)] } (encode i) [] i rfl
    (decodeOfEncodeIsIdentity _ i hwf) (ready_of_callerReady hi hready)

theorem alone_start {s : State} (hready : s.callerReady = true) (hirqs : s.irqs = []) :
    Alone s { s with program := [] } :=
  ⟨Grown.refl s, rfl, task_of_ready (i := .present 0) (ready_of_callerReady rfl hready), rfl, hirqs⟩

theorem returning_ret (s : State) (o : OutcomeCode) : Returning s [.ret o] where
  inBounds := rfl
  step f z hf hz := by
    rw [runOps_ret, finish_caller hf]
    exact WaitAhead.step_quiet hz.task hz.program hz.irqs

theorem returning_retByte (s : State) : Returning s [.retByte] where
  inBounds := rfl
  step f z hf hz := by
    rw [runOps_retByte, finish_caller hf]
    exact WaitAhead.step_quiet hz.task hz.program hz.irqs

theorem returning_store (s : State) {buf : BufRef} (hcap : 1 ≤ bufCap buf) :
    Returning s [.store buf 0, .ret .success] where
  inBounds := by simp [Prim.inBounds, bufAddr_isSome hcap]
  step f z hf hz := by
    rw [runOps_store, runOps_ret, finish_caller hf]
    exact WaitAhead.step_quiet hz.task hz.program hz.irqs

/-- READBLOCK of one byte is the READ8 sequence, with its own end (R174). -/
theorem twin_read (m : Memory) (addr reg : Byte) (buf : BufRef) :
    Twin m [.store buf 0, .ret .success] [.retByte] (readblockOps addr reg 1 buf)
      (read8Ops addr reg ++ [.retByte]) :=
  Twin.ends.prepend (read8Ops addr reg) rfl

/-- WRITEBLOCK of one byte is the WRITE8 sequence, its byte loaded (R177). -/
theorem twin_write (m : Memory) (addr reg : Byte) {buf : BufRef} (hcap : 1 ≤ bufCap buf) :
    Twin m [.ret .success] [.ret .success] (writeblockOps addr reg 1 buf)
      (write8Ops addr reg (memRead m buf 0)) := by
  have hend := (Twin.ends (m := m) (e := [.ret .success]) (e' := [.ret .success])).prepend
    [.wait (.flag .tx) .ret, .setCtl ctlStop, .wait (.clears .stop) .ret] rfl
  exact (Twin.load (bufAddr_isSome hcap) hend).prepend (regPrefixOps addr reg) rfl

/-- What the two have done while READ8 and READBLOCK run in lockstep. -/
theorem Lockstep.read_outcome {s u v : State} {buf : BufRef}
    (h : Lockstep s [.store buf 0, .ret .success] [.retByte] u v) :
    (u.trace = v.trace ∧ u.lastResult = v.lastResult ∧ u.mem = s.mem) ∨
      ∃ evs b, v.trace = s.trace ++ evs ++ [.result (.byte .success b)] ∧
        u.trace = s.trace ++ evs ++ [.result (.outcome .success)] ∧
        u.mem = memWrite s.mem buf 0 b := by
  cases h with
  | waiting h hagent hz hx hy => subst hx hy; exact .inl ⟨rfl, rfl, hz.mem⟩
  | finished hx hy => subst hy; exact .inl ⟨rfl, rfl, hx.mem⟩
  | @ended f z hagent hz hx hy =>
    obtain ⟨evs, hevs⟩ := hz.grown.1
    rw [runOps_store, runOps_ret, finish_caller hagent] at hx
    rw [runOps_retByte, finish_caller hagent] at hy
    exact .inr ⟨evs, f.last, by simp [hy, hevs], by simp [hx, hevs], by simp [hx, hz.mem]⟩

/-- What the two have done while WRITE8 and WRITEBLOCK run in lockstep. -/
theorem Lockstep.write_outcome {s u v : State}
    (h : Lockstep s [.ret .success] [.ret .success] u v) :
    u.trace = v.trace ∧ u.lastResult = v.lastResult ∧ u.mem = s.mem := by
  cases h with
  | waiting h hagent hz hx hy => subst hx hy; exact ⟨rfl, rfl, hz.mem⟩
  | finished hx hy => subst hy; exact ⟨rfl, rfl, hx.mem⟩
  | ended hagent hz hx hy => subst hx hy; exact ⟨rfl, rfl, by simp [hz.mem]⟩

/-- Two lists alike, each run by the step that presents it, and the steps after it. -/
theorem Twin.run_presented {s x y : State} {e e' ps qs : List Prim}
    (h : Twin s.mem e e' ps qs) (he : Returning s e) (he' : Returning s e')
    (hstart : Alone s { s with program := [] })
    (hx : step x = .next (runOps ps callerFrame { s with program := [] }))
    (hy : step y = .next (runOps qs callerFrame { s with program := [] })) (k : Nat) :
    ∃ u v, Host.Core.run Sys2Proof.core (k + 1) x = .next u ∧
      Host.Core.run Sys2Proof.core (k + 1) y = .next v ∧ Lockstep s e e' u v := by
  rw [run_succ hx, run_succ hy]
  exact (h.lockstep_runOps _ _ rfl hstart).run he he' k

/-- Settles O43: after the first step, which presents, the two operations are in lockstep; READ8
and READBLOCK part at their ends, WRITE8 and WRITEBLOCK have the same end. -/
theorem oneByteBlocks : Obligations.OneByteBlocks := by
  intro s addr reg base cap k hready hirqs hcap hlen presenting buf
  cases k with
  | zero => exact ⟨⟨_, _, rfl, rfl, .inl ⟨rfl, rfl, rfl⟩⟩, _, _, rfl, rfl, rfl, rfl, rfl⟩
  | succ k =>
    have hstart := alone_start hready hirqs
    have hready' : State.callerReady { s with program := [] } = true := hready
    have hcount : countLegal s.par.lenBits 1 := Nat.one_lt_two_pow (by omega)
    have haddr : bufAddr buf 0 = some base := if_pos hcap
    have hload : memRead s.mem buf 0 = s.mem.read base := by simp only [memRead, haddr]
    have hstore (b : Byte) : memWrite s.mem buf 0 b = s.mem.write base b := by
      simp only [memWrite, haddr]
    have presented (i : Instr) (hwf : i.wf s.par.lenBits = true) (hi : i.isCaller = true) :
        step (presenting i) = exec i { s with program := [] } := step_presented hwf hi hready
    constructor
    · have hblock := (presented (.readblock addr reg 1 buf) (decide_eq_true hcount) rfl).trans
        (exec_readblock_accepted hready' (by decide) hcap)
      have hbyte := (presented (.read8 addr reg) rfl rfl).trans (asCaller_ready hready')
      obtain ⟨u, v, hu, hv, h⟩ := (twin_read s.mem addr reg buf).run_presented
        (returning_store s hcap) (returning_retByte s) hstart hblock hbyte k
      have houtcome := h.read_outcome
      simp only [hstore] at houtcome
      exact ⟨u, v, hu, hv, houtcome⟩
    · have hblock := (presented (.writeblock addr reg 1 buf) (decide_eq_true hcount) rfl).trans
        (exec_writeblock_accepted hready' (by decide) hcap)
      have hbyte := (presented (.write8 addr reg (memRead s.mem buf 0)) rfl rfl).trans
        (asCaller_ready hready')
      obtain ⟨u, v, hu, hv, h⟩ := (twin_write s.mem addr reg (buf := buf) hcap).run_presented
        (returning_ret s _) (returning_ret s _) hstart hblock hbyte k
      rw [hload] at hv
      exact ⟨u, v, hu, hv, h.write_outcome⟩

end Sys2Proof.Machine
end

section
/-! Which entries start (R205 to R208), and the two that touch no data: VEC_NONE (R209) and an
unexpected vector (R210); ESCALATE presented alone (R202). -/

namespace Sys2Proof.Machine

/-! ### Entries and the escalation, whole -/

/-- Settles O33: the entry is left at once, to the context it came from. -/
theorem vecNoneChangesNothing : Obligations.VecNoneChangesNothing := by
  intro s hready
  refine (if_pos hready).trans (congrArg _ ?_)
  apply State.eq_of_fields <;> simp [execCtx_of_entryReady hready]

/-- Settles O34: the handler is one escalation inside its entry. -/
theorem unexpectedVectorEscalates : Obligations.UnexpectedVectorEscalates := by
  intro s vec hready _ r
  have hreport : unexpectedReport vec s = r := by
    cases hd : s.ctx.direction <;> simp [unexpectedReport, r, hd, diagCode, Direction.code]
  refine (if_pos hready).trans (congrArg _ ?_)
  rw [hreport, escalate_eq]
  apply State.eq_of_fields <;>
    simp [execCtx_of_entryReady hready, escalatedRegs, escalation, delivered] <;> rfl

/-- Settles O46: presented alone, ESCALATE is `State.escalate`, whole by `escalate_eq`. -/
theorem escalateEffect : Obligations.EscalateEffect := by
  intro s loc d1 d2 d3 hfree
  refine ⟨rfl, (if_pos hfree).trans (congrArg _ ?_)⟩
  rw [escalate_eq, escalation, List.append_assoc]
  rfl

/-! ### What the peripheral raises -/

theorem inFlight_iff {s : State} : s.inFlight = true ↔ s.regs.ie ≠ 0 := bne_iff_ne

/-- The entry of a set of pending and enabled sources, in the order NAK, RX, TX (R208). -/
theorem decodeVector_selectVector {m : Bits3} (h : m ≠ 0) :
    decodeVector (selectVector m) =
      if has m 0x4 then .vecNak else if has m 0x2 then .vecRxrdy else .vecTxrdy := by
  revert m; decide

/-- Every vector is that of an entry (R89). -/
theorem isEntry_decodeVector (v : Byte) : (decodeVector v).isEntry = true := by
  rw [decodeVector_eq]
  split_ifs <;> rfl

theorem step_of_fetch_pass {s s' : State} (hs : s.task = none) (h : fetch s = .pass s') :
    step s = .next s' := by
  simp [step, hs, h]

section

variable {s : State} {rs : List IrqRequest}

/-- With `IE = 0` the peripheral raises nothing (R207). -/
theorem raised_disabled (hie : s.regs.ie = 0) : raised s = .pass s := by
  simp [raised, State.inFlight, hie]

section

variable (hopen : (s.inFlight && s.entryReady) = true)

include hopen

/-- A drawn vector is entered as it is (R207). -/
theorem raised_vector {v : Byte} (h : s.irqs = .vector v :: rs) :
    raised s = .run (decodeVector v) { s with irqs := rs } := by
  rw [raised, if_pos hopen, h]

/-- Pending flags with none enabled start no entry (R34). -/
theorem raised_masked {f : Bits3} (h : s.irqs = .pending f :: rs) (hf : f &&& s.regs.ie = 0) :
    raised s = .pass { s with irqs := rs } := by
  rw [raised, if_pos hopen, h]
  exact if_pos hf

/-- Of the pending and enabled flags one gives the vector (R208). -/
theorem raised_pending {f : Bits3} (h : s.irqs = .pending f :: rs) (hf : f &&& s.regs.ie ≠ 0) :
    raised s = .run (decodeVector (selectVector (f &&& s.regs.ie))) { s with irqs := rs } := by
  rw [raised, if_pos hopen, h]
  exact if_neg hf

end

/-- With `IE = 0` an entry presented outside `Idle` is passed over (log entry 5). -/
theorem fetch_entry_disabled {v : Byte} {rest : List Item} (hie : s.regs.ie = 0)
    (hdir : s.ctx.direction ≠ .idle) (hprog : s.program = .packet (.vec v) :: rest) :
    fetch s = .pass { s with program := rest } := by
  have hheld : s.ready (decodeVector v) = false := by
    simp [State.ready, (decodeVector_entry v 0).1, isEntry_decodeVector, State.entryReady,
      State.inFlight, hie, hdir]
  simp [fetch, hprog, fetchItem, Packet.byCaller, decode, hheld]

end

/-- Settles O10: with `IE = 0` nothing is raised and a presented entry is passed over; in flight the
Caller holds, so what is raised moves. -/
theorem raisedEntries : Obligations.RaisedEntries := by
  intro s htask hnormal
  refine ⟨fun hie hprog => ?_, fun hie hprog => ?_, fun hie hdir v rest hprog => ?_⟩
  · refine step_of_fetch_pass htask ?_
    rw [fetch, hprog]
    exact raised_disabled hie
  · have hflight : s.inFlight = true := inFlight_iff.2 hie
    have hopen : (s.inFlight && s.entryReady) = true := by
      simp [State.entryReady, State.engineFree, hflight, htask, hnormal]
    have hfetch := fetch_of_held (callerReady_of_inFlight hflight) hprog
    refine ⟨fun v rs h => ?_, fun f rs h => ⟨fun hf => ?_, fun hf => ?_⟩⟩
    · exact step_of_fetch_run htask (hfetch.trans (raised_vector hopen h))
    · exact step_of_fetch_pass htask (hfetch.trans (raised_masked hopen h hf))
    · rw [step_of_fetch_run htask (hfetch.trans (raised_pending hopen h hf)),
        decodeVector_selectVector hf]
  · exact step_of_fetch_pass htask (fetch_entry_disabled hie hdir hprog)

end Sys2Proof.Machine
end

section
/-! What the steps of an operation in progress keep: the queues, with no entry begun (R211, R212);
and, for a register operation, the transfer context and `IE = 0` (43_register_protocol.md). -/

namespace Sys2Proof.Machine

/-! ### Nothing interleaves -/

/-- The event is an entry. -/
def Event.isIrq : Event → Bool
  | .irq _ => true
  | _ => false

/-- From `s` to `u` nothing presented or raised is taken, and no entry begins. -/
structure Uninterrupted (s u : State) : Prop where
  program : u.program = s.program
  irqs : u.irqs = s.irqs
  trace : ∃ evs, u.trace = s.trace ++ evs ∧ evs.any Event.isIrq = false

section

variable {s u v : State}

theorem Uninterrupted.append (h : Uninterrupted s u) {es : List Event}
    (htrace : v.trace = u.trace ++ es) (hes : es.any Event.isIrq = false)
    (hprog : v.program = u.program := by rfl) (hirqs : v.irqs = u.irqs := by rfl) :
    Uninterrupted s v := by
  obtain ⟨hp, hi, evs, htr, hevs⟩ := h
  exact ⟨hprog.trans hp, hirqs.trans hi, evs ++ es, by rw [htrace, htr, List.append_assoc],
    by rw [List.any_append, hevs, hes]; rfl⟩

theorem Uninterrupted.update (h : Uninterrupted s u) (htrace : v.trace = u.trace := by rfl)
    (hprog : v.program = u.program := by rfl) (hirqs : v.irqs = u.irqs := by rfl) :
    Uninterrupted s v :=
  h.append (es := []) (htrace.trans (List.append_nil _).symm) rfl hprog hirqs

end

/-- Only ISR_ENTRY emits `Irq` (R207), and no primitive is one. -/
theorem opsClosed_uninterrupted (s : State) : OpsClosed (Uninterrupted s) where
  pReset _ h := h.append rfl rfl
  pUnreset _ h := h.append rfl rfl
  pSetAddr _ _ h := h.append rfl rfl
  pSetCtl _ _ h := h.append rfl rfl
  pClrCtl _ _ h := h.append rfl rfl
  pSetIE _ _ h := h.append rfl rfl
  pClrIE _ _ h := h.append rfl rfl
  pWrTx _ _ h := h.append rfl rfl
  readNow _ h := h.append rfl rfl
  readBusy _ h := h.append rfl rfl
  readCtl _ h := h.append rfl rfl
  readFlags _ h := h.append rfl rfl
  readRx _ h := h.append rfl rfl
  store _ _ _ _ h := h.update
  setStarted _ _ h := h.update
  setIdle _ h := h.update
  escalate t r h := by
    refine h.append ((t.escalate_trace r).trans (List.append_assoc ..)) ?_ (by simp) (by simp)
    split <;> rfl
  signalRead _ _ h := h.append rfl rfl
  signalWrite _ _ h := h.append rfl rfl
  suspend _ _ h := h.update
  leaveIsr _ h := h.update
  setResult _ _ h := h.update
  returnResult _ _ h := h.append rfl rfl

/-- Settles O8: the step of an operation in progress runs primitives only. -/
theorem nothingInterleaves : Obligations.NothingInterleaves := by
  intro s u t htask e
  rw [step, htask] at e
  obtain ⟨hprog, hirqs, evs, htrace, hevs⟩ :=
    resumeTask_closed (opsClosed_uninterrupted s) t s u
      ⟨rfl, rfl, [], (List.append_nil _).symm, rfl⟩ e
  exact ⟨hprog, hirqs, evs, htrace, fun v hv => List.any_eq_false.1 hevs _ hv rfl⟩

/-! ### The transfer context under a register operation -/

/-- From `s` to `u` a register operation has kept the context, but for an escalation that forced
`Idle`, and no interrupt is enabled; what it still has to do is blocking. -/
structure BlockingSince (s u : State) : Prop where
  ctx : u.ctx = s.ctx ∨
    (u.ctx = { s.ctx with direction := .idle } ∧ s.faultCount < u.faultCount)
  count : s.faultCount ≤ u.faultCount
  ie : u.regs.ie = 0
  task : ∀ t, u.task = some t → t.onFail.goesOn = false ∧ t.rest.all Prim.blocking = true

/-- Appended events take no report away (R37). -/
theorem faultCount_le_of_append {u v : State} {es : List Event} (h : v.trace = u.trace ++ es) :
    u.faultCount ≤ v.faultCount := by
  simp [State.faultCount, State.faultRecord, h]

section

variable {s u v : State} {f : Frame}

theorem BlockingSince.refl (hie : s.regs.ie = 0) (htask : s.task = none) : BlockingSince s s :=
  ⟨.inl rfl, le_rfl, hie, by simp [htask]⟩

theorem BlockingSince.append (h : BlockingSince s u) {es : List Event}
    (htrace : v.trace = u.trace ++ es) (hctx : v.ctx = u.ctx := by rfl)
    (hie : v.regs.ie = u.regs.ie := by rfl) (htask : v.task = u.task := by rfl) :
    BlockingSince s v where
  ctx := by
    rw [hctx]
    exact h.ctx.imp_right fun ⟨hidle, hlt⟩ =>
      ⟨hidle, hlt.trans_le (faultCount_le_of_append htrace)⟩
  count := h.count.trans (faultCount_le_of_append htrace)
  ie := hie.trans h.ie
  task := htask ▸ h.task

theorem BlockingSince.sample (h : BlockingSince s u)
    (hv : v = u.readBusy ∨ v = u.readCtl ∨ v = u.readFlags) : BlockingSince s v := by
  rcases hv with rfl | rfl | rfl <;> exact h.append rfl

theorem BlockingSince.readNow (h : BlockingSince s u) : BlockingSince s u.readNow :=
  h.append rfl

/-- An escalation forces `Idle` and disables, with a report more (R202). -/
theorem BlockingSince.escalate (h : BlockingSince s u) (r : FaultReport) :
    BlockingSince s (u.escalate r) where
  ctx := by
    refine .inr ⟨?_, by rw [State.escalate_faultCount]; exact Nat.lt_succ_of_le h.count⟩
    rcases h.ctx with hctx | ⟨hctx, -⟩ <;> rw [State.escalate_ctx, hctx]
  count := by rw [State.escalate_faultCount]; exact Nat.le_succ_of_le h.count
  ie := by simp
  task := by simpa using h.task

theorem BlockingSince.finish (h : BlockingSince s u) (f : Frame) (r : OpResult) :
    BlockingSince s (finish f r u) := by
  simp only [Machine.finish]
  split
  · exact h.append rfl
  · exact h.append (es := []) (List.append_nil _).symm
  · exact h.append (es := []) (List.append_nil _).symm

/-- A poll of a wait whose failure ends the operation, and what follows it. -/
theorem BlockingSince.afterPoll {rest : List Prim} (h : BlockingSince s u) (w : Wait) (t0 : Word32)
    {onFail : OnFail} (hfail : onFail.goesOn = false) (hrest : rest.all Prim.blocking = true)
    (ih : ∀ v, BlockingSince s v → BlockingSince s (runOps rest f v)) :
    BlockingSince s (afterPoll w t0 onFail rest f (runOps rest) (pollWait w t0 u)) := by
  have failed (o : OutcomeCode) (v : State) (hv : BlockingSince s v) :
      BlockingSince s (Machine.afterPoll w t0 onFail rest f (runOps rest) (.failed o, v)) := by
    cases onFail with
    | ret | retAs | retFalse => exact hv.finish f _
    | record | ignore => cases hfail
  rcases pollWait_cases w t0 u with ⟨q, e, hq⟩ | ⟨q, e, hq, -⟩ | ⟨q, r, e, hq, -⟩ | ⟨m, -, -, e⟩ <;>
    rw [e]
  · exact ih q (h.sample hq)
  · obtain ⟨hctx, hcount, hie, -⟩ := (h.sample hq).readNow
    exact ⟨hctx, hcount, hie, by rintro t ⟨⟩; exact ⟨hfail, hrest⟩⟩
  · exact failed _ _ ((h.sample hq).readNow.escalate r)
  · exact failed _ _ ((h.sample (.inr (.inr rfl))).escalate _)

/-- A blocking list keeps the context and enables nothing. -/
theorem BlockingSince.runOps (ps : List Prim) : ∀ {f : Frame} {u : State},
    ps.all Prim.blocking = true → BlockingSince s u → BlockingSince s (runOps ps f u) := by
  induction ps with
  | nil =>
    intro f u _ h
    rcases endOfOps_eq f u with e | e <;> rw [runOps_nil, e]
    · exact h
    · exact h.append (es := []) (List.append_nil _).symm
  | cons p ps ih =>
    intro f u hps h
    simp only [List.all_cons, Bool.and_eq_true] at hps
    obtain ⟨hp, hps⟩ := hps
    cases p with
    | reset => exact ih hps (h.append (v := u.pReset) rfl rfl h.ie.symm)
    | unreset => exact ih hps (h.append (v := u.pUnreset) rfl)
    | setAddr a => exact ih hps (h.append (v := u.pSetAddr a) rfl)
    | setCtl m => exact ih hps (h.append (v := u.pSetCtl m) rfl)
    | clrCtl m => exact ih hps (h.append (v := u.pClrCtl m) rfl)
    | wrTx b => exact ih hps (h.append (v := u.pWrTx b) rfl)
    | wrTxFrom buf i => exact ih hps (h.append (v := u.pWrTx (memRead u.mem buf i)) rfl)
    | rdRx => exact ih hps (h.append (v := u.readRx) rfl)
    | store buf i =>
      exact ih hps (h.append (v := u.setMem (memWrite u.mem buf i f.last)) (es := [])
        (List.append_nil _).symm)
    | wait w onFail =>
      obtain ⟨hfail, -⟩ : onFail.goesOn = false ∧ onFail.honest = true := by
        simpa [Prim.blocking] using hp
      rw [runOps_wait]
      exact h.readNow.afterPoll w _ hfail hps fun _ hv => ih hps hv
    | ret | retByte | retHalf => exact h.finish f _
    | retPresent => exact (h.sample (.inr (.inr rfl))).finish f _
    | _ => cases hp

/-- A register operation starts so. -/
theorem blockingSince_exec {i : Instr} (hi : isRegisterOp i = true) (hready : s.callerReady = true)
    (e : exec i s = .next u) : BlockingSince s u := by
  obtain ⟨ps, hscript, -⟩ := fixedScript_registerOp hi
  have htask : s.task = none :=
    task_of_ready (ready_of_callerReady (isCaller_of_fixedScript hscript) hready)
  have hstart : BlockingSince s s := .refl (ie_of_callerReady hready) htask
  rcases exec_fixedScript_ready hscript hready e with rfl | rfl
  · exact hstart.finish callerFrame _
  · exact hstart.runOps ps (fixedScript_blocking hscript).2.1

/-- A resumed step goes on so. -/
theorem BlockingSince.step (h : BlockingSince s u) (hbusy : u.task ≠ none)
    (e : step u = .next v) : BlockingSince s v := by
  obtain ⟨t, ht⟩ := Option.ne_none_iff_exists'.1 hbusy
  obtain ⟨hfail, hrest⟩ := h.task t ht
  have hresumed : BlockingSince s (u.setTask none) := ⟨h.ctx, h.count, h.ie, by simp⟩
  rw [step_of_task ht (inBounds_of_step ht e)] at e
  cases e
  exact hresumed.afterPoll _ _ hfail hrest fun _ hv => hv.runOps _ hrest

end

/-- Settles O45: a register operation is a list of the Caller, which asks `callerReady` first; from
its start on every step keeps `BlockingSince`. -/
theorem registerOpsLeaveTheContext : Obligations.RegisterOpsLeaveTheContext := by
  intro s i hi
  refine ⟨fun hheld => ?_, fun hready u k v e hbusy hrun => ?_⟩
  · cases i with
    | present | read8 | read16 | readblock | write8 | write16 | writeblock =>
      exact asCaller_held hheld
    | _ => cases hi
  · have hend : BlockingSince s v :=
      inProgress_induction (fun _ _ h hbusy e => h.step hbusy e) k
        (blockingSince_exec hi hready e) hbusy hrun
    exact ⟨hend.ctx, hend.ie⟩

end Sys2Proof.Machine
end

section
/-! The sink (R204): it grows by the reports of the step unless it is null, and nothing else in a
step depends on it. -/

namespace Sys2Proof.Machine

/-! ### The sink receives every report -/

theorem reportsOf_append (es fs : List Event) :
    reportsOf (es ++ fs) = reportsOf es ++ reportsOf fs := by
  induction es with
  | nil => rfl
  | cons e es ih => cases e <;> simp [reportsOf, ih]

/-- From `s` to `u` the sink, if there is one, has received the reports of the events. -/
def Delivered (s u : State) : Prop :=
  u.par = s.par ∧ ∃ evs, u.trace = s.trace ++ evs ∧
    u.sink = if s.par.sinkNull then s.sink else s.sink ++ reportsOf evs

section

variable {s u v : State}

/-- An update that emits no report and leaves the sink alone. -/
theorem Delivered.append (h : Delivered s u) {es : List Event} (htrace : v.trace = u.trace ++ es)
    (hes : reportsOf es = []) (hpar : v.par = u.par := by rfl) (hsink : v.sink = u.sink := by rfl) :
    Delivered s v := by
  obtain ⟨hp, evs, htr, hs⟩ := h
  refine ⟨hpar.trans hp, evs ++ es, by rw [htrace, htr, List.append_assoc], ?_⟩
  rw [hsink, hs, reportsOf_append, hes, List.append_nil]

theorem Delivered.update (h : Delivered s u) (htrace : v.trace = u.trace := by rfl)
    (hpar : v.par = u.par := by rfl) (hsink : v.sink = u.sink := by rfl) : Delivered s v :=
  h.append (es := []) (htrace.trans (List.append_nil _).symm) rfl hpar hsink

/-- An escalation emits one report and delivers it (R202, R204). -/
theorem Delivered.escalate (h : Delivered s u) (r : FaultReport) : Delivered s (u.escalate r) := by
  obtain ⟨hp, evs, htr, hs⟩ := h
  have hreports : reportsOf (escalation u r) = [r] := by
    simp only [escalation]
    split <;> rfl
  refine ⟨(u.escalate_par r).trans hp, evs ++ escalation u r, by simp [htr, escalation], ?_⟩
  rw [State.escalate_sink, hp, hs, reportsOf_append, hreports]
  split <;> simp

end

/-- The escalation alone reports, and it alone delivers. -/
theorem stepClosed_delivered (s : State) : StepClosed (Delivered s) where
  pReset _ h := h.append rfl rfl
  pUnreset _ h := h.append rfl rfl
  pSetAddr _ _ h := h.append rfl rfl
  pSetCtl _ _ h := h.append rfl rfl
  pClrCtl _ _ h := h.append rfl rfl
  pSetIE _ _ h := h.append rfl rfl
  pClrIE _ _ h := h.append rfl rfl
  pWrTx _ _ h := h.append rfl rfl
  readNow _ h := h.append rfl rfl
  readBusy _ h := h.append rfl rfl
  readCtl _ h := h.append rfl rfl
  readFlags _ h := h.append rfl rfl
  readRx _ h := h.append rfl rfl
  store _ _ _ _ h := h.update
  setStarted _ _ h := h.update
  setIdle _ h := h.update
  escalate _ r h := h.escalate r
  signalRead _ _ h := h.append rfl rfl
  signalWrite _ _ h := h.append rfl rfl
  suspend _ _ h := h.update
  leaveIsr _ h := h.update
  setResult _ _ h := h.update
  returnResult _ _ h := h.append rfl rfl
  recordCtx _ _ _ _ _ _ h := h.update
  moveByte _ h := h.update
  enterIsr _ _ h := h.append rfl rfl
  initialise t h := h.append t.initialise_trace rfl
  resume _ h := h.update
  boundary _ _ _ _ h := h.update

/-! ### What does not depend on the sink

`SinkBlind g`: hiding the sink before `g` makes no difference to what `g` leaves, the sink apart.
Most updates commute with `hideSink` by definition; the escalation reads the sink, to add to it. -/

/-- The update `g` writes the same, the sink apart, whatever the sink is. -/
def SinkBlind (g : State → State) : Prop := ∀ s, hideSink (g (hideSink s)) = hideSink (g s)

theorem SinkBlind.congr {g : State → State} (hg : SinkBlind g) {x y : State}
    (h : hideSink x = hideSink y) : hideSink (g x) = hideSink (g y) := by
  rw [← hg x, h, hg y]

theorem sinkBlind_escalate (r : FaultReport) : SinkBlind (·.escalate r) := by
  intro s
  simp only [escalate_eq]
  rfl

theorem sinkBlind_finish (f : Frame) (r : OpResult) : SinkBlind (finish f r) := by
  intro s
  simp only [finish]
  split <;> rfl

theorem sinkBlind_endOfOps (f : Frame) : SinkBlind (endOfOps f) := by
  intro s
  simp only [endOfOps]
  split <;> rfl

theorem verdict_hideSink (s : State) (w : Wait) : (hideSink s).verdict w = s.verdict w := by
  rcases w with (_ | _ | _) | m <;> rfl

theorem timeoutReport_hideSink (s : State) (w : Wait) :
    (hideSink s).timeoutReport w = s.timeoutReport w := by
  cases w <;> rfl

theorem sampleWait_hideSink (s : State) (w : Wait) :
    (hideSink s).sampleWait w = hideSink (s.sampleWait w) := by
  rcases w with (_ | _ | _) | m <;> rfl

/-- One poll finds the same. -/
theorem pollWait_hideSink (w : Wait) (t0 : Word32) (s : State) :
    (pollWait w t0 (hideSink s)).1 = (pollWait w t0 s).1 ∧
      hideSink (pollWait w t0 (hideSink s)).2 = hideSink (pollWait w t0 s).2 := by
  rw [pollWait_eq, pollWait_eq, verdict_hideSink, sampleWait_hideSink, timeoutReport_hideSink]
  generalize s.sampleWait w = x
  cases s.verdict w with
  | ready => exact ⟨rfl, rfl⟩
  | nak r => exact ⟨rfl, sinkBlind_escalate r x⟩
  | pending =>
    have hbudget : (hideSink x).par.timeoutBudget = x.par.timeoutBudget := rfl
    have hnow : (hideSink x).nowAt 0 = x.nowAt 0 := rfl
    simp only [afterSample, hbudget, hnow]
    split
    · exact ⟨rfl, sinkBlind_escalate _ x.readNow⟩
    · exact ⟨rfl, rfl⟩

/-- What follows a poll, when what it goes on with is blind. -/
theorem sinkBlind_afterPoll (w : Wait) (t0 : Word32) (onFail : OnFail) (rest : List Prim)
    (f : Frame) {k : Frame → State → State} (hk : ∀ f, SinkBlind (k f)) :
    SinkBlind fun s => afterPoll w t0 onFail rest f k (pollWait w t0 s) := by
  intro s
  obtain ⟨hpoll, hstate⟩ := pollWait_hideSink w t0 s
  simp only [afterPoll, hpoll]
  cases (pollWait w t0 s).1 with
  | done => exact (hk f).congr hstate
  | again e =>
    have hsuspend : SinkBlind (·.setTask (some ⟨w, t0, e, onFail, rest, f⟩)) := fun _ => rfl
    exact hsuspend.congr hstate
  | failed o =>
    cases onFail with
    | ret | retAs | retFalse => exact (sinkBlind_finish f _).congr hstate
    | record | ignore => exact (hk _).congr hstate

theorem sinkBlind_runOps (ps : List Prim) : ∀ f, SinkBlind (runOps ps f) := by
  induction ps with
  | nil => exact sinkBlind_endOfOps
  | cons p ps ih =>
    intro f s
    cases p with
    | reset => exact ih f s.pReset
    | unreset => exact ih f s.pUnreset
    | setAddr a => exact ih f (s.pSetAddr a)
    | setCtl m => exact ih f (s.pSetCtl m)
    | clrCtl m => exact ih f (s.pClrCtl m)
    | setIE m => exact ih f (s.pSetIE m)
    | clrIE m => exact ih f (s.pClrIE m)
    | wrTx b => exact ih f (s.pWrTx b)
    | wrTxFrom buf i => exact ih f (s.pWrTx (memRead s.mem buf i))
    | rdRx => exact ih { f with prev := f.last, last := s.rdRxAt 0 } s.readRx
    | store buf i => exact ih f (s.setMem (memWrite s.mem buf i f.last))
    | setStarted b => exact ih f (s.setStarted b)
    | setIdle => exact ih f (s.setDirection .idle)
    | escalate r => exact (ih f).congr (sinkBlind_escalate r s)
    | signalRead => exact ih f (s.signalRead f.outcome)
    | signalWrite => exact ih f (s.signalWrite f.outcome)
    | wait w onFail => exact sinkBlind_afterPoll w (s.nowAt 0) onFail ps f ih s.readNow
    | ret | retByte | retHalf => exact sinkBlind_finish f _ s
    | retPresent => exact sinkBlind_finish f _ s.readFlags

/-! ### Operations -/

/-- An outcome, its sink hidden. -/
def hideOutcome : Host.Outcome State Fault Refusal → Host.Outcome State Fault Refusal
  | .next s => .next (hideSink s)
  | .fault f => .fault f
  | .refused r => .refused r

theorem sameButSink_iff (o p : Host.Outcome State Fault Refusal) :
    sameButSink o p ↔ hideOutcome o = hideOutcome p := by
  cases o <;> cases p <;> simp [sameButSink, hideOutcome]

/-- The operation or step `m` ends the same, the sink apart, whatever the sink is. -/
def SinkFree (m : State → Host.Outcome State Fault Refusal) : Prop :=
  ∀ s, hideOutcome (m (hideSink s)) = hideOutcome (m s)

theorem SinkBlind.next {g : State → State} (hg : SinkBlind g) : SinkFree fun s => .next (g s) :=
  fun s => congrArg Host.Outcome.next (hg s)

theorem sinkFree_asCaller {fits : Bool} {body : State → State} (h : SinkBlind body) :
    SinkFree fun s => asCaller s fits (body s) := by
  intro s
  have hready : (hideSink s).callerReady = s.callerReady := rfl
  simp only [asCaller, hready]
  split
  · split
    · exact h.next s
    · rfl
  · rfl

theorem sinkFree_asPrimitive {body : State → State} (h : SinkBlind body) :
    SinkFree fun s => asPrimitive s (body s) := by
  intro s
  have hready : (hideSink s).engineFree = s.engineFree := rfl
  simp only [asPrimitive, hready]
  split
  · exact h.next s
  · rfl

theorem sinkFree_asEntry {v : Byte} {body : State → Host.Outcome State Fault Refusal}
    (h : SinkFree body) : SinkFree fun s => asEntry s (body (s.enterIsr v)) := by
  intro s
  have hready : (hideSink s).entryReady = s.entryReady := rfl
  simp only [asEntry, hready]
  split
  · exact h (s.enterIsr v)
  · rfl

/-- A transfer of the Caller, after its argument check (R111, R112, R178). -/
theorem sinkFree_transfer {n : Nat} {buf : BufRef} {body : State → State} (h : SinkBlind body) :
    SinkFree fun s => asCaller s (fitsCapacity n buf)
      (if badArgument n buf then s.returnResult (.outcome .invalidArgument) else body s) := by
  refine sinkFree_asCaller fun s => ?_
  split
  · rfl
  · exact h s

theorem sinkBlind_inconsistent (v : Byte) : SinkBlind (inconsistent v) := fun s =>
  SinkBlind.congr (g := State.leaveIsr) (fun _ => rfl)
    (sinkBlind_escalate (inconsistentReport v s) s)

theorem sinkBlind_isrNak : SinkBlind isrNak := by
  intro s
  have hctx : (hideSink s).ctx = s.ctx := rfl
  simp only [isrNak, hctx]
  split
  · exact sinkBlind_inconsistent 0x01 s
  · exact sinkBlind_runOps (nakOps s) _ s

theorem sinkFree_isrTxrdy : SinkFree isrTxrdy := by
  intro s
  have hctx : (hideSink s).ctx = s.ctx := rfl
  simp only [isrTxrdy, hctx]
  split
  · exact (sinkBlind_inconsistent 0x03).next s
  · split
    · split <;> rfl
    · exact (sinkBlind_runOps (txFinalizeOps s.par s.ctx.flags) _).next s

theorem rxByte_hideSink (a : Nat) (s : State) : rxByte a (hideSink s) = hideSink (rxByte a s) := by
  simp only [rxByte_eq]
  rfl

theorem sinkFree_isrRxrdy : SinkFree isrRxrdy := by
  intro s
  have hctx : (hideSink s).ctx = s.ctx := rfl
  simp only [isrRxrdy, hctx, rxByte_hideSink]
  split
  · exact (sinkBlind_inconsistent 0x02).next s
  · split
    · rfl
    · split
      · exact (sinkBlind_runOps (rxFinalizeOps s.par s.ctx.flags) _).next (rxByte _ s)
      · rfl

theorem sinkFree_exec (i : Instr) : SinkFree (exec i) := by
  have script (ps : List Prim) (f : Frame) : SinkBlind (runOps ps f) := sinkBlind_runOps ps f
  cases i with
  | read client flags addr len buf =>
    exact sinkFree_transfer fun s => script (readOps s.ctx.started flags addr len.toNat) callerFrame
      (s.recordCtx .reading buf len.toNat flags addr)
  | write client flags addr len buf =>
    exact sinkFree_transfer fun s => script (writeOps s.ctx.started flags addr) callerFrame
      (s.recordCtx .writing buf len.toNat flags addr)
  | readblock | writeblock => exact sinkFree_transfer (script _ _)
  | present | read8 | read16 | write8 | write16 => exact sinkFree_asCaller (script _ _)
  | waitClears | waitFlag | checkNotBusy | regPrefix => exact sinkFree_asPrimitive (script _ _)
  | escalate => exact sinkFree_asPrimitive (sinkBlind_escalate _)
  | init => exact sinkFree_asPrimitive fun _ => rfl
  | vecNone => exact sinkFree_asEntry (body := fun s => .next s.leaveIsr) fun _ => rfl
  | vecNak => exact sinkFree_asEntry sinkBlind_isrNak.next
  | vecRxrdy => exact sinkFree_asEntry sinkFree_isrRxrdy
  | vecTxrdy => exact sinkFree_asEntry sinkFree_isrTxrdy
  | vecOther vec =>
    have hbody : SinkBlind fun s => (s.escalate (unexpectedReport vec s)).leaveIsr := fun s =>
      SinkBlind.congr (g := State.leaveIsr) (fun _ => rfl)
        (sinkBlind_escalate (unexpectedReport vec s) s)
    exact sinkFree_asEntry (v := vec) hbody.next

theorem sinkFree_resumeTask (t : Task) : SinkFree (resumeTask t) := by
  intro s
  simp only [resumeTask]
  split
  · exact (sinkBlind_afterPoll t.wait t.t0 t.onFail t.rest t.frame (sinkBlind_runOps t.rest)).next
      (s.setTask none)
  · rfl

/-! ### What moves next -/

/-- What the next step does, the sink hidden. -/
def Fetched.hideSink : Fetched → Fetched
  | .run i s => .run i (Machine.hideSink s)
  | .pass s => .pass (Machine.hideSink s)
  | .stop f => .stop f
  | .refuse r => .refuse r

theorem raised_hideSink (s : State) : raised (hideSink s) = (raised s).hideSink := by
  have hflight : (hideSink s).inFlight = s.inFlight := rfl
  have hready : (hideSink s).entryReady = s.entryReady := rfl
  have hirqs : (hideSink s).irqs = s.irqs := rfl
  have hregs : (hideSink s).regs = s.regs := rfl
  simp only [raised, hflight, hready, hirqs, hregs]
  split
  · split
    · rfl
    · rfl
    · split <;> rfl
  · rfl

theorem fetchItem_hideSink (s : State) (rest : List Item) (it : Item) :
    fetchItem (hideSink s) rest it = (fetchItem s rest it).hideSink := by
  have hrace : ∀ a, races (hideSink s) a = races s a := fun _ => rfl
  cases it with
  | store a b =>
    simp only [fetchItem, hrace]
    split <;> rfl
  | load a =>
    simp only [fetchItem, hrace]
    split <;> rfl
  | packet p =>
    have hcaller : (hideSink s).callerReady = s.callerReady := rfl
    have hpar : (hideSink s).par.lenBits = s.par.lenBits := rfl
    simp only [fetchItem, hcaller, hpar]
    split
    · exact raised_hideSink s
    · split
      · rfl
      · rename_i i _
        have hready : (hideSink s).ready i = s.ready i := rfl
        rw [hready]
        split <;> rfl

/-- What moves next does not depend on the sink. -/
theorem fetch_hideSink (s : State) : fetch (hideSink s) = (fetch s).hideSink := by
  have hprog : (hideSink s).program = s.program := rfl
  simp only [fetch, hprog]
  split
  · exact raised_hideSink s
  · exact fetchItem_hideSink s _ _

theorem sinkFree_step : SinkFree step := by
  intro s
  have htask : (hideSink s).task = s.task := rfl
  simp only [step, htask, fetch_hideSink]
  split
  · exact sinkFree_resumeTask _ s
  · cases fetch s with
    | run i s' => exact sinkFree_exec i s'
    | pass s' => rfl
    | stop f => rfl
    | refuse r => rfl

/-- Settles O47: no step destroys `Delivered`; and either step is that of the state with its sink
hidden. -/
theorem sinkOnlyRecords : Obligations.SinkOnlyRecords := by
  refine ⟨fun s u e => ?_, fun s t h => ?_⟩
  · have hstart : Delivered s s := ⟨rfl, [], (List.append_nil _).symm, by simp [reportsOf]⟩
    exact (step_closed (stepClosed_delivered s) hstart e).2
  · rw [sameButSink_iff, ← sinkFree_step s, h, sinkFree_step t]

end Sys2Proof.Machine
end

section
/-! Reset and hazards (R241, R251): what INIT leaves; and a wait whose clock makes progress is over
within as many polls as the clock takes to show the budget used. -/

namespace Sys2Proof.Machine

/-- Settles O48: nothing is in progress, so INIT runs, and every field is read off `initialise`. -/
theorem initEffect : Obligations.InitEffect := by
  intro s hfree
  have hrun : exec .init s = .next s.initialise := if_pos hfree
  refine ⟨s.initialise, hrun, ?_⟩
  simp [initCtx]

/-! ### The primitives left after a wait (R251) -/

/-- No operation is in progress, or one with fewer than `n` primitives left after its wait. -/
def FewerLeft (n : Nat) (u : State) : Prop := ∀ t, u.task = some t → t.rest.length < n

theorem FewerLeft.of_none {n : Nat} {u : State} (h : u.task = none) : FewerLeft n u := by
  simp [FewerLeft, h]

theorem FewerLeft.succ {n : Nat} {u : State} (h : FewerLeft n u) : FewerLeft (n + 1) u :=
  fun t ht => Nat.lt_succ_of_lt (h t ht)

/-- What follows a poll has fewer than `n` primitives left if going on has, and staying in the wait
has. -/
theorem fewerLeft_afterPoll {n : Nat} {w : Wait} {t0 : Word32} {onFail : OnFail} {ps : List Prim}
    {f : Frame} {k : Frame → State → State} {p : Poll × State} (hp : p.2.task = none)
    (hstay : ∀ e, p.1 = .again e → ps.length < n)
    (hgo : ∀ f s, s.task = none → FewerLeft n (k f s)) :
    FewerLeft n (afterPoll w t0 onFail ps f k p) := by
  obtain ⟨poll, s⟩ := p
  cases poll with
  | done => exact hgo f s hp
  | again e =>
    rintro t ⟨⟩
    exact hstay e rfl
  | failed o =>
    cases onFail with
    | ret | retAs | retFalse => exact .of_none ((finish_task ..).trans hp)
    | record | ignore => exact hgo _ s hp

/-- Running primitives stops at a wait among them, and keeps only those after it. -/
theorem fewerLeft_runOps (ps : List Prim) : ∀ (f : Frame) (s : State), s.task = none →
    FewerLeft ps.length (runOps ps f s) := by
  induction ps with
  | nil => exact fun f s h => .of_none ((endOfOps_task f s).trans h)
  | cons p ps ih =>
    intro f s h
    have goesOn {g : Frame} {u : State} (e : runOps (p :: ps) f s = runOps ps g u)
        (hu : u.task = none) : FewerLeft (ps.length + 1) (runOps (p :: ps) f s) :=
      e ▸ (ih g u hu).succ
    cases p with
    | wait w onFail =>
      exact fewerLeft_afterPoll ((pollWait_task ..).trans h) (fun _ _ => Nat.lt_succ_self _)
        fun f s h => (ih f s h).succ
    | ret | retByte | retHalf | retPresent => exact .of_none ((finish_task ..).trans h)
    | escalate r => exact goesOn rfl ((s.escalate_task r).trans h)
    | _ => exact goesOn rfl h

section

variable {s : State} {t : Task}

theorem fewerLeft_afterFailure (o : OutcomeCode) (h : s.task = none) :
    FewerLeft t.rest.length (afterFailure t o s) :=
  fewerLeft_afterPoll h (fun _ e => nomatch e) (fewerLeft_runOps t.rest)

/-- A poll that the sample or the clock ends gets past the wait (R131, R132). -/
theorem step_fewerLeft (htask : s.task = some t) (hin : t.rest.all Prim.inBounds = true)
    (hclock : (s.setTask none).verdict t.wait = .pending →
      s.par.timeoutBudget ≤ s.nowAt 0 - t.t0) :
    ∃ u, step s = .next u ∧ FewerLeft t.rest.length u := by
  cases hv : (s.setTask none).verdict t.wait with
  | ready => exact ⟨_, step_ready htask hin hv, fewerLeft_runOps _ _ _ (by simp)⟩
  | nak r => exact ⟨_, step_nak htask hin hv, fewerLeft_afterFailure _ (by simp)⟩
  | pending =>
    exact ⟨_, step_timeout htask hin hv (hclock hv), fewerLeft_afterFailure _ (by simp)⟩

/-- Any other poll stays in the wait, and the clock is one answer nearer to its progress. -/
theorem step_clockProgress {k : Nat} (htask : s.task = some t)
    (hin : t.rest.all Prim.inBounds = true) (hpending : (s.setTask none).verdict t.wait = .pending)
    (hbudget : s.nowAt 0 - t.t0 < s.par.timeoutBudget) (hclock : clockProgress s t (k + 1)) :
    ∃ u t', step s = .next u ∧ u.task = some t' ∧ t'.rest = t.rest ∧ clockProgress u t' k :=
  ⟨_, _, step_again htask hin hpending hbudget, rfl, rfl, by
    simpa [clockProgress, Nat.add_comm] using hclock⟩

end

/-- Settles O23, by induction on the answers the clock still has to give: a poll below the budget
takes one of them, and any other gets past the wait. -/
theorem progressingClockEndsTheWait : Obligations.ProgressingClockEndsTheWait := by
  intro s t k
  induction k generalizing s t with
  | zero =>
    intro htask hin hclock
    obtain ⟨u, hstep, hfewer⟩ := step_fewerLeft htask hin fun _ => hclock
    exact ⟨0, u, le_rfl, run_succ hstep 0, hfewer⟩
  | succ k ih =>
    intro htask hin hclock
    by_cases hpoll : (s.setTask none).verdict t.wait = .pending →
        s.par.timeoutBudget ≤ s.nowAt 0 - t.t0
    · obtain ⟨u, hstep, hfewer⟩ := step_fewerLeft htask hin hpoll
      exact ⟨0, u, Nat.zero_le _, run_succ hstep 0, hfewer⟩
    · obtain ⟨hpending, hbudget⟩ := Classical.not_imp.1 hpoll
      obtain ⟨v, t', hstep, htask', hrest, hclock'⟩ :=
        step_clockProgress htask hin hpending (BitVec.not_le.1 hbudget) hclock
      obtain ⟨j, u, hj, hrun, hfewer⟩ := ih v t' htask' (hrest ▸ hin) hclock'
      exact ⟨j + 1, u, Nat.succ_le_succ hj, (run_succ hstep _).trans hrun, hrest ▸ hfewer⟩

end Sys2Proof.Machine
end
